-- ==== Sys2Proof/Word.lean ====
section
/-! DEFINITION. The words of the Nacigo 4120: bytes of the hall line, and the two 32-bit quantities. -/

namespace Sys2Proof

/-- One byte of a frame on the hall line (9.1). -/
abbrev Byte := BitVec 8

/-- A value of the hall clock: whole seconds in 0 to 2^32 - 1, wrapping (R172). -/
abbrev Time := BitVec 32

/-- A tag code as read from a bag tag: sailing key 31-24, issue 23-20, index 19-0 (9.1.2). -/
abbrev TagCode := BitVec 32

end Sys2Proof
end

