-- ==== Sys2Proof/Config.lean ====
section
/-! DEFINITION. What the part fixes (capacities, defaults) and the values the manual leaves open. -/

namespace Sys2Proof.Config

/-- Node address of the hall supervisor (R165). -/
def supervisorNode : Byte := 126

/-- The destination that addresses all nodes (9.1.1). -/
def allNodes : Byte := 127

/-- Most payload bytes of a frame (9.1.1, R164). -/
def maxPayload : Nat := 56

/-- Places of the supervisor transmit queue (R168). -/
def supPlaces : Nat := 64

/-- A report or forwarded frame is queued while the supervisor queue holds fewer than this (R168). -/
def supReportPlaces : Nat := 60

/-- Places of the field transmit queue (R169). -/
def fldPlaces : Nat := 32

/-- A forwarded frame is queued while the field queue holds fewer than this (R169). -/
def fldForwardPlaces : Nat := 24

/-- Entries of the manifest store (1.2). -/
def storeSize : Nat := 65536

/-- Entries of one station's pending queue (R60). -/
def pendingPlaces : Nat := 4

/-- Open records of the stray table (R147). -/
def strayPlaces : Nat := 192

/-- Items of the encode queue (R154). -/
def encodePlaces : Nat := 32

/-- Blocks of one cabin plan (R25). -/
def planPlaces : Nat := 64

/-- Steps of one step list (R131). -/
def stepPlaces : Nat := 32

/-- Chutes of one group's chute set (R40). -/
def chuteSetPlaces : Nat := 4

/-- Records of the cart pool, ids 1 to this (6.4). -/
def cartRecords : Nat := 255

/-- Where counts 0-65,535 that stop do stop (R35, R150, R164). -/
def countStop : Nat := 65535

/-- Where a lap count stops (R84, R85). -/
def lapStop : Nat := 15

/-- Free value: whether the sending of a nonempty queue's head has begun when RESTART is taken.
R171 makes the outcome depend on it and no event of the table tells it: a matter of line timing. -/
opaque headBegun : Nat → Bool

/-- Free value: a released count after a call that finds it at 255. The field's range is 0-255 (7.3)
and the worked sequence of 7.6 says that the count of a quota-0 step has no limit. -/
opaque releasedPast255 : Nat → Fin 256

end Sys2Proof.Config
end

