-- ==== Sys2Proof/Syntax.lean ====
section
/-! DEFINITION. The commands of the block: one constructor per row of spec/opcode_table.json.
A row that is a frame carries the frame's source node and its payload bytes as received; a row that is
an event of the loop lines carries the level of OCC during it; a row that one block hands another
carries the point's owner and the tray it names. -/

namespace Sys2Proof

/-- The two ports of the hall line (chapter 9). -/
inductive Port where
  | supervisor
  | field
  deriving DecidableEq, Repr

/-- A good frame less its start byte, length and CRC, which its other fields fix (9.1.1). -/
structure Frame where
  dst : Byte
  src : Byte
  kind : Byte
  payload : List Byte
  deriving DecidableEq, Repr

/-- The characters received between two idles, and whether each had its stop bit (R163). -/
structure RxRun where
  bytes : List Byte
  stopBits : Bool
  deriving DecidableEq, Repr

/-- One command of the block. `src` is the frame's source node and `p` its payload. -/
inductive Instr where
  /-- RESET pin or power-up; the levels of ADDR[1:0] and LOOP_RUN as it ends (R165, R174). -/
  | powerOnReset (addr : BitVec 2) (loopRun : Bool)
  | frameCheckFailed (port : Port) (rx : RxRun)
  /-- A good frame received on `port` for another node. -/
  | frameForward (port : Port) (f : Frame)
  | frameSent (port : Port)
  | badKind (src kind : Byte) (p : List Byte)
  | status (src : Byte) (p : List Byte)
  | setClock (src : Byte) (p : List Byte)
  | restart (src : Byte) (p : List Byte)
  | sortMode (src : Byte) (p : List Byte)
  | massLimits (src : Byte) (p : List Byte)
  | partSettings (src : Byte) (p : List Byte)
  | layoutSet (src : Byte) (p : List Byte)
  | trayRead (src : Byte) (p : List Byte)
  | stationSet (src : Byte) (p : List Byte)
  | chuteSet (src : Byte) (p : List Byte)
  | chuteService (src : Byte) (p : List Byte)
  | chuteBind (src : Byte) (p : List Byte)
  | chuteUnbind (src : Byte) (p : List Byte)
  | chuteRead (src : Byte) (p : List Byte)
  | groupSet (src : Byte) (p : List Byte)
  | groupDelete (src : Byte) (p : List Byte)
  | groupRead (src : Byte) (p : List Byte)
  | sailingDefine (src : Byte) (p : List Byte)
  | sailingStateOpen (src : Byte) (p : List Byte)
  | sailingStateFinal (src : Byte) (p : List Byte)
  | regionInit (src : Byte) (p : List Byte)
  | sailingClose (src : Byte) (p : List Byte)
  | blockPut (src : Byte) (p : List Byte)
  | blockDelete (src : Byte) (p : List Byte)
  | planClear (src : Byte) (p : List Byte)
  | planCommit (src : Byte) (p : List Byte)
  | entryPut (src : Byte) (p : List Byte)
  | cabinChange (src : Byte) (p : List Byte)
  | holdSet (src : Byte) (p : List Byte)
  | holdClear (src : Byte) (p : List Byte)
  | withdraw (src : Byte) (p : List Byte)
  | entryRead (src : Byte) (p : List Byte)
  | classSet (src : Byte) (p : List Byte)
  | strayRead (src : Byte) (p : List Byte)
  | strayClose (src : Byte) (p : List Byte)
  | queueRead (src : Byte) (p : List Byte)
  | cartClose (src : Byte) (p : List Byte)
  | cartRead (src : Byte) (p : List Byte)
  | stepPut (src : Byte) (p : List Byte)
  | stepClear (src : Byte) (p : List Byte)
  | seqStart (src : Byte) (p : List Byte)
  | seqStop (src : Byte) (p : List Byte)
  | inductionReport (src : Byte) (p : List Byte)
  | launched (src : Byte) (p : List Byte)
  | launchFailed (src : Byte) (p : List Byte)
  | bagRemoved (src : Byte) (p : List Byte)
  | encodeTaken (src : Byte) (p : List Byte)
  | dropSeen (src : Byte) (p : List Byte)
  | tiltFault (src : Byte) (p : List Byte)
  | chuteBlocked (src : Byte) (p : List Byte)
  | chuteClear (src : Byte) (p : List Byte)
  | cartPlaced (src : Byte) (p : List Byte)
  | liftReady (src : Byte) (p : List Byte)
  | cartAboard (src : Byte) (p : List Byte)
  | cartRefused (src : Byte) (p : List Byte)
  | unknownKind (src kind : Byte) (p : List Byte)
  | loopRunRise
  | loopRunFall
  /-- A pulse of LOOP_PULSE, with the level of OCC at it. -/
  | encoderPulse (occ : Bool)
  /-- The pulse at which the accumulator reaches the divisor. -/
  | loopAdvance (occ : Bool)
  /-- A rise of HOME, with the level of OCC while the counts it steps are taken. -/
  | homeRise (occ : Bool)
  | homeMissed
  | windowClose (chute tray : Nat)
  | launchClose (station tray : Nat)
  | lapLimit (tray : Nat)
  | strayRiding (tray : Nat)
  | hallClockAdvance
  | swapOverdue (chute : Nat)
  | batchEvent (slot : Nat)
  | encodeNext
  | regionInitStep
  | regionInitComplete
  | planCommitStep
  | planCommitComplete
  | sailingCloseStep
  | sailingCloseComplete
  | firstIdle (port : Port)
  deriving DecidableEq, Repr

end Sys2Proof
end

