-- ==== Sys2Proof/Decode.lean ====
section
/-! DEFINITION. The opcode table of the 4120 gives no row any bits: its commands are frames, pin events
and internal events, and no word spells one. -/

namespace Sys2Proof

/-- The command a table word spells: none, since no row of the table has bits. -/
def decodeTableWord (_nbits _w : Nat) : Option Instr := none

end Sys2Proof
end

