-- ==== Sys2Proof/Machine/Table.lean ====
section
/-! DEFINITION. Tables keyed by a number, as lists of (key, row) in ascending key; a place that holds
nothing is not listed. -/

namespace Sys2Proof.Machine

/-- A table of rows by number. An empty place has no row. -/
abbrev Tbl (α : Type) := List (Nat × α)

/-- The row at a place, if it holds one. -/
def Tbl.get {α : Type} : Tbl α → Nat → Option α
  | [], _ => none
  | (j, v) :: t, k => if j = k then some v else Tbl.get t k

/-- Put a row at a place, keeping ascending key. -/
def Tbl.set {α : Type} : Tbl α → Nat → α → Tbl α
  | [], k, v => [(k, v)]
  | (j, w) :: t, k, v =>
    if k < j then (k, v) :: (j, w) :: t
    else if j = k then (k, v) :: t
    else (j, w) :: Tbl.set t k v

/-- Empty a place. -/
def Tbl.erase {α : Type} (t : Tbl α) (k : Nat) : Tbl α := t.filter (fun r => r.1 != k)

/-- The places that hold a row, ascending. -/
def Tbl.keys {α : Type} (t : Tbl α) : List Nat := t.map Prod.fst

/-- Change every row in place. -/
def Tbl.mapRows {α β : Type} (t : Tbl α) (f : α → β) : Tbl β := t.map (fun r => (r.1, f r.2))

/-- Change the row of one place, if it holds one. -/
def Tbl.modify {α : Type} (t : Tbl α) (k : Nat) (f : α → α) : Tbl α :=
  t.map (fun r => if r.1 = k then (r.1, f r.2) else r)

/-- How many rows satisfy a test. -/
def Tbl.count {α : Type} (t : Tbl α) (f : α → Bool) : Nat := (t.filter (fun r => f r.2)).length

/-- The keys rise strictly: the one canonical form of a table. -/
abbrev Tbl.Sorted {α : Type} (t : Tbl α) : Prop := (Tbl.keys t).Pairwise (· < ·)

end Sys2Proof.Machine
end

