-- ==== Sys2Proof/Machine/State.lean ====
section
/-! DEFINITION. The state of the 4120, block by block (2.2), as plain data; the named values of its
fields in the order their rules list them; and the state right after a power-on reset. -/

namespace Sys2Proof.Machine

/-! Named values -/

/-- Loop states (4.3). -/
inductive LoopState where
  | stopped | unsynced | synced | slipped
  deriving DecidableEq, Repr

/-- Sort modes (R74). -/
inductive SortMode where
  | off | run | drain
  deriving DecidableEq, Repr

/-- Chute roles (6.1). -/
inductive Role where
  | sort | manual | hold | heavy
  deriving DecidableEq, Repr

/-- The side of the loop a chute opens on (6.1). -/
inductive Side where
  | left | right
  deriving DecidableEq, Repr

/-- Availability of a chute (6.1). -/
inductive Avail where
  | inService | blocked | outOfService
  deriving DecidableEq, Repr

/-- Cart cycle of a SORT chute (6.2). -/
inductive CartCycle where
  | noCart | filling | closing | swapping
  deriving DecidableEq, Repr

/-- State of a cart record that stands for a cart; a FREE record is not listed (6.4). -/
inductive CartState where
  | filling | closing | closed | called
  deriving DecidableEq, Repr

/-- Why a cart was closed (6.4). -/
inductive CloseCause where
  | limit | forced | finalMove
  deriving DecidableEq, Repr

/-- Mark of a bag list entry (6.4.1). -/
inductive Mark where
  | ordered | doubt | dropped
  deriving DecidableEq, Repr

/-- Kind of an induction station (3.1). -/
inductive StationKind where
  | normal | encode
  deriving DecidableEq, Repr

/-- Disposition of a stray class (8.1). -/
inductive Disposition where
  | toManual | toHold | toHeavy | recordOnly
  deriving DecidableEq, Repr

/-- State of a sailing; an EMPTY slot is not listed (1.3). -/
inductive SailingState where
  | staged | opened | finalCall | closing
  deriving DecidableEq, Repr

/-- Mode of a dispatch sequencer (7.3). -/
inductive SeqMode where
  | off | locked | free | done
  deriving DecidableEq, Repr

/-- The long operations (10.4). -/
inductive LongKind where
  | regionInit | planCommit | sailingClose
  deriving DecidableEq, Repr

/-- Outcome of a long operation (R185). -/
inductive LongOutcome where
  | done | failed | superseded | abandoned
  deriving DecidableEq, Repr

/-- Reason of a FAILED plan commit; `noReason` for every other end (R30, R185). -/
inductive LongReason where
  | noReason | noGroup | foreignGroup
  deriving DecidableEq, Repr

/-- Kinds of loop point, in the order of R71. -/
inductive PointKind where
  | home | occupancy | windowClose | launchClose | arrival | decision | launch
  deriving DecidableEq, Repr

/-! Records -/

/-- State of a manifest entry with its location, the variant of R3. -/
inductive EntryState where
  | notSeen
  | pending (station : Nat)
  | inFlight (tray : Nat)
  | inCart (cart : Nat)
  | aboard
  | stray (ref : Nat)
  | withdrawn
  deriving DecidableEq, Repr

/-- A manifest entry (1.2.1). -/
structure Entry where
  issue : Nat
  cabin : Nat
  hold : Nat
  mass : Option Nat
  state : EntryState
  deriving DecidableEq, Repr

/-- An unissued entry: every field as power-on and REGION INIT leave it (R2). -/
def Entry.unissued : Entry := { issue := 0, cabin := 0, hold := 0, mass := none, state := .notSeen }

/-- Where a bag is going: a stow group, a chute role, or nowhere (RECORD_ONLY, R81). -/
inductive Target where
  | group (g : Nat)
  | role (r : Role)
  | nowhere
  deriving DecidableEq, Repr

/-- A bag as a pending entry or a tray load holds it (3.6, R80). `rideSent` says that STRAY RIDING was sent
for this load: R85 sends it once (log entry 18). -/
structure Load where
  index : Option Nat
  ref : Option Nat
  target : Target
  charge : Nat
  estimated : Bool
  laps : Nat
  verified : Bool
  station : Option Nat
  rideSent : Bool
  deriving DecidableEq, Repr

/-- Calibration of one load cell (3.1). -/
structure Cell where
  tare : Nat
  gain : Nat
  deriving DecidableEq, Repr

/-- An induction station with its pending queue, head first, and its ordered tray (3.1). -/
structure Station where
  node : Byte
  kind : StationKind
  coord : Nat
  lead : Nat
  window : Nat
  cell1 : Cell
  cell2 : Cell
  cell3 : Cell
  cell4 : Cell
  queue : List Load
  ordered : Option Nat
  deriving DecidableEq, Repr

/-- The loop layout (4.1). The loop length is `trays * pitch`. -/
structure Layout where
  trays : Nat
  pitch : Nat
  divisor : Nat
  tolerance : Nat
  eye : Nat
  deriving DecidableEq, Repr

/-- Loop length L (4.1). -/
def Layout.length (y : Layout) : Nat := y.trays * y.pitch

/-- A point of the loop point list; `owner` is its station or chute, 0 for the LT's own (R71). -/
structure LoopPoint where
  kind : PointKind
  coord : Nat
  owner : Nat
  deriving DecidableEq, Repr

/-- A tray record: its state with what the state has (R80). The cart of a tilt is present for a SORT
chute. An EMPTY tray is not listed in the tray table. -/
inductive Tray where
  | empty
  | reserved
  | loaded (l : Load)
  | tiltOrdered (l : Load) (chute : Nat) (cart : Option Nat)
  | dropDoubt (l : Load) (chute : Nat) (cart : Option Nat)
  deriving DecidableEq, Repr

/-- A configured chute (6.1). A chute of a handling role has no cart cycle. -/
structure Chute where
  node : Byte
  role : Role
  coord : Nat
  lead : Nat
  window : Nat
  side : Side
  inverted : Bool
  avail : Avail
  cycle : Option CartCycle
  bound : Nat
  cart : Option Nat
  swapTime : Time
  overdueSent : Bool
  deriving DecidableEq, Repr

/-- An entry of a cart's bag list (6.4.1). -/
structure BagItem where
  index : Nat
  charge : Nat
  mark : Mark
  deriving DecidableEq, Repr

/-- A cart record that is not FREE (6.4). -/
structure Cart where
  group : Nat
  state : CartState
  chute : Option Nat
  bags : List BagItem
  closedTime : Option Time
  cause : Option CloseCause
  deriving DecidableEq, Repr

/-- A stow group (2.3). Its chute set is the chutes bound to it (R40); its carts' ids wait in `ready`. -/
structure Group where
  slot : Nat
  deck : Nat
  zone : Nat
  countLimit : Nat
  massLimit : Nat
  ready : List Nat
  bagsInCarts : Nat
  bagsAboard : Nat
  cartsClosed : Nat
  cartsAboard : Nat
  deriving DecidableEq, Repr

/-- A cabin block (2.1). -/
structure Block where
  first : Nat
  last : Nat
  group : Nat
  deriving DecidableEq, Repr

/-- A dispatch step (7.2). -/
structure DStep where
  group : Nat
  batch : Nat
  quota : Nat
  deriving DecidableEq, Repr

/-- A dispatch sequencer (7.3). -/
structure Sequencer where
  mode : SeqMode
  divisor : Nat
  period : Nat
  current : Nat
  released : Nat
  lifts : Nat
  due : Time
  deriving DecidableEq, Repr

/-- A sailing (1.3) with its two plans (R25), its step list (R131) and its sequencer. -/
structure Sailing where
  key : Nat
  state : SailingState
  base : Nat
  length : Nat
  ready : Bool
  committed : Bool
  door : Byte
  lapLimit : Nat
  tally : Nat
  live : List Block
  staged : List Block
  steps : List DStep
  seq : Sequencer
  deriving DecidableEq, Repr

/-- An entry of the stray class table; an unloaded class has no disposition (R145). -/
structure ClassEntry where
  disposition : Option Disposition
  priority : Nat
  loaded : Bool
  deriving DecidableEq, Repr

/-- Location of a stray record (8.2). -/
inductive StrayLoc where
  | onTray (tray : Nat)
  | atEncode
  | withOperator
  | atHold
  | atHeavy
  | atStation (station : Nat)
  | unknown
  deriving DecidableEq, Repr

/-- An open stray record (8.2); its ref is its key in the stray table. -/
structure Stray where
  cls : Nat
  index : Option Nat
  linked : Bool
  slot : Option Nat
  tags : List TagCode
  mass : Option Nat
  loc : StrayLoc
  opened : Time
  deriving DecidableEq, Repr

/-- An item of the encode queue (R154). -/
structure EncodeItem where
  ref : Nat
  priority : Nat
  deriving DecidableEq, Repr

/-- The part settings (10.2). -/
structure Settings where
  lowerMass : Nat
  upperMass : Nat
  defaultCharge : Nat
  strayLapLimit : Nat
  swapLimit : Nat
  deriving DecidableEq, Repr

/-- The running tallies of a close sweep (R21). -/
structure Tallies where
  aboard : Nat
  inCart : Nat
  ashore : Nat
  withdrawn : Nat
  deriving DecidableEq, Repr

/-- The long operation in flight (10.4). -/
structure LongOp where
  kind : LongKind
  slot : Nat
  steps : Nat
  tallies : Tallies
  deriving DecidableEq, Repr

/-- The last end record (R185). -/
structure EndRecord where
  kind : LongKind
  slot : Nat
  outcome : LongOutcome
  reason : LongReason
  deriving DecidableEq, Repr

/-- A port's receiver: waiting for its first idle (R174), error count and error flag (R164). -/
structure Receiver where
  awaitIdle : Bool
  errors : Nat
  errorFlag : Bool
  deriving DecidableEq, Repr

/-- A port's transmitter: its queue, and a frame RESTART took out of the queue with its sending
begun, which goes out before the queue's head (R171). -/
structure Transmitter where
  queue : List Frame
  completing : Option Frame
  deriving DecidableEq, Repr

/-! Blocks -/

/-- Line Unit (chapter 9), with the level of the loop lines that have one. -/
structure LineUnit where
  node : Byte
  supRx : Receiver
  fldRx : Receiver
  supTx : Transmitter
  fldTx : Transmitter
  overrun : Bool
  clock : Time
  loopRun : Bool
  occ : Bool
  deriving DecidableEq, Repr

/-- Command Unit (chapter 10). -/
structure CommandUnit where
  settings : Settings
  longOp : Option LongOp
  lastEnd : Option EndRecord
  deriving DecidableEq, Repr

/-- Loop Tracker less its tray table (chapter 4). `eyeTaken` is the model's own: the eye's alignment of the
position as it stands was taken, or the position was set with none (R70, log entry 6). -/
structure LoopTracker where
  layout : Option Layout
  pos : Nat
  acc : Nat
  absorb : Nat
  lastCorrection : Int
  missed : Nat
  lossPoint : Nat
  advances : Nat
  state : LoopState
  mode : SortMode
  points : List LoopPoint
  eyeTaken : Bool
  deriving DecidableEq, Repr

/-- Stray Unit (chapter 8). `notice` is the ref last sent in ENCODE NEXT, if any was (R155). -/
structure StrayUnit where
  classes : Tbl ClassEntry
  strays : Tbl Stray
  encode : List EncodeItem
  nextRef : Nat
  unrecorded : Nat
  notice : Option Nat
  deriving DecidableEq, Repr

/-- The whole machine. `freeIdx` counts the free values drawn so far and `pending` is the queue of
commands waiting, first in first out: both are the model's own. -/
structure State where
  lu : LineUnit
  cu : CommandUnit
  sailings : Tbl Sailing
  manifest : Tbl Entry
  groups : Tbl Group
  stations : Tbl Station
  lt : LoopTracker
  trays : Tbl Tray
  chutes : Tbl Chute
  carts : Tbl Cart
  su : StrayUnit
  freeIdx : Nat
  pending : List Instr
  deriving DecidableEq, Repr

/-- The machine never stops with a fault: the manual gives none, and a command that finds its
conditions unmet is answered or passed over by the rule that owns it. The type has no value, so
nobody raises one (safe). -/
inductive Fault where
  deriving DecidableEq, Repr

/-- Why a command has no next state. -/
inductive Refusal where
  /-- Raised by `exec` for a command that has no meaning yet; safe, since nothing runs. No command is
  left so. -/
  | notModelled (mnemonic : String)
  deriving DecidableEq, Repr

/-! Power-on values -/

/-- A class of the power-on class table: disposition and priority (R145). -/
def ClassEntry.fixed (d : Disposition) (priority : Nat) : ClassEntry :=
  { disposition := some d, priority := priority, loaded := true }

/-- A hold class 16-31 as power-on leaves it (R145). -/
def ClassEntry.unloaded : ClassEntry := { disposition := none, priority := 0, loaded := false }

/-- The power-on class table (R145). -/
def StrayUnit.powerOnClasses : Tbl ClassEntry :=
  [(0, .fixed .toManual 3), (1, .fixed .toManual 3), (2, .fixed .toManual 3), (3, .fixed .toManual 3),
   (4, .fixed .toManual 3), (5, .fixed .toManual 3), (6, .fixed .toManual 3), (7, .fixed .toManual 3),
   (8, .fixed .toHold 3), (9, .fixed .toManual 3), (10, .fixed .toHeavy 3), (11, .fixed .toManual 3),
   (12, .fixed .toHold 6), (13, .fixed .toManual 3), (14, .fixed .recordOnly 3),
   (15, .fixed .toManual 3)]
  ++ (List.range 16).map (fun i => (16 + i, ClassEntry.unloaded))

/-- A receiver after power-on (R164, R174). -/
def Receiver.powerOn : Receiver := { awaitIdle := true, errors := 0, errorFlag := false }

/-- An empty transmitter (R171). -/
def Transmitter.idle : Transmitter := { queue := [], completing := none }

/-- The part settings of power-on (10.2). -/
def Settings.powerOn : Settings :=
  { lowerMass := 5, upperMass := 320, defaultCharge := 230, strayLapLimit := 5, swapLimit := 300 }

/-- The state a power-on reset leaves, for the levels of ADDR[1:0], LOOP_RUN and OCC and the waiting
commands that stand when it ends (R2, R6, R44, R45, R67, R74, R90, R110, R118, R134, R145, R147, R148,
R150, R154, R155, R172, R174). -/
def State.powerOn (addr : BitVec 2) (loopRun occ : Bool) (freeIdx : Nat) (pending : List Instr) : State :=
  { lu :=
      { node := BitVec.ofNat 8 (1 + addr.toNat), supRx := .powerOn, fldRx := .powerOn,
        supTx := .idle, fldTx := .idle, overrun := false, clock := 0, loopRun := loopRun, occ := occ },
    cu := { settings := .powerOn, longOp := none, lastEnd := none },
    sailings := [], manifest := [], groups := [], stations := [],
    lt :=
      { layout := none, pos := 0, acc := 0, absorb := 0, lastCorrection := 0, missed := 0,
        lossPoint := 0, advances := 0, state := if loopRun then .unsynced else .stopped,
        mode := .off, points := [], eyeTaken := true },
    trays := [], chutes := [], carts := [],
    su :=
      { classes := StrayUnit.powerOnClasses, strays := [], encode := [], nextRef := 1,
        unrecorded := 0, notice := none },
    freeIdx := freeIdx, pending := pending }

/-- The machine right after reset, with ADDR[1:0] strapped to 0, LOOP_RUN and OCC low (log entry 1). -/
def State.reset : State := State.powerOn 0 false false 0 []

end Sys2Proof.Machine
end

