-- ==== Sys2Proof/Machine/Flags.lean ====
section
/-! DEFINITION. The flags of the Line Unit: per-port error counts and flags (R164), the report-overrun
flag (R170), what STATUS clears (R177), and the FAULT output, which follows from them (R173). -/

namespace Sys2Proof.Machine

/-- A bad frame counted on a receiver: the count stops at 65,535, the flag is set all the same (R164). -/
def Receiver.countError (r : Receiver) : Receiver :=
  { r with errors := min (r.errors + 1) Config.countStop, errorFlag := true }

/-- The receiver of a port. -/
def State.rx (s : State) : Port → Receiver
  | .supervisor => s.lu.supRx
  | .field => s.lu.fldRx

/-- Write the receiver of a port. -/
def State.setRx (s : State) (port : Port) (r : Receiver) : State :=
  match port with
  | .supervisor => { s with lu := { s.lu with supRx := r } }
  | .field => { s with lu := { s.lu with fldRx := r } }

/-- Set the report-overrun flag (R170). -/
def State.setOverrun (s : State) : State := { s with lu := { s.lu with overrun := true } }

/-- What every STATUS taken clears: both error flags and the report-overrun flag (R177). -/
def State.clearFlags (s : State) : State :=
  { s with
    lu :=
      { s.lu with
        supRx := { s.lu.supRx with errorFlag := false },
        fldRx := { s.lu.fldRx with errorFlag := false },
        overrun := false } }

/-- The FAULT output: high while the loop is SLIPPED or a port's error flag is set (R173). It has no
storage of its own; it follows its conditions as they change. -/
def State.faultOutput (s : State) : Bool :=
  decide (s.lt.state = .slipped) || s.lu.supRx.errorFlag || s.lu.fldRx.errorFlag

/-- The mass-estimated flag and the charged mass of a bag (R49). -/
def chargeOf (defaultCharge : Nat) : Option Nat → Nat × Bool
  | some m => (max m 1, false)
  | none => (defaultCharge, true)

end Sys2Proof.Machine
end

