-- ==== Sys2Proof/Machine/Bytes.lean ====
section
/-! DEFINITION. The bytes of the hall line: field coding (9.1.3), the frame's layout and CRC (9.1.1),
the check of a received run (R164) and the tag code's fields (9.1.2). -/

namespace Sys2Proof.Machine

/-- A one-byte field. -/
def b1 (n : Nat) : List Byte := [BitVec.ofNat 8 n]

/-- A two-byte field, high byte first. -/
def b2 (n : Nat) : List Byte := [BitVec.ofNat 8 (n / 256), BitVec.ofNat 8 n]

/-- A four-byte field, high byte first. -/
def b4 (w : BitVec 32) : List Byte :=
  [w.extractLsb' 24 8, w.extractLsb' 16 8, w.extractLsb' 8 8, w.extractLsb' 0 8]

/-- A flag. -/
def bFlag (b : Bool) : List Byte := b1 b.toNat

/-- A signed two-byte field, two's complement. -/
def bInt (d : Int) : List Byte := b2 (BitVec.ofInt 16 d).toNat

/-- An optional field of `n` bytes: its presence byte, then its bytes or zeros. -/
def bOpt {α : Type} (n : Nat) (enc : α → List Byte) : Option α → List Byte
  | some v => 1 :: enc v
  | none => 0 :: List.replicate n 0

/-- A list: its count, then its items. -/
def bList {α : Type} (enc : α → List Byte) (l : List α) : List Byte := b1 l.length ++ l.flatMap enc

/-- Two payload bytes as a number. -/
def u16 (hi lo : Byte) : Nat := hi.toNat * 256 + lo.toNat

/-- Four payload bytes as a word. -/
def u32 (a b c d : Byte) : BitVec 32 := a ++ b ++ c ++ d

/-- Sailing key of a tag code. -/
def tagKey (t : TagCode) : Nat := (t.extractLsb' 24 8).toNat

/-- Issue of a tag code. -/
def tagIssue (t : TagCode) : Nat := (t.extractLsb' 20 4).toNat

/-- Index of a tag code. -/
def tagIndex (t : TagCode) : Nat := (t.extractLsb' 0 20).toNat

/-- One bit of the CRC: polynomial 0x1021, most significant bit first. -/
def crcBit (c : BitVec 16) : BitVec 16 := if c.msb then (c <<< 1) ^^^ 0x1021 else c <<< 1

/-- One byte of the CRC. -/
def crcByte (c : BitVec 16) (b : Byte) : BitVec 16 :=
  crcBit (crcBit (crcBit (crcBit (crcBit (crcBit (crcBit (crcBit
    (c ^^^ (b.zeroExtend 16 <<< 8)))))))))

/-- The CRC-16 of a run of bytes, initial value 0xFFFF, sent without inversion. -/
def crc16 (bs : List Byte) : BitVec 16 := bs.foldl crcByte 0xFFFF

/-- Bytes 1 to 4 + length of a frame: what its CRC covers. -/
def frameBody (f : Frame) : List Byte :=
  BitVec.ofNat 8 f.payload.length :: f.dst :: f.src :: f.kind :: f.payload

/-- A frame as it stands on the line (9.1.1). -/
def frameBytes (f : Frame) : List Byte :=
  0xA5 :: (frameBody f ++ b2 (crc16 (frameBody f)).toNat)

/-- The check of a received run (R164): start, length, byte count, stop bits, CRC. -/
def goodRun (rx : RxRun) : Bool :=
  match rx.bytes with
  | start :: len :: rest =>
    start == 0xA5 && decide (len.toNat ≤ Config.maxPayload)
      && rest.length == len.toNat + 5
      && rx.stopBits
      && b2 (crc16 (len :: rest.take (len.toNat + 3))).toNat == rest.drop (len.toNat + 3)
  | _ => false

/-- The command kinds of 10.1.2. -/
def isCommandKind (k : Byte) : Bool :=
  let n := k.toNat
  (0x40 ≤ n && n ≤ 0x45) || n == 0x48 || n == 0x49 || n == 0x4A || (0x4C ≤ n && n ≤ 0x52)
    || (0x54 ≤ n && n ≤ 0x61) || (0x64 ≤ n && n ≤ 0x69) || (0x6C ≤ n && n ≤ 0x6F)

/-- The kinds the processor takes from the field (9.4.1). -/
def isFieldKind (k : Byte) : Bool :=
  let n := k.toNat
  (0x10 ≤ n && n ≤ 0x14) || (0x18 ≤ n && n ≤ 0x1F)

end Sys2Proof.Machine
end

