-- ==== Sys2Proof/Machine/Operands.lean ====
section
/-! DEFINITION. The named values that frames carry, coded 0, 1, 2… in the order the owning rule lists
them (9.1.3): reading them from a payload byte, the values that only reports and replies carry, and
the clamps of 10.1.3. A named value is sent as its place in its list, `T.ctorIdx`. -/

namespace Sys2Proof.Machine

/-- Reply codes, in the order of R176. -/
inductive Code where
  | ok | badForm | badKind | range | state | conflict | absent | full
  deriving DecidableEq, Repr

/-! Named values read from a payload byte -/

def SortMode.ofByte (b : Byte) : Option SortMode := [SortMode.off, .run, .drain][b.toNat]?
def StationKind.ofByte (b : Byte) : Option StationKind := [StationKind.normal, .encode][b.toNat]?
def Role.ofByte (b : Byte) : Option Role := [Role.sort, .manual, .hold, .heavy][b.toNat]?
def Side.ofByte (b : Byte) : Option Side := [Side.left, .right][b.toNat]?
def Avail.ofByte (b : Byte) : Option Avail := [Avail.inService, .blocked, .outOfService][b.toNat]?
def SeqMode.ofByte (b : Byte) : Option SeqMode := [SeqMode.off, .locked, .free, .done][b.toNat]?

def Disposition.ofByte (b : Byte) : Option Disposition :=
  [Disposition.toManual, .toHold, .toHeavy, .recordOnly][b.toNat]?

/-- The states a sailing slot may be named in, EMPTY first (1.3); `none` inside is EMPTY. -/
def SailingState.ofByte (b : Byte) : Option (Option SailingState) :=
  [none, some SailingState.staged, some .opened, some .finalCall, some .closing][b.toNat]?

/-- Read modes of STRAY READ (R161). -/
inductive ReadMode where
  | exact | next
  deriving DecidableEq, Repr

def ReadMode.ofByte (b : Byte) : Option ReadMode := [ReadMode.exact, .next][b.toNat]?

/-- Reasons of STRAY CLOSE (R159). -/
inductive CloseReason where
  | handedOver | withdrawn | other
  deriving DecidableEq, Repr

def CloseReason.ofByte (b : Byte) : Option CloseReason :=
  [CloseReason.handedOver, .withdrawn, .other][b.toNat]?

/-- A flag byte: any value but 0 is set (log entry 5). -/
def flagOf (b : Byte) : Bool := b != 0

/-! Named values that only the processor sends -/

/-- Causes of STRAY OPENED (R149). -/
inductive OpenCause where
  | induction | edit | withdraw | groupDelete | untracked | resolve | lapLimit | lost | sailingClose
  deriving DecidableEq, Repr

/-- Causes of STRAY MOVED (R153). -/
inductive MoveCause where
  | induction | keyed | launch | removed | drop | lost | withdraw | sailingClose | taken | groupDelete
  deriving DecidableEq, Repr

/-- Outcomes of a closed stray (R158). -/
inductive StrayOutcome where
  | sorted | handedOver | withdrawn | other | sailingClosed
  deriving DecidableEq, Repr

/-- Causes of CHUTE STATE (R113). -/
inductive ChuteCause where
  | panel | service | cartFull | cartForced | cartClosed | cartPlaced | bind | sailingClose | config
  deriving DecidableEq, Repr

/-- Causes of CHUTE FAULT (R108). -/
inductive FaultCause where
  | arrivedUnavailable | earlyDrop | unknownTray | wrongChute | unorderedDrop | unorderedFault
  | tiltFailed | lateFault | missedDrop
  deriving DecidableEq, Repr

/-- Causes of LOOP STATE (R73). -/
inductive LoopCause where
  | runLow | runHigh | homeSync | homeDeviation | homeMissed | layout
  deriving DecidableEq, Repr

/-- Basis of BAG SORTED (R107). -/
inductive Basis where
  | onTime | late | unsynced | eye
  deriving DecidableEq, Repr

/-- Causes of FIELD MISMATCH (R167). -/
inductive MismatchCause where
  | unknownKind | notConfigured | badForm
  deriving DecidableEq, Repr

/-- State of a sailing slot as sent: EMPTY is 0 (1.3). -/
def sailingStateCode : Option SailingState → Nat
  | none => 0
  | some st => 1 + st.ctorIdx

/-- State of a cart record as sent: FREE is 0 (6.4). -/
def cartStateCode : Option CartState → Nat
  | none => 0
  | some st => 1 + st.ctorIdx

/-- A long operation as sent: NONE is 0 (R177). -/
def longKindCode : Option LongKind → Nat
  | none => 0
  | some k => 1 + k.ctorIdx

/-! Clamps (10.1.3) -/

/-- A value brought into a range. -/
def clamp (lo hi n : Nat) : Nat := min (max n lo) hi

/-- A sailing's lap limit as taken (R7). -/
def clampLapLimit (n : Nat) : Nat := if n = 0 then 3 else min n 15

/-- A lead as taken: at most L - p (R46, R111). -/
def clampLead (y : Layout) (n : Nat) : Nat := min n (y.length - y.pitch)

/-- A launch or chute window as taken: 1 to half the loop (R46, R111). -/
def clampWindow (y : Layout) (n : Nat) : Nat := clamp 1 (y.length / 2) n

/-- A sync tolerance as taken (R68). -/
def clampTolerance (p n : Nat) : Nat := min n (p / 2)

/-- A count that stops at 65,535 (R35, R150, R164). -/
def bumpStop (n : Nat) : Nat := min (n + 1) Config.countStop

end Sys2Proof.Machine
end

