-- ==== Sys2Proof/Machine/Ops.lean ====
section
/-! DEFINITION. The named operations over the tables, the transmit queues, the bags and the stray
records, which the meanings of the commands share. -/

namespace Sys2Proof.Machine

/-! Tables -/

/-- The manifest entry at an index; an unlisted one is unissued (R2). -/
def State.entry (s : State) (m : Nat) : Entry := (Tbl.get s.manifest m).getD Entry.unissued

/-- Write a manifest entry, keeping the store's canonical form: an unissued entry is not listed. -/
def State.putEntry (s : State) (m : Nat) (e : Entry) : State :=
  { s with manifest := if e = Entry.unissued then Tbl.erase s.manifest m else Tbl.set s.manifest m e }

/-- Write an entry's state with its location, in one step (R3). -/
def State.setEntryState (s : State) (m : Nat) (st : EntryState) : State :=
  s.putEntry m { s.entry m with state := st }

/-- A tray record; an unlisted one is EMPTY (R80). -/
def State.tray (s : State) (k : Nat) : Tray := (Tbl.get s.trays k).getD .empty

/-- Write a tray record; an EMPTY one is not listed. -/
def State.putTray (s : State) (k : Nat) (t : Tray) : State :=
  { s with trays := if t = .empty then Tbl.erase s.trays k else Tbl.set s.trays k t }

def State.putSailing (s : State) (n : Nat) (v : Sailing) : State :=
  { s with sailings := Tbl.set s.sailings n v }

def State.putGroup (s : State) (g : Nat) (v : Group) : State := { s with groups := Tbl.set s.groups g v }

def State.modifyGroup (s : State) (g : Nat) (f : Group → Group) : State :=
  { s with groups := Tbl.modify s.groups g f }

def State.putStation (s : State) (n : Nat) (v : Station) : State :=
  { s with stations := Tbl.set s.stations n v }

def State.putChute (s : State) (c : Nat) (v : Chute) : State := { s with chutes := Tbl.set s.chutes c v }

def State.modifyChute (s : State) (c : Nat) (f : Chute → Chute) : State :=
  { s with chutes := Tbl.modify s.chutes c f }

def State.putCart (s : State) (id : Nat) (v : Cart) : State := { s with carts := Tbl.set s.carts id v }

/-- A cart record becomes FREE: every field cleared and the list emptied in one step (R118). -/
def State.freeCart (s : State) (id : Nat) : State := { s with carts := Tbl.erase s.carts id }

/-- The load of a tray, where its state has one (R80). -/
def Tray.load? : Tray → Option Load
  | .loaded l | .tiltOrdered l _ _ | .dropDoubt l _ _ => some l
  | .empty | .reserved => none

/-- Change the load of a tray in place. -/
def Tray.mapLoad (f : Load → Load) : Tray → Tray
  | .loaded l => .loaded (f l)
  | .tiltOrdered l c i => .tiltOrdered (f l) c i
  | .dropDoubt l c i => .dropDoubt (f l) c i
  | .empty => .empty
  | .reserved => .reserved

/-- A tilt is in flight on the tray (5.1). -/
def Tray.tilting : Tray → Bool
  | .tiltOrdered .. | .dropDoubt .. => true
  | _ => false

/-- The ordered chute of a tray, where its state has one. -/
def Tray.chute? : Tray → Option Nat
  | .tiltOrdered _ c _ | .dropDoubt _ c _ => some c
  | _ => none

/-- The ordered cart of a tray, where it has one. -/
def Tray.cart? : Tray → Option Nat
  | .tiltOrdered _ _ i | .dropDoubt _ _ i => i
  | _ => none

/-- The tray is in TILT_ORDERED. -/
def Tray.isTiltOrdered : Tray → Bool
  | .tiltOrdered .. => true
  | _ => false

/-- The tray is in DROP_DOUBT. -/
def Tray.isDropDoubt : Tray → Bool
  | .dropDoubt .. => true
  | _ => false

/-- Loop length, 0 without a layout. -/
def State.loopLength (s : State) : Nat := (s.lt.layout.map Layout.length).getD 0

/-! The line -/

/-- Queue a report on the Supervisor port, or drop it and set the overrun flag (R168, R170). -/
def State.report (s : State) (kind : Nat) (payload : List Byte) : State :=
  if s.lu.supTx.queue.length < Config.supReportPlaces then
    { s with
      lu :=
        { s.lu with
          supTx :=
            { s.lu.supTx with
              queue := s.lu.supTx.queue ++
                [{ dst := Config.supervisorNode, src := s.lu.node, kind := BitVec.ofNat 8 kind,
                   payload := payload }] } } }
  else s.setOverrun

/-- The supervisor queue has a place for a reply (R168). -/
def State.replyPlace (s : State) : Bool := decide (s.lu.supTx.queue.length < Config.supPlaces)

/-- Queue a reply: the command's kind plus 0x80, the code, then the fields (R166, R168, R175). -/
def State.reply (s : State) (dst kind : Byte) (code : Code) (fields : List Byte) : State :=
  if s.replyPlace then
    { s with
      lu :=
        { s.lu with
          supTx :=
            { s.lu.supTx with
              queue := s.lu.supTx.queue ++
                [{ dst := dst, src := s.lu.node, kind := kind ||| 0x80,
                   payload := b1 code.ctorIdx ++ fields }] } } }
  else s

/-- The field queue has a place for an order (R169). -/
def State.orderPlace (s : State) : Bool := decide (s.lu.fldTx.queue.length < Config.fldPlaces)

/-- Queue an order on the Field port; without a place nothing is queued (R169). -/
def State.order (s : State) (dst : Byte) (kind : Nat) (payload : List Byte) : State :=
  if s.orderPlace then
    { s with
      lu :=
        { s.lu with
          fldTx :=
            { s.lu.fldTx with
              queue := s.lu.fldTx.queue ++
                [{ dst := dst, src := s.lu.node, kind := BitVec.ofNat 8 kind, payload := payload }] } } }
  else s

/-- What a command answers: a refusal code, which changes nothing, or a state and reply fields (R175). -/
abbrev CmdResult := Except Code (State × List Byte)

/-- Take a command frame on the Supervisor port (R166, R175, R176): before the first idle no frame is
received; without a place for the reply it is not taken; else it is done and answered. -/
def State.takeCommand (s : State) (src kind : Byte) (body : State → CmdResult) : State :=
  if s.lu.supRx.awaitIdle then s
  else if s.replyPlace then
    match body s with
    | .ok (t, fields) => t.reply src kind .ok fields
    | .error code => s.reply src kind code []
  else s.setOverrun

/-- Report a field frame that is not handed to its owner (R167). -/
def State.fieldMismatch (s : State) (src kind : Byte) (cause : MismatchCause) (len : Nat) : State :=
  s.report 0x2F ([src, kind] ++ b1 cause.ctorIdx ++ b1 len ++ b4 s.lu.clock)

/-- The chute whose panel has a node address. -/
def State.chuteOfPanel (s : State) (node : Byte) : Option (Nat × Chute) :=
  s.chutes.find? (fun r => r.2.node == node)

/-- The station with a node address. -/
def State.stationOfNode (s : State) (node : Byte) : Option (Nat × Station) :=
  s.stations.find? (fun r => r.2.node == node)

/-- A node is the panel of an OUT_OF_SERVICE chute, whose frames are ignored (R116, R167). -/
def State.panelOut (s : State) (node : Byte) : Bool :=
  s.chutes.any (fun r => r.2.node == node && decide (r.2.avail = .outOfService))

/-- Take a field frame (R167): nothing before the first idle, nothing from an OUT_OF_SERVICE panel; a
source not configured for the kind or a wrong length raises FIELD MISMATCH; else its owner has it. -/
def State.takeField (s : State) (src kind : Byte) (p : List Byte) (configured goodLength : Bool)
    (owner : State → State) : State :=
  if s.lu.fldRx.awaitIdle then s
  else if s.panelOut src then s
  else if !configured then s.fieldMismatch src kind .notConfigured p.length
  else if !goodLength then s.fieldMismatch src kind .badForm p.length
  else owner s

/-! Sailings and resolution -/

/-- Sailing keys are looked for among the non-EMPTY slots (R1, R7). -/
def State.sailingOfKey (s : State) (key : Nat) : Option (Nat × Sailing) :=
  s.sailings.find? (fun r => r.2.key == key)

/-- A manifest index lies in a sailing's region (1.2). -/
def Sailing.holdsIndex (v : Sailing) (m : Nat) : Bool :=
  decide (v.base ≤ m) && decide (m < v.base + v.length)

/-- The sailing whose region holds a manifest index (1.2, R7). -/
def State.ownerOf (s : State) (m : Nat) : Option (Nat × Sailing) :=
  s.sailings.find? (fun r => r.2.holdsIndex m)

/-- The slot of the sailing of an entry, 0 when no region holds it. -/
def State.slotOf (s : State) (m : Nat) : Nat := ((s.ownerOf m).map Prod.fst).getD 0

/-! Fixed stray classes (8.1) -/

def Cls.noRead : Nat := 0
def Cls.multiRead : Nat := 1
def Cls.unknownSailing : Nat := 2
def Cls.outOfRegion : Nat := 3
def Cls.notManifested : Nat := 4
def Cls.supersededTag : Nat := 5
def Cls.duplicateBag : Nat := 6
def Cls.noStow : Nat := 7
def Cls.withdrawn : Nat := 8
def Cls.lapLimit : Nat := 9
def Cls.overweight : Nat := 10
def Cls.underweight : Nat := 11
def Cls.hold : Nat := 12
def Cls.untracked : Nat := 13
def Cls.lost : Nat := 14
def Cls.sailingClosed : Nat := 15

/-- The entry of a stray class. -/
def State.classEntry (s : State) (c : Nat) : ClassEntry :=
  (Tbl.get s.su.classes c).getD ClassEntry.unloaded

/-- The class a hold reason resolves as (R2, R145). -/
def State.holdClass (s : State) (reason : Nat) : Nat :=
  if 16 ≤ reason ∧ reason ≤ 31 ∧ (s.classEntry reason).loaded then reason else Cls.hold

/-- The chute role of a disposition; RECORD_ONLY has none (R151). -/
def Disposition.role? : Disposition → Option Role
  | .toManual => some .manual
  | .toHold => some .hold
  | .toHeavy => some .heavy
  | .recordOnly => none

/-- The chute role of a class's disposition (R151). -/
def State.classRole (s : State) (c : Nat) : Option Role :=
  (s.classEntry c).disposition.bind Disposition.role?

/-- The target of a stray of a class (R151). -/
def State.classTarget (s : State) (c : Nat) : Target :=
  match s.classRole c with
  | some r => .role r
  | none => .nowhere

/-- The stow group of the block of the live plan that covers a cabin (R33). -/
def Sailing.cover (v : Sailing) (cabin : Nat) : Option Nat :=
  (v.live.find? (fun b => decide (b.first ≤ cabin) && decide (cabin ≤ b.last))).map Block.group

/-- A resolution: a stow group, or a stray class. -/
inductive Resolution where
  | group (g : Nat)
  | stray (cls : Nat)
  deriving DecidableEq, Repr

/-- Resolve a manifest bag from its entry by its sailing's live plan (R33). -/
def State.resolve (s : State) (m : Nat) (v : Sailing) : Resolution :=
  if (s.entry m).hold ≠ 0 then .stray (s.holdClass (s.entry m).hold)
  else
    match v.cover (s.entry m).cabin with
    | some g => .group g
    | none => .stray Cls.noStow

/-! Bags waiting and riding -/

/-- A manifest load: an index, no ref, and a group target (4.7.1). -/
def Load.isManifest (l : Load) : Bool :=
  l.index.isSome && l.ref.isNone && (match l.target with | .group _ => true | _ => false)

/-- Change every pending entry and tray load. -/
def State.mapLoads (s : State) (f : Load → Load) : State :=
  { s with
    stations := Tbl.mapRows s.stations (fun st => { st with queue := st.queue.map f }),
    trays := Tbl.mapRows s.trays (Tray.mapLoad f) }

/-- A test holds of some pending entry or some tray load. -/
def State.anyLoad (s : State) (f : Load → Bool) : Bool :=
  s.stations.any (fun r => r.2.queue.any f) || s.trays.any (fun r => r.2.load?.any f)

/-- A stray record is held: a pending entry or a tray load names its ref (R147). -/
def State.refHeld (s : State) (ref : Nat) : Bool := s.anyLoad (fun l => l.ref == some ref)

/-- A manifest index is held by a pending entry or a tray load (R52). -/
def State.indexHeld (s : State) (m : Nat) : Bool := s.anyLoad (fun l => l.index == some m)

/-- Trays in TILT_ORDERED or DROP_DOUBT whose ordered chute has role MANUAL (R93, R109). -/
def State.manualTilts (s : State) : Nat :=
  Tbl.count s.trays (fun t =>
    t.chute?.any (fun c => (Tbl.get s.chutes c).any (fun h => decide (h.role = .manual))))

/-- Give the holder of an index a new target (R12, R34). -/
def State.retarget (s : State) (m : Nat) (t : Target) : State :=
  s.mapLoads (fun l => if l.index = some m then { l with target := t } else l)

/-! Stray records -/

/-- A location of a stray record as sent (9.1.3). -/
def strayLocBytes (loc : StrayLoc) : List Byte :=
  match loc with
  | .onTray k => b1 0 ++ b2 k
  | .atEncode => b1 1 ++ b2 0
  | .withOperator => b1 2 ++ b2 0
  | .atHold => b1 3 ++ b2 0
  | .atHeavy => b1 4 ++ b2 0
  | .atStation n => b1 5 ++ b2 n
  | .unknown => b1 6 ++ b2 0

/-- Report STRAY OPENED (R149). -/
def State.reportOpened (s : State) (ref : Nat) (r : Stray) (cause : OpenCause) : State :=
  s.report 0x31 (b2 ref ++ b1 r.cls ++ bOpt 1 (fun x : Role => b1 x.ctorIdx) (s.classRole r.cls)
    ++ bOpt 2 b2 r.index ++ bFlag r.linked ++ bOpt 1 b1 r.slot ++ bList b4 r.tags ++ bOpt 2 b2 r.mass
    ++ strayLocBytes r.loc ++ b4 r.opened ++ b1 cause.ctorIdx)

/-- Report STRAY MOVED (R153). -/
def State.reportMoved (s : State) (ref : Nat) (old r : Stray) (cause : MoveCause) : State :=
  s.report 0x32 (b2 ref ++ b1 r.cls ++ b1 old.cls ++ strayLocBytes r.loc ++ strayLocBytes old.loc
    ++ bOpt 2 b2 r.index ++ bFlag r.linked ++ bOpt 1 b1 r.slot ++ bOpt 2 b2 r.mass ++ b1 cause.ctorIdx)

/-- The next ref counted on until no open record holds it (R148). -/
def freshFrom (t : Tbl Stray) : Nat → Nat → Nat
  | 0, ref => ref
  | fuel + 1, ref =>
    if (Tbl.get t ref).isSome then freshFrom t fuel (if ref = 65535 then 1 else ref + 1) else ref

/-- The fresh ref (R148). A table of at most 192 records is passed in at most 192 counts. -/
def State.freshRef (s : State) : Nat := freshFrom s.su.strays (s.su.strays.length + 1) s.su.nextRef

/-- Report that the table has come to 192 records; the unrecorded count starts again (R150). -/
def State.reportTableFull (s : State) : State :=
  let t := s.report 0x3F (b4 s.lu.clock ++ b2 s.su.unrecorded)
  { t with su := { t.su with unrecorded := 0 } }

/-- Open a stray record with a fresh ref, stamped with the clock, or count it unrecorded when the
table holds 192 (R149, R150). -/
def State.openStray (s : State) (r : Stray) (cause : OpenCause) : State × Option Nat :=
  if Config.strayPlaces ≤ s.su.strays.length then
    ({ s with su := { s.su with unrecorded := bumpStop s.su.unrecorded } }, none)
  else
    let ref := s.freshRef
    let rec' := { r with opened := s.lu.clock }
    let t := { s with
      su := { s.su with
        strays := Tbl.set s.su.strays ref rec', nextRef := if ref = 65535 then 1 else ref + 1 } }
    let t' := t.reportOpened ref rec' cause
    (if t.su.strays.length = Config.strayPlaces then t'.reportTableFull else t', some ref)

/-- An item joins the encode queue after every item of equal or higher priority (R154). -/
def joinEncode (it : EncodeItem) : List EncodeItem → List EncodeItem
  | [] => [it]
  | x :: t => if x.priority < it.priority then it :: x :: t else x :: joinEncode it t

/-- The encode queue after a record's location changes (R154). -/
def encodeAfter (q : List EncodeItem) (ref priority : Nat) (old new : StrayLoc) : List EncodeItem :=
  if old = new then q
  else if new = .atEncode then joinEncode ⟨ref, priority⟩ q
  else if old = .atEncode then q.filter (fun it => it.ref != ref)
  else q

/-- Write an open record and keep the encode queue with its location (R153, R154). -/
def State.rewriteStray (s : State) (ref : Nat) (old r : Stray) : State :=
  { s with
    su := { s.su with
      strays := Tbl.set s.su.strays ref r,
      encode := encodeAfter s.su.encode ref (s.classEntry r.cls).priority old.loc r.loc } }

/-- Move an open record: rewrite it, and report unless no field changed and the report is not asked
for all the same (R153, R65). A ref with no open record moves nothing. -/
def State.moveStray (s : State) (ref : Nat) (f : Stray → Stray) (cause : MoveCause)
    (always : Bool := false) : State :=
  match Tbl.get s.su.strays ref with
  | none => s
  | some old =>
    let t := s.rewriteStray ref old (f old)
    if f old = old ∧ always = false then t else t.reportMoved ref old (f old) cause

/-- Remove an open record from the table and the encode queue (R158). -/
def State.removeStray (s : State) (ref : Nat) : State :=
  { s with
    su := { s.su with
      strays := Tbl.erase s.su.strays ref,
      encode := s.su.encode.filter (fun it => it.ref != ref) } }

/-- Close an open record and report it (R158). The cart, named for SORTED, is sent as an optional field,
absent for every other outcome (log entry 5). -/
def State.closeStray (s : State) (ref : Nat) (outcome : StrayOutcome) (cart : Option Nat) : State :=
  match Tbl.get s.su.strays ref with
  | none => s
  | some r =>
    (s.removeStray ref).report 0x33 (b2 ref ++ b1 r.cls ++ bOpt 2 b2 r.index ++ bFlag r.linked
      ++ bOpt 1 b1 r.slot ++ strayLocBytes r.loc ++ b1 outcome.ctorIdx ++ bOpt 1 b1 cart ++ b4 r.opened
      ++ b4 s.lu.clock)

/-- A linked record for an entry's bag that becomes a stray while it waits or rides, or is lost; its
mass is the entry's (R4, R12, R83, R84, R86). The rules name no tag codes for it, and it holds none (log
entry 13). -/
def State.linkedStray (s : State) (m slot cls : Nat) (loc : StrayLoc) : Stray :=
  { cls := cls, index := some m, linked := true, slot := some slot, tags := [], mass := (s.entry m).mass,
    loc := loc, opened := 0 }

/-- An entry's waiting or riding bag becomes a linked stray: the record, the entry's state, and the
holder's ref, target and lap count; no STRAY RIDING was sent for it as a stray (R12, R38, R83, R84, R85). -/
def State.strayBag (s : State) (m slot cls : Nat) (loc : StrayLoc) (cause : OpenCause) : State :=
  let t := (s.openStray (s.linkedStray m slot cls loc) cause).1
  let ref := (s.openStray (s.linkedStray m slot cls loc) cause).2
  (t.setEntryState m (.stray (ref.getD 0))).mapLoads (fun l =>
    if l.index = some m then
      { l with ref := ref, target := s.classTarget cls, laps := 0, rideSent := false }
    else l)

/-- What a resolution does to an entry's waiting or riding bag (R12, R38, R83). -/
def State.applyResolution (s : State) (m slot : Nat) (res : Resolution) (loc : StrayLoc)
    (cause : OpenCause) : State :=
  match res with
  | .group g => s.retarget m (.group g)
  | .stray c => s.strayBag m slot c loc cause

/-- Where a stray record of a waiting or riding bag lies, from the entry's location. -/
def EntryState.bagLoc? : EntryState → Option StrayLoc
  | .pending n => some (.atStation n)
  | .inFlight k => some (.onTray k)
  | _ => none

/-- Join the queue of waiting commands' rest: every command's meaning leaves it alone; `step` takes. -/
def State.withPending (s : State) (q : List Instr) : State := { s with pending := q }

end Sys2Proof.Machine
end

