-- ==== Sys2Proof/Machine/CartOps.lean ====
section
/-! DEFINITION. Operations over carts, chutes and ready queues that the Cart Unit shares with the other
blocks: marks of the bag list, the closing test, forced closing, the swap timer (chapter 6). -/

namespace Sys2Proof.Machine

/-- A cart's charged mass: of every entry of every mark (R119). -/
def Cart.charge (c : Cart) : Nat := (c.bags.map BagItem.charge).sum

/-- How many entries of a cart carry a mark. -/
def Cart.marked (c : Cart) (k : Mark) : Nat := (c.bags.filter (fun b => decide (b.mark = k))).length

/-- A bag list holds an entry of an index under a mark. -/
def holdsMark (bags : List BagItem) (m : Nat) (k : Mark) : Bool :=
  bags.any (fun b => b.index == m && decide (b.mark = k))

/-- Change the mark of an index's entry, in place. -/
def remark (m : Nat) (old new : Mark) : List BagItem → List BagItem
  | [] => []
  | b :: t => if b.index = m ∧ b.mark = old then { b with mark := new } :: t else b :: remark m old new t

/-- Remove an index's entry of a mark; the entries behind it keep their order. -/
def unlist (m : Nat) (k : Mark) : List BagItem → List BagItem
  | [] => []
  | b :: t => if b.index = m ∧ b.mark = k then t else b :: unlist m k t

/-- Report CHUTE STATE with the chute's fields as they stand (R113). A chute of a handling role, which has
no cart cycle, sends 0 for it (log entry 5). -/
def State.reportChute (s : State) (c : Nat) (cause : ChuteCause) : State :=
  match Tbl.get s.chutes c with
  | none => s
  | some h =>
    s.report 0x39 (b1 c ++ b1 h.role.ctorIdx ++ b1 h.avail.ctorIdx
      ++ b1 ((h.cycle.map CartCycle.ctorIdx).getD 0) ++ b1 h.bound ++ bOpt 1 b1 h.cart
      ++ b1 cause.ctorIdx)

/-- Report CHUTE FAULT with the loop position as it stands (R108); MISSED_DROP names the cart (R106). -/
def State.reportFault (s : State) (c : Nat) (cause : FaultCause) (tray : Nat)
    (offset cart : Option Nat) : State :=
  s.report 0x3A (b1 c ++ b1 cause.ctorIdx ++ b2 tray ++ b2 s.lt.pos ++ bOpt 2 b2 offset ++ bOpt 1 b1 cart)

/-- The stow group of a cart record. -/
def State.cartGroup (s : State) (id : Nat) : Option Nat := (Tbl.get s.carts id).map Cart.group

/-- The chute enters SWAPPING: no cart, swap time the clock, overdue not sent (R112). -/
def Chute.startSwap (clock : Time) (h : Chute) : Chute :=
  { h with cart := none, cycle := some .swapping, swapTime := clock, overdueSent := false }

/-- A cart joins the tail of its group's ready queue as closed, and is counted (R122, R127). -/
def Group.enqueue (id : Nat) (g : Group) : Group :=
  { g with ready := g.ready ++ [id], cartsClosed := bumpStop g.cartsClosed }

/-- A cart record becomes CLOSED, off its chute, at the tail of its group's ready queue (R122, R127). -/
def State.closeRecord (s : State) (id : Nat) (c : Cart) : State :=
  (s.putCart id { c with state := .closed, closedTime := some s.lu.clock, chute := none }).modifyGroup c.group
    (Group.enqueue id)

/-- Closing is complete: the cart becomes CLOSED and joins its ready queue, the chute enters SWAPPING
(R122). Without the reports, which RESTART does not send (R129). -/
def State.closeCart (s : State) (id : Nat) : State :=
  match Tbl.get s.carts id with
  | none => s
  | some c =>
    match c.chute with
    | none => s.closeRecord id c
    | some ch => (s.closeRecord id c).modifyChute ch (Chute.startSwap s.lu.clock)

/-- Report CART CLOSED with the cart as it stands at closing (R122). -/
def State.reportCartClosed (s : State) (id chute : Nat) : State :=
  match Tbl.get s.carts id with
  | none => s
  | some c =>
    let g := Tbl.get s.groups c.group
    s.report 0x34 (b1 id ++ b1 c.group ++ b1 ((g.map Group.slot).getD 0) ++ b1 chute ++ b1 c.bags.length
      ++ b2 c.charge ++ b1 (c.marked .doubt) ++ b1 ((c.cause.map CloseCause.ctorIdx).getD 0)
      ++ b4 (c.closedTime.getD 0) ++ b1 ((g.map (fun v => v.ready.length)).getD 0))

/-- A cart in CLOSING holds no ORDERED entry (R122). -/
def Cart.doneClosing (c : Cart) : Bool := decide (c.state = .closing) && c.marked .ordered == 0

/-- The closing test of R122, with its reports; `cause` is the CHUTE STATE report's. -/
def State.closingTest (s : State) (id : Nat) (cause : ChuteCause) : State :=
  match Tbl.get s.carts id with
  | none => s
  | some c =>
    if c.doneClosing then
      match c.chute with
      | none => s.closeCart id
      | some ch => ((s.closeCart id).reportCartClosed id ch).reportChute ch cause
    else s

/-- A FILLING cart and its chute enter CLOSING together (R112, R121, R123). -/
def State.enterClosing (s : State) (id : Nat) (cause : CloseCause) : State :=
  match Tbl.get s.carts id with
  | none => s
  | some c =>
    let t := s.putCart id { c with state := .closing, cause := some cause }
    match c.chute with
    | none => t
    | some ch => t.modifyChute ch (fun h => { h with cycle := some .closing })

/-- A FILLING cart with entries is closed by force; closing completes at once when no entry is ORDERED.
One CHUTE STATE report with cause CART_FORCED tells of it (R113, R123, R124). -/
def State.forceClose (s : State) (id : Nat) (cause : CloseCause) : State :=
  match Tbl.get s.carts id with
  | none => s
  | some c =>
    if c.state = .filling ∧ c.bags ≠ [] then
      let t := s.enterClosing id cause
      if c.marked .ordered = 0 then t.closingTest id .cartForced
      else
        match c.chute with
        | none => t
        | some ch => t.reportChute ch .cartForced
    else s

/-- A cart is full after a reservation: at its count limit, or with less room than the lower mass limit
(R121). -/
def Cart.isFull (c : Cart) (g : Group) (lowerMass : Nat) : Bool :=
  c.bags.length == g.countLimit || decide (g.massLimit - c.charge < lowerMass)

/-- The full test after a reservation at a chute (R121). -/
def State.fullTest (s : State) (id chute : Nat) : State :=
  match Tbl.get s.carts id with
  | none => s
  | some c =>
    match Tbl.get s.groups c.group with
    | none => s
    | some g =>
      if c.isFull g s.cu.settings.lowerMass then (s.enterClosing id .limit).reportChute chute .cartFull
      else s

/-- Change a cart's bag list, and its group's bags in carts with it (R35, R119). -/
def State.editBags (s : State) (id : Nat) (f : List BagItem → List BagItem) (bags : Nat → Nat) : State :=
  match Tbl.get s.carts id with
  | none => s
  | some c =>
    (s.putCart id { c with bags := f c.bags }).modifyGroup c.group
      (fun g => { g with bagsInCarts := bags g.bagsInCarts })

/-- The ordered cart holds the load's entry under a mark (R105). -/
def State.cartHolds (s : State) (id m : Nat) (k : Mark) : Bool :=
  (Tbl.get s.carts id).any (fun c => holdsMark c.bags m k)

/-- The CA's acceptance test (R120). -/
def State.cartAccepts (s : State) (h : Chute) (mass : Nat) : Bool :=
  decide (h.avail = .inService) && decide (h.cycle = some .filling)
    && (h.cart.bind (Tbl.get s.carts)).any (fun c =>
      (Tbl.get s.groups c.group).any (fun g =>
        decide (c.bags.length + 1 ≤ g.countLimit) && decide (c.charge + mass ≤ g.massLimit)))

/-- Seconds of a swap: the clock less the swap time, or 0 when the clock is below it (R126). -/
def swapElapsed (clock : Time) (h : Chute) : Time := if h.swapTime ≤ clock then clock - h.swapTime else 0

/-- A SWAPPING chute is due its SWAP OVERDUE (R126). -/
def State.swapDue (s : State) (h : Chute) : Bool :=
  decide (h.cycle = some .swapping) && !h.overdueSent
    && decide (s.cu.settings.swapLimit ≤ (swapElapsed s.lu.clock h).toNat)

/-- Time the swap of one chute (R126). -/
def State.swapTest (s : State) (c : Nat) : State :=
  match Tbl.get s.chutes c with
  | none => s
  | some h =>
    if s.swapDue h then
      (s.report 0x3D (b1 c ++ b1 h.bound ++ b4 h.swapTime ++ b4 (swapElapsed s.lu.clock h))).putChute c
        { h with overdueSent := true }
    else s

/-- Time the swap of every chute, in ascending chute number (R126). -/
def State.swapTests (s : State) : State := (Tbl.keys s.chutes).foldl State.swapTest s

end Sys2Proof.Machine
end

