-- ==== Sys2Proof/Machine/TiltOps.lean ====
section
/-! DEFINITION. Taking, judging and settling a tilt (chapter 5): what the Tilt Unit, the eye and a
resynchronisation share. -/

namespace Sys2Proof.Machine

/-- The arrival count of a tray at a coordinate (4.2, R97). -/
def Layout.arrival (y : Layout) (coord tray : Nat) : Nat := (coord + tray * y.pitch) % y.length

/-- How far a position lies past a count, in 0 to L - 1 (R97). -/
def Layout.offset (y : Layout) (pos count : Nat) : Nat := (pos + y.length - count) % y.length

/-- The findings of R97. -/
inductive Finding where
  | onTime | late | early
  deriving DecidableEq, Repr

/-- The offset of a report about a tray at a chute (R97). -/
def State.dropOffset (s : State) (h : Chute) (tray : Nat) : Nat :=
  match s.lt.layout with
  | none => 0
  | some y => y.offset s.lt.pos (y.arrival h.coord tray)

/-- Judge a report about a tilt in flight at its own chute (R97): by its offset while SYNCED; else as on
time for a tray in TILT_ORDERED and as late for one in DROP_DOUBT. -/
def State.judgeDrop (s : State) (h : Chute) (tray : Nat) : Finding :=
  if s.lt.state = .synced then
    if s.dropOffset h tray ≤ h.window then .onTime
    else if 2 * s.dropOffset h tray ≤ s.loopLength then .late
    else .early
  else if (s.tray tray).isDropDoubt then .late
  else .onTime

/-- The tilt side of a chute, swapped when its wiring is inverted (R94). -/
def Chute.tiltSide (h : Chute) : Side :=
  match h.side, h.inverted with
  | .left, false => .left
  | .left, true => .right
  | .right, false => .right
  | .right, true => .left

/-- A load with a group target is accepted at a chute (R92). -/
def State.acceptsGroup (s : State) (c : Nat) (l : Load) (g : Nat) : Bool :=
  match Tbl.get s.groups g, Tbl.get s.chutes c, l.index.bind s.ownerOf with
  | some grp, some h, some (slot, v) =>
    grp.slot == slot && decide (v.state ≠ .closing) && decide (h.role = .sort) && h.bound == g
      && s.cartAccepts h l.charge
  | _, _, _ => false

/-- A load with a chute-role target is accepted at a chute (R93). -/
def State.acceptsRole (s : State) (c : Nat) (r : Role) : Bool :=
  match Tbl.get s.chutes c with
  | none => false
  | some h =>
    decide (h.role = r) && decide (h.avail = .inService)
      && (decide (r ≠ .manual) || decide (s.su.encode.length + s.manualTilts < Config.encodePlaces))

/-- A chute's test of a load's target (R91). -/
def State.accepts (s : State) (c : Nat) (l : Load) : Bool :=
  match l.target with
  | .group g => s.acceptsGroup c l g
  | .role r => s.acceptsRole c r
  | .nowhere => false

/-- The cart a tilt at a chute reserves into: the current cart of a SORT chute (R94). -/
def Chute.tiltCart (h : Chute) : Option Nat := if h.role = .sort then h.cart else none

/-- Reserve a load's room in a cart: an ORDERED entry at the tail, which is not yet a bag in a cart
(R35), then the full test (R94, R121). -/
def State.reserve (s : State) (id chute : Nat) (l : Load) : State :=
  match l.index with
  | none => s
  | some m =>
    (s.editBags id (fun bags => bags ++ [{ index := m, charge := l.charge, mark := .ordered }])
      (fun n => n)).fullTest id chute

/-- Take a tilt of a load at a chute, in one step (R94). -/
def State.takeTilt (s : State) (c k : Nat) (l : Load) (h : Chute) : State :=
  let t :=
    match h.tiltCart with
    | some id => s.reserve id c l
    | none => s
  (t.putTray k (.tiltOrdered l c h.tiltCart)).order h.node 0x22 (b2 k ++ b1 h.tiltSide.ctorIdx)

/-- The DECISION alignment of a chute and a tray (R91, R95). -/
def State.decisionPoint (s : State) (c k : Nat) : State :=
  match s.tray k, Tbl.get s.chutes c with
  | .loaded l, some h =>
    if s.lt.mode ≠ .off ∧ s.accepts c l ∧ s.orderPlace then s.takeTilt c k l h else s
  | _, _ => s

/-- The ARRIVAL alignment of a chute and a tray (R96). -/
def State.arrivalPoint (s : State) (c k : Nat) : State :=
  match s.tray k, Tbl.get s.chutes c with
  | .tiltOrdered _ c' _, some h =>
    if c' = c ∧ h.avail ≠ .inService then s.reportFault c .arrivedUnavailable k none none else s
  | _, _ => s

/-- A tilt passes into doubt, but for the closing test of its cart (R98). -/
def State.enterDoubt (s : State) (k : Nat) : State :=
  match s.tray k with
  | .tiltOrdered l c cart =>
    let t := s.putTray k (.dropDoubt l c cart)
    match cart, l.index with
    | some id, some m =>
      let t' := t.editBags id (remark m .ordered .doubt) (· + 1)
      if l.isManifest then t'.setEntryState m (.inCart id) else t'
    | _, _ => t
  | _ => s

/-- A tilt passes into doubt, in one step (R98, R87). -/
def State.passIntoDoubt (s : State) (k : Nat) : State :=
  match s.tray k with
  | .tiltOrdered _ _ (some id) => (s.enterDoubt k).closingTest id .cartClosed
  | _ => s.enterDoubt k

/-- The WINDOW_CLOSE alignment of a chute and a tray (R98). -/
def State.windowCloses (s : State) (c k : Nat) : State :=
  match s.tray k with
  | .tiltOrdered _ c' _ => if c' = c then s.passIntoDoubt k else s
  | _ => s

/-- A tilt of a load in flight on a tray: what its settlement names. -/
structure Tilt where
  tray : Nat
  load : Load
  chute : Nat
  cart : Nat
  index : Nat
  deriving DecidableEq, Repr

/-- The stow group a load targets, 0 when it targets none. -/
def Load.group (l : Load) : Nat :=
  match l.target with
  | .group g => g
  | _ => 0

/-- Report BAG SORTED (R107). -/
def State.reportSorted (s : State) (x : Tilt) (basis : Basis) (aboard : Bool) : State :=
  s.report 0x30 (b2 x.index ++ b1 (s.slotOf x.index) ++ b1 x.load.group ++ b1 x.cart ++ b1 x.chute
    ++ b2 x.tray ++ b2 x.load.charge ++ bFlag x.load.estimated ++ b2 (x.load.ref.getD 0)
    ++ b1 basis.ctorIdx ++ bFlag aboard)

/-- The bag of a settled tilt is in the ordered cart: its entry is IN_CART there, and a stray's record
closes with outcome SORTED (R103, R105). -/
def State.bagInCart (s : State) (x : Tilt) : State :=
  let t := s.setEntryState x.index (.inCart x.cart)
  match x.load.ref with
  | some ref => t.closeStray ref .sorted (some x.cart)
  | none => t

/-- A drop confirmed at a SORT chute from TILT_ORDERED (R103). -/
def State.confirmDrop (s : State) (x : Tilt) (basis : Basis) : State :=
  let t := (s.editBags x.cart (remark x.index .ordered .dropped) (· + 1)).bagInCart x
  ((t.putTray x.tray .empty).reportSorted x basis false).closingTest x.cart .cartClosed

/-- Where a drop at a role chute leaves a stray (R104). -/
def Role.dropLoc : Role → StrayLoc
  | .manual => .atEncode
  | .hold => .atHold
  | .heavy => .atHeavy
  | .sort => .unknown

/-- A drop at a role chute, confirmed or settled as dropped (R104). -/
def State.roleDrop (s : State) (k c : Nat) (l : Load) : State :=
  let t := s.putTray k .empty
  match l.ref, Tbl.get s.chutes c with
  | some ref, some h => t.moveStray ref (fun r => { r with loc := h.role.dropLoc }) .drop
  | _, _ => t

/-- A doubt at a SORT chute settled as dropped (R105). -/
def State.settleSorted (s : State) (x : Tilt) (basis : Basis) : State :=
  if s.cartHolds x.cart x.index .doubt then
    let t := (s.editBags x.cart (remark x.index .doubt .dropped) (fun n => n)).bagInCart x
    (t.putTray x.tray .empty).reportSorted x basis false
  else
    let t :=
      match x.load.ref with
      | some ref => s.closeStray ref .sorted (some x.cart)
      | none => s
    (t.putTray x.tray .empty).reportSorted x basis true

/-- A tray in DROP_DOUBT is settled as dropped (R88, R104, R105). -/
def State.settleDropped (s : State) (k : Nat) (basis : Basis) : State :=
  match s.tray k with
  | .dropDoubt l c (some id) =>
    match l.index with
    | some m => s.settleSorted { tray := k, load := l, chute := c, cart := id, index := m } basis
    | none => s.putTray k .empty
  | .dropDoubt l c none => s.roleDrop k c l
  | _ => s

/-- The load of a doubt settled as still on tray: verified, laps unchanged (R88). -/
def Load.verify (l : Load) : Load := { l with verified := true }

/-- An aboard correction: the entry, the sailing's tally and the group's bags aboard (R106). -/
def State.correctAboard (s : State) (x : Tilt) : State :=
  let slot := s.slotOf x.index
  let t := s.setEntryState x.index
    (match x.load.ref with | some ref => .stray ref | none => .inFlight x.tray)
  let t := { t with
    sailings := Tbl.modify t.sailings slot (fun v => { v with tally := v.tally - 1 }),
    groups := Tbl.modify t.groups x.load.group (fun g =>
      if g.slot = slot then { g with bagsAboard := g.bagsAboard - 1 } else g) }
  t.report 0x38 (b2 x.index ++ b1 slot ++ b1 x.cart)

/-- A doubt at a SORT chute settled as still on tray, but for the tray and the CHUTE FAULT (R106). -/
def State.undoSorted (s : State) (x : Tilt) : State :=
  if s.cartHolds x.cart x.index .doubt then
    let t := s.editBags x.cart (unlist x.index .doubt) (· - 1)
    if x.load.isManifest then t.setEntryState x.index (.inFlight x.tray) else t
  else s.correctAboard x

/-- A tray in DROP_DOUBT is settled as still on tray (R88, R106). -/
def State.settleOnTray (s : State) (k : Nat) : State :=
  match s.tray k with
  | .dropDoubt l c cart =>
    let t :=
      match cart, l.index with
      | some id, some m => s.undoSorted { tray := k, load := l, chute := c, cart := id, index := m }
      | _, _ => s
    (t.putTray k (.loaded l.verify)).reportFault c .missedDrop k none cart
  | _ => s

end Sys2Proof.Machine
end

