-- ==== Sys2Proof/Machine/LaunchOps.lean ====
section
/-! DEFINITION. Weighing, classifying and queueing a bag at a station, and its launch onto a tray
(chapter 3): what the Induction Unit shares with the loop's alignments. -/

namespace Sys2Proof.Machine

/-! Weighing -/

/-- The scaled net count of one cell (R48). -/
def Cell.scaled (c : Cell) (raw : Nat) : Nat := (raw - c.tare) * c.gain

/-- A bag's mass from the four raw values, absent when a cell is saturated (R48). -/
def Station.weigh (st : Station) (r1 r2 r3 r4 : Nat) : Option Nat :=
  if r1 = 65535 ∨ r2 = 65535 ∨ r3 = 65535 ∨ r4 = 65535 then none
  else
    some (min ((st.cell1.scaled r1 + st.cell2.scaled r2 + st.cell3.scaled r3 + st.cell4.scaled r4 + 51200)
      / 102400) 1023)

/-! Classifying -/

/-- The distinct codes of a reading (R54). -/
def distinctTags : List TagCode → List TagCode
  | [a, b] => if a = b then [a] else [a, b]
  | l => l

/-- A failed check: its class, and the slot and manifest index the reading names. -/
structure Failed where
  cls : Nat
  slot : Option Nat
  hint : Option Nat
  deriving DecidableEq, Repr

/-- The entry a reading names: its sailing's slot, the sailing, the manifest index, the tag's issue. -/
structure Named where
  slot : Nat
  sailing : Sailing
  index : Nat
  issue : Nat
  deriving DecidableEq, Repr

/-- Checks 2 and 3 on a code: sailing and region (R1, R50). -/
def State.nameCode (s : State) (t : TagCode) : Except Failed Named :=
  match s.sailingOfKey (tagKey t) with
  | none => .error ⟨Cls.unknownSailing, none, none⟩
  | some (slot, v) =>
    match v.state with
    | .staged => .error ⟨Cls.unknownSailing, none, none⟩
    | .closing => .error ⟨Cls.sailingClosed, some slot, none⟩
    | .opened | .finalCall =>
      if tagIndex t < v.length then .ok ⟨slot, v, v.base + tagIndex t, tagIssue t⟩
      else .error ⟨Cls.outOfRegion, some slot, none⟩

/-- Checks 1 to 3 on a reading (R50). -/
def State.readTags (s : State) (tags : List TagCode) : Except Failed Named :=
  match distinctTags tags with
  | [] => .error ⟨Cls.noRead, none, none⟩
  | [t] => s.nameCode t
  | _ => .error ⟨Cls.multiRead, none, none⟩

/-- Check 4: the code against the entry (R51). The class of a failure, if any. -/
def State.checkIssue (s : State) (x : Named) : Option Nat :=
  let e := s.entry x.index
  if e.issue = 0 ∨ e.issue < x.issue then some Cls.notManifested
  else if x.issue < e.issue then some Cls.supersededTag
  else if e.state = .withdrawn then some Cls.withdrawn
  else none

/-- Check 5: the entry is held by a bag already (R52). -/
def State.isDuplicate (s : State) (m : Nat) : Bool :=
  match (s.entry m).state with
  | .pending _ | .inFlight _ | .inCart _ | .aboard => true
  | .stray ref => s.indexHeld m || (ref != 0 && s.refHeld ref)
  | .notSeen | .withdrawn => false

/-- Checks 1 to 4 (R50, R51). -/
def State.checkTags (s : State) (tags : List TagCode) : Except Failed Named :=
  match s.readTags tags with
  | .error f => .error f
  | .ok x =>
    match s.checkIssue x with
    | some c => .error ⟨c, some x.slot, some x.index⟩
    | none => .ok x

/-- Checks 1 to 5 (R50, R51, R52). -/
def State.checkBag (s : State) (tags : List TagCode) : Except Failed Named :=
  match s.checkTags tags with
  | .error f => .error f
  | .ok x => if s.isDuplicate x.index then .error ⟨Cls.duplicateBag, some x.slot, some x.index⟩ else .ok x

/-- Checks 6 to 9 on an entry's own bag: hold, mass, stowage, group (R53). -/
def State.finishChecks (s : State) (m : Nat) (v : Sailing) (mass : Option Nat) : Resolution :=
  if (s.entry m).hold ≠ 0 then .stray (s.holdClass (s.entry m).hold)
  else if mass.any (fun x => decide (x < s.cu.settings.lowerMass)) then .stray Cls.underweight
  else if mass.any (fun x => decide (s.cu.settings.upperMass < x)) then .stray Cls.overweight
  else s.resolve m v

/-! Accepting a report -/

/-- An accepted report: the station, the mass and charge, and what was read and keyed. -/
structure Report where
  station : Nat
  mass : Option Nat
  tags : List TagCode
  keyedRef : Nat
  deriving DecidableEq, Repr

/-- Write the mass of an entry when the weighing gave one (R4). -/
def State.writeMass (s : State) (m : Nat) (mass : Option Nat) : State :=
  match mass with
  | some x => s.putEntry m { s.entry m with mass := some x }
  | none => s

/-- What an induction leaves: the state, and the bag's index, ref, target and stray class. -/
structure Inducted where
  state : State
  index : Option Nat
  ref : Option Nat
  target : Target
  cls : Option Nat
  deriving DecidableEq, Repr

/-- The target and class of a resolution (R54, R55, R151). -/
def State.resolved (s : State) (res : Resolution) : Target × Option Nat :=
  match res with
  | .group g => (.group g, none)
  | .stray c => (s.classTarget c, some c)

/-- Move a bag's record to the station with this reading (R55, R57): a stray class replaces the
record's, a group leaves it, and a mass is taken when present. -/
def Stray.atReading (x : Report) (res : Resolution) (r : Stray) : Stray :=
  { r with
    cls := (match res with | .stray c => c | .group _ => r.cls)
    loc := .atStation x.station
    tags := distinctTags x.tags
    mass := (match x.mass with | some v => some v | none => r.mass) }

/-- A bag that is not its entry's, or names none: a record not linked, or none (R54). -/
def State.inductUnlinked (s : State) (x : Report) (f : Failed) : Inducted :=
  let o := s.openStray
    { cls := f.cls, index := f.hint, linked := false, slot := f.slot, tags := distinctTags x.tags,
      mass := x.mass, loc := .atStation x.station, opened := 0 } .induction
  { state := o.1, index := none, ref := o.2, target := s.classTarget f.cls, cls := some f.cls }

/-- The open record linked to an entry: the one its STRAY state names (R55). -/
def State.openRecordOf (s : State) (m : Nat) : Option Nat :=
  match (s.entry m).state with
  | .stray ref => if (Tbl.get s.su.strays ref).isSome then some ref else none
  | _ => none

/-- An entry's own bag: its open record is moved, or a linked record is opened, or the entry becomes
PENDING (R54, R55, R56). A record opened takes the computed mass, or none when the weighing is saturated
(R54), whatever earlier mass the entry holds (R4, log entry 13). -/
def State.inductOwn (s : State) (x : Report) (n : Named) : Inducted :=
  let s := s.writeMass n.index x.mass
  let res := s.finishChecks n.index n.sailing x.mass
  let (target, cls) := s.resolved res
  match s.openRecordOf n.index with
  | some ref =>
    { state := s.moveStray ref (Stray.atReading x res) .induction, index := some n.index, ref := some ref,
      target := target, cls := cls }
  | none =>
    match res with
    | .group _ =>
      { state := s.setEntryState n.index (.pending x.station), index := some n.index, ref := none,
        target := target, cls := none }
    | .stray c =>
      let o := s.openStray
        { cls := c, index := some n.index, linked := true, slot := some n.slot,
          tags := distinctTags x.tags, mass := x.mass, loc := .atStation x.station, opened := 0 } .induction
      { state := o.1.setEntryState n.index (.stray (o.2.getD 0)), index := some n.index, ref := o.2,
        target := target, cls := some c }

/-- An ordinary report: checks 1 to 9 (R50 to R56). -/
def State.inductOrdinary (s : State) (x : Report) : Inducted :=
  match s.checkBag x.tags with
  | .error f => s.inductUnlinked x f
  | .ok n => s.inductOwn x n

/-- The class or group of a keyed reading for a record linked to entry `m` (R57). -/
def State.keyedResolution (s : State) (x : Report) (m : Nat) : Resolution :=
  match s.readTags x.tags with
  | .error f => .stray (if f.cls = Cls.outOfRegion then Cls.multiRead else f.cls)
  | .ok n =>
    if n.index ≠ m then .stray Cls.multiRead
    else
      match s.checkIssue n with
      | some c => .stray c
      | none => s.finishChecks m n.sailing x.mass

/-- A keyed report whose record is linked to entry `m` (R57). -/
def State.inductKeyedLinked (s : State) (x : Report) (m : Nat) : Inducted :=
  let s := s.writeMass m x.mass
  let res := s.keyedResolution x m
  let (target, cls) := s.resolved res
  { state := s.moveStray x.keyedRef (Stray.atReading x res) .keyed, index := some m, ref := some x.keyedRef,
    target := target, cls := cls }

/-- Check 5 for a keyed report of a record that is not linked: an entry STRAY at an open record of its
own is elsewhere (R58). -/
def State.checkKeyed (s : State) (tags : List TagCode) : Except Failed Named :=
  match s.checkBag tags with
  | .error f => .error f
  | .ok n =>
    if (s.openRecordOf n.index).isSome then .error ⟨Cls.duplicateBag, some n.slot, some n.index⟩ else .ok n

/-- A keyed report whose record is not linked (R58). -/
def State.inductKeyedUnlinked (s : State) (x : Report) : Inducted :=
  match s.checkKeyed x.tags with
  | .error f =>
    { state := s.moveStray x.keyedRef
        (fun r => { Stray.atReading x (.stray f.cls) r with index := f.hint, slot := f.slot }) .keyed,
      index := none, ref := some x.keyedRef, target := s.classTarget f.cls, cls := some f.cls }
  | .ok n =>
    let s := (s.writeMass n.index x.mass).setEntryState n.index (.stray x.keyedRef)
    let res := s.finishChecks n.index n.sailing x.mass
    let (target, cls) := s.resolved res
    { state := s.moveStray x.keyedRef
        (fun r => { Stray.atReading x res r with
          index := some n.index, linked := true, slot := some n.slot }) .keyed,
      index := some n.index, ref := some x.keyedRef, target := target, cls := cls }

/-- The record of a keyed report: named by an ENCODE station's report with the flag set, open, and held
by nothing (R57). -/
def State.keyedRecord (s : State) (st : Station) (keyed : Bool) (ref : Nat) : Option Stray :=
  if st.kind = .encode ∧ keyed ∧ s.refHeld ref = false then Tbl.get s.su.strays ref else none

/-- Classify a report's bag and make the changes the classification calls for (R50 to R58). -/
def State.induct (s : State) (x : Report) (keyed : Option Stray) : Inducted :=
  match keyed with
  | none => s.inductOrdinary x
  | some r =>
    match r.linked, r.index with
    | true, some m => s.inductKeyedLinked x m
    | _, _ => s.inductKeyedUnlinked x

/-- The payload of an ACCEPTED STATION REPLY (R59, 9.4.2). -/
def State.acceptedReply (s : State) (position charge : Nat) (estimated : Bool) (o : Inducted) : List Byte :=
  let common := b1 0 ++ b1 position ++ b2 charge ++ bFlag estimated
  match o.target, o.cls with
  | .group g, none =>
    let grp := Tbl.get s.groups g
    common ++ b1 0 ++ b1 ((grp.map Group.deck).getD 0) ++ b1 ((grp.map Group.zone).getD 0) ++ b1 0 ++ b2 0
  | _, cls => common ++ b1 1 ++ b1 0 ++ b1 0 ++ b1 (cls.getD 0) ++ b2 (o.ref.getD 0)

/-- Accept a report: classify the bag, join the queue's tail and reply (R47, R49, R59, R60). -/
def State.acceptReport (s : State) (st : Station) (x : Report) (keyed : Bool) : State :=
  let o := s.induct x (s.keyedRecord st keyed x.keyedRef)
  let (charge, estimated) := chargeOf s.cu.settings.defaultCharge x.mass
  let bag : Load :=
    { index := o.index, ref := o.ref, target := o.target, charge := charge, estimated := estimated,
      laps := 0, verified := false, station := some x.station,
      rideSent := false }
  (o.state.putStation x.station { st with queue := st.queue ++ [bag] }).order st.node 0x20
    (s.acceptedReply (st.queue.length + 1) charge estimated o)

/-- Take an INDUCTION REPORT at a station (R47). -/
def State.takeReport (s : State) (n : Nat) (st : Station) (r1 r2 r3 r4 : Nat) (tags : List TagCode)
    (keyed : Bool) (ref : Nat) : State :=
  if s.orderPlace = false then s
  else if Config.pendingPlaces ≤ st.queue.length then s.order st.node 0x20 (b1 1)
  else
    s.acceptReport st
      { station := n, mass := st.weigh r1 r2 r3 r4, tags := tags, keyedRef := ref } keyed

/-! Launching -/

/-- The launch of a station's head onto its ordered tray is made, or taken as made (R62, R64, R77). -/
def State.takeLaunch (s : State) (n : Nat) : State :=
  match Tbl.get s.stations n with
  | none => s
  | some st =>
    match st.ordered, st.queue with
    | some k, bag :: rest =>
      let t := (s.putStation n { st with queue := rest, ordered := none }).putTray k
        (.loaded { bag with verified := false })
      let t :=
        match bag.index with
        | some m => if bag.isManifest then t.setEntryState m (.inFlight k) else t
        | none => t
      match bag.ref with
      | some ref => t.moveStray ref (fun r => { r with loc := .onTray k }) .launch
      | none => t
    | _, _ => s

/-- The reserved tray of a launch that ends without a bag returns to EMPTY (R63, R65). -/
def State.dropLaunch (s : State) (n : Nat) : State :=
  match Tbl.get s.stations n with
  | none => s
  | some st =>
    match st.ordered with
    | none => s
    | some k => (s.putStation n { st with ordered := none }).putTray k .empty

/-- The LAUNCH alignment of a station and a tray (R61). -/
def State.offerLaunch (s : State) (n k : Nat) : State :=
  match Tbl.get s.stations n with
  | none => s
  | some st =>
    match st.ordered, st.queue with
    | none, bag :: _ =>
      if s.lt.mode = .run ∧ s.lt.state = .synced ∧ s.tray k = .empty ∧ s.orderPlace then
        ((s.putTray k .reserved).putStation n { st with ordered := some k }).order st.node 0x21
          (b2 k ++ bOpt 2 b2 bag.index ++ b2 (bag.ref.getD 0))
      else s
    | _, _ => s

/-- The LAUNCH_CLOSE alignment of a station and a tray (R64). -/
def State.launchCloses (s : State) (n k : Nat) : State :=
  match Tbl.get s.stations n with
  | none => s
  | some st => if st.ordered = some k then s.takeLaunch n else s

/-- What BAG REMOVED changes of the bag taken out of the queue of a station (R65). -/
def State.removeBag (s : State) (bag : Load) : State :=
  match bag.ref, bag.index with
  | some ref, _ => s.moveStray ref (fun r => r) .removed true
  | none, some m => if bag.isManifest then s.setEntryState m .notSeen else s
  | none, none => s

/-- The named bag leaves a station's queue; with the head goes its launch in flight (R65). -/
def State.takeBagOff (s : State) (n position : Nat) : State :=
  match Tbl.get s.stations n with
  | none => s
  | some st =>
    match position, st.queue[position - 1]? with
    | 0, _ => s
    | _, none => s
    | p + 1, some bag =>
      let t := if p = 0 then s.dropLaunch n else s
      let t := { t with
        stations := Tbl.modify t.stations n (fun v => { v with queue := v.queue.eraseIdx p }) }
      t.removeBag bag

end Sys2Proof.Machine
end

