-- ==== Sys2Proof/Machine/LoopOps.lean ====
section
/-! DEFINITION. The loop point list, the loop's states, the eye and the alignments (chapter 4). -/

namespace Sys2Proof.Machine

/-! The loop point list -/

/-- The order of the loop point list: coordinate, kind, owner (R71). -/
def LoopPoint.before (a b : LoopPoint) : Bool :=
  decide (a.coord < b.coord)
    || (a.coord == b.coord
      && (decide (a.kind.ctorIdx < b.kind.ctorIdx) || (decide (a.kind = b.kind) && decide (a.owner < b.owner))))

/-- Put a point at its place in the list. -/
def insertPoint (a : LoopPoint) : List LoopPoint → List LoopPoint
  | [] => [a]
  | b :: t => if a.before b then a :: b :: t else b :: insertPoint a t

/-- The launch point of a station (3.1). -/
def Station.launchCoord (y : Layout) (st : Station) : Nat := (st.coord + y.length - st.lead) % y.length

/-- The launch-close point of a station (3.1). -/
def Station.closeCoord (y : Layout) (st : Station) : Nat := (st.coord + st.window) % y.length

/-- The decision point of a chute (4.2.1). -/
def Chute.decisionCoord (y : Layout) (h : Chute) : Nat := (h.coord + y.length - h.lead) % y.length

/-- The window-close point of a chute (4.2.1). -/
def Chute.closeCoord (y : Layout) (h : Chute) : Nat := (h.coord + h.window) % y.length

/-- The points of the layout, the configured stations and the configured chutes, in no order (4.2.1). -/
def State.allPoints (s : State) (y : Layout) : List LoopPoint :=
  [{ kind := .home, coord := 0, owner := 0 }, { kind := .occupancy, coord := y.eye, owner := 0 }]
    ++ s.stations.flatMap (fun r =>
      [{ kind := .launchClose, coord := r.2.closeCoord y, owner := r.1 },
       { kind := .launch, coord := r.2.launchCoord y, owner := r.1 }])
    ++ s.chutes.flatMap (fun r =>
      [{ kind := .windowClose, coord := r.2.closeCoord y, owner := r.1 },
       { kind := .arrival, coord := r.2.coord, owner := r.1 },
       { kind := .decision, coord := r.2.decisionCoord y, owner := r.1 }])

/-- Rebuild the loop point list in one step (R71). -/
def State.rebuildPoints (s : State) : State :=
  { s with
    lt := { s.lt with
      points :=
        match s.lt.layout with
        | none => []
        | some y => (s.allPoints y).foldr insertPoint [] } }

/-! Loop state -/

/-- Report LOOP STATE, with the state and position after the change (R73). The deviation is sent as an
optional field, absent for a cause that has none (log entry 5). -/
def State.reportLoop (s : State) (old : LoopState) (cause : LoopCause) (d : Option Int) : State :=
  s.report 0x3B (b1 s.lt.state.ctorIdx ++ b1 old.ctorIdx ++ b1 cause.ctorIdx ++ b2 s.lt.pos ++ bOpt 2 bInt d)

/-- The loop leaves SYNCED for STOPPED or SLIPPED: the loss point is P, the advances since loss and the
absorb count 0 (R72). -/
def LoopTracker.lose (t : LoopTracker) : LoopTracker :=
  { t with lossPoint := t.pos, advances := 0, absorb := 0 }

/-- The loop becomes SLIPPED: at a home outside the tolerance, or a missed home (R76, R78). -/
def State.slip (s : State) (cause : LoopCause) (d : Option Int) : State :=
  { s with lt := { s.lt.lose with state := .slipped, missed := 0 } }.reportLoop s.lt.state cause d

/-- The HOME alignment of tray 0: the missed-home count rises, and at 2 the loop slips (R78). -/
def State.homeAligned (s : State) : State :=
  let t := { s with lt := { s.lt with missed := s.lt.missed + 1 } }
  if 2 ≤ t.lt.missed then t.slip .homeMissed none else t

/-! The eye -/

/-- An untracked bag on an EMPTY tray (R81). -/
def State.untrackedBag (s : State) (k : Nat) : State :=
  let o := s.openStray
    { cls := Cls.untracked, index := none, linked := false, slot := none, tags := [], mass := none,
      loc := .onTray k, opened := 0 } .untracked
  o.1.putTray k (.loaded
    { index := none, ref := o.2, target := s.classTarget Cls.untracked,
      charge := s.cu.settings.defaultCharge, estimated := true, laps := 0, verified := true,
      station := none, rideSent := false })

/-- A lost bag: the tray becomes EMPTY and the bag a LOST stray, located UNKNOWN (R86). -/
def State.lostBag (s : State) (k : Nat) (l : Load) : State :=
  let s := s.putTray k .empty
  match l.ref, l.index with
  | some ref, _ => s.moveStray ref (fun r => { r with cls := Cls.lost, loc := .unknown }) .lost
  | none, some m =>
    let o := s.openStray (s.linkedStray m (s.slotOf m) Cls.lost .unknown) .lost
    o.1.setEntryState m (.stray (o.2.getD 0))
  | none, none =>
    (s.openStray
      { cls := Cls.lost, index := none, linked := false, slot := none, tags := [], mass := none,
        loc := .unknown, opened := 0 } .lost).1

/-- A lap counted, stopping at 15 (R84, R85). -/
def Load.lap (l : Load) : Load := { l with laps := min (l.laps + 1) Config.lapStop }

/-- A manifest load past its sailing's lap limit becomes a LAP_LIMIT stray (R84). -/
def State.lapLimitTest (s : State) (k : Nat) : State :=
  match s.tray k with
  | .loaded l =>
    match l.index.bind (fun m => (s.ownerOf m).map (fun o => (m, o))) with
    | some (m, slot, v) =>
      if l.isManifest ∧ v.lapLimit < l.laps then
        s.strayBag m slot Cls.lapLimit (.onTray k) .lapLimit
      else s
    | none => s
  | _ => s

/-- Resolve the manifest load of a tray at the eye (R83). -/
def State.resolveTray (s : State) (k : Nat) (l : Load) : State :=
  match l.index.bind (fun m => (s.ownerOf m).map (fun o => (m, o))) with
  | some (m, slot, v) => s.applyResolution m slot (s.resolve m v) (.onTray k) .resolve
  | none => s

/-- Report STRAY RIDING for a tray's load (R85, R152). -/
def State.reportRiding (s : State) (k : Nat) (l : Load) : State :=
  s.report 0x2E (b2 k ++ b2 (l.ref.getD 0)
    ++ bOpt 1 b1 (l.ref.bind (fun ref => (Tbl.get s.su.strays ref).map Stray.cls)) ++ b1 l.laps)

/-- A stray load that was not reported before: its lap count rises by this lap to equal the stray lap limit
(R85). -/
def State.lapMeetsLimit (s : State) (l : Load) : Bool :=
  !l.rideSent && l.lap.laps == s.cu.settings.strayLapLimit && decide (l.laps < l.lap.laps)

/-- STRAY RIDING was sent for the load (R85). -/
def Load.reported (l : Load) : Load := { l with rideSent := true }

/-- A verified load ridden past the eye: its lap is counted; a manifest load is resolved and tested
against the lap limit (R84), a stray load reported as it reaches the stray lap limit (R85). -/
def State.rideLap (s : State) (k : Nat) (l : Load) : State :=
  let t := s.putTray k (.loaded l.lap)
  if l.isManifest then (t.resolveTray k l).lapLimitTest k
  else if s.lapMeetsLimit l then (s.putTray k (.loaded l.lap.reported)).reportRiding k l.lap
  else t

/-- A LOADED tray at the eye with OCC high: a launch confirmed (R83), or a lap (R84, R85). -/
def State.bagSeen (s : State) (k : Nat) (l : Load) : State :=
  if l.verified then s.rideLap k l
  else
    let t := s.putTray k (.loaded l.verify)
    if l.isManifest then t.resolveTray k l else t

/-- A tray in DROP_DOUBT at the eye (R88). -/
def State.settleByEye (s : State) (k : Nat) (occ : Bool) : State :=
  if occ then s.settleOnTray k else s.settleDropped k .eye

/-- The OCCUPANCY alignment of a tray, OCC as read at it (R81 to R88, 4.8.1). -/
def State.eyePass (s : State) (k : Nat) (occ : Bool) : State :=
  match s.tray k with
  | .empty => if occ then s.untrackedBag k else s
  | .reserved => s
  | .loaded l => if occ then s.bagSeen k l else s.lostBag k l
  | .tiltOrdered .. => (s.passIntoDoubt k).settleByEye k occ
  | .dropDoubt .. => s.settleByEye k occ

/-! Alignments -/

/-- The kinds raised in a loop state (R70). -/
def LoopState.raises (st : LoopState) (k : PointKind) : Bool :=
  match st, k with
  | .synced, _ => true
  | .stopped, _ => false
  | _, .occupancy | _, .windowClose | _, .launchClose => true
  | _, _ => false

/-- A point and the tray it aligns at a position, if any (R70). -/
def Layout.aligns (y : Layout) (pos : Nat) (pt : LoopPoint) : Option Nat :=
  if y.offset pos pt.coord % y.pitch = 0 then some (y.offset pos pt.coord / y.pitch) else none

/-- Hand an alignment to the owner of its point, if the loop state raises its kind (R70). The HOME point
counts a missed home only as it aligns tray 0 (R78). -/
def State.takeAlignment (s : State) (pt : LoopPoint) (k : Nat) (occ : Bool) : State :=
  if s.lt.state.raises pt.kind then
    match pt.kind with
    | .home => if k = 0 then s.homeAligned else s
    | .occupancy => s.eyePass k occ
    | .windowClose => s.windowCloses pt.owner k
    | .launchClose => s.launchCloses pt.owner k
    | .arrival => s.arrivalPoint pt.owner k
    | .decision => s.decisionPoint pt.owner k
    | .launch => s.offerLaunch pt.owner k
  else s

/-- A launch point waits for its station's launch close, when both align a tray at this count and the
close stands behind it in the list (R64, log entry 16). -/
def State.launchWaits (s : State) (y : Layout) (pt : LoopPoint) : Bool :=
  decide (pt.kind = .launch)
    && s.lt.points.any (fun q => decide (q.kind = .launchClose) && q.owner == pt.owner && pt.before q
      && (y.aligns s.lt.pos q).isSome)

/-- The order in which the alignments of this count are taken: that of the loop point list (R70, R71),
but a launch point that waits comes directly after its station's launch close (R64, log entry 16). An eye
and a decision point of different coordinates align two trays and keep the order of the list (R95). -/
def State.countOrder (s : State) (y : Layout) : List LoopPoint :=
  s.lt.points.flatMap (fun pt =>
    if s.launchWaits y pt then []
    else if pt.kind = .launchClose then
      pt :: s.lt.points.filter (fun q => s.launchWaits y q && q.owner == pt.owner)
    else [pt])

/-- Raise the alignments of the position as it stands, in their order (R70, R71). -/
def State.takeCount (s : State) (y : Layout) (occ : Bool) : State :=
  (s.countOrder y).foldl
    (fun t pt =>
      match y.aligns s.lt.pos pt with
      | some k => t.takeAlignment pt k occ
      | none => t) s

/-- The alignments of the position as it stands are taken: the eye judges it no second time (R70, log
entry 6). -/
def State.eyeDone (s : State) : State := { s with lt := { s.lt with eyeTaken := true } }

/-- P rises by 1, wrapping from L - 1 to 0 (R69). -/
def Layout.nextPos (y : Layout) (pos : Nat) : Nat := if pos + 1 < y.length then pos + 1 else 0

/-- One advance of the loop (R69). -/
def State.advance (s : State) (y : Layout) (occ : Bool) : State :=
  if 0 < s.lt.absorb then { s with lt := { s.lt with absorb := s.lt.absorb - 1 } }
  else
    ({ s with
      lt := { s.lt with
        pos := y.nextPos s.lt.pos, eyeTaken := false,
        advances :=
          if s.lt.state = LoopState.synced then s.lt.advances
          else min (s.lt.advances + 1) y.length } }.takeCount y occ).eyeDone

/-- The effective divisor (R69). -/
def Layout.effectiveDivisor (y : Layout) : Nat := max y.divisor 1

/-- An encoder pulse (R69). -/
def State.pulse (s : State) (occ : Bool) : State :=
  let s := { s with lu := { s.lu with occ := occ } }
  match s.lt.layout with
  | none => s
  | some y =>
    if s.lu.loopRun then
      if s.lt.acc + 1 < y.effectiveDivisor then { s with lt := { s.lt with acc := s.lt.acc + 1 } }
      else { s with lt := { s.lt with acc := 0 } }.advance y occ
    else s

/-! Home -/

/-- The deviation of a home (4.4, R75). -/
def Layout.deviation (y : Layout) (pos : Nat) : Int :=
  if 2 * pos ≤ y.length then (pos : Int) else (pos : Int) - y.length

/-- P stepped forward, every alignment of each stepped count raised in order (R75). -/
def State.stepCounts (s : State) (y : Layout) (occ : Bool) : Nat → State
  | 0 => s
  | n + 1 =>
    ({ s with lt := { s.lt with pos := y.nextPos s.lt.pos, eyeTaken := false } }.takeCount y occ).eyeDone.stepCounts
      y occ n

/-- A home taken in SYNCED within the tolerance (R75). -/
def State.correctHome (s : State) (y : Layout) (d : Int) (occ : Bool) : State :=
  let t :=
    if d < 0 then { s with lt := { s.lt with absorb := 0 } }.stepCounts y occ d.natAbs
    else { s with lt := { s.lt with absorb := d.natAbs } }
  { t with lt := { t.lt with lastCorrection := d, missed := 0 } }

/-- A count lies in the span judged at a resynchronisation: after the loss point, up to and including
count 0, or the whole loop (R77). -/
def LoopTracker.inSpan (t : LoopTracker) (y : Layout) (count : Nat) : Bool :=
  t.lossPoint == 0 || decide (y.length ≤ t.advances) || decide (t.lossPoint < count) || count == 0

/-- A tray's tilt whose window-close count lies in the span (R77). -/
def State.windowInSpan (s : State) (y : Layout) (k : Nat) : Bool :=
  match s.tray k with
  | .tiltOrdered _ c _ =>
    (Tbl.get s.chutes c).any (fun h => s.lt.inSpan y (y.arrival (h.coord + h.window) k))
  | _ => false

/-- A station's launch whose launch-close count lies in the span (R77). -/
def State.launchInSpan (s : State) (y : Layout) (n : Nat) : Bool :=
  (Tbl.get s.stations n).any (fun st =>
    st.ordered.any (fun k => s.lt.inSpan y (y.arrival (st.coord + st.window) k)))

/-- Judge the span of a resynchronisation: window closes, closings in ascending cart id, launch closes
(R77). -/
def State.judgeSpan (s : State) (y : Layout) : State :=
  let t := (Tbl.keys s.trays).foldl (fun t k => if s.windowInSpan y k then t.enterDoubt k else t) s
  let t := (Tbl.keys t.carts).foldl (fun t id => t.closingTest id .cartClosed) t
  (Tbl.keys t.stations).foldl (fun t n => if s.launchInSpan y n then t.takeLaunch n else t) t

/-- A home taken in UNSYNCED or SLIPPED (R77). -/
def State.resync (s : State) (y : Layout) (d : Int) : State :=
  let t := s.judgeSpan y
  { t with
    lt := { t.lt with
      pos := 0, absorb := 0, advances := 0, missed := 0, lossPoint := 0, state := .synced,
      eyeTaken := true } }.reportLoop
    s.lt.state .homeSync (some d)

/-- A rise of HOME (R75, R76, R77). -/
def State.homeRises (s : State) (occ : Bool) : State :=
  let s := { s with lu := { s.lu with occ := occ } }
  match s.lt.layout with
  | none => s
  | some y =>
    let d := y.deviation s.lt.pos
    match s.lt.state with
    | .stopped => s
    | .synced => if d.natAbs ≤ y.tolerance then s.correctHome y d occ else s.slip .homeDeviation (some d)
    | .unsynced | .slipped => s.resync y d

end Sys2Proof.Machine
end

