-- ==== Sys2Proof/Machine/LongOps.lean ====
section
/-! DEFINITION. The long-operation slot (10.4) and the named places of the commands. -/

namespace Sys2Proof.Machine

/-- The sailing a command's slot byte names: RANGE outside 1-4, ABSENT for an EMPTY slot (R176). -/
def State.namedSlot (s : State) (n : Nat) : Except Code Sailing :=
  if n < 1 ∨ 4 < n then .error .range
  else
    match Tbl.get s.sailings n with
    | none => .error .absent
    | some v => .ok v

/-- A long operation of a kind is in flight on a slot. -/
def State.longRuns (s : State) (k : LongKind) (slot : Nat) : Bool :=
  s.cu.longOp.any (fun o => decide (o.kind = k) && o.slot == slot)

/-- Tallies all 0 (R23). -/
def Tallies.zero : Tallies := { aboard := 0, inCart := 0, ashore := 0, withdrawn := 0 }

/-- Report LONG OP END; values not given are 0 (R185). The operation is sent over the list of R177, NONE
first, and each of the five values in two bytes, a group among them (log entry 5). -/
def State.reportEnd (s : State) (e : EndRecord) (values : List Nat) : State :=
  s.report 0x3C (b1 (longKindCode (some e.kind)) ++ b1 e.slot ++ b1 e.outcome.ctorIdx ++ b1 e.reason.ctorIdx
    ++ b2 (values.getD 0 0) ++ b2 (values.getD 1 0) ++ b2 (values.getD 2 0) ++ b2 (values.getD 3 0)
    ++ b2 (values.getD 4 0) ++ b4 s.lu.clock)

/-- The operation in flight ends: the slot becomes empty and the last end record is written (R185). -/
def State.endLong (s : State) (e : EndRecord) : State :=
  { s with cu := { s.cu with longOp := none, lastEnd := some e } }

/-- End the operation in flight SUPERSEDED, with its report (R184, R185). -/
def State.supersede (s : State) : State :=
  match s.cu.longOp with
  | none => s
  | some o =>
    let e : EndRecord :=
      { kind := o.kind, slot := o.slot, outcome := .superseded, reason := .noReason }
    (s.endLong e).reportEnd e [o.steps]

/-- Start a long operation in the slot (R182). -/
def State.startLong (s : State) (k : LongKind) (slot : Nat) : State :=
  let t := s.supersede
  { t with cu := { t.cu with longOp := some { kind := k, slot := slot, steps := 0, tallies := .zero } } }

/-- The start fields of a long command's reply (R182). -/
def State.startFields (s : State) (k : LongKind) : List Byte :=
  b1 (longKindCode (some k)) ++ b1 (longKindCode (s.cu.longOp.map LongOp.kind))
    ++ b1 ((s.cu.longOp.map LongOp.slot).getD 0) ++ b2 ((s.cu.longOp.map LongOp.steps).getD 0)

/-- Count a step of the operation in flight (R183). -/
def State.countStep (s : State) (o : LongOp) : State :=
  { s with cu := { s.cu with longOp := some { o with steps := o.steps + 1 } } }

/-- The operation of a kind in flight, with its sailing. -/
def State.inFlightOp (s : State) (k : LongKind) : Option (LongOp × Sailing) :=
  match s.cu.longOp with
  | none => none
  | some o =>
    if o.kind = k then (Tbl.get s.sailings o.slot).map (fun v => (o, v)) else none

end Sys2Proof.Machine
end

