-- ==== Sys2Proof/Machine/Manifest.lean ====
section
/-! DEFINITION. Chapter 1: sailings, the manifest's loading and edits, REGION INIT and SAILING CLOSE. -/

namespace Sys2Proof.Machine

/-! Sailings -/

/-- A sequencer as SAILING DEFINE gives it (R134). -/
def Sequencer.initial : Sequencer :=
  { mode := .off, divisor := 0, period := 0, current := 1, released := 0, lifts := 0, due := 0 }

/-- Two regions share an entry (R7). -/
def overlap (b1 l1 b2 l2 : Nat) : Bool := decide (b1 < b2 + l2) && decide (b2 < b1 + l1)

/-- SAILING DEFINE (R7). -/
def sailingDefine (p : List Byte) (s : State) : CmdResult :=
  match p with
  | [slot, key, b1, b0, l1, l0, door, lap] =>
    let base := u16 b1 b0
    let len := u16 l1 l0
    if slot.toNat < 1 ∨ 4 < slot.toNat then .error .range
    else if (Tbl.get s.sailings slot.toNat).isSome then .error .state
    else if key = 0 ∨ len = 0 ∨ Config.storeSize < base + len ∨ 125 < door.toNat then .error .range
    else if (s.sailingOfKey key.toNat).isSome then .error .conflict
    else if s.sailings.any (fun r => overlap base len r.2.base r.2.length) then .error .conflict
    else
      .ok (s.putSailing slot.toNat
        { key := key.toNat, state := .staged, base := base, length := len, ready := false,
          committed := false, door := door, lapLimit := clampLapLimit lap.toNat, tally := 0, live := [],
          staged := [], steps := [], seq := .initial }, [])
  | _ => .error .badForm

/-- SAILING STATE, target OPEN (R8). -/
def sailingOpen (n : Nat) (v : Sailing) (s : State) : CmdResult :=
  if v.state = .staged ∧ v.ready ∧ v.committed then
    .ok (s.putSailing n { v with state := .opened }, [])
  else .error .state

/-- The carts of a sailing's groups, in ascending id. -/
def State.cartsOf (s : State) (n : Nat) : List Nat :=
  (s.carts.filter (fun r => (Tbl.get s.groups r.2.group).any (fun g => g.slot == n))).map Prod.fst

/-- SAILING STATE, target FINAL (R9): the sailing's FILLING carts that hold entries are closed by force,
in ascending cart id (R124). -/
def sailingFinal (n : Nat) (v : Sailing) (s : State) : CmdResult :=
  if v.state = .opened then
    let t := s.putSailing n { v with state := .finalCall }
    .ok ((t.cartsOf n).foldl (fun t id => t.forceClose id .finalMove) t, [])
  else .error .state

/-- SAILING STATE (R8, R9). -/
def sailingState (p : List Byte) (s : State) : CmdResult :=
  match p with
  | [slot, target] =>
    match SailingState.ofByte target with
    | some (some .opened) =>
      match s.namedSlot slot.toNat with
      | .error c => .error c
      | .ok v => sailingOpen slot.toNat v s
    | some (some .finalCall) =>
      match s.namedSlot slot.toNat with
      | .error c => .error c
      | .ok v => sailingFinal slot.toNat v s
    | _ => .error .range
  | _ => .error .badForm

/-! Loading the manifest -/

/-- One entry of an ENTRY PUT (R11). -/
structure NewEntry where
  issue : Nat
  cabin : Nat
  hold : Nat
  deriving DecidableEq, Repr

/-- The entries of an ENTRY PUT's payload, four bytes each (10.1.2). -/
def newEntries : List Byte → Option (List NewEntry)
  | [] => some []
  | i :: c1 :: c0 :: h :: t =>
    (newEntries t).map (fun l => { issue := i.toNat, cabin := u16 c1 c0, hold := h.toNat } :: l)
  | _ => none

/-- A hold reason an entry may be given (R11, 1.2.1). -/
def validHold (n : Nat) : Bool := n == 0 || n == 1 || (decide (16 ≤ n) && decide (n ≤ 31))

/-- The values of an ENTRY PUT's entry are in range (R11). -/
def NewEntry.inRange (e : NewEntry) : Bool :=
  decide (1 ≤ e.issue) && decide (e.issue ≤ 15) && decide (1 ≤ e.cabin) && validHold e.hold

/-- Issue entries from a manifest index upward (R11). -/
def State.issueFrom (s : State) : Nat → List NewEntry → State
  | _, [] => s
  | m, e :: t =>
    (s.putEntry m { issue := e.issue, cabin := e.cabin, hold := e.hold, mass := none, state := .notSeen }).issueFrom
      (m + 1) t

/-- Some entry from a manifest index upward is already issued (R11). -/
def State.anyIssued (s : State) (m count : Nat) : Bool :=
  (List.range count).any (fun i => (s.entry (m + i)).issue != 0)

/-- ENTRY PUT once its form and values have passed (R11). -/
def State.putEntries (s : State) (slot first : Nat) (es : List NewEntry) : CmdResult :=
  match s.namedSlot slot with
  | .error c => .error c
  | .ok v =>
    if v.length < first + es.length then .error .range
    else if v.state = .closing ∨ s.longRuns .regionInit slot ∨ v.ready = false then .error .state
    else if s.anyIssued (v.base + first) es.length then .error .conflict
    else .ok (s.issueFrom (v.base + first) es, [])

/-- ENTRY PUT (R11). -/
def entryPut (p : List Byte) (s : State) : CmdResult :=
  match p with
  | slot :: f1 :: f0 :: count :: rest =>
    match newEntries rest with
    | none => .error .badForm
    | some es =>
      if es.length ≠ count.toNat then .error .badForm
      else if es.length < 1 ∨ 8 < es.length ∨ es.any (fun e => !e.inRange) then .error .range
      else s.putEntries slot.toNat (u16 f1 f0) es
  | _ => .error .badForm

/-! Naming and editing an entry -/

/-- The checks of R5 that ENTRY READ makes: the slot and the region index. -/
def State.readEntry (s : State) (slot index : Nat) : Except Code (Sailing × Nat) :=
  match s.namedSlot slot with
  | .error c => .error c
  | .ok v => if v.length ≤ index then .error .range else .ok (v, v.base + index)

/-- The five checks of R5 that an edit makes. -/
def State.editEntry (s : State) (slot index : Nat) : Except Code (Sailing × Nat) :=
  match s.readEntry slot index with
  | .error c => .error c
  | .ok (v, m) =>
    if s.longRuns .regionInit slot then .error .state
    else if v.state = .closing ∨ v.ready = false then .error .state
    else if (s.entry m).issue = 0 then .error .absent
    else .ok (v, m)

/-- An entry's location as sent: a kind and two bytes (9.1.3). -/
def EntryState.locBytes (st : EntryState) : List Byte :=
  b1 st.ctorIdx ++ b2 (match st with
    | .pending n => n
    | .inFlight k => k
    | .inCart id => id
    | .stray ref => ref
    | _ => 0)

/-- What an accepted edit's reply carries: the entry's state and location (R5). -/
def State.editFields (s : State) (m : Nat) : List Byte :=
  b1 (s.entry m).state.ctorIdx ++ (s.entry m).state.locBytes

/-- The bag of an entry rides a tray in TILT_ORDERED (R13, R14, R15, R16). -/
def State.inFlightTilting (s : State) (m : Nat) : Bool :=
  match (s.entry m).state with
  | .inFlight k => (s.tray k).isTiltOrdered
  | _ => false

/-- An accepted edit hands a waiting or riding bag on for re-resolution (R12). -/
def State.reresolve (s : State) (m slot : Nat) (v : Sailing) (reissued : Bool) : State :=
  match (s.entry m).state.bagLoc? with
  | none => s
  | some loc =>
    s.applyResolution m slot (if reissued then .stray Cls.supersededTag else s.resolve m v) loc .edit

/-- CABIN CHANGE once R5 has passed (R13). -/
def State.changeCabin (s : State) (slot : Nat) (v : Sailing) (m cabin : Nat) (reissue : Bool) : CmdResult :=
  let e := s.entry m
  if cabin = 0 then .error .range
  else
    match e.state with
    | .inCart _ | .aboard | .withdrawn => .error .state
    | _ =>
      if s.inFlightTilting m then .error .state
      else if reissue ∧ e.issue = 15 then .error .range
      else
        let t := (s.putEntry m { e with cabin := cabin, issue := if reissue then e.issue + 1 else e.issue }).reresolve
          m slot v reissue
        .ok (t, t.editFields m)

/-- CABIN CHANGE (R13). -/
def cabinChange (p : List Byte) (s : State) : CmdResult :=
  match p with
  | [slot, i1, i0, c1, c0, flag] =>
    match s.editEntry slot.toNat (u16 i1 i0) with
    | .error c => .error c
    | .ok (v, m) => s.changeCabin slot.toNat v m (u16 c1 c0) (flagOf flag)
  | _ => .error .badForm

/-- The shared end of HOLD SET and HOLD CLEAR: the state refusals, the reason, the bag (R14, R15). -/
def State.writeHold (s : State) (slot : Nat) (v : Sailing) (m reason : Nat) : CmdResult :=
  if (s.entry m).state = .withdrawn ∨ s.inFlightTilting m then .error .state
  else
    let t := (s.putEntry m { s.entry m with hold := reason }).reresolve m slot v false
    .ok (t, t.editFields m)

/-- HOLD SET (R14). -/
def holdSet (p : List Byte) (s : State) : CmdResult :=
  match p with
  | [slot, i1, i0, reason] =>
    match s.editEntry slot.toNat (u16 i1 i0) with
    | .error c => .error c
    | .ok (v, m) =>
      if reason = 0 ∨ validHold reason.toNat = false then .error .range
      else s.writeHold slot.toNat v m reason.toNat
  | _ => .error .badForm

/-- HOLD CLEAR (R15). -/
def holdClear (p : List Byte) (s : State) : CmdResult :=
  match p with
  | [slot, i1, i0] =>
    match s.editEntry slot.toNat (u16 i1 i0) with
    | .error c => .error c
    | .ok (v, m) => s.writeHold slot.toNat v m 0
  | _ => .error .badForm

/-- A tilt is in flight on the tray that carries a STRAY entry's bag (R16). -/
def State.strayTilting (s : State) (m ref : Nat) : Bool :=
  s.trays.any (fun r =>
    r.2.tilting && r.2.load?.any (fun l => l.index == some m || (ref != 0 && l.ref == some ref)))

/-- WITHDRAW of a waiting or riding bag: an unlinked WITHDRAWN stray in one step (R17). -/
def State.withdrawBag (s : State) (m slot : Nat) (loc : StrayLoc) : State :=
  let o := s.openStray
    { cls := Cls.withdrawn, index := some m, linked := false, slot := some slot, tags := [],
      mass := (s.entry m).mass, loc := loc, opened := 0 } .withdraw
  (o.1.setEntryState m .withdrawn).mapLoads (fun l =>
    if l.index = some m then
      { l with index := none, ref := o.2, target := s.classTarget Cls.withdrawn, rideSent := false }
    else l)

/-- WITHDRAW of a STRAY entry: its record, if open, becomes an unlinked WITHDRAWN stray, and its holder
gives up the index (R16). -/
def State.withdrawStray (s : State) (m ref : Nat) : State :=
  ((s.setEntryState m .withdrawn).moveStray ref
    (fun r => { r with cls := Cls.withdrawn, linked := false }) .withdraw).mapLoads (fun l =>
      if l.index = some m ∨ (ref ≠ 0 ∧ l.ref = some ref) then
        { l with index := none, target := s.classTarget Cls.withdrawn }
      else l)

/-- WITHDRAW once R5 has passed (R16, R17). -/
def State.withdrawEntry (s : State) (slot m : Nat) : CmdResult :=
  let done (t : State) : CmdResult := .ok (t, t.editFields m)
  match (s.entry m).state with
  | .inCart _ | .aboard => .error .state
  | .inFlight k =>
    if s.inFlightTilting m then .error .state else done (s.withdrawBag m slot (.onTray k))
  | .pending n => done (s.withdrawBag m slot (.atStation n))
  | .stray ref => if s.strayTilting m ref then .error .state else done (s.withdrawStray m ref)
  | .withdrawn => done s
  | .notSeen => done (s.setEntryState m .withdrawn)

/-- WITHDRAW (R16, R17). -/
def withdraw (p : List Byte) (s : State) : CmdResult :=
  match p with
  | [slot, i1, i0] =>
    match s.editEntry slot.toNat (u16 i1 i0) with
    | .error c => .error c
    | .ok (_, m) => s.withdrawEntry slot.toNat m
  | _ => .error .badForm

/-- The fields of an issued entry as ENTRY READ sends them (R5). -/
def entryFields (m : Nat) (e : Entry) : List Byte :=
  b2 m ++ b1 e.issue ++ b2 e.cabin ++ b1 e.hold ++ b1 e.state.ctorIdx ++ bOpt 2 b2 e.mass ++ e.state.locBytes

/-- ENTRY READ (R5): an unissued entry's record is marked absent. -/
def entryRead (p : List Byte) (s : State) : CmdResult :=
  match p with
  | [slot, i1, i0] =>
    match s.readEntry slot.toNat (u16 i1 i0) with
    | .error c => .error c
    | .ok (_, m) =>
      .ok (s, bOpt 13 (entryFields m) (if (s.entry m).issue = 0 then none else some (s.entry m)))
  | _ => .error .badForm

/-! Region init -/

/-- REGION INIT (R18). -/
def regionInit (p : List Byte) (s : State) : CmdResult :=
  match p with
  | [slot] =>
    match s.namedSlot slot.toNat with
    | .error c => .error c
    | .ok v =>
      if v.state = .staged then
        .ok ((s.startLong .regionInit slot.toNat).putSailing slot.toNat { v with ready := false },
          s.startFields .regionInit)
      else .error .state
  | _ => .error .badForm

/-- A step of REGION INIT clears the next entry, in ascending manifest index (R18, R183). -/
def State.regionStep (s : State) : State :=
  match s.inFlightOp .regionInit with
  | none => s
  | some (o, v) =>
    if o.steps < v.length then (s.putEntry (v.base + o.steps) Entry.unissued).countStep o else s

/-- The completion of REGION INIT, once no entry remains (R18, R183). -/
def State.regionDone (s : State) : State :=
  match s.inFlightOp .regionInit with
  | none => s
  | some (o, v) =>
    if o.steps < v.length then s
    else
      let e : EndRecord := { kind := .regionInit, slot := o.slot, outcome := .done, reason := .noReason }
      ((s.putSailing o.slot { v with ready := true }).endLong e).reportEnd e [o.steps]

/-! Sailing close -/

/-- SAILING CLOSE (R19). The lift event count of the sequencer is left as it stood (log entry 13). -/
def sailingClose (p : List Byte) (s : State) : CmdResult :=
  match p with
  | [slot] =>
    match s.namedSlot slot.toNat with
    | .error c => .error c
    | .ok v =>
      if v.state = .finalCall ∨ v.state = .closing then
        .ok ((s.startLong .sailingClose slot.toNat).putSailing slot.toNat
          { v with state := .closing, seq := { v.seq with mode := .off } }, s.startFields .sailingClose)
      else .error .state
  | _ => .error .badForm

/-- Tally an issued entry by its state (R21). -/
def Tallies.add (t : Tallies) (e : Entry) : Tallies :=
  if e.issue = 0 then t
  else
    match e.state with
    | .aboard => { t with aboard := t.aboard + 1 }
    | .inCart _ => { t with inCart := t.inCart + 1 }
    | .notSeen | .pending _ | .inFlight _ | .stray _ => { t with ashore := t.ashore + 1 }
    | .withdrawn => { t with withdrawn := t.withdrawn + 1 }

/-- A step of the sweep tallies the next entry, in ascending manifest index (R21, R183). -/
def State.sweepStep (s : State) : State :=
  match s.inFlightOp .sailingClose with
  | none => s
  | some (o, v) =>
    if o.steps < v.length then s.countStep { o with tallies := o.tallies.add (s.entry (v.base + o.steps)) }
    else s

/-- A pending entry or load is of a sailing: by its index or by its record's slot (R22). -/
def State.ofSailing (s : State) (n : Nat) (v : Sailing) (l : Load) : Bool :=
  l.index.any v.holdsIndex
    || l.ref.any (fun ref => (Tbl.get s.su.strays ref).any (fun r => r.slot == some n))

/-- A bag still in the hall becomes a SAILING_CLOSED stray (R22). -/
def State.closeLoad (s : State) (loc : StrayLoc) (l : Load) : State × Load :=
  let l' := { l with
    index := none, target := s.classTarget Cls.sailingClosed, rideSent := l.rideSent && !l.isManifest }
  match l.ref with
  | some ref =>
    (s.moveStray ref (fun r => { r with cls := Cls.sailingClosed, linked := false, slot := none })
      .sailingClose, l')
  | none =>
    let o := s.openStray
      { cls := Cls.sailingClosed, index := l.index, linked := false, slot := none, tags := [],
        mass := l.index.bind (fun m => (s.entry m).mass), loc := loc, opened := 0 } .sailingClose
    (o.1, { l' with ref := o.2 })

/-- The bags of a sailing in one pending queue, from its head (R22). -/
def State.closeQueue (s : State) (n : Nat) (v : Sailing) (station : Nat) :
    List Load → State × List Load
  | [] => (s, [])
  | l :: t =>
    let r := if s.ofSailing n v l then s.closeLoad (.atStation station) l else (s, l)
    let q := r.1.closeQueue n v station t
    (q.1, r.2 :: q.2)

/-- The bags of a sailing at one station (R22). -/
def State.closeStation (n : Nat) (v : Sailing) (s : State) (station : Nat) : State :=
  match Tbl.get s.stations station with
  | none => s
  | some st =>
    let r := s.closeQueue n v station st.queue
    r.1.putStation station { st with queue := r.2 }

/-- The tray of a closed sailing's bag: a tilt into a cart is given up and the tray returns to LOADED;
any other tray keeps its state (R22). DEDUCED (log entry 13): a DROP_DOUBT tray whose ordered cart has gone
aboard, which R22 does not name, returns to LOADED as well. -/
def Tray.giveUp (l : Load) : Tray → Tray
  | .tiltOrdered _ _ (some _) | .dropDoubt _ _ (some _) => .loaded l
  | t => t.mapLoad (fun _ => l)

/-- The bag of a sailing on one tray (R22). -/
def State.closeTray (n : Nat) (v : Sailing) (s : State) (k : Nat) : State :=
  match (s.tray k).load? with
  | none => s
  | some l =>
    if s.ofSailing n v l then
      let r := s.closeLoad (.onTray k) l
      r.1.putTray k ((s.tray k).giveUp r.2)
    else s

/-- Every other open record that names the slot closes (R22, R160), in ascending ref. -/
def State.closeStrays (s : State) (n : Nat) : State :=
  ((s.su.strays.filter (fun r => r.2.slot == some n)).map Prod.fst).foldl
    (fun t ref => t.closeStray ref .sailingClosed none) s

/-- A chute is unbound by a sailing close (R22, R113). -/
def State.unbindClosed (s : State) (c : Nat) : State :=
  (s.modifyChute c (fun h => { h with bound := 0, cycle := some .noCart, cart := none })).reportChute c
    .sailingClose

/-- The groups of a sailing. -/
def State.groupsOf (s : State) (n : Nat) : List Nat :=
  (s.groups.filter (fun r => r.2.slot == n)).map Prod.fst

/-- Free the carts of a sailing's groups and unbind their chutes, in ascending chute number (R22). -/
def State.releaseCarts (s : State) (n : Nat) : State :=
  let gs := s.groupsOf n
  let chutes := (s.chutes.filter (fun r => r.2.bound != 0 && gs.contains r.2.bound)).map Prod.fst
  chutes.foldl State.unbindClosed
    { s with carts := s.carts.filter (fun r => !gs.contains r.2.group) }

/-- What the completion of a close releases, after its report (R22). -/
def State.releaseSailing (s : State) (n : Nat) (v : Sailing) : State :=
  let t := (Tbl.keys s.stations).foldl (State.closeStation n v) s
  let t := (Tbl.keys t.trays).foldl (State.closeTray n v) t
  let t := (t.closeStrays n).releaseCarts n
  { t with
    groups := t.groups.filter (fun r => r.2.slot != n),
    sailings := Tbl.erase t.sailings n }

/-- The completion of SAILING CLOSE, once no entry remains (R22, R183). -/
def State.closeDone (s : State) : State :=
  match s.inFlightOp .sailingClose with
  | none => s
  | some (o, v) =>
    if o.steps < v.length then s
    else
      let e : EndRecord := { kind := .sailingClose, slot := o.slot, outcome := .done, reason := .noReason }
      ((s.endLong e).reportEnd e
        [o.tallies.aboard, o.tallies.inCart, o.tallies.ashore, o.tallies.withdrawn, v.tally]).releaseSailing
        o.slot v

/-! The meanings -/

def execSailingDefine (src : Byte) (p : List Byte) (s : State) : Host.Outcome State Fault Refusal :=
  .next (s.takeCommand src 0x54 (sailingDefine p))

/-- SAILING STATE frames whose target is not FINAL stand here; the frame's own bytes decide (R8, R9). -/
def execSailingStateOpen (src : Byte) (p : List Byte) (s : State) : Host.Outcome State Fault Refusal :=
  .next (s.takeCommand src 0x56 (sailingState p))

def execSailingStateFinal (src : Byte) (p : List Byte) (s : State) : Host.Outcome State Fault Refusal :=
  .next (s.takeCommand src 0x56 (sailingState p))

def execRegionInit (src : Byte) (p : List Byte) (s : State) : Host.Outcome State Fault Refusal :=
  .next (s.takeCommand src 0x55 (regionInit p))

def execSailingClose (src : Byte) (p : List Byte) (s : State) : Host.Outcome State Fault Refusal :=
  .next (s.takeCommand src 0x57 (sailingClose p))

def execEntryPut (src : Byte) (p : List Byte) (s : State) : Host.Outcome State Fault Refusal :=
  .next (s.takeCommand src 0x5C (entryPut p))

def execCabinChange (src : Byte) (p : List Byte) (s : State) : Host.Outcome State Fault Refusal :=
  .next (s.takeCommand src 0x5D (cabinChange p))

def execHoldSet (src : Byte) (p : List Byte) (s : State) : Host.Outcome State Fault Refusal :=
  .next (s.takeCommand src 0x5E (holdSet p))

def execHoldClear (src : Byte) (p : List Byte) (s : State) : Host.Outcome State Fault Refusal :=
  .next (s.takeCommand src 0x5F (holdClear p))

def execWithdraw (src : Byte) (p : List Byte) (s : State) : Host.Outcome State Fault Refusal :=
  .next (s.takeCommand src 0x60 (withdraw p))

def execEntryRead (src : Byte) (p : List Byte) (s : State) : Host.Outcome State Fault Refusal :=
  .next (s.takeCommand src 0x61 (entryRead p))

/-- A REGION INIT step with no REGION INIT in flight, or none left to make, changes nothing. -/
def execRegionInitStep (s : State) : Host.Outcome State Fault Refusal := .next s.regionStep

def execRegionInitComplete (s : State) : Host.Outcome State Fault Refusal := .next s.regionDone

def execSailingCloseStep (s : State) : Host.Outcome State Fault Refusal := .next s.sweepStep

def execSailingCloseComplete (s : State) : Host.Outcome State Fault Refusal := .next s.closeDone

end Sys2Proof.Machine
end

