-- ==== Sys2Proof/Machine/Plans.lean ====
section
/-! DEFINITION. Chapter 2: cabin plans and PLAN COMMIT, stow groups, chute bindings. -/

namespace Sys2Proof.Machine

/-! Cabin plans -/

/-- Two cabin ranges share a cabin (R26). -/
def Block.shares (b : Block) (first last : Nat) : Bool := decide (b.first ≤ last) && decide (first ≤ b.last)

/-- Put a block at its place in first-cabin order (R25, R26). -/
def insertBlock (b : Block) : List Block → List Block
  | [] => [b]
  | x :: t => if b.first < x.first then b :: x :: t else x :: insertBlock b t

/-- The staged plan may not be edited now: the sailing is CLOSING or its PLAN COMMIT is in flight
(R26, R27, R28). -/
def State.planLocked (s : State) (slot : Nat) (v : Sailing) : Bool :=
  decide (v.state = .closing) || s.longRuns .planCommit slot

/-- BLOCK PUT into a sailing's staged plan, after its first three checks (R26). -/
def putBlock (slot : Nat) (v : Sailing) (b : Block) (s : State) : CmdResult :=
  if v.staged.any (fun x => x.first == b.first && x.last == b.last) then
    .ok (s.putSailing slot
      { v with staged := v.staged.map (fun x =>
          if x.first = b.first ∧ x.last = b.last then { x with group := b.group } else x) }, [])
  else if v.staged.any (fun x => x.shares b.first b.last) then .error .conflict
  else if Config.planPlaces ≤ v.staged.length then .error .full
  else .ok (s.putSailing slot { v with staged := insertBlock b v.staged }, b1 (v.staged.length + 1))

/-- BLOCK PUT (R26). -/
def blockPut (p : List Byte) (s : State) : CmdResult :=
  match p with
  | [slot, f1, f0, l1, l0, group] =>
    match s.namedSlot slot.toNat with
    | .error c => .error c
    | .ok v =>
      if u16 f1 f0 = 0 ∨ u16 l1 l0 < u16 f1 f0 ∨ group.toNat < 1 ∨ 127 < group.toNat then .error .range
      else if s.planLocked slot.toNat v then .error .state
      else putBlock slot.toNat v { first := u16 f1 f0, last := u16 l1 l0, group := group.toNat } s
  | _ => .error .badForm

/-- BLOCK DELETE (R27). -/
def blockDelete (p : List Byte) (s : State) : CmdResult :=
  match p with
  | [slot, f1, f0] =>
    match s.namedSlot slot.toNat with
    | .error c => .error c
    | .ok v =>
      if u16 f1 f0 = 0 then .error .range
      else if s.planLocked slot.toNat v then .error .state
      else if v.staged.any (fun x => x.first == u16 f1 f0) then
        let rest := v.staged.filter (fun x => x.first != u16 f1 f0)
        .ok (s.putSailing slot.toNat { v with staged := rest }, b1 rest.length)
      else .error .absent
  | _ => .error .badForm

/-- PLAN CLEAR (R28). -/
def planClear (p : List Byte) (s : State) : CmdResult :=
  match p with
  | [slot] =>
    match s.namedSlot slot.toNat with
    | .error c => .error c
    | .ok v =>
      if s.planLocked slot.toNat v then .error .state
      else .ok (s.putSailing slot.toNat { v with staged := [] }, [])
  | _ => .error .badForm

/-- PLAN COMMIT (R29). -/
def planCommit (p : List Byte) (s : State) : CmdResult :=
  match p with
  | [slot] =>
    match s.namedSlot slot.toNat with
    | .error c => .error c
    | .ok _ => .ok (s.startLong .planCommit slot.toNat, s.startFields .planCommit)
  | _ => .error .badForm

/-- What the validation finds of a block's group: nothing when it passes (R30). -/
def State.blockFinding (s : State) (slot : Nat) (b : Block) : Option LongReason :=
  match Tbl.get s.groups b.group with
  | none => some .noGroup
  | some g => if g.slot = slot then none else some .foreignGroup

/-- A step of PLAN COMMIT validates the next staged block (R30, R183). -/
def State.commitStep (s : State) : State :=
  match s.inFlightOp .planCommit with
  | none => s
  | some (o, v) =>
    match v.staged[o.steps]? with
    | none => s
    | some b =>
      match s.blockFinding o.slot b with
      | none => s.countStep o
      | some r =>
        let e : EndRecord := { kind := .planCommit, slot := o.slot, outcome := .failed, reason := r }
        (s.endLong e).reportEnd e [b.first, b.last, b.group]

/-- The completion of PLAN COMMIT, once no block remains (R31, R183). -/
def State.commitDone (s : State) : State :=
  match s.inFlightOp .planCommit with
  | none => s
  | some (o, v) =>
    if o.steps < v.staged.length then s
    else
      let e : EndRecord := { kind := .planCommit, slot := o.slot, outcome := .done, reason := .noReason }
      ((s.putSailing o.slot { v with live := v.staged, committed := true }).endLong e).reportEnd e
        [v.staged.length]

/-! Stow groups -/

/-- The values of a GROUP SET are in range (R36). -/
def groupInRange (group slot deck zone count mass : Nat) : Bool :=
  decide (1 ≤ group) && decide (group ≤ 127) && decide (1 ≤ slot) && decide (slot ≤ 4) && decide (1 ≤ deck)
    && decide (deck ≤ 20) && decide (1 ≤ zone) && decide (zone ≤ 8) && decide (1 ≤ count)
    && decide (count ≤ 60) && decide (100 ≤ mass) && decide (mass ≤ 9999)

/-- Some cart of a group satisfies a test. -/
def State.anyCart (s : State) (g : Nat) (f : Cart → Bool) : Bool :=
  s.carts.any (fun r => r.2.group == g && f r.2)

/-- A cart forbids a change of its group's limits (R37). -/
def Cart.forbidsLimits (count mass : Nat) (c : Cart) : Bool :=
  match c.state with
  | .filling | .closing => !c.bags.isEmpty
  | .closed | .called => decide (count < c.bags.length) || decide (mass < c.charge)

/-- GROUP SET once its values are in range (R36, R37). -/
def setGroup (group slot deck zone count mass : Nat) (s : State) : CmdResult :=
  match s.namedSlot slot with
  | .error c => .error c
  | .ok v =>
    if v.state = .closing then .error .state
    else
      match Tbl.get s.groups group with
      | none =>
        .ok (s.putGroup group
          { slot := slot, deck := deck, zone := zone, countLimit := count, massLimit := mass, ready := [],
            bagsInCarts := 0, bagsAboard := 0, cartsClosed := 0, cartsAboard := 0 }, [])
      | some g =>
        if g.slot ≠ slot then .error .conflict
        else if (g.countLimit ≠ count ∨ g.massLimit ≠ mass)
            ∧ s.anyCart group (Cart.forbidsLimits count mass) then .error .state
        else
          .ok (s.putGroup group
            { g with deck := deck, zone := zone, countLimit := count, massLimit := mass }, [])

/-- GROUP SET (R36, R37). -/
def groupSet (p : List Byte) (s : State) : CmdResult :=
  match p with
  | [group, slot, deck, zone, count, m1, m0] =>
    if groupInRange group.toNat slot.toNat deck.toNat zone.toNat count.toNat (u16 m1 m0) then
      setGroup group.toNat slot.toNat deck.toNat zone.toNat count.toNat (u16 m1 m0) s
    else .error .range
  | _ => .error .badForm

/-- The chute set of a group: the chutes bound to it, ascending (2.3, R40). -/
def State.chuteSet (s : State) (g : Nat) : List Nat :=
  (s.chutes.filter (fun r => r.2.bound == g)).map Prod.fst

/-- A PLAN COMMIT is in flight whose staged plan names a group (R29). -/
def State.commitNames (s : State) (group : Nat) : Bool :=
  s.sailings.any (fun r => s.longRuns .planCommit r.1 && r.2.staged.any (fun b => b.group == group))

/-- Something still names or uses a group (R38). The commit is any sailing's, as R29 says, and not the
group's own sailing's only, as R38's list has it (log entry 17). -/
def State.groupInUse (s : State) (group : Nat) (g : Group) : Bool :=
  (s.chutes.any (fun r => r.2.bound == group)) || s.anyCart group (fun _ => true)
    || (Tbl.get s.sailings g.slot).any (fun v =>
      v.live.any (fun b => b.group == group) || v.steps.any (fun x => x.group == group))
    || s.commitNames group

/-- A waiting or riding bag that targets a deleted group. -/
structure Orphan where
  index : Option Nat
  ref : Option Nat
  loc : StrayLoc
  deriving DecidableEq, Repr

/-- The bags that target a group: waiting, station by station and each queue from its head, then riding
on LOADED trays, tray by tray (R38). -/
def State.orphans (s : State) (group : Nat) : List Orphan :=
  s.stations.flatMap (fun r =>
    (r.2.queue.filter (fun l => decide (l.target = .group group))).map
      (fun l => { index := l.index, ref := l.ref, loc := .atStation r.1 }))
  ++ s.trays.filterMap (fun r =>
    match r.2 with
    | .loaded l =>
      if l.target = .group group then some { index := l.index, ref := l.ref, loc := .onTray r.1 } else none
    | _ => none)

/-- Resolve again a bag whose group was deleted (R38). -/
def State.rehome (s : State) (x : Orphan) : State :=
  match x.index.bind (fun m => (s.ownerOf m).map (fun o => (m, o))) with
  | none => s
  | some (m, slot, v) =>
    match x.ref, s.resolve m v with
    | some ref, .stray c =>
      (s.moveStray ref (fun r => { r with cls := c }) .groupDelete).retarget m (s.classTarget c)
    | _, res => s.applyResolution m slot res x.loc .groupDelete

/-- GROUP DELETE (R38). -/
def groupDelete (p : List Byte) (s : State) : CmdResult :=
  match p with
  | [group] =>
    if group = 0 ∨ 127 < group.toNat then .error .range
    else
      match Tbl.get s.groups group.toNat with
      | none => .error .absent
      | some g =>
        if s.groupInUse group.toNat g then .error .state
        else
          .ok ((s.orphans group.toNat).foldl State.rehome
            { s with groups := Tbl.erase s.groups group.toNat }, [])
  | _ => .error .badForm

/-- How many carts of a group are in a state (R39). -/
def State.cartsIn (s : State) (g : Nat) (st : CartState) : Nat :=
  Tbl.count s.carts (fun c => c.group == g && decide (c.state = st))

/-- The record of a group as GROUP READ sends it (R39). -/
def State.groupFields (s : State) (group : Nat) (g : Group) : List Byte :=
  b1 g.slot ++ b1 g.deck ++ b1 g.zone ++ b1 g.countLimit ++ b2 g.massLimit
    ++ bList b1 (s.chuteSet group) ++ b1 g.ready.length ++ bOpt 1 b1 g.ready.head?
    ++ b1 (s.cartsIn group .filling) ++ b1 (s.cartsIn group .closing) ++ b1 (s.cartsIn group .closed)
    ++ b1 (s.cartsIn group .called) ++ b2 g.bagsInCarts ++ b2 g.bagsAboard ++ b2 g.cartsClosed
    ++ b2 g.cartsAboard

/-- GROUP READ (R39). -/
def groupRead (p : List Byte) (s : State) : CmdResult :=
  match p with
  | [group] =>
    if group = 0 ∨ 127 < group.toNat then .error .range
    else .ok (s, bOpt 22 (s.groupFields group.toNat) (Tbl.get s.groups group.toNat))
  | _ => .error .badForm

/-! Chute bindings -/

/-- The current cart of a chute. -/
def State.currentCart (s : State) (h : Chute) : Option (Nat × Cart) :=
  h.cart.bind (fun id => (Tbl.get s.carts id).map (fun c => (id, c)))

/-- A tilt is in flight into a chute's cart, or the cart is closing (R41, check 5). -/
def State.bindBusy (s : State) (h : Chute) : Bool :=
  decide (h.cycle = some .closing) || (s.currentCart h).any (fun x => x.2.marked .ordered != 0)

/-- A cart with entries is closed by force by a change of binding: it joins the tail of its old group's
ready queue (R42, R43). -/
def State.forceRecord (s : State) (id : Nat) (c : Cart) : State :=
  s.closeRecord id { c with cause := some .forced }

/-- Bind a chute to a group that has passed R41, by its cart cycle (R42). -/
def State.bindTo (s : State) (c : Nat) (h : Chute) (g : Nat) : State :=
  let bound : Chute := { h with bound := g }
  match h.cycle, s.currentCart h with
  | some .filling, some (id, cart) =>
    if cart.bags.isEmpty then
      ((s.putCart id { cart with group := g }).putChute c bound).reportChute c .bind
    else
      (((s.forceRecord id cart).putChute c (bound.startSwap s.lu.clock)).reportChute c .bind).reportCartClosed
        id c
  | some .swapping, _ => (s.putChute c bound).reportChute c .bind
  | _, _ => (s.putChute c (bound.startSwap s.lu.clock)).reportChute c .bind

/-- Unbind a bound chute, by its cart cycle (R43). -/
def State.unbind (s : State) (c : Nat) (h : Chute) : State :=
  let freed : Chute := { h with bound := 0, cycle := some .noCart, cart := none }
  match h.cycle, s.currentCart h with
  | some .filling, some (id, cart) =>
    if cart.bags.isEmpty then ((s.freeCart id).putChute c freed).reportChute c .bind
    else (((s.forceRecord id cart).putChute c freed).reportChute c .bind).reportCartClosed id c
  | _, _ => (s.putChute c freed).reportChute c .bind

/-- CHUTE BIND to a group, after checks 1 to 5 of R41. -/
def bindGroup (c g : Nat) (h : Chute) (s : State) : CmdResult :=
  match Tbl.get s.groups g with
  | none => .error .absent
  | some grp =>
    if (Tbl.get s.sailings grp.slot).any (fun v => decide (v.state = .closing)) then .error .state
    else if Config.chuteSetPlaces ≤ (s.chuteSet g).length then .error .full
    else .ok (s.bindTo c h g, [])

/-- CHUTE BIND (R41, R42, R43). -/
def chuteBind (p : List Byte) (s : State) : CmdResult :=
  match p with
  | [chute, group] =>
    if chute = 0 ∨ 48 < chute.toNat ∨ 127 < group.toNat then .error .range
    else
      match Tbl.get s.chutes chute.toNat with
      | none => .error .absent
      | some h =>
        if group ≠ 0 ∧ (Tbl.get s.groups group.toNat).isNone then .error .absent
        else if h.role ≠ .sort then .error .state
        else if h.bound = group.toNat then .ok (s, [])
        else if s.bindBusy h then .error .state
        else if group = 0 then .ok (s.unbind chute.toNat h, [])
        else bindGroup chute.toNat group.toNat h s
  | _ => .error .badForm

/-! The meanings -/

def execBlockPut (src : Byte) (p : List Byte) (s : State) : Host.Outcome State Fault Refusal :=
  .next (s.takeCommand src 0x58 (blockPut p))

def execBlockDelete (src : Byte) (p : List Byte) (s : State) : Host.Outcome State Fault Refusal :=
  .next (s.takeCommand src 0x59 (blockDelete p))

def execPlanClear (src : Byte) (p : List Byte) (s : State) : Host.Outcome State Fault Refusal :=
  .next (s.takeCommand src 0x5A (planClear p))

def execPlanCommit (src : Byte) (p : List Byte) (s : State) : Host.Outcome State Fault Refusal :=
  .next (s.takeCommand src 0x5B (planCommit p))

def execPlanCommitStep (s : State) : Host.Outcome State Fault Refusal := .next s.commitStep

def execPlanCommitComplete (s : State) : Host.Outcome State Fault Refusal := .next s.commitDone

def execGroupSet (src : Byte) (p : List Byte) (s : State) : Host.Outcome State Fault Refusal :=
  .next (s.takeCommand src 0x50 (groupSet p))

def execGroupDelete (src : Byte) (p : List Byte) (s : State) : Host.Outcome State Fault Refusal :=
  .next (s.takeCommand src 0x51 (groupDelete p))

def execGroupRead (src : Byte) (p : List Byte) (s : State) : Host.Outcome State Fault Refusal :=
  .next (s.takeCommand src 0x52 (groupRead p))

/-- A CHUTE BIND frame; its group byte says whether it binds or unbinds (R41). -/
def execChuteBind (src : Byte) (p : List Byte) (s : State) : Host.Outcome State Fault Refusal :=
  .next (s.takeCommand src 0x4E (chuteBind p))

/-- A CHUTE BIND frame with group 0 (R43). -/
def execChuteUnbind (src : Byte) (p : List Byte) (s : State) : Host.Outcome State Fault Refusal :=
  .next (s.takeCommand src 0x4E (chuteBind p))

end Sys2Proof.Machine
end

