-- ==== Sys2Proof/Machine/Induction.lean ====
section
/-! DEFINITION. Chapter 3: stations, induction reports and launches. -/

namespace Sys2Proof.Machine

/-! Stations -/

/-- The fields a STATION SET gives, leads and windows not yet clamped (R46). -/
structure StationFields where
  node : Byte
  kind : StationKind
  coord : Nat
  lead : Nat
  window : Nat
  cell1 : Cell
  cell2 : Cell
  cell3 : Cell
  cell4 : Cell
  deriving DecidableEq, Repr

/-- The station a STATION SET makes of its fields, keeping a queue and a launch (R46). -/
def StationFields.station (f : StationFields) (y : Layout) (old : Option Station) : Station :=
  { node := f.node, kind := f.kind, coord := f.coord, lead := clampLead y f.lead,
    window := clampWindow y f.window, cell1 := f.cell1, cell2 := f.cell2, cell3 := f.cell3,
    cell4 := f.cell4, queue := (old.map Station.queue).getD [], ordered := old.bind Station.ordered }

/-- A gain is out of range (R46). -/
def StationFields.badGain (f : StationFields) : Bool :=
  decide (4095 < f.cell1.gain) || decide (4095 < f.cell2.gain) || decide (4095 < f.cell3.gain)
    || decide (4095 < f.cell4.gain)

/-- A change that waiting bags or a launch in flight forbid (R46, check 6). -/
def Station.busyChange (old new : Station) : Bool :=
  (!old.queue.isEmpty || old.ordered.isSome)
    && (old.node != new.node || decide (old.kind ≠ new.kind) || old.coord != new.coord
      || old.lead != new.lead || old.window != new.window)

/-- A node is another station's, or a chute's panel (R46, R111). -/
def State.nodeTaken (s : State) (node : Byte) (station chute : Nat) : Bool :=
  s.stations.any (fun r => r.1 != station && r.2.node == node)
    || s.chutes.any (fun r => r.1 != chute && r.2.node == node)

/-- A STATION SET that configures or changes the ENCODE station makes the notice none sent (R155). -/
def State.stationNotice (s : State) (old : Option Station) (new : Station) : State :=
  if new.kind = .encode ∨ old.any (fun st => decide (st.kind = .encode)) then
    { s with su := { s.su with notice := none } }
  else s

/-- STATION SET once its form and named values have passed (R46). -/
def setStation (place : Nat) (f : StationFields) (s : State) : CmdResult :=
  if place < 1 ∨ 6 < place ∨ 125 < f.node.toNat ∨ f.node = s.lu.node ∨ f.badGain then .error .range
  else
    match s.lt.layout with
    | none => .error .state
    | some y =>
      let old := Tbl.get s.stations place
      let new := f.station y old
      if y.length ≤ f.coord then .error .range
      else if s.nodeTaken f.node place 0 then .error .conflict
      else if f.kind = .encode
          ∧ s.stations.any (fun r => r.1 != place && decide (r.2.kind = .encode)) then .error .conflict
      else if old.any (fun st => st.busyChange new) then .error .state
      else
        .ok (((s.putStation place new).stationNotice old new).rebuildPoints, b2 new.lead ++ b2 new.window)

/-- STATION SET (R46). -/
def stationSet (p : List Byte) (s : State) : CmdResult :=
  match p with
  | [place, node, kind, y1, y0, l1, l0, w1, w0, a1, a0, b1', b0', c1, c0, d1, d0, e1, e0, f1, f0, g1, g0,
      h1, h0] =>
    match StationKind.ofByte kind with
    | none => .error .range
    | some k =>
      setStation place.toNat
        { node := node, kind := k, coord := u16 y1 y0, lead := u16 l1 l0, window := u16 w1 w0,
          cell1 := { tare := u16 a1 a0, gain := u16 e1 e0 },
          cell2 := { tare := u16 b1' b0', gain := u16 f1 f0 },
          cell3 := { tare := u16 c1 c0, gain := u16 g1 g0 },
          cell4 := { tare := u16 d1 d0, gain := u16 h1 h0 } } s
  | _ => .error .badForm

/-! Field frames of stations -/

/-- A parsed INDUCTION REPORT (9.4.1). -/
structure InductionFields where
  raw1 : Nat
  raw2 : Nat
  raw3 : Nat
  raw4 : Nat
  tags : List TagCode
  keyed : Bool
  ref : Nat
  deriving DecidableEq, Repr

/-- Read an INDUCTION REPORT's payload: none for a length that does not match its read count. -/
def InductionFields.parse : List Byte → Option InductionFields
  | [a1, a0, b1', b0', c1, c0, d1, d0, 0, k, r1, r0] =>
    some { raw1 := u16 a1 a0, raw2 := u16 b1' b0', raw3 := u16 c1 c0, raw4 := u16 d1 d0, tags := [],
           keyed := flagOf k, ref := u16 r1 r0 }
  | [a1, a0, b1', b0', c1, c0, d1, d0, 1, t3, t2, t1, t0, k, r1, r0] =>
    some { raw1 := u16 a1 a0, raw2 := u16 b1' b0', raw3 := u16 c1 c0, raw4 := u16 d1 d0,
           tags := [u32 t3 t2 t1 t0], keyed := flagOf k, ref := u16 r1 r0 }
  | [a1, a0, b1', b0', c1, c0, d1, d0, 2, t3, t2, t1, t0, v3, v2, v1, v0, k, r1, r0] =>
    some { raw1 := u16 a1 a0, raw2 := u16 b1' b0', raw3 := u16 c1 c0, raw4 := u16 d1 d0,
           tags := [u32 t3 t2 t1 t0, u32 v3 v2 v1 v0], keyed := flagOf k, ref := u16 r1 r0 }
  | _ => none

/-- The read count of an INDUCTION REPORT is above 2: it goes to the IU whatever its length, which
ignores it (R47, R167). -/
def readCountAbove2 (p : List Byte) : Bool := p[8]?.any (fun c => decide (2 < c.toNat))

/-- Hand a field frame to the owner of a station's frames (R167). -/
def State.stationFrame (s : State) (src kind : Byte) (p : List Byte) (goodLength : Bool)
    (owner : Nat → Station → State → State) : State :=
  s.takeField src kind p (s.stationOfNode src).isSome goodLength (fun t =>
    match s.stationOfNode src with
    | none => t
    | some (n, st) => owner n st t)

/-- INDUCTION REPORT (R47). -/
def State.inductionFrame (s : State) (src : Byte) (p : List Byte) : State :=
  s.stationFrame src 0x10 p (readCountAbove2 p || (InductionFields.parse p).isSome) (fun n st t =>
    match InductionFields.parse p with
    | none => t
    | some x => t.takeReport n st x.raw1 x.raw2 x.raw3 x.raw4 x.tags x.keyed x.ref)

/-- LAUNCHED names a tray; any tray but the ordered one is late (R62). -/
def State.launchedFrame (s : State) (src : Byte) (p : List Byte) : State :=
  s.stationFrame src 0x11 p (p.length == 2) (fun n st t =>
    match p with
    | [k1, k0] => if st.ordered = some (u16 k1 k0) then t.takeLaunch n else t
    | _ => t)

/-- LAUNCH FAILED names a tray (R63). -/
def State.launchFailedFrame (s : State) (src : Byte) (p : List Byte) : State :=
  s.stationFrame src 0x12 p (p.length == 2) (fun n st t =>
    match p with
    | [k1, k0] => if st.ordered = some (u16 k1 k0) then t.dropLaunch n else t
    | _ => t)

/-- BAG REMOVED names a position (R65). -/
def State.bagRemovedFrame (s : State) (src : Byte) (p : List Byte) : State :=
  s.stationFrame src 0x13 p (p.length == 1) (fun n _ t =>
    match p with
    | [position] => t.takeBagOff n position.toNat
    | _ => t)

/-! The meanings -/

def execStationSet (src : Byte) (p : List Byte) (s : State) : Host.Outcome State Fault Refusal :=
  .next (s.takeCommand src 0x4A (stationSet p))

def execInductionReport (src : Byte) (p : List Byte) (s : State) : Host.Outcome State Fault Refusal :=
  .next (s.inductionFrame src p)

def execLaunched (src : Byte) (p : List Byte) (s : State) : Host.Outcome State Fault Refusal :=
  .next (s.launchedFrame src p)

def execLaunchFailed (src : Byte) (p : List Byte) (s : State) : Host.Outcome State Fault Refusal :=
  .next (s.launchFailedFrame src p)

def execBagRemoved (src : Byte) (p : List Byte) (s : State) : Host.Outcome State Fault Refusal :=
  .next (s.bagRemovedFrame src p)

/-- The LAUNCH_CLOSE alignment of a station and a tray, where the station's point aligns the tray at the
position and the loop state raises it (R64, R70). -/
def execLaunchClose (station tray : Nat) (s : State) : Host.Outcome State Fault Refusal :=
  match s.lt.layout, Tbl.get s.stations station with
  | some y, some st =>
    if y.aligns s.lt.pos { kind := .launchClose, coord := st.closeCoord y, owner := station } = some tray then
      .next (s.takeAlignment { kind := .launchClose, coord := st.closeCoord y, owner := station } tray s.lu.occ)
    else .next s
  | _, _ => .next s

end Sys2Proof.Machine
end

