-- ==== Sys2Proof/Machine/Loop.lean ====
section
/-! DEFINITION. Chapter 4: the layout, the sort mode, the loop lines and TRAY READ. -/

namespace Sys2Proof.Machine

/-- SORT MODE (R74). -/
def sortMode (p : List Byte) (s : State) : CmdResult :=
  match p with
  | [mode] =>
    match SortMode.ofByte mode with
    | none => .error .range
    | some m =>
      if m ≠ .off ∧ s.lt.layout.isNone then .error .state
      else .ok ({ s with lt := { s.lt with mode := m } }, [])
  | _ => .error .badForm

/-! Layout -/

/-- A station's lead and launch window clamped again to a layout (R68). -/
def Station.clampTo (y : Layout) (st : Station) : Station :=
  { st with lead := clampLead y st.lead, window := clampWindow y st.window }

/-- A chute's lead and window clamped again to a layout (R68). -/
def Chute.clampTo (y : Layout) (h : Chute) : Chute :=
  { h with lead := clampLead y h.lead, window := clampWindow y h.window }

/-- The new layout replaces the old in one step (R68). -/
def State.loadLayout (s : State) (y : Layout) : State :=
  let t := { s with
    trays := [],
    lt := { s.lt with
      layout := some y, pos := 0, acc := 0, absorb := 0, lastCorrection := 0, missed := 0, lossPoint := 0,
      advances := 0, state := if s.lu.loopRun then .unsynced else .stopped, eyeTaken := true } }
  let t := { t.reportLoop s.lt.state .layout none with
    stations := Tbl.mapRows s.stations (Station.clampTo y),
    chutes := Tbl.mapRows s.chutes (Chute.clampTo y) }
  t.rebuildPoints

/-- A configured station or chute stands at or beyond a length (R68, check 5). -/
def State.anyBeyond (s : State) (len : Nat) : Bool :=
  s.stations.any (fun r => decide (len ≤ r.2.coord)) || s.chutes.any (fun r => decide (len ≤ r.2.coord))

/-- The layout a LAYOUT SET gives, its tolerance as taken (R68). -/
def givenLayout (n pitch divisor w eye : Nat) (isDefault : Bool) : Layout :=
  { trays := n, pitch := pitch, divisor := divisor,
    tolerance := if isDefault then pitch / 4 else clampTolerance pitch w, eye := eye }

/-- LAYOUT SET once its form has passed (R68). -/
def setLayout (y : Layout) (s : State) : CmdResult :=
  if y.trays < 16 ∨ 1024 < y.trays ∨ y.pitch < 8 ∨ 255 < y.pitch then .error .range
  else if 65535 < y.length then .error .range
  else if s.lt.layout.isSome ∧ (s.lt.mode ≠ .off ∨ s.trays ≠ []) then .error .state
  else if y.length ≤ y.eye then .error .range
  else if s.anyBeyond y.length then .error .range
  else .ok (s.loadLayout y, b2 y.length ++ b1 y.tolerance)

/-- LAYOUT SET (R68). -/
def layoutSet (p : List Byte) (s : State) : CmdResult :=
  match p with
  | [n1, n0, pitch, divisor, isDefault, w, z1, z0] =>
    setLayout (givenLayout (u16 n1 n0) pitch.toNat divisor.toNat w.toNat (u16 z1 z0) (flagOf isDefault)) s
  | _ => .error .badForm

/-! TRAY READ -/

/-- State of a tray as sent (4.7). -/
def Tray.stateCode : Tray → Nat
  | .empty => 0
  | .reserved => 1
  | .loaded _ => 2
  | .tiltOrdered .. => 3
  | .dropDoubt .. => 4

/-- A target as sent: presence, then a kind (0 a group, 1 a role) and its value (log entry 5). -/
def Target.bytes : Target → List Byte
  | .group g => 1 :: (b1 0 ++ b1 g)
  | .role r => 1 :: (b1 1 ++ b1 r.ctorIdx)
  | .nowhere => [0, 0, 0]

/-- A load as TRAY READ sends it (R82). -/
def Load.fields (l : Load) : List Byte :=
  bOpt 2 b2 l.index ++ bOpt 2 b2 l.ref ++ l.target.bytes ++ b2 l.charge ++ bFlag l.estimated ++ b1 l.laps
    ++ bFlag l.verified ++ bOpt 1 b1 l.station

/-- A tray's present coordinate (4.1). -/
def Layout.trayCoord (y : Layout) (pos k : Nat) : Nat := y.offset pos (k * y.pitch)

/-- TRAY READ (R82). -/
def trayRead (p : List Byte) (s : State) : CmdResult :=
  match p with
  | [k1, k0] =>
    match s.lt.layout with
    | none => .error .state
    | some y =>
      if y.trays ≤ u16 k1 k0 then .error .range
      else
        let t := s.tray (u16 k1 k0)
        .ok (s, b1 t.stateCode ++ b2 (y.trayCoord s.lt.pos (u16 k1 k0)) ++ bOpt 1 b1 t.chute?
          ++ bOpt 1 b1 t.cart? ++ bOpt 16 Load.fields t.load?)
  | _ => .error .badForm

/-! The loop lines -/

/-- LOOP_RUN rises: the loop becomes UNSYNCED (R72, R73). -/
def State.runRises (s : State) : State :=
  if s.lu.loopRun then s
  else
    { s with lu := { s.lu with loopRun := true }, lt := { s.lt with state := .unsynced } }.reportLoop
      s.lt.state .runHigh none

/-- LOOP_RUN falls: the loop becomes STOPPED, losing SYNCED if it had it (R72, R73). -/
def State.runFalls (s : State) : State :=
  if s.lu.loopRun then
    { s with
      lu := { s.lu with loopRun := false },
      lt := { (if s.lt.state = LoopState.synced then s.lt.lose else s.lt) with state := .stopped } }.reportLoop
      s.lt.state .runLow none
  else s

/-- The next pulse brings the accumulator to the divisor (R69). -/
def State.advanceDue (s : State) : Bool :=
  s.lu.loopRun && s.lt.layout.any (fun y => decide (y.effectiveDivisor ≤ s.lt.acc + 1))

/-- The occupancy point aligns a tray at the position and was not taken there yet, OCC is high, and the loop
moves (R70, 4.8). -/
def State.eyeSees (s : State) (k : Nat) : Bool :=
  !s.lt.eyeTaken && s.lu.occ && s.lt.state.raises .occupancy
    && s.lt.layout.any (fun y =>
      decide (y.aligns s.lt.pos { kind := .occupancy, coord := y.eye, owner := 0 } = some k))

/-- A verified stray load, not reported before, whose lap count this pass brings to the stray lap limit
(R85). -/
def State.ridingDue (s : State) (k : Nat) : Bool :=
  s.eyeSees k
    && (match s.tray k with
        | .loaded l => l.verified && !l.isManifest && s.lapMeetsLimit l
        | _ => false)

/-! The meanings -/

def execSortMode (src : Byte) (p : List Byte) (s : State) : Host.Outcome State Fault Refusal :=
  .next (s.takeCommand src 0x43 (sortMode p))

def execLayoutSet (src : Byte) (p : List Byte) (s : State) : Host.Outcome State Fault Refusal :=
  .next (s.takeCommand src 0x48 (layoutSet p))

def execTrayRead (src : Byte) (p : List Byte) (s : State) : Host.Outcome State Fault Refusal :=
  .next (s.takeCommand src 0x49 (trayRead p))

def execLoopRunRise (s : State) : Host.Outcome State Fault Refusal := .next s.runRises

def execLoopRunFall (s : State) : Host.Outcome State Fault Refusal := .next s.runFalls

def execEncoderPulse (occ : Bool) (s : State) : Host.Outcome State Fault Refusal := .next (s.pulse occ)

/-- The pulse at which the accumulator reaches the divisor; where the next pulse does not, the event
does not come about (R69). -/
def execLoopAdvance (occ : Bool) (s : State) : Host.Outcome State Fault Refusal :=
  if s.advanceDue then .next (s.pulse occ) else .next s

def execHomeRise (occ : Bool) (s : State) : Host.Outcome State Fault Refusal := .next (s.homeRises occ)

/-- The missed-home count stands at 2 while SYNCED: the loop becomes SLIPPED (R78). `homeAligned` makes
the same change as the count comes to 2. -/
def execHomeMissed (s : State) : Host.Outcome State Fault Refusal :=
  if s.lt.state = LoopState.synced ∧ 2 ≤ s.lt.missed then .next (s.slip .homeMissed none) else .next s

/-- A manifest load whose lap count exceeds its sailing's limit (R84); the eye's judgement makes the same
test as it counts the lap. -/
def execLapLimit (tray : Nat) (s : State) : Host.Outcome State Fault Refusal := .next (s.lapLimitTest tray)

/-- The eye's judgement of a tray at which a stray load reaches the stray lap limit (R85). An advance makes
it in its own step, and a pass is judged once (log entry 6). -/
def execStrayRiding (tray : Nat) (s : State) : Host.Outcome State Fault Refusal :=
  if s.ridingDue tray then .next (s.eyePass tray true).eyeDone else .next s

end Sys2Proof.Machine
end

