-- ==== Sys2Proof/Machine/Tilt.lean ====
section
/-! DEFINITION. Chapter 5: drop reports, tilt faults and window closes. -/

namespace Sys2Proof.Machine

/-- Hand a field frame to the owner of a panel's frames (R116, R167). -/
def State.panelFrame (s : State) (src kind : Byte) (p : List Byte) (len : Nat) (taken : Chute → Bool)
    (owner : Nat → Chute → State → State) : State :=
  s.takeField src kind p ((s.chuteOfPanel src).any (fun r => taken r.2)) (p.length == len) (fun t =>
    match s.chuteOfPanel src with
    | none => t
    | some (c, h) => owner c h t)

/-- A report names a tray the table holds (R101). -/
def State.hasTray (s : State) (k : Nat) : Bool := s.lt.layout.any (fun y => decide (k < y.trays))

/-- A confirmed drop of a tray in TILT_ORDERED, at a SORT chute or a role chute (R99, R103, R104). -/
def State.confirmTilt (s : State) (k : Nat) (basis : Basis) : State :=
  match s.tray k with
  | .tiltOrdered l c (some id) =>
    match l.index with
    | some m => s.confirmDrop { tray := k, load := l, chute := c, cart := id, index := m } basis
    | none => s.putTray k .empty
  | .tiltOrdered l c none => s.roleDrop k c l
  | _ => s

/-- A DROP SEEN for a tray in TILT_ORDERED at its own chute (R99). -/
def State.dropOrdered (s : State) (c k : Nat) (h : Chute) : State :=
  match s.judgeDrop h k with
  | .onTime => s.confirmTilt k (if s.lt.state = LoopState.synced then .onTime else .unsynced)
  | .late => (s.passIntoDoubt k).settleDropped k .late
  | .early => s.reportFault c .earlyDrop k (some (s.dropOffset h k)) none

/-- A DROP SEEN for a tray in DROP_DOUBT at its own chute (R100). -/
def State.dropDoubted (s : State) (c k : Nat) (h : Chute) : State :=
  match s.judgeDrop h k with
  | .onTime => s.settleDropped k .onTime
  | .late => s.settleDropped k .late
  | .early => s.reportFault c .earlyDrop k (some (s.dropOffset h k)) none

/-- DROP SEEN from the panel of a chute (R99, R100, R101). -/
def State.dropSeen (s : State) (c : Nat) (h : Chute) (k : Nat) : State :=
  if s.hasTray k = false then s.reportFault c .unknownTray k none none
  else
    match s.tray k with
    | .tiltOrdered _ c' _ =>
      if c' = c then s.dropOrdered c k h else s.reportFault c .wrongChute k none none
    | .dropDoubt _ c' _ =>
      if c' = c then s.dropDoubted c k h else s.reportFault c .wrongChute k none none
    | _ => s.reportFault c .unorderedDrop k none none

/-- A tilt ends in a fault: the reservation is released, the tray LOADED again (R102). -/
def State.failTilt (s : State) (c k : Nat) (l : Load) (cart : Option Nat) : State :=
  match cart, l.index with
  | some id, some m =>
    ((((s.editBags id (unlist m .ordered) (fun n => n)).putTray k (.loaded l))).reportFault c .tiltFailed k
      none none).closingTest id .cartClosed
  | _, _ => (s.putTray k (.loaded l)).reportFault c .tiltFailed k none none

/-- TILT FAULT from the panel of a chute (R102). -/
def State.tiltFault (s : State) (c k : Nat) : State :=
  if s.hasTray k = false then s.reportFault c .unknownTray k none none
  else
    match s.tray k with
    | .tiltOrdered l c' cart =>
      if c' = c then s.failTilt c k l cart else s.reportFault c .wrongChute k none none
    | .dropDoubt _ c' _ =>
      if c' = c then s.reportFault c .lateFault k none none else s.reportFault c .wrongChute k none none
    | _ => s.reportFault c .unorderedFault k none none

/-- DROP SEEN (9.4.1). -/
def State.dropSeenFrame (s : State) (src : Byte) (p : List Byte) : State :=
  s.panelFrame src 0x18 p 2 (fun _ => true) (fun c h t =>
    match p with
    | [k1, k0] => t.dropSeen c h (u16 k1 k0)
    | _ => t)

/-- TILT FAULT (9.4.1). -/
def State.tiltFaultFrame (s : State) (src : Byte) (p : List Byte) : State :=
  s.panelFrame src 0x19 p 2 (fun _ => true) (fun c _ t =>
    match p with
    | [k1, k0] => t.tiltFault c (u16 k1 k0)
    | _ => t)

/-! The meanings -/

def execDropSeen (src : Byte) (p : List Byte) (s : State) : Host.Outcome State Fault Refusal :=
  .next (s.dropSeenFrame src p)

def execTiltFault (src : Byte) (p : List Byte) (s : State) : Host.Outcome State Fault Refusal :=
  .next (s.tiltFaultFrame src p)

/-- The WINDOW_CLOSE alignment of a chute and a tray, where the chute's point aligns the tray at the
position and the loop state raises it (R98, R70). -/
def execWindowClose (chute tray : Nat) (s : State) : Host.Outcome State Fault Refusal :=
  match s.lt.layout, Tbl.get s.chutes chute with
  | some y, some h =>
    if y.aligns s.lt.pos { kind := .windowClose, coord := h.closeCoord y, owner := chute } = some tray then
      .next (s.takeAlignment { kind := .windowClose, coord := h.closeCoord y, owner := chute } tray s.lu.occ)
    else .next s
  | _, _ => .next s

end Sys2Proof.Machine
end

