-- ==== Sys2Proof/Machine/Carts.lean ====
section
/-! DEFINITION. Chapter 6: chutes, their panels, carts and swaps. -/

namespace Sys2Proof.Machine

/-! Chutes -/

/-- The fields a CHUTE SET gives, lead and window not yet clamped (R111). -/
structure ChuteFields where
  node : Byte
  role : Role
  coord : Nat
  lead : Nat
  window : Nat
  side : Side
  inverted : Bool
  deriving DecidableEq, Repr

/-- The cart cycle after a CHUTE SET: a SORT chute keeps its own or enters NO_CART, a role chute has none
(R110, R111). -/
def ChuteFields.cycle (f : ChuteFields) (old : Option Chute) : Option CartCycle :=
  if f.role = .sort then some (((old.bind Chute.cycle)).getD .noCart) else none

/-- The chute a CHUTE SET makes of its fields (R110, R111). -/
def ChuteFields.chute (f : ChuteFields) (y : Layout) (old : Option Chute) : Chute :=
  { node := f.node, role := f.role, coord := f.coord, lead := clampLead y f.lead,
    window := clampWindow y f.window, side := f.side, inverted := f.inverted,
    avail := (old.map Chute.avail).getD .inService, cycle := f.cycle old,
    bound := (old.map Chute.bound).getD 0, cart := old.bind Chute.cart,
    swapTime := (old.map Chute.swapTime).getD 0, overdueSent := (old.map Chute.overdueSent).getD false }

/-- A tray with a tilt in flight names a chute (R111, check 6). -/
def State.tiltAt (s : State) (c : Nat) : Bool := s.trays.any (fun r => r.2.chute? == some c)

/-- CHUTE SET once its form and named values have passed (R111). -/
def setChute (place : Nat) (f : ChuteFields) (s : State) : CmdResult :=
  if place < 1 ∨ 48 < place ∨ 125 < f.node.toNat ∨ f.node = s.lu.node then .error .range
  else
    match s.lt.layout with
    | none => .error .state
    | some y =>
      let old := Tbl.get s.chutes place
      let new := f.chute y old
      if y.length ≤ f.coord then .error .range
      else if s.nodeTaken f.node 0 place then .error .conflict
      else if old.any (fun h => h.bound != 0) ∧ f.role ≠ .sort then .error .state
      else if old.any (fun h => decide (h.role ≠ f.role)) ∧ s.tiltAt place then .error .state
      else
        let t := (s.putChute place new).rebuildPoints
        .ok (if old.any (fun h => decide (h.cycle ≠ new.cycle)) then t.reportChute place .config else t,
          b2 new.lead ++ b2 new.window)

/-- CHUTE SET (R111). -/
def chuteSet (p : List Byte) (s : State) : CmdResult :=
  match p with
  | [place, node, role, x1, x0, l1, l0, w1, w0, side, inverted] =>
    match Role.ofByte role, Side.ofByte side with
    | some r, some d =>
      setChute place.toNat
        { node := node, role := r, coord := u16 x1 x0, lead := u16 l1 l0, window := u16 w1 w0, side := d,
          inverted := flagOf inverted } s
    | _, _ => .error .range
  | _ => .error .badForm

/-- A chute's availability moves, with its report; the present one changes nothing (R113 to R115). -/
def State.setAvail (s : State) (c : Nat) (h : Chute) (a : Avail) (cause : ChuteCause) : State :=
  if h.avail = a then s else (s.putChute c { h with avail := a }).reportChute c cause

/-- CHUTE SERVICE (R115). -/
def chuteService (p : List Byte) (s : State) : CmdResult :=
  match p with
  | [chute, target] =>
    match Avail.ofByte target with
    | none | some .blocked => .error .range
    | some a =>
      if chute = 0 ∨ 48 < chute.toNat then .error .range
      else
        match Tbl.get s.chutes chute.toNat with
        | none => .error .absent
        | some h => .ok (s.setAvail chute.toNat h a .service, b1 a.ctorIdx)
  | _ => .error .badForm

/-- The record of a chute as CHUTE READ sends it (R117). The current cart's entry count and charged mass
stand under one presence byte (log entry 5). -/
def State.chuteFields (s : State) (c : Nat) (h : Chute) : List Byte :=
  let y := s.lt.layout
  b1 h.node.toNat ++ b1 h.role.ctorIdx ++ b2 h.coord ++ b2 h.lead ++ b2 h.window ++ b1 h.side.ctorIdx
    ++ bFlag h.inverted ++ b1 h.avail.ctorIdx ++ b1 ((h.cycle.map CartCycle.ctorIdx).getD 0) ++ b1 h.bound
    ++ bOpt 1 b1 h.cart ++ b4 h.swapTime ++ bFlag h.overdueSent
    ++ b2 ((y.map (fun y => h.decisionCoord y)).getD 0) ++ b2 ((y.map (fun y => h.closeCoord y)).getD 0)
    ++ b2 (Tbl.count s.trays (fun t => t.isTiltOrdered && t.chute? == some c))
    ++ b2 (Tbl.count s.trays (fun t => t.isDropDoubt && t.chute? == some c))
    ++ bOpt 4 b4 (if h.cycle = some .swapping then some (swapElapsed s.lu.clock h) else none)
    ++ bOpt 3 (fun x : Nat × Cart => b1 x.2.bags.length ++ b2 x.2.charge) (s.currentCart h)

/-- CHUTE READ (R117). -/
def chuteRead (p : List Byte) (s : State) : CmdResult :=
  match p with
  | [chute] =>
    if chute = 0 ∨ 48 < chute.toNat then .error .range
    else .ok (s, bOpt 37 (s.chuteFields chute.toNat) (Tbl.get s.chutes chute.toNat))
  | _ => .error .badForm

/-! Panels -/

/-- CHUTE BLOCKED moves an IN_SERVICE chute to BLOCKED (R114). -/
def State.chuteBlockedFrame (s : State) (src : Byte) (p : List Byte) : State :=
  s.panelFrame src 0x1A p 0 (fun _ => true) (fun c h t =>
    if h.avail = .inService then t.setAvail c h .blocked .panel else t)

/-- CHUTE CLEAR moves a BLOCKED chute to IN_SERVICE (R114). -/
def State.chuteClearFrame (s : State) (src : Byte) (p : List Byte) : State :=
  s.panelFrame src 0x1B p 0 (fun _ => true) (fun c h t =>
    if h.avail = .blocked then t.setAvail c h .inService .panel else t)

/-- The FREE record with the lowest id (R125). -/
def State.lowestFree (s : State) : Option Nat :=
  ((List.range Config.cartRecords).map (· + 1)).find? (fun id => (Tbl.get s.carts id).isNone)

/-- A cart placed under a SORT chute, by its cart cycle (R125). -/
def State.placeCart (s : State) (c : Nat) (h : Chute) : State :=
  if h.cycle = some .swapping then
    match s.lowestFree with
    | some id =>
      ((s.putCart id
          { group := h.bound, state := .filling, chute := some c, bags := [], closedTime := none,
            cause := none }).putChute c { h with cycle := some .filling, cart := some id }).reportChute c
        .cartPlaced
    | none => s.report 0x3E (b1 c ++ b1 h.bound)
  else s

/-- CART PLACED is taken from the panel of a SORT chute (R116, R125). -/
def State.cartPlacedFrame (s : State) (src : Byte) (p : List Byte) : State :=
  s.panelFrame src 0x1C p 0 (fun h => decide (h.role = .sort)) (fun c h t => t.placeCart c h)

/-! Carts -/

/-- CART CLOSE (R123). -/
def cartClose (p : List Byte) (s : State) : CmdResult :=
  match p with
  | [cart] =>
    if cart = 0 then .error .range
    else
      match Tbl.get s.carts cart.toNat with
      | none => .error .absent
      | some c =>
        match c.state with
        | .closed | .called => .error .state
        | .closing | .filling =>
          let t := s.forceClose cart.toNat .forced
          .ok (t, b1 (cartStateCode ((Tbl.get t.carts cart.toNat).map Cart.state)))
  | _ => .error .badForm

/-- A bag list entry as CART READ sends it (R128). -/
def BagItem.fields (b : BagItem) : List Byte := b2 b.index ++ b2 b.charge ++ b1 b.mark.ctorIdx

/-- The position of a cart in its group's ready queue, 1 being the head (R128). -/
def State.readyPosition (s : State) (id : Nat) (c : Cart) : Option Nat :=
  if c.state = .closed then
    (Tbl.get s.groups c.group).bind (fun g => (g.ready.findIdx? (· == id)).map (· + 1))
  else none

/-- The record of a cart as CART READ sends it, with up to seven entries from a position (R128). -/
def State.cartFields (s : State) (id first : Nat) (c : Cart) : List Byte :=
  b1 c.group ++ b1 (cartStateCode (some c.state)) ++ bOpt 1 b1 c.chute ++ bOpt 4 b4 c.closedTime
    ++ bOpt 1 (fun x : CloseCause => b1 x.ctorIdx) c.cause ++ b1 c.bags.length ++ b2 c.charge
    ++ b1 (c.marked .ordered) ++ b1 (c.marked .doubt) ++ b1 (c.marked .dropped)
    ++ bOpt 1 b1 (s.readyPosition id c)
    ++ bList BagItem.fields ((c.bags.drop (max first 1 - 1)).take 7)

/-- What CART READ carries: a FREE cart's record is marked by its state, and its other fields are 0. No
presence byte stands before it, or a reply with seven entries would pass 56 bytes (log entry 5). -/
def State.cartReply (s : State) (id first : Nat) : List Byte :=
  match Tbl.get s.carts id with
  | none => List.replicate 20 0
  | some c => s.cartFields id first c

/-- CART READ (R128). -/
def cartRead (p : List Byte) (s : State) : CmdResult :=
  match p with
  | [cart, first] =>
    if cart = 0 then .error .range
    else .ok (s, s.cartReply cart.toNat first.toNat)
  | _ => .error .badForm

/-! The meanings -/

def execChuteSet (src : Byte) (p : List Byte) (s : State) : Host.Outcome State Fault Refusal :=
  .next (s.takeCommand src 0x4C (chuteSet p))

def execChuteService (src : Byte) (p : List Byte) (s : State) : Host.Outcome State Fault Refusal :=
  .next (s.takeCommand src 0x4D (chuteService p))

def execChuteRead (src : Byte) (p : List Byte) (s : State) : Host.Outcome State Fault Refusal :=
  .next (s.takeCommand src 0x4F (chuteRead p))

def execCartClose (src : Byte) (p : List Byte) (s : State) : Host.Outcome State Fault Refusal :=
  .next (s.takeCommand src 0x68 (cartClose p))

def execCartRead (src : Byte) (p : List Byte) (s : State) : Host.Outcome State Fault Refusal :=
  .next (s.takeCommand src 0x69 (cartRead p))

def execChuteBlocked (src : Byte) (p : List Byte) (s : State) : Host.Outcome State Fault Refusal :=
  .next (s.chuteBlockedFrame src p)

def execChuteClear (src : Byte) (p : List Byte) (s : State) : Host.Outcome State Fault Refusal :=
  .next (s.chuteClearFrame src p)

def execCartPlaced (src : Byte) (p : List Byte) (s : State) : Host.Outcome State Fault Refusal :=
  .next (s.cartPlacedFrame src p)

/-- The swap of one chute comes to the swap limit (R126); the clock's tests make the same report. -/
def execSwapOverdue (chute : Nat) (s : State) : Host.Outcome State Fault Refusal := .next (s.swapTest chute)

end Sys2Proof.Machine
end

