-- ==== Sys2Proof/Machine/Ship.lean ====
section
/-! DEFINITION. Chapter 7: step lists, sequencers, batch events and the ship's doors. -/

namespace Sys2Proof.Machine

/-! Step lists -/

/-- Replace the step at a place counted from 0, or append one at the tail (R132). -/
def putStep (steps : List DStep) (i : Nat) (x : DStep) : List DStep :=
  if i < steps.length then steps.set i x else steps ++ [x]

/-- STEP PUT (R132). -/
def stepPut (p : List Byte) (s : State) : CmdResult :=
  match p with
  | [slot, step, group, batch, quota] =>
    match s.namedSlot slot.toNat with
    | .error c => .error c
    | .ok v =>
      if step = 0 ∨ Config.stepPlaces < step.toNat ∨ group = 0 ∨ 127 < group.toNat then .error .range
      else if v.steps.length + 1 < step.toNat then .error .range
      else if v.state = .closing then .error .state
      else
        match Tbl.get s.groups group.toNat with
        | none => .error .absent
        | some g =>
          if g.slot ≠ slot.toNat then .error .conflict
          else
            let x : DStep :=
              { group := group.toNat, batch := clamp 1 12 batch.toNat, quota := quota.toNat }
            let steps := putStep v.steps (step.toNat - 1) x
            .ok (s.putSailing slot.toNat { v with steps := steps },
              b1 x.group ++ b1 x.batch ++ b1 x.quota ++ b1 steps.length)
  | _ => .error .badForm

/-- A STEP CLEAR would remove the step a running sequencer stands on (R133). -/
def Sequencer.standsFrom (q : Sequencer) (step : Nat) : Bool :=
  (decide (q.mode = .locked) || decide (q.mode = .free)) && decide (step ≤ q.current)

/-- STEP CLEAR (R133). A step beyond the list removes nothing and is answered OK alone. -/
def stepClear (p : List Byte) (s : State) : CmdResult :=
  match p with
  | [slot, step] =>
    match s.namedSlot slot.toNat with
    | .error c => .error c
    | .ok v =>
      if step = 0 ∨ Config.stepPlaces < step.toNat then .error .range
      else if v.state = .closing then .error .state
      else if v.seq.standsFrom step.toNat then .error .state
      else if v.steps.length < step.toNat then .ok (s, [])
      else
        let steps := v.steps.take (step.toNat - 1)
        .ok (s.putSailing slot.toNat { v with steps := steps }, b1 steps.length)
  | _ => .error .badForm

/-! The sequencer -/

/-- A sequencer as SEQ START leaves it; the field its mode does not use keeps its value (R135). -/
def Sequencer.start (q : Sequencer) (mode : SeqMode) (first divisor period : Nat) (clock : Time) :
    Sequencer :=
  let m := if mode = .locked then clamp 1 12 divisor else q.divisor
  let t := if mode = .free then clamp 20 600 period else q.period
  { q with
    mode := mode, divisor := m, period := t,
    current := if first = 0 then q.current else first,
    released := if first = 0 then q.released else 0,
    lifts := 0,
    due := if mode = .free then clock + BitVec.ofNat 32 t else q.due }

/-- What SEQ START's reply carries (R135). -/
def Sequencer.startFields (q : Sequencer) : List Byte :=
  b1 q.mode.ctorIdx ++ (if q.mode = .free then b2 q.period else b1 q.divisor) ++ b1 q.current
    ++ b1 q.released

/-- SEQ START once its form and named values have passed (R135). -/
def startSeq (slot first : Nat) (mode : SeqMode) (divisor period : Nat) (s : State) : CmdResult :=
  match s.namedSlot slot with
  | .error c => .error c
  | .ok v =>
    if (mode ≠ .locked ∧ mode ≠ .free) ∨ Config.stepPlaces < first then .error .range
    else if v.state = .staged ∨ v.state = .closing then .error .state
    else if first ≠ 0 ∧ v.steps.length < first then .error .state
    else if first = 0 ∧ v.steps.length < v.seq.current then .error .state
    else
      let q := v.seq.start mode first divisor period s.lu.clock
      .ok (s.putSailing slot { v with seq := q }, q.startFields)

/-- SEQ START (R135). -/
def seqStart (p : List Byte) (s : State) : CmdResult :=
  match p with
  | [slot, first, mode, divisor, p1, p0] =>
    match SeqMode.ofByte mode with
    | none => .error .range
    | some m => startSeq slot.toNat first.toNat m divisor.toNat (u16 p1 p0) s
  | _ => .error .badForm

/-- SEQ STOP (R136). -/
def seqStop (p : List Byte) (s : State) : CmdResult :=
  match p with
  | [slot] =>
    match s.namedSlot slot.toNat with
    | .error c => .error c
    | .ok v =>
      .ok (s.putSailing slot.toNat { v with seq := { v.seq with mode := .off, lifts := 0 } },
        b1 v.seq.current ++ b1 v.seq.released)
  | _ => .error .badForm

/-! Batch events -/

/-- Change the sequencer of a sailing. -/
def State.modifySeq (s : State) (slot : Nat) (f : Sequencer → Sequencer) : State :=
  { s with sailings := Tbl.modify s.sailings slot (fun v => { v with seq := f v.seq }) }

/-- The released count after a call; from 255 on the manual states none (log entry 4). -/
def releaseCount (released freeIdx : Nat) : Nat :=
  if released < 255 then released + 1 else (Config.releasedPast255 freeIdx).val

/-- Report CART CALLED (R140). -/
def State.reportCalled (s : State) (id group : Nat) (c : Cart) (g : Group) (q : Sequencer) : State :=
  s.report 0x35 (b1 id ++ b1 group ++ b1 g.slot ++ b1 g.deck ++ b1 g.zone ++ b1 c.bags.length
    ++ b2 c.charge ++ b1 (c.marked .doubt) ++ b1 q.current ++ b1 q.released ++ b4 s.lu.clock)

/-- Call the cart at the head of a group's ready queue (R140). -/
def State.callCart (s : State) (slot group : Nat) (v : Sailing) (id : Nat) (c : Cart) (g : Group)
    (rest : List Nat) : State :=
  let q := { v.seq with released := releaseCount v.seq.released s.freeIdx }
  let t := { s with freeIdx := if v.seq.released < 255 then s.freeIdx else s.freeIdx + 1 }
  let t := ((t.putCart id { c with state := .called }).putGroup group { g with ready := rest }).putSailing
    slot { v with seq := q }
  (t.order v.door 0x23 (b1 id ++ b1 group ++ b1 g.deck ++ b1 g.zone)).reportCalled id group c g q

/-- Call carts of a group one at a time, at most `n`, until its queue is empty or a call cannot be made
(R139, stage 3). The second part is how many were called. -/
def State.callCarts (s : State) (slot group : Nat) : Nat → State × Nat
  | 0 => (s, 0)
  | n + 1 =>
    match Tbl.get s.sailings slot, Tbl.get s.groups group with
    | some v, some g =>
      match g.ready with
      | [] => (s, 0)
      | id :: rest =>
        match Tbl.get s.carts id with
        | none => (s, 0)
        | some c =>
          if s.orderPlace then
            let r := (s.callCart slot group v id c g rest).callCarts slot group n
            (r.1, r.2 + 1)
          else (s, 0)
    | _, _ => (s, 0)

/-- A step with quota 0 has run dry: the sailing is FINAL and no cart of the group is FILLING or CLOSING
with an entry (R139, stage 4). -/
def State.runDry (s : State) (v : Sailing) (group : Nat) : Bool :=
  decide (v.state = .finalCall)
    && !s.anyCart group (fun c =>
      (decide (c.state = .filling) || decide (c.state = .closing)) && !c.bags.isEmpty)

/-- A step ends: the current step rises by 1 and the released count becomes 0; past the list the
sequencer enters DONE (R139, stages 1 and 4). -/
def State.endStep (s : State) (slot len : Nat) : State :=
  s.modifySeq slot (fun q =>
    { q with
      current := q.current + 1, released := 0,
      mode := if len < q.current + 1 then .done else q.mode })

/-- The most carts a step may call at one batch event (R139, stage 3). -/
def DStep.allowance (x : DStep) (released : Nat) : Nat :=
  if x.quota = 0 then x.batch else min x.batch (x.quota - released)

/-- A batch event, from the current step, at most `fuel` steps (R139). -/
def State.batchFrom (s : State) (slot : Nat) : Nat → State
  | 0 => s
  | fuel + 1 =>
    match Tbl.get s.sailings slot with
    | none => s
    | some v =>
      match v.steps[v.seq.current - 1]? with
      | none => s.modifySeq slot (fun q => { q with mode := .done })
      | some x =>
        if x.quota ≠ 0 ∧ x.quota ≤ v.seq.released then
          (s.modifySeq slot (fun q => { q with current := q.current + 1, released := 0 })).batchFrom slot fuel
        else
          let dry := (Tbl.get s.groups x.group).any (fun g => g.ready.isEmpty)
          let r := s.callCarts slot x.group (x.allowance v.seq.released)
          let ended :=
            if x.quota = 0 then dry && s.runDry v x.group
            else decide (x.quota ≤ v.seq.released + r.2)
          let t := if ended then r.1.endStep slot v.steps.length else r.1
          if r.2 = 0 ∧ ended then t.batchFrom slot fuel else t

/-- A batch event of a sequencer (R139). A list of `n` steps is walked in at most `n` + 1 stages. -/
def State.batchEvent (s : State) (slot : Nat) : State :=
  match Tbl.get s.sailings slot with
  | none => s
  | some v => s.batchFrom slot (v.steps.length + 1)

/-- A LIFT READY taken by one sequencer (R137). -/
def State.liftReady (s : State) (slot : Nat) : State :=
  match Tbl.get s.sailings slot with
  | none => s
  | some v =>
    if v.seq.mode = .locked then
      if v.seq.lifts + 1 < v.seq.divisor then
        s.modifySeq slot (fun q => { q with lifts := q.lifts + 1 })
      else (s.modifySeq slot (fun q => { q with lifts := 0 })).batchEvent slot
    else s

/-- A next due is at or below the clock (R138). -/
def dueBy (due clock : Time) : Bool := decide ((clock - due).toNat < 2 ^ 31)

/-- A sequencer in FREE whose next due is at or below the clock makes one batch event (R138). -/
def State.freeEvent (s : State) (slot : Nat) : State :=
  match Tbl.get s.sailings slot with
  | none => s
  | some v =>
    if v.seq.mode = .free ∧ dueBy v.seq.due s.lu.clock then
      (s.modifySeq slot (fun q => { q with due := s.lu.clock + BitVec.ofNat 32 q.period })).batchEvent slot
    else s

/-! Doors -/

/-- A sailing's door node has come into use: OPEN, FINAL or CLOSING (R130). -/
def Sailing.doorInUse (v : Sailing) : Bool := decide (v.state ≠ .staged)

/-- A node is the door node of a sailing in OPEN, FINAL or CLOSING (R130, R167). -/
def State.isDoor (s : State) (node : Byte) : Bool :=
  s.sailings.any (fun r => r.2.doorInUse && r.2.door == node)

/-- The slots whose door node a node is, ascending (R130, R137). -/
def State.slotsOfDoor (s : State) (node : Byte) : List Nat :=
  (s.sailings.filter (fun r => r.2.doorInUse && r.2.door == node)).map Prod.fst

/-- A CALLED cart whose sailing's door is a node, with its group and that sailing's slot (R130, R143). -/
def State.calledAt (s : State) (node : Byte) (id : Nat) : Option (Cart × Group × Sailing) :=
  match Tbl.get s.carts id with
  | none => none
  | some c =>
    match Tbl.get s.groups c.group with
    | none => none
    | some g =>
      match Tbl.get s.sailings g.slot with
      | none => none
      | some v =>
        if c.state = .called ∧ v.doorInUse ∧ v.door = node then some (c, g, v) else none

/-- Every bag of a list becomes ABOARD (R141). -/
def State.boardBags (s : State) (bags : List BagItem) : State :=
  bags.foldl (fun t b => t.setEntryState b.index .aboard) s

/-- A CALLED cart goes aboard (R141). -/
def State.boardCart (s : State) (id : Nat) (c : Cart) (g : Group) (v : Sailing) : State :=
  let n := c.bags.length
  let t := ((s.boardBags c.bags).putSailing g.slot { v with tally := v.tally + n }).putGroup c.group
    { g with
      bagsAboard := min (g.bagsAboard + n) Config.countStop,
      cartsAboard := bumpStop g.cartsAboard,
      bagsInCarts := g.bagsInCarts - (c.marked .dropped + c.marked .doubt) }
  (t.freeCart id).report 0x36 (b1 id ++ b1 c.group ++ b1 g.slot ++ b1 n ++ b1 (c.marked .doubt)
    ++ b2 c.charge ++ b2 (v.tally + n) ++ b4 s.lu.clock)

/-- A CALLED cart is refused: CLOSED again, at the head of its group's ready queue (R142). -/
def State.refuseCart (s : State) (id : Nat) (c : Cart) (g : Group) : State :=
  ((s.putCart id { c with state := .closed }).putGroup c.group { g with ready := id :: g.ready }).report 0x37
    (b1 id ++ b1 c.group ++ b1 g.slot ++ b1 c.bags.length)

/-- Hand a door node's frame to the DS (R130, R167). -/
def State.doorFrame (s : State) (src kind : Byte) (p : List Byte) (len : Nat) (owner : State → State) :
    State :=
  s.takeField src kind p (s.isDoor src) (p.length == len) owner

/-- LIFT READY is taken by each sequencer of the door's sailings, in ascending slot (R137). -/
def State.liftReadyFrame (s : State) (src : Byte) (p : List Byte) : State :=
  s.doorFrame src 0x1D p 0 (fun t => (t.slotsOfDoor src).foldl State.liftReady t)

/-- CART ABOARD; a cart that is not CALLED, or not this door's, is ignored (R141, R143). -/
def State.cartAboardFrame (s : State) (src : Byte) (p : List Byte) : State :=
  s.doorFrame src 0x1E p 1 (fun t =>
    match p with
    | [id] =>
      match t.calledAt src id.toNat with
      | some (c, g, v) => t.boardCart id.toNat c g v
      | none => t
    | _ => t)

/-- CART REFUSED; a cart that is not CALLED, or not this door's, is ignored (R142, R143). -/
def State.cartRefusedFrame (s : State) (src : Byte) (p : List Byte) : State :=
  s.doorFrame src 0x1F p 1 (fun t =>
    match p with
    | [id] =>
      match t.calledAt src id.toNat with
      | some (c, g, _) => t.refuseCart id.toNat c g
      | none => t
    | _ => t)

/-! The meanings -/

def execStepPut (src : Byte) (p : List Byte) (s : State) : Host.Outcome State Fault Refusal :=
  .next (s.takeCommand src 0x6C (stepPut p))

def execStepClear (src : Byte) (p : List Byte) (s : State) : Host.Outcome State Fault Refusal :=
  .next (s.takeCommand src 0x6D (stepClear p))

def execSeqStart (src : Byte) (p : List Byte) (s : State) : Host.Outcome State Fault Refusal :=
  .next (s.takeCommand src 0x6E (seqStart p))

def execSeqStop (src : Byte) (p : List Byte) (s : State) : Host.Outcome State Fault Refusal :=
  .next (s.takeCommand src 0x6F (seqStop p))

def execLiftReady (src : Byte) (p : List Byte) (s : State) : Host.Outcome State Fault Refusal :=
  .next (s.liftReadyFrame src p)

def execCartAboard (src : Byte) (p : List Byte) (s : State) : Host.Outcome State Fault Refusal :=
  .next (s.cartAboardFrame src p)

def execCartRefused (src : Byte) (p : List Byte) (s : State) : Host.Outcome State Fault Refusal :=
  .next (s.cartRefusedFrame src p)

/-- A sequencer's batch event where its condition stands: in LOCKED a lift event count at the divisor,
in FREE a next due at or below the clock (R137, R138, R139). -/
def execBatchEvent (slot : Nat) (s : State) : Host.Outcome State Fault Refusal :=
  match Tbl.get s.sailings slot with
  | none => .next s
  | some v =>
    if v.seq.mode = .locked ∧ v.seq.divisor ≤ v.seq.lifts then
      .next ((s.modifySeq slot (fun q => { q with lifts := 0 })).batchEvent slot)
    else .next (s.freeEvent slot)

end Sys2Proof.Machine
end

