-- ==== Sys2Proof/Machine/Strays.lean ====
section
/-! DEFINITION. Chapter 8: the stray classes, the encode station and the commands over strays. -/

namespace Sys2Proof.Machine

/-- CLASS SET (R146). -/
def classSet (p : List Byte) (s : State) : CmdResult :=
  match p with
  | [cls, disposition, priority] =>
    match Disposition.ofByte disposition with
    | none => .error .range
    | some d =>
      if 31 < cls.toNat ∨ 7 < priority.toNat then .error .range
      else if cls.toNat = Cls.lost then .error .range
      else if d = .recordOnly ∧ cls.toNat ≠ Cls.lapLimit ∧ cls.toNat ≠ Cls.untracked then .error .range
      else
        .ok ({ s with su := { s.su with
          classes := Tbl.set s.su.classes cls.toNat
            { disposition := some d, priority := priority.toNat, loaded := true } } }, [])
  | _ => .error .badForm

/-- The position of a ref in the encode queue, 1 being the head (R161). -/
def State.encodePosition (s : State) (ref : Nat) : Option Nat :=
  (s.su.encode.findIdx? (fun it => it.ref == ref)).map (· + 1)

/-- An open record as STRAY READ sends it (R161). -/
def State.strayFields (s : State) (ref : Nat) (r : Stray) : List Byte :=
  b2 ref ++ b1 r.cls ++ bOpt 2 b2 r.index ++ bFlag r.linked ++ bOpt 1 b1 r.slot ++ bList b4 r.tags
    ++ bOpt 2 b2 r.mass ++ strayLocBytes r.loc ++ b4 r.opened
    ++ bOpt 1 b1 (if r.loc = .atEncode then s.encodePosition ref else none) ++ bFlag (s.refHeld ref)

/-- The record a STRAY READ names: the ref's own, or the lowest ref above it (R161). -/
def State.namedStray (s : State) (ref : Nat) (mode : ReadMode) : Option (Nat × Stray) :=
  match mode with
  | .exact => (Tbl.get s.su.strays ref).map (fun r => (ref, r))
  | .next => s.su.strays.find? (fun r => decide (ref < r.1))

/-- STRAY READ (R161). -/
def strayRead (p : List Byte) (s : State) : CmdResult :=
  match p with
  | [r1, r0, mode] =>
    match ReadMode.ofByte mode with
    | none => .error .range
    | some m =>
      .ok (s, bOpt 23 (fun x : Nat × Stray => s.strayFields x.1 x.2) (s.namedStray (u16 r1 r0) m))
  | _ => .error .badForm

/-- The outcome a reason closes with (R158, R159). -/
def CloseReason.outcome : CloseReason → StrayOutcome
  | .handedOver => .handedOver
  | .withdrawn => .withdrawn
  | .other => .other

/-- The state a closed record's linked entry takes (R159). -/
def CloseReason.entryState : CloseReason → EntryState
  | .withdrawn => .withdrawn
  | .handedOver | .other => .notSeen

/-- A record's sailing is in CLOSING (R159, check 4). -/
def State.strayClosing (s : State) (r : Stray) : Bool :=
  r.slot.any (fun n => (Tbl.get s.sailings n).any (fun v => decide (v.state = .closing)))

/-- STRAY CLOSE of an open record that has passed its checks (R159). -/
def State.finishStray (s : State) (ref : Nat) (r : Stray) (reason : CloseReason) : State :=
  let t := s.closeStray ref reason.outcome none
  match r.linked, r.index with
  | true, some m => t.setEntryState m reason.entryState
  | _, _ => t

/-- STRAY CLOSE (R159). -/
def strayClose (p : List Byte) (s : State) : CmdResult :=
  match p with
  | [r1, r0, reason] =>
    match CloseReason.ofByte reason with
    | none => .error .range
    | some why =>
      if u16 r1 r0 = 0 then .error .range
      else
        match Tbl.get s.su.strays (u16 r1 r0) with
        | none => .error .absent
        | some r =>
          if s.refHeld (u16 r1 r0) then .error .state
          else if why = .withdrawn ∧ r.linked ∧ s.strayClosing r then .error .state
          else .ok (s.finishStray (u16 r1 r0) r why, [])
  | _ => .error .badForm

/-- QUEUE READ: up to twelve items of the encode queue, and the figures of R161 (R181). The numbers of
MANUAL tilts and of open records are sent in two bytes each (log entry 5). -/
def queueRead (p : List Byte) (s : State) : CmdResult :=
  match p with
  | [first] =>
    .ok (s, bList (fun it : EncodeItem => b2 it.ref ++ b1 it.priority)
        ((s.su.encode.drop (max first.toNat 1 - 1)).take 12)
      ++ b2 s.manualTilts ++ b2 s.su.strays.length ++ b2 s.su.unrecorded ++ b2 s.su.nextRef
      ++ bOpt 2 b2 s.su.notice)
  | _ => .error .badForm

/-- An operator takes a bag in hand (R156). -/
def State.takeInHand (s : State) (ref : Nat) : State :=
  if s.refHeld ref then s
  else s.moveStray ref (fun r => { r with loc := .withOperator }) .taken

/-- A node is the configured ENCODE station's (R156, R167). -/
def State.isEncodeNode (s : State) (node : Byte) : Bool :=
  s.stations.any (fun r => r.2.node == node && decide (r.2.kind = .encode))

/-- ENCODE TAKEN (R156). -/
def State.encodeTakenFrame (s : State) (src : Byte) (p : List Byte) : State :=
  s.takeField src 0x14 p (s.isEncodeNode src) (p.length == 2) (fun t =>
    match p with
    | [r1, r0] => t.takeInHand (u16 r1 r0)
    | _ => t)

/-- The head of the encode queue: its first ref, or 0 when it is empty (R155). -/
def State.encodeHead (s : State) : Nat := (s.su.encode.head?.map EncodeItem.ref).getD 0

/-- The payload of ENCODE NEXT (R155, 9.4.2). -/
def State.encodeNextFields (s : State) : List Byte :=
  match Tbl.get s.su.strays s.encodeHead with
  | none => b2 s.encodeHead
  | some r =>
    b2 s.encodeHead ++ b1 r.cls ++ bOpt 2 b2 r.index ++ bFlag r.linked ++ b1 (r.slot.getD 0)
      ++ bOpt 2 b2 r.mass ++ b1 s.su.encode.length

/-- The node of the ENCODE station, if one is configured. -/
def State.encodeNode (s : State) : Option Byte :=
  (s.stations.find? (fun r => decide (r.2.kind = .encode))).map (fun r => r.2.node)

/-- Tell the encode station the head of the queue when it differs from the notice sent (R155). -/
def State.sendEncodeNext (s : State) : State :=
  match s.encodeNode with
  | none => s
  | some node =>
    if s.su.notice ≠ some s.encodeHead ∧ s.orderPlace then
      { s.order node 0x24 s.encodeNextFields with su := { s.su with notice := some s.encodeHead } }
    else s

/-! The meanings -/

def execClassSet (src : Byte) (p : List Byte) (s : State) : Host.Outcome State Fault Refusal :=
  .next (s.takeCommand src 0x64 (classSet p))

def execStrayRead (src : Byte) (p : List Byte) (s : State) : Host.Outcome State Fault Refusal :=
  .next (s.takeCommand src 0x65 (strayRead p))

def execStrayClose (src : Byte) (p : List Byte) (s : State) : Host.Outcome State Fault Refusal :=
  .next (s.takeCommand src 0x66 (strayClose p))

def execQueueRead (src : Byte) (p : List Byte) (s : State) : Host.Outcome State Fault Refusal :=
  .next (s.takeCommand src 0x67 (queueRead p))

def execEncodeTaken (src : Byte) (p : List Byte) (s : State) : Host.Outcome State Fault Refusal :=
  .next (s.encodeTakenFrame src p)

/-- The SU's attempt to send ENCODE NEXT (R155); each advance of the clock makes one. -/
def execEncodeNext (s : State) : Host.Outcome State Fault Refusal := .next s.sendEncodeNext

end Sys2Proof.Machine
end

