-- ==== Sys2Proof/Machine/Supervisor.lean ====
section
/-! DEFINITION. Chapter 10: STATUS, the part commands and RESTART. -/

namespace Sys2Proof.Machine

/-! STATUS -/

/-- The error counts and flags of both ports and the overrun flag, as page 0 sends them (R177). -/
def State.errorFields (s : State) : List Byte :=
  b2 s.lu.supRx.errors ++ bFlag s.lu.supRx.errorFlag ++ b2 s.lu.fldRx.errors ++ bFlag s.lu.fldRx.errorFlag
    ++ bFlag s.lu.overrun

/-- The flags of a sailing page: both error flags and the overrun flag (R177). -/
def State.flagFields (s : State) : List Byte :=
  bFlag s.lu.supRx.errorFlag ++ bFlag s.lu.fldRx.errorFlag ++ bFlag s.lu.overrun

/-- The layout as page 0 sends it (R177). -/
def Layout.fields (y : Layout) : List Byte :=
  b2 y.trays ++ b1 y.pitch ++ b1 y.divisor ++ b1 y.tolerance ++ b2 y.eye ++ b2 y.length

/-- The part settings as page 0 sends them (R177, 10.2). -/
def Settings.fields (x : Settings) : List Byte :=
  b2 x.lowerMass ++ b2 x.upperMass ++ b2 x.defaultCharge ++ b1 x.strayLapLimit ++ b2 x.swapLimit

/-- The long-operation slot as page 0 and RESTART's reply send it; an empty one is NONE, 0, 0 (R177). -/
def State.longFields (s : State) : List Byte :=
  b1 (longKindCode (s.cu.longOp.map LongOp.kind)) ++ b1 ((s.cu.longOp.map LongOp.slot).getD 0)
    ++ b2 ((s.cu.longOp.map LongOp.steps).getD 0)

/-- The last end record as page 0 sends it; an empty one is all 0 (R177). -/
def State.endFields (s : State) : List Byte :=
  match s.cu.lastEnd with
  | none => [0, 0, 0, 0]
  | some e => b1 (longKindCode (some e.kind)) ++ b1 e.slot ++ b1 e.outcome.ctorIdx ++ b1 e.reason.ctorIdx

/-- Page 0: the part (R177). -/
def State.partPage (s : State) : List Byte :=
  b1 s.lu.node.toNat ++ b4 s.lu.clock ++ s.errorFields ++ b1 s.lt.state.ctorIdx ++ b1 s.lt.mode.ctorIdx
    ++ b2 s.lt.pos ++ bInt s.lt.lastCorrection ++ bOpt 9 Layout.fields s.lt.layout ++ s.cu.settings.fields
    ++ s.longFields ++ s.endFields

/-- A sailing slot less the flags; an EMPTY slot is all 0 (R177). -/
def sailingFields : Option Sailing → List Byte
  | none => List.replicate 20 0
  | some v =>
    b1 (sailingStateCode (some v.state)) ++ b1 v.key ++ b2 v.base ++ b2 v.length ++ bFlag v.ready
      ++ bFlag v.committed ++ b1 v.door.toNat ++ b1 v.lapLimit ++ b2 v.tally ++ b1 v.seq.mode.ctorIdx
      ++ b1 v.seq.divisor ++ b2 v.seq.period ++ b1 v.seq.current ++ b1 v.seq.released ++ b1 v.seq.lifts
      ++ b1 v.steps.length

/-- A page of STATUS: 0 the part, 1-4 a sailing slot (R177). -/
def State.statusPage (s : State) (page : Nat) : List Byte :=
  if page = 0 then s.partPage else s.flagFields ++ sailingFields (Tbl.get s.sailings page)

/-- STATUS (R177). -/
def status (p : List Byte) (s : State) : CmdResult :=
  match p with
  | [page] =>
    if 4 < page.toNat then .error .range else .ok (s.clearFlags, s.statusPage page.toNat)
  | _ => .error .badForm

/-! The part commands -/

/-- A FREE sequencer's period starts afresh at a clock (R138). -/
def Sequencer.restartPeriod (clock : Time) (q : Sequencer) : Sequencer :=
  if q.mode = .free then { q with due := clock + BitVec.ofNat 32 q.period } else q

/-- SET CLOCK (R178, R126, R138). -/
def setClock (p : List Byte) (s : State) : CmdResult :=
  match p with
  | [c3, c2, c1, c0] =>
    let clock := u32 c3 c2 c1 c0
    let t := { s with lu := { s.lu with clock := clock } }.swapTests
    .ok ({ t with
      sailings := Tbl.mapRows t.sailings (fun v => { v with seq := v.seq.restartPeriod clock }) },
      b4 s.lu.clock)
  | _ => .error .badForm

/-- Some value of a MASS LIMITS is out of range, or the limits are out of order (R179). -/
def massesBad (lower upper charge : Nat) : Bool :=
  decide (lower < 1) || decide (1000 < lower) || decide (upper < 2) || decide (1000 < upper)
    || decide (charge < 1) || decide (1023 < charge) || decide (upper ≤ lower)

/-- MASS LIMITS (R179). -/
def massLimits (p : List Byte) (s : State) : CmdResult :=
  match p with
  | [l1, l0, u1, u0, d1, d0] =>
    let lower := u16 l1 l0
    let upper := u16 u1 u0
    let charge := u16 d1 d0
    if massesBad lower upper charge then .error .range
    else
      .ok ({ s with
        cu := { s.cu with
          settings := { s.cu.settings with
            lowerMass := lower, upperMass := upper, defaultCharge := charge } } },
        b2 lower ++ b2 upper ++ b2 charge)
  | _ => .error .badForm

/-- PART SETTINGS (R152, R180); a changed swap limit is tested at once (R126). -/
def partSettings (p : List Byte) (s : State) : CmdResult :=
  match p with
  | [lap, w1, w0] =>
    let laps := clamp 1 15 lap.toNat
    let swap := clamp 30 900 (u16 w1 w0)
    let t := { s with
      cu := { s.cu with settings := { s.cu.settings with strayLapLimit := laps, swapLimit := swap } } }
    .ok (if swap = s.cu.settings.swapLimit then t else t.swapTests, b1 laps ++ b2 swap)
  | _ => .error .badForm

/-! RESTART -/

/-- A manifest entry at RESTART: a waiting or riding bag's becomes NOT_SEEN (R24). DEDUCED (log entry 19): the
entry of a stray load whose tilt was ORDERED stays STRAY at its ref, as R24 and R162 say, though R90 and R129
let the entry of every removed ORDERED entry become NOT_SEEN. -/
def Entry.restart (e : Entry) : Entry :=
  match e.state with
  | .pending _ | .inFlight _ => { e with state := .notSeen }
  | _ => e

/-- The manifest at RESTART, in its canonical form (R24). -/
def State.restartManifest (s : State) : State :=
  { s with
    manifest := (Tbl.mapRows s.manifest Entry.restart).filter (fun r => decide (r.2 ≠ Entry.unissued)) }

/-- A load is a stray load with a group target (R24, R162). -/
def Load.isGroupStray (l : Load) : Bool :=
  l.ref.isSome && (match l.target with | .group _ => true | _ => false)

/-- The doubt of a stray load with a group target at RESTART: its record closes unreported, and its entry
goes to IN_CART at the cart, or stays ABOARD when the cart no longer holds it (R24, R90, R162). -/
def State.restartDoubt (s : State) (k : Nat) : State :=
  match s.tray k with
  | .dropDoubt l _ (some id) =>
    match l.ref, l.index with
    | some ref, some m =>
      if l.isGroupStray then
        (if s.cartHolds id m .doubt then s.setEntryState m (.inCart id) else s).removeStray ref
      else s
    | _, _ => s
  | _ => s

/-- A record's location is on a tray. -/
def Stray.rides (r : Stray) : Bool :=
  match r.loc with
  | .onTray _ => true
  | _ => false

/-- A stray record at RESTART: one ON_TRAY moves to UNKNOWN (R162). -/
def Stray.restart (r : Stray) : Stray := if r.rides then { r with loc := .unknown } else r

/-- A bag list at RESTART: ORDERED entries are removed and DOUBT entries become DROPPED (R129). -/
def restartBags (bags : List BagItem) : List BagItem :=
  (bags.filter (fun b => decide (b.mark ≠ .ordered))).map
    (fun b => if b.mark = .doubt then { b with mark := .dropped } else b)

/-- The carts at RESTART: the bag lists, then the closing of every CLOSING cart in ascending id, without
reports (R129). -/
def State.restartCarts (s : State) : State :=
  let t := { s with carts := Tbl.mapRows s.carts (fun c => { c with bags := restartBags c.bags }) }
  (((s.carts.filter (fun r => decide (r.2.state = .closing))).map Prod.fst)).foldl State.closeCart t

/-- A station at RESTART: no bag waits and no launch is in flight (R66). -/
def Station.restart (st : Station) : Station := { st with queue := [], ordered := none }

/-- The loop at RESTART (R89). -/
def LoopTracker.restart (t : LoopTracker) (loopRun : Bool) : LoopTracker :=
  { t with
    pos := 0, acc := 0, absorb := 0, lastCorrection := 0, missed := 0, lossPoint := 0, advances := 0,
    state := if loopRun then .unsynced else .stopped, mode := .off, eyeTaken := true }

/-- A sailing's sequencer at RESTART (R144). -/
def Sailing.restart (v : Sailing) : Sailing := { v with seq := { v.seq with mode := .off, lifts := 0 } }

/-- A transmit queue emptied by RESTART. A frame whose sending has begun is completed: the frame an
earlier RESTART left to complete, or else the head when its sending has begun (R171, log entry 7). -/
def Transmitter.restart (x : Transmitter) (begun : Bool) : Transmitter :=
  { queue := [],
    completing :=
      match x.completing with
      | some f => some f
      | none => if begun then x.queue.head? else none }

/-- Frames a transmit queue loses at RESTART: those whose sending has not begun (R171). -/
def Transmitter.discarded (x : Transmitter) (begun : Bool) : Nat :=
  if x.completing.isNone ∧ begun then x.queue.length - 1 else x.queue.length

/-- The free values of one RESTART: whether each port's head has been begun (R171). -/
def State.fldBegun (s : State) : Bool := Config.headBegun s.freeIdx

def State.supBegun (s : State) : Bool := Config.headBegun (s.freeIdx + 1)

/-- The two transmit queues at RESTART (R171). -/
def State.restartLine (s : State) : State :=
  { s with
    lu := { s.lu with fldTx := s.lu.fldTx.restart s.fldBegun, supTx := s.lu.supTx.restart s.supBegun },
    freeIdx := s.freeIdx + 2 }

/-- The long operation at RESTART: in flight, it ends ABANDONED without a report (R184, R185, R186). -/
def State.restartLong (s : State) : State :=
  match s.cu.longOp with
  | none => s
  | some o => s.endLong { kind := o.kind, slot := o.slot, outcome := .abandoned, reason := .noReason }

/-- The records at RESTART, less those a settled doubt closes (R162). -/
def State.restartStrays (s : State) : State :=
  { s with su := { s.su with strays := Tbl.mapRows s.su.strays Stray.restart, notice := none } }

/-- The state RESTART leaves, before its reply (R186). -/
def State.restarted (s : State) : State :=
  let t := ((Tbl.keys s.trays).foldl State.restartDoubt s).restartManifest.restartCarts.restartStrays
  { t with
    stations := Tbl.mapRows t.stations Station.restart,
    trays := [],
    lt := t.lt.restart s.lu.loopRun,
    sailings := Tbl.mapRows t.sailings Sailing.restart }.restartLong.restartLine

/-- Records that RESTART moves from ON_TRAY to UNKNOWN: those a settled doubt does not close (R186). -/
def State.recordsMoved (s : State) : Nat :=
  Tbl.count ((Tbl.keys s.trays).foldl State.restartDoubt s).su.strays Stray.rides

/-- How many entries of a mark all the bag lists hold. -/
def State.markTotal (s : State) (k : Mark) : Nat := (s.carts.map (fun r => r.2.marked k)).sum

/-- What RESTART's reply carries (R186): counts of two bytes each. -/
def State.restartFields (s : State) : List Byte :=
  s.longFields ++ b2 (s.stations.map (fun r => r.2.queue.length)).sum
    ++ b2 (Tbl.count s.trays (fun t => t.load?.isSome)) ++ b2 (s.markTotal .ordered)
    ++ b2 (s.markTotal .doubt) ++ b2 (Tbl.count s.carts (fun c => decide (c.state = .closing)))
    ++ b2 s.recordsMoved ++ b2 (s.lu.fldTx.discarded s.fldBegun) ++ b2 (s.lu.supTx.discarded s.supBegun)

/-- A RESTART frame (R175, R186): of good form it is always taken, for it empties the queue before its
reply is queued; of bad form it is answered as any command (log entry 14). -/
def State.restartFrame (s : State) (src : Byte) (p : List Byte) : State :=
  if p = [] then
    if s.lu.supRx.awaitIdle then s else s.restarted.reply src 0x42 .ok s.restartFields
  else s.takeCommand src 0x42 (fun _ => .error .badForm)

/-! The meanings -/

def execStatus (src : Byte) (p : List Byte) (s : State) : Host.Outcome State Fault Refusal :=
  .next (s.takeCommand src 0x40 (status p))

def execSetClock (src : Byte) (p : List Byte) (s : State) : Host.Outcome State Fault Refusal :=
  .next (s.takeCommand src 0x41 (setClock p))

def execMassLimits (src : Byte) (p : List Byte) (s : State) : Host.Outcome State Fault Refusal :=
  .next (s.takeCommand src 0x44 (massLimits p))

def execPartSettings (src : Byte) (p : List Byte) (s : State) : Host.Outcome State Fault Refusal :=
  .next (s.takeCommand src 0x45 (partSettings p))

def execRestart (src : Byte) (p : List Byte) (s : State) : Host.Outcome State Fault Refusal :=
  .next (s.restartFrame src p)

end Sys2Proof.Machine
end

