-- ==== Sys2Proof/Machine/Line.lean ====
section
/-! DEFINITION. Chapter 9: resets, the receivers, forwarding, the transmitters and the hall clock. -/

namespace Sys2Proof.Machine

/-! The receivers -/

/-- A received run fails the check of R164: only then is it counted. An empty run is no frame, and before
the first idle nothing is received (R163, R174). -/
def State.checkFails (s : State) (port : Port) (rx : RxRun) : Bool :=
  !(s.rx port).awaitIdle && !rx.bytes.isEmpty && !goodRun rx

/-- A bad frame is dropped and counted on its port (R164). -/
def State.frameCheck (s : State) (port : Port) (rx : RxRun) : State :=
  if s.checkFails port rx then s.setRx port (s.rx port).countError else s

/-- The first idle of a port after power-on: its receiver takes frames from here (R174). -/
def State.idleSeen (s : State) (port : Port) : State := s.setRx port { s.rx port with awaitIdle := false }

/-! Forwarding -/

/-- Queue a frame of the Field port on the supervisor queue, byte for byte, or drop it (R165, R168). -/
def State.forwardUp (s : State) (f : Frame) : State :=
  if s.lu.supTx.queue.length < Config.supReportPlaces then
    { s with lu := { s.lu with supTx := { s.lu.supTx with queue := s.lu.supTx.queue ++ [f] } } }
  else s.setOverrun

/-- Queue a frame of the Supervisor port on the field queue, byte for byte, or drop it (R165, R169). -/
def State.forwardDown (s : State) (f : Frame) : State :=
  if s.lu.fldTx.queue.length < Config.fldForwardPlaces then
    { s with lu := { s.lu with fldTx := { s.lu.fldTx with queue := s.lu.fldTx.queue ++ [f] } } }
  else s.setOverrun

/-- A good frame of a port that is for another node or for all (R165). A frame for the processor itself,
or one no frame of the line can be, is not forwarded. -/
def State.forward (s : State) (port : Port) (f : Frame) : State :=
  if (s.rx port).awaitIdle ∨ f.dst = s.lu.node ∨ Config.maxPayload < f.payload.length then s
  else
    match port with
    | .field => s.forwardUp f
    | .supervisor => s.forwardDown f

/-! The transmitters -/

/-- The last character of a transmitter's frame is sent: the frame RESTART left to complete, or else the
queue's head, whose place becomes free (R168, R171). -/
def Transmitter.sent (x : Transmitter) : Transmitter :=
  if x.completing.isSome then { x with completing := none } else { x with queue := x.queue.drop 1 }

/-- A port finishes sending a frame (R168). -/
def State.frameSent (s : State) (port : Port) : State :=
  match port with
  | .supervisor => { s with lu := { s.lu with supTx := s.lu.supTx.sent } }
  | .field => { s with lu := { s.lu with fldTx := s.lu.fldTx.sent } }

/-! Frames of no kind -/

/-- A frame taken on the Supervisor port whose kind is no command kind (R166). -/
def State.badKind (s : State) (src kind : Byte) : State :=
  if isCommandKind kind then s else s.takeCommand src kind (fun _ => .error .badKind)

/-- A frame taken on the Field port whose kind is none the processor takes from the field (R167). -/
def State.unknownKind (s : State) (src kind : Byte) (p : List Byte) : State :=
  if isFieldKind kind ∨ s.lu.fldRx.awaitIdle ∨ s.panelOut src then s
  else s.fieldMismatch src kind .unknownKind p.length

/-! The hall clock -/

/-- One advance of the hall clock, taken by the CA, the DS and the SU in that order (R172). -/
def State.clockAdvances (s : State) : State :=
  let t := { s with lu := { s.lu with clock := s.lu.clock + 1 } }.swapTests
  ((Tbl.keys t.sailings).foldl State.freeEvent t).sendEncodeNext

/-! The meanings -/

/-- A power-on reset (R174): the levels of OCC and the waiting commands are the outside's. -/
def execPowerOnReset (addr : BitVec 2) (loopRun : Bool) (s : State) : Host.Outcome State Fault Refusal :=
  .next (State.powerOn addr loopRun s.lu.occ s.freeIdx s.pending)

def execFrameCheckFailed (port : Port) (rx : RxRun) (s : State) : Host.Outcome State Fault Refusal :=
  .next (s.frameCheck port rx)

def execFrameForward (port : Port) (f : Frame) (s : State) : Host.Outcome State Fault Refusal :=
  .next (s.forward port f)

def execFrameSent (port : Port) (s : State) : Host.Outcome State Fault Refusal := .next (s.frameSent port)

def execBadKind (src kind : Byte) (_p : List Byte) (s : State) : Host.Outcome State Fault Refusal :=
  .next (s.badKind src kind)

def execUnknownKind (src kind : Byte) (p : List Byte) (s : State) : Host.Outcome State Fault Refusal :=
  .next (s.unknownKind src kind p)

def execHallClockAdvance (s : State) : Host.Outcome State Fault Refusal := .next s.clockAdvances

def execFirstIdle (port : Port) (s : State) : Host.Outcome State Fault Refusal := .next (s.idleSeen port)

end Sys2Proof.Machine
end

