-- ==== Sys2Proof/Machine/Dispatch.lean ====
section
/-! DEFINITION. One arm per command: each calls its meaning. -/

namespace Sys2Proof.Machine

def exec (i : Instr) (s : State) : Host.Outcome State Fault Refusal :=
  match i with
  | .powerOnReset addr loopRun => Sys2Proof.Machine.execPowerOnReset addr loopRun s
  | .frameCheckFailed port rx => Sys2Proof.Machine.execFrameCheckFailed port rx s
  | .frameForward port f => Sys2Proof.Machine.execFrameForward port f s
  | .frameSent port => Sys2Proof.Machine.execFrameSent port s
  | .badKind src kind p => Sys2Proof.Machine.execBadKind src kind p s
  | .status src p => Sys2Proof.Machine.execStatus src p s
  | .setClock src p => Sys2Proof.Machine.execSetClock src p s
  | .restart src p => Sys2Proof.Machine.execRestart src p s
  | .sortMode src p => Sys2Proof.Machine.execSortMode src p s
  | .massLimits src p => Sys2Proof.Machine.execMassLimits src p s
  | .partSettings src p => Sys2Proof.Machine.execPartSettings src p s
  | .layoutSet src p => Sys2Proof.Machine.execLayoutSet src p s
  | .trayRead src p => Sys2Proof.Machine.execTrayRead src p s
  | .stationSet src p => Sys2Proof.Machine.execStationSet src p s
  | .chuteSet src p => Sys2Proof.Machine.execChuteSet src p s
  | .chuteService src p => Sys2Proof.Machine.execChuteService src p s
  | .chuteBind src p => Sys2Proof.Machine.execChuteBind src p s
  | .chuteUnbind src p => Sys2Proof.Machine.execChuteUnbind src p s
  | .chuteRead src p => Sys2Proof.Machine.execChuteRead src p s
  | .groupSet src p => Sys2Proof.Machine.execGroupSet src p s
  | .groupDelete src p => Sys2Proof.Machine.execGroupDelete src p s
  | .groupRead src p => Sys2Proof.Machine.execGroupRead src p s
  | .sailingDefine src p => Sys2Proof.Machine.execSailingDefine src p s
  | .sailingStateOpen src p => Sys2Proof.Machine.execSailingStateOpen src p s
  | .sailingStateFinal src p => Sys2Proof.Machine.execSailingStateFinal src p s
  | .regionInit src p => Sys2Proof.Machine.execRegionInit src p s
  | .sailingClose src p => Sys2Proof.Machine.execSailingClose src p s
  | .blockPut src p => Sys2Proof.Machine.execBlockPut src p s
  | .blockDelete src p => Sys2Proof.Machine.execBlockDelete src p s
  | .planClear src p => Sys2Proof.Machine.execPlanClear src p s
  | .planCommit src p => Sys2Proof.Machine.execPlanCommit src p s
  | .entryPut src p => Sys2Proof.Machine.execEntryPut src p s
  | .cabinChange src p => Sys2Proof.Machine.execCabinChange src p s
  | .holdSet src p => Sys2Proof.Machine.execHoldSet src p s
  | .holdClear src p => Sys2Proof.Machine.execHoldClear src p s
  | .withdraw src p => Sys2Proof.Machine.execWithdraw src p s
  | .entryRead src p => Sys2Proof.Machine.execEntryRead src p s
  | .classSet src p => Sys2Proof.Machine.execClassSet src p s
  | .strayRead src p => Sys2Proof.Machine.execStrayRead src p s
  | .strayClose src p => Sys2Proof.Machine.execStrayClose src p s
  | .queueRead src p => Sys2Proof.Machine.execQueueRead src p s
  | .cartClose src p => Sys2Proof.Machine.execCartClose src p s
  | .cartRead src p => Sys2Proof.Machine.execCartRead src p s
  | .stepPut src p => Sys2Proof.Machine.execStepPut src p s
  | .stepClear src p => Sys2Proof.Machine.execStepClear src p s
  | .seqStart src p => Sys2Proof.Machine.execSeqStart src p s
  | .seqStop src p => Sys2Proof.Machine.execSeqStop src p s
  | .inductionReport src p => Sys2Proof.Machine.execInductionReport src p s
  | .launched src p => Sys2Proof.Machine.execLaunched src p s
  | .launchFailed src p => Sys2Proof.Machine.execLaunchFailed src p s
  | .bagRemoved src p => Sys2Proof.Machine.execBagRemoved src p s
  | .encodeTaken src p => Sys2Proof.Machine.execEncodeTaken src p s
  | .dropSeen src p => Sys2Proof.Machine.execDropSeen src p s
  | .tiltFault src p => Sys2Proof.Machine.execTiltFault src p s
  | .chuteBlocked src p => Sys2Proof.Machine.execChuteBlocked src p s
  | .chuteClear src p => Sys2Proof.Machine.execChuteClear src p s
  | .cartPlaced src p => Sys2Proof.Machine.execCartPlaced src p s
  | .liftReady src p => Sys2Proof.Machine.execLiftReady src p s
  | .cartAboard src p => Sys2Proof.Machine.execCartAboard src p s
  | .cartRefused src p => Sys2Proof.Machine.execCartRefused src p s
  | .unknownKind src kind p => Sys2Proof.Machine.execUnknownKind src kind p s
  | .loopRunRise => Sys2Proof.Machine.execLoopRunRise s
  | .loopRunFall => Sys2Proof.Machine.execLoopRunFall s
  | .encoderPulse occ => Sys2Proof.Machine.execEncoderPulse occ s
  | .loopAdvance occ => Sys2Proof.Machine.execLoopAdvance occ s
  | .homeRise occ => Sys2Proof.Machine.execHomeRise occ s
  | .homeMissed => Sys2Proof.Machine.execHomeMissed s
  | .windowClose chute tray => Sys2Proof.Machine.execWindowClose chute tray s
  | .launchClose station tray => Sys2Proof.Machine.execLaunchClose station tray s
  | .lapLimit tray => Sys2Proof.Machine.execLapLimit tray s
  | .strayRiding tray => Sys2Proof.Machine.execStrayRiding tray s
  | .hallClockAdvance => Sys2Proof.Machine.execHallClockAdvance s
  | .swapOverdue chute => Sys2Proof.Machine.execSwapOverdue chute s
  | .batchEvent slot => Sys2Proof.Machine.execBatchEvent slot s
  | .encodeNext => Sys2Proof.Machine.execEncodeNext s
  | .regionInitStep => Sys2Proof.Machine.execRegionInitStep s
  | .regionInitComplete => Sys2Proof.Machine.execRegionInitComplete s
  | .planCommitStep => Sys2Proof.Machine.execPlanCommitStep s
  | .planCommitComplete => Sys2Proof.Machine.execPlanCommitComplete s
  | .sailingCloseStep => Sys2Proof.Machine.execSailingCloseStep s
  | .sailingCloseComplete => Sys2Proof.Machine.execSailingCloseComplete s
  | .firstIdle port => Sys2Proof.Machine.execFirstIdle port s

end Sys2Proof.Machine
end

