-- ==== Sys2Proof/WellFormed.lean ====
section
/-! DEFINITION. Which commands can come about: the ranges of a frame's fields (9.1.1), the rows that one
frame kind is split into, and the places that the internal rows name. -/

namespace Sys2Proof

/-- A frame's payload is at most 56 bytes. -/
def payloadOk (p : List Byte) : Bool := decide (p.length ≤ Config.maxPayload)

/-- A source is a node address 0-126. -/
def sourceOk (src : Byte) : Bool := decide (src.toNat ≤ 126)

/-- A destination is a node address 0-127. -/
def destinationOk (dst : Byte) : Bool := decide (dst.toNat ≤ 127)

/-- A frame of the line (9.1.1). -/
def Frame.wellFormed (f : Frame) : Bool := payloadOk f.payload && sourceOk f.src && destinationOk f.dst

/-- A received run that is a bad frame: at least one character, and a check of R164 fails. -/
def RxRun.bad (rx : RxRun) : Bool := !rx.bytes.isEmpty && !Machine.goodRun rx

/-- A CHUTE BIND payload that asks to unbind: two bytes, the second 0 (R41). -/
def asksUnbind (p : List Byte) : Bool :=
  match p with
  | [_, g] => g == 0
  | _ => false

/-- A SAILING STATE payload whose target is FINAL: two bytes, the second the fourth state (1.3, R9). -/
def asksFinal (p : List Byte) : Bool :=
  match p with
  | [_, t] => t == 3
  | _ => false

/-- A number of a place 1 to `n`. -/
def placeOk (n k : Nat) : Bool := decide (1 ≤ k) && decide (k ≤ n)

/-- A tray number a layout can have. -/
def trayOk (k : Nat) : Bool := decide (k < 1024)

/-- A good frame for the processor from a node of the line. -/
def takenOk (src : Byte) (p : List Byte) : Bool := sourceOk src && payloadOk p

/-- The command can come about. -/
def Instr.wellFormed : Instr → Bool
  | .powerOnReset _ _ => true
  | .frameCheckFailed _ rx => rx.bad
  | .frameForward _ f => f.wellFormed
  | .frameSent _ => true
  | .badKind src kind p => takenOk src p && !Machine.isCommandKind kind
  | .unknownKind src kind p => takenOk src p && !Machine.isFieldKind kind
  | .chuteBind src p => takenOk src p && !asksUnbind p
  | .chuteUnbind src p => takenOk src p && asksUnbind p
  | .sailingStateOpen src p => takenOk src p && !asksFinal p
  | .sailingStateFinal src p => takenOk src p && asksFinal p
  | .status src p | .setClock src p | .restart src p | .sortMode src p | .massLimits src p
  | .partSettings src p | .layoutSet src p | .trayRead src p | .stationSet src p | .chuteSet src p
  | .chuteService src p | .chuteRead src p | .groupSet src p | .groupDelete src p | .groupRead src p
  | .sailingDefine src p | .regionInit src p | .sailingClose src p | .blockPut src p | .blockDelete src p
  | .planClear src p | .planCommit src p | .entryPut src p | .cabinChange src p | .holdSet src p
  | .holdClear src p | .withdraw src p | .entryRead src p | .classSet src p | .strayRead src p
  | .strayClose src p | .queueRead src p | .cartClose src p | .cartRead src p | .stepPut src p
  | .stepClear src p | .seqStart src p | .seqStop src p | .inductionReport src p | .launched src p
  | .launchFailed src p | .bagRemoved src p | .encodeTaken src p | .dropSeen src p | .tiltFault src p
  | .chuteBlocked src p | .chuteClear src p | .cartPlaced src p | .liftReady src p | .cartAboard src p
  | .cartRefused src p => takenOk src p
  | .windowClose chute tray => placeOk 48 chute && trayOk tray
  | .launchClose station tray => placeOk 6 station && trayOk tray
  | .lapLimit tray | .strayRiding tray => trayOk tray
  | .swapOverdue chute => placeOk 48 chute
  | .batchEvent slot => placeOk 4 slot
  | .loopRunRise | .loopRunFall | .encoderPulse _ | .loopAdvance _ | .homeRise _ | .homeMissed
  | .hallClockAdvance | .encodeNext | .regionInitStep | .regionInitComplete | .planCommitStep
  | .planCommitComplete | .sailingCloseStep | .sailingCloseComplete | .firstIdle _ => true

end Sys2Proof
end

