-- ==== Sys2Proof/Safety.lean ====
section
/-! DEFINITION. What a sound state is, and the terms in which claims speak of frames taken and sent. -/

namespace Sys2Proof.Machine

/-! What every step keeps -/

/-- The manifest store in its one canonical form: indices rise strictly, and no unissued entry is
listed, since an unlisted entry reads as unissued (R2). -/
def manifestOk (t : Tbl Entry) : Prop := Tbl.Sorted t ∧ ∀ r ∈ t, r.2 ≠ Entry.unissued

/-- The tray table in its one canonical form: numbers rise strictly, and no EMPTY tray is listed. -/
def traysOk (t : Tbl Tray) : Prop := Tbl.Sorted t ∧ ∀ r ∈ t, r.2 ≠ Tray.empty

/-- No pending queue holds more than four bags (R60). -/
def queuesOk (t : Tbl Station) : Prop := Tbl.Sorted t ∧ ∀ r ∈ t, r.2.queue.length ≤ Config.pendingPlaces

/-- The stray table holds at most 192 open records (R147). -/
def straysOk (t : Tbl Stray) : Prop := Tbl.Sorted t ∧ t.length ≤ Config.strayPlaces

/-- Every table stands in its canonical form and within its capacity. -/
structure State.TablesOk (s : State) : Prop where
  sailings : Tbl.Sorted s.sailings
  manifest : manifestOk s.manifest
  groups : Tbl.Sorted s.groups
  stations : queuesOk s.stations
  trays : traysOk s.trays
  chutes : Tbl.Sorted s.chutes
  carts : Tbl.Sorted s.carts
  strays : straysOk s.su.strays

/-- The next ref is from 1 to 65,535 (R148). -/
def State.refOk (s : State) : Prop := 1 ≤ s.su.nextRef ∧ s.su.nextRef ≤ 65535

/-- The transmit queues hold at most 64 and 32 frames (R168, R169). -/
def State.linesOk (s : State) : Prop :=
  s.lu.supTx.queue.length ≤ Config.supPlaces ∧ s.lu.fldTx.queue.length ≤ Config.fldPlaces

/-- The values of a loaded layout (4.1). -/
structure Layout.Ok (y : Layout) : Prop where
  trays : 16 ≤ y.trays ∧ y.trays ≤ 1024
  pitch : 8 ≤ y.pitch ∧ y.pitch ≤ 255
  length : y.length ≤ 65535
  divisor : y.divisor ≤ 255
  tolerance : y.tolerance ≤ y.pitch / 2
  eye : y.eye < y.length

/-- The running values of the loop lie in their ranges (R67, R69): with no layout they are 0; with one,
P is below L, the accumulator below the divisor, the absorb count at most half a pitch, the advances
since loss at most L. -/
structure LoopTracker.Ok (t : LoopTracker) : Prop where
  bare : t.layout = none →
    t.pos = 0 ∧ t.acc = 0 ∧ t.absorb = 0 ∧ t.missed = 0 ∧ t.lossPoint = 0 ∧ t.advances = 0
  ranges : ∀ y, t.layout = some y →
    y.Ok ∧ t.pos < y.length ∧ t.acc < y.effectiveDivisor ∧ t.absorb ≤ y.pitch / 2
      ∧ t.lossPoint < y.length ∧ t.advances ≤ y.length
  missed : t.missed ≤ 1

/-- The loop state agrees with LOOP_RUN: STOPPED exactly while it is low (R72, R67). -/
def State.runOk (s : State) : Prop := s.lt.state = LoopState.stopped ↔ s.lu.loopRun = false

/-- What the chutes, the carts and the ready queues say of one another. -/
structure FleetOk (chute : Nat → Option Chute) (cart : Nat → Option Cart) (group : Nat → Option Group) :
    Prop where
  /-- Exactly the SORT chutes have a cart cycle (R110). -/
  roles : ∀ c h, chute c = some h → (h.role = .sort ↔ h.cycle ≠ none)
  /-- A SORT chute is in NO_CART exactly when it is unbound, and no other chute is bound (R40, R112). -/
  unbound : ∀ c h, chute c = some h → (h.bound = 0 ↔ h.cycle = none ∨ h.cycle = some .noCart)
  /-- A chute is bound to a group that exists (R38, R41). -/
  bound : ∀ c h, chute c = some h → h.bound ≠ 0 → ∃ g, group h.bound = some g
  /-- A current cart is in the state of the chute's cycle and of the bound group (R112, R118). -/
  current : ∀ c h id, chute c = some h → h.cart = some id → ∃ k, cart id = some k ∧ k.chute = some c
    ∧ k.group = h.bound
    ∧ (h.cycle = some .filling ∧ k.state = .filling ∨ h.cycle = some .closing ∧ k.state = .closing)
  /-- A chute without a current cart is neither FILLING nor CLOSING (R112). -/
  absent : ∀ c h, chute c = some h → h.cart = none → h.cycle ≠ some .filling ∧ h.cycle ≠ some .closing
  /-- A FILLING or CLOSING cart is the current cart of its chute (R118). -/
  placed : ∀ id k, cart id = some k → k.state = .filling ∨ k.state = .closing →
    ∃ c h, k.chute = some c ∧ chute c = some h ∧ h.cart = some id
  /-- A CLOSED or CALLED cart is under no chute (R118, R140). -/
  parked : ∀ id k, cart id = some k → k.state = .closed ∨ k.state = .called → k.chute = none
  /-- Of the carts of a group, the CLOSED ones stand in its ready queue (R118, R127). -/
  queued : ∀ id k, cart id = some k → ∃ g, group k.group = some g ∧ (k.state = .closed ↔ id ∈ g.ready)
  /-- A ready queue holds no id twice, and only carts of its own group (R127). -/
  ready : ∀ n g, group n = some g → g.ready.Nodup ∧ ∀ id ∈ g.ready, ∃ k, cart id = some k ∧ k.group = n

/-- Chutes, carts and ready queues agree (R112, R118, R127). -/
def State.fleetOk (s : State) : Prop := FleetOk (Tbl.get s.chutes) (Tbl.get s.carts) (Tbl.get s.groups)

/-! Frames taken and sent -/

/-- The Supervisor port receives, and its queue has a place for a reply. -/
def State.supReady (s : State) : Prop :=
  s.lu.supRx.awaitIdle = false ∧ s.lu.supTx.queue.length < Config.supPlaces

/-- The Supervisor port receives, and its queue has places for `n` reports and a reply. -/
def State.supRoom (s : State) (n : Nat) : Prop :=
  s.lu.supRx.awaitIdle = false ∧ s.lu.supTx.queue.length + n ≤ Config.supReportPlaces

/-- The Field port receives, and a node's frames are not those of an OUT_OF_SERVICE chute's panel. -/
def State.fldReady (s : State) (src : Byte) : Prop :=
  s.lu.fldRx.awaitIdle = false ∧ s.panelOut src = false

/-- A frame joins the tail of the supervisor transmit queue. -/
def State.supSend (s : State) (f : Frame) : State :=
  { s with lu := { s.lu with supTx := { s.lu.supTx with queue := s.lu.supTx.queue ++ [f] } } }

/-- A frame joins the tail of the field transmit queue. -/
def State.fldSend (s : State) (f : Frame) : State :=
  { s with lu := { s.lu with fldTx := { s.lu.fldTx with queue := s.lu.fldTx.queue ++ [f] } } }

/-- A reply joins the supervisor queue: to `dst`, of a kind, with a code and fields. -/
def State.answer (s : State) (dst kind code : Byte) (fields : List Byte) : State :=
  s.supSend { dst := dst, src := s.lu.node, kind := kind, payload := code :: fields }

/-- A report joins the supervisor queue, to node 126. -/
def State.tell (s : State) (kind : Byte) (fields : List Byte) : State :=
  s.supSend { dst := 126, src := s.lu.node, kind := kind, payload := fields }

/-- An order joins the field queue. -/
def State.tellField (s : State) (dst kind : Byte) (fields : List Byte) : State :=
  s.fldSend { dst := dst, src := s.lu.node, kind := kind, payload := fields }

/-- A command frame of the Supervisor port: source, kind, payload. -/
structure CommandFrame where
  src : Byte
  kind : Byte
  payload : List Byte
  deriving DecidableEq, Repr

/-- The command frame an instruction stands for, with its kind from the table of 10.1.2; a frame of no
command kind is a command too (R166). -/
def commandOf : Instr → Option CommandFrame
  | .status src p => some ⟨src, 0x40, p⟩
  | .setClock src p => some ⟨src, 0x41, p⟩
  | .restart src p => some ⟨src, 0x42, p⟩
  | .sortMode src p => some ⟨src, 0x43, p⟩
  | .massLimits src p => some ⟨src, 0x44, p⟩
  | .partSettings src p => some ⟨src, 0x45, p⟩
  | .layoutSet src p => some ⟨src, 0x48, p⟩
  | .trayRead src p => some ⟨src, 0x49, p⟩
  | .stationSet src p => some ⟨src, 0x4A, p⟩
  | .chuteSet src p => some ⟨src, 0x4C, p⟩
  | .chuteService src p => some ⟨src, 0x4D, p⟩
  | .chuteBind src p => some ⟨src, 0x4E, p⟩
  | .chuteUnbind src p => some ⟨src, 0x4E, p⟩
  | .chuteRead src p => some ⟨src, 0x4F, p⟩
  | .groupSet src p => some ⟨src, 0x50, p⟩
  | .groupDelete src p => some ⟨src, 0x51, p⟩
  | .groupRead src p => some ⟨src, 0x52, p⟩
  | .sailingDefine src p => some ⟨src, 0x54, p⟩
  | .regionInit src p => some ⟨src, 0x55, p⟩
  | .sailingStateOpen src p => some ⟨src, 0x56, p⟩
  | .sailingStateFinal src p => some ⟨src, 0x56, p⟩
  | .sailingClose src p => some ⟨src, 0x57, p⟩
  | .blockPut src p => some ⟨src, 0x58, p⟩
  | .blockDelete src p => some ⟨src, 0x59, p⟩
  | .planClear src p => some ⟨src, 0x5A, p⟩
  | .planCommit src p => some ⟨src, 0x5B, p⟩
  | .entryPut src p => some ⟨src, 0x5C, p⟩
  | .cabinChange src p => some ⟨src, 0x5D, p⟩
  | .holdSet src p => some ⟨src, 0x5E, p⟩
  | .holdClear src p => some ⟨src, 0x5F, p⟩
  | .withdraw src p => some ⟨src, 0x60, p⟩
  | .entryRead src p => some ⟨src, 0x61, p⟩
  | .classSet src p => some ⟨src, 0x64, p⟩
  | .strayRead src p => some ⟨src, 0x65, p⟩
  | .strayClose src p => some ⟨src, 0x66, p⟩
  | .queueRead src p => some ⟨src, 0x67, p⟩
  | .cartClose src p => some ⟨src, 0x68, p⟩
  | .cartRead src p => some ⟨src, 0x69, p⟩
  | .stepPut src p => some ⟨src, 0x6C, p⟩
  | .stepClear src p => some ⟨src, 0x6D, p⟩
  | .seqStart src p => some ⟨src, 0x6E, p⟩
  | .seqStop src p => some ⟨src, 0x6F, p⟩
  | .badKind src kind p => some ⟨src, kind, p⟩
  | _ => none

/-- The payload length of a command kind (10.1.2); ENTRY PUT's follows its count byte. -/
def commandLength (kind : Byte) (p : List Byte) : Nat :=
  match kind.toNat with
  | 0x40 => 1
  | 0x41 => 4
  | 0x42 => 0
  | 0x43 => 1
  | 0x44 => 6
  | 0x45 => 3
  | 0x48 => 8
  | 0x49 => 2
  | 0x4A => 25
  | 0x4C => 11
  | 0x4D => 2
  | 0x4E => 2
  | 0x4F => 1
  | 0x50 => 7
  | 0x51 => 1
  | 0x52 => 1
  | 0x54 => 8
  | 0x55 => 1
  | 0x56 => 2
  | 0x57 => 1
  | 0x58 => 6
  | 0x59 => 3
  | 0x5A => 1
  | 0x5B => 1
  | 0x5D => 6
  | 0x5E => 4
  | 0x5F => 3
  | 0x60 => 3
  | 0x61 => 3
  | 0x64 => 3
  | 0x65 => 3
  | 0x66 => 3
  | 0x67 => 1
  | 0x68 => 1
  | 0x69 => 2
  | 0x6C => 5
  | 0x6D => 2
  | 0x6E => 6
  | 0x6F => 1
  | 0x5C => 4 + 4 * ((p[3]?.map BitVec.toNat).getD 0)
  | _ => p.length

/-- A command frame is a read other than STATUS (R181). -/
def isRead : Instr → Bool
  | .trayRead .. | .chuteRead .. | .groupRead .. | .entryRead .. | .strayRead .. | .queueRead ..
  | .cartRead .. => true
  | _ => false

/-- The port a command's frame arrives on; none for a command that is no frame the processor takes. -/
def portOf : Instr → Option Port
  | .badKind .. | .status .. | .setClock .. | .restart .. | .sortMode .. | .massLimits ..
  | .partSettings .. | .layoutSet .. | .trayRead .. | .stationSet .. | .chuteSet .. | .chuteService ..
  | .chuteBind .. | .chuteUnbind .. | .chuteRead .. | .groupSet .. | .groupDelete .. | .groupRead ..
  | .sailingDefine .. | .sailingStateOpen .. | .sailingStateFinal .. | .regionInit .. | .sailingClose ..
  | .blockPut .. | .blockDelete .. | .planClear .. | .planCommit .. | .entryPut .. | .cabinChange ..
  | .holdSet .. | .holdClear .. | .withdraw .. | .entryRead .. | .classSet .. | .strayRead ..
  | .strayClose .. | .queueRead .. | .cartClose .. | .cartRead .. | .stepPut .. | .stepClear ..
  | .seqStart .. | .seqStop .. => some .supervisor
  | .inductionReport .. | .launched .. | .launchFailed .. | .bagRemoved .. | .encodeTaken ..
  | .dropSeen .. | .tiltFault .. | .chuteBlocked .. | .chuteClear .. | .cartPlaced .. | .liftReady ..
  | .cartAboard .. | .cartRefused .. | .unknownKind .. => some .field
  | .powerOnReset .. | .frameSent .. | .loopRunRise | .loopRunFall | .encoderPulse .. | .loopAdvance ..
  | .homeRise .. | .homeMissed | .windowClose .. | .launchClose .. | .lapLimit .. | .strayRiding ..
  | .hallClockAdvance | .swapOverdue .. | .batchEvent .. | .encodeNext | .regionInitStep
  | .regionInitComplete | .planCommitStep | .planCommitComplete | .sailingCloseStep
  | .sailingCloseComplete | .firstIdle .. => none
  | .frameCheckFailed port _ => some port
  | .frameForward port _ => some port

end Sys2Proof.Machine
end

