-- ==== Sys2Proof/Certificates/Slice0/Obligations.lean ====
section
/-! DEFINITION. The statements for the provers: what the commands of the Nacigo 4120 do and what every
step keeps, from the numbered rules of the spec. -/

open Sys2Proof Sys2Proof.Machine

/-- O1. A step carries out the command at the front of the queue; with none waiting nothing changes (log
entry 2) (95_what_each_step_holds, R175). -/
def Obligations.StepRunsFrontCommand : Prop :=
  (∀ (c : Instr) (rest : List Instr) (s : State), s.pending = c :: rest →
    step s = exec c { s with pending := rest })
  ∧ ∀ s : State, s.pending = [] → step s = .next s

/-- O2. A power-on reset leaves the values of the power-on rules, for every ADDR and LOOP_RUN level (log
entries 1, 6) (R2, R6, R67, R74, R110, R118, R145, R147, R148, R165, R174, section 10.2). -/
def Obligations.PowerOnLeavesResetValues : Prop :=
  (∀ (addr : BitVec 2) (loopRun : Bool) (s : State), ∃ t, exec (.powerOnReset addr loopRun) s = .next t
    ∧ t.lu.node.toNat = 1 + addr.toNat ∧ t.lu.loopRun = loopRun ∧ t.lu.occ = s.lu.occ
    ∧ (∀ port, t.rx port = { awaitIdle := true, errors := 0, errorFlag := false })
    ∧ t.lu.supTx = { queue := [], completing := none } ∧ t.lu.fldTx = { queue := [], completing := none }
    ∧ t.lu.overrun = false ∧ t.lu.clock = 0
    ∧ t.cu.settings
      = { lowerMass := 5, upperMass := 320, defaultCharge := 230, strayLapLimit := 5, swapLimit := 300 }
    ∧ t.cu.longOp = none ∧ t.cu.lastEnd = none
    ∧ t.sailings = [] ∧ t.groups = [] ∧ t.stations = [] ∧ t.chutes = [] ∧ t.carts = []
    ∧ (∀ m, t.entry m = { issue := 0, cabin := 0, hold := 0, mass := none, state := .notSeen })
    ∧ (∀ k, t.tray k = .empty)
    ∧ t.lt = { layout := none, pos := 0, acc := 0, absorb := 0, lastCorrection := 0, missed := 0,
               lossPoint := 0, advances := 0, state := if loopRun then .unsynced else .stopped,
               mode := .off, points := [], eyeTaken := true }
    ∧ (∀ c, c < 16 → c ≠ 8 → c ≠ 10 → c ≠ 12 → c ≠ 14 →
        t.classEntry c = { disposition := some .toManual, priority := 3, loaded := true })
    ∧ t.classEntry 8 = { disposition := some .toHold, priority := 3, loaded := true }
    ∧ t.classEntry 10 = { disposition := some .toHeavy, priority := 3, loaded := true }
    ∧ t.classEntry 12 = { disposition := some .toHold, priority := 6, loaded := true }
    ∧ t.classEntry 14 = { disposition := some .recordOnly, priority := 3, loaded := true }
    ∧ (∀ c, 16 ≤ c → c ≤ 31 → t.classEntry c = { disposition := none, priority := 0, loaded := false })
    ∧ t.su.strays = [] ∧ t.su.encode = [] ∧ t.su.nextRef = 1 ∧ t.su.unrecorded = 0 ∧ t.su.notice = none
    ∧ t.pending = s.pending)
  ∧ (∀ s : State, s.lu.occ = false → s.freeIdx = 0 → s.pending = [] →
      exec (.powerOnReset 0 false) s = .next State.reset)

/-- O3. The state after reset has sound tables, queues in bounds, loop values in range, a next ref in range,
and chutes, carts and queues that agree (log entry 6) (R2, R60, R67, R72, R110, R112, R118, R127, R147,
R148, R168, R169). -/
def Obligations.ResetStateIsSound : Prop :=
  State.reset.TablesOk ∧ State.reset.linesOk ∧ State.reset.lt.Ok ∧ State.reset.runOk
  ∧ 1 ≤ State.reset.su.nextRef ∧ State.reset.su.nextRef ≤ 65535 ∧ State.reset.fleetOk ∧ State.reset.lt.eyeTaken = true

/-- O4. Every step keeps the supervisor transmit queue within 64 frames and the field transmit queue within
32 (R168, R169). -/
def Obligations.TransmitQueuesStayInBounds : Prop :=
  ∀ s t : State, s.lu.supTx.queue.length ≤ 64 ∧ s.lu.fldTx.queue.length ≤ 32 → step s = .next t →
    t.lu.supTx.queue.length ≤ 64 ∧ t.lu.fldTx.queue.length ≤ 32

/-- O5. Every step keeps the tables canonical and in bounds, the next ref in 1 to 65,535, and chutes, carts
and ready queues in agreement (R2, R38, R40, R60, R110, R112, R118, R127, R140, R147, R148). -/
def Obligations.TablesStayCanonical : Prop :=
  (∀ s t : State, s.TablesOk → step s = .next t → t.TablesOk)
  ∧ (∀ s t : State, 1 ≤ s.su.nextRef ∧ s.su.nextRef ≤ 65535 → step s = .next t →
    1 ≤ t.su.nextRef ∧ t.su.nextRef ≤ 65535)
  ∧ ∀ s t : State, s.TablesOk ∧ s.fleetOk → step s = .next t → t.fleetOk

/-- O6. Every step keeps P below L, absorb count and accumulator in range, STOPPED in step with LOOP_RUN,
and the eye's alignment of P taken (log entries 3, 6) (R67, R69, R70, R72). -/
def Obligations.LoopValuesStayInRange : Prop :=
  (∀ s t : State, s.lt.Ok ∧ s.runOk → step s = .next t → t.lt.Ok ∧ t.runOk)
  ∧ ∀ s t : State, s.lt.eyeTaken = true → step s = .next t → t.lt.eyeTaken = true

/-- O7. A received run passes the frame check exactly when it is the line form of one frame with every stop
bit (R164, section 9.1.1). -/
def Obligations.GoodRunIsExactlyAFrame : Prop :=
  (∀ rx : RxRun, goodRun rx = true ↔ rx.stopBits = true ∧ ∃ f : Frame, f.payload.length ≤ 56
    ∧ rx.bytes = 0xA5 :: ((BitVec.ofNat 8 f.payload.length :: f.dst :: f.src :: f.kind :: f.payload)
        ++ b2 (crc16 (BitVec.ofNat 8 f.payload.length :: f.dst :: f.src :: f.kind :: f.payload)).toNat))
  ∧ ∀ f g : Frame, frameBytes f = frameBytes g → f = g

/-- O8. Only a rise of HOME makes the loop SYNCED; only LAYOUT SET or power-on changes the layout, only
power-on the node address (R67, R68, R72, R77, R165). -/
def Obligations.SyncLayoutAndAddressHaveOneSource : Prop :=
  (∀ (c : Instr) (s t : State), (∀ occ, c ≠ .homeRise occ) → exec c s = .next t →
    t.lt.state = LoopState.synced → s.lt.state = LoopState.synced)
  ∧ (∀ (c : Instr) (s t : State), (∀ src p, c ≠ .layoutSet src p) → (∀ addr run, c ≠ .powerOnReset addr run) →
    exec c s = .next t → t.lt.layout = s.lt.layout)
  ∧ (∀ (c : Instr) (s t : State), (∀ addr run, c ≠ .powerOnReset addr run) → exec c s = .next t →
    t.lu.node = s.lu.node)
  ∧ ∀ (addr : BitVec 2) (run : Bool) (s : State), ∃ t, exec (.powerOnReset addr run) s = .next t
    ∧ t.lu.node.toNat = 1 + addr.toNat

/-- O9. A set error flag or report-overrun flag is cleared only by STATUS or a power-on reset; FAULT follows
the flags (R164, R170, R173, R177). -/
def Obligations.OnlyStatusClearsLineFlags : Prop :=
  (∀ (c : Instr) (s t : State), (∀ src p, c ≠ .status src p) → (∀ addr run, c ≠ .powerOnReset addr run) →
    exec c s = .next t →
    (s.lu.supRx.errorFlag = true → t.lu.supRx.errorFlag = true ∧ t.faultOutput = true)
    ∧ (s.lu.fldRx.errorFlag = true → t.lu.fldRx.errorFlag = true ∧ t.faultOutput = true)
    ∧ (s.lu.overrun = true → t.lu.overrun = true))
  ∧ ∀ (src page : Byte) (s : State), s.supReady → page.toNat ≤ 4 → ∃ t, exec (.status src [page]) s = .next t
    ∧ t.lu.supRx.errorFlag = false ∧ t.lu.fldRx.errorFlag = false ∧ t.lu.overrun = false

/-- O10. FAULT is high exactly while the loop is SLIPPED or a port's error flag is set (R173). -/
def Obligations.FaultFollowsItsConditions : Prop :=
  (∀ s : State, s.faultOutput = true
    ↔ s.lt.state = LoopState.slipped ∨ s.lu.supRx.errorFlag = true ∨ s.lu.fldRx.errorFlag = true)
  ∧ (∀ (s : State) (y : Layout) (occ : Bool), s.lt.layout = some y → s.lt.state = LoopState.synced →
      y.tolerance < (y.deviation s.lt.pos).natAbs →
      ∃ t, exec (.homeRise occ) s = .next t ∧ t.lt.state = LoopState.slipped ∧ t.faultOutput = true)
  ∧ (∀ (s : State) (port : Port) (rx : RxRun), (s.rx port).awaitIdle = false → rx.bytes ≠ [] →
      goodRun rx = false → ∃ t, exec (.frameCheckFailed port rx) s = .next t ∧ t.faultOutput = true)
  ∧ (∀ (s : State) (y : Layout) (occ : Bool), s.lt.layout = some y →
      s.lt.state = LoopState.slipped ∨ s.lt.state = LoopState.unsynced →
      ∃ t, exec (.homeRise occ) s = .next t
        ∧ t.faultOutput = (s.lu.supRx.errorFlag || s.lu.fldRx.errorFlag))
  ∧ (∀ s : State, s.lu.loopRun = true → ∃ t, exec .loopRunFall s = .next t
        ∧ t.faultOutput = (s.lu.supRx.errorFlag || s.lu.fldRx.errorFlag))
  ∧ (∀ (s : State) (src page : Byte), s.supReady → page.toNat ≤ 4 →
      ∃ t, exec (.status src [page]) s = .next t ∧ t.faultOutput = decide (s.lt.state = LoopState.slipped))
  ∧ (∀ (s : State) (addr : BitVec 2) (run : Bool), ∃ t, exec (.powerOnReset addr run) s = .next t
      ∧ t.faultOutput = false)
  ∧ ∀ (s : State) (src : Byte), s.lu.supRx.awaitIdle = false → ∃ t, exec (.restart src []) s = .next t
      ∧ t.faultOutput = (s.lu.supRx.errorFlag || s.lu.fldRx.errorFlag)

/-- O11. Until a port has seen its first idle, no frame and no bad run on it changes anything (R174). -/
def Obligations.NothingIsTakenBeforeFirstIdle : Prop :=
  (∀ (c : Instr) (port : Port) (s : State), portOf c = some port → (s.rx port).awaitIdle = true →
    exec c s = .next s)
  ∧ (∀ s : State, exec (.firstIdle .supervisor) s
      = .next { s with lu := { s.lu with supRx := { s.lu.supRx with awaitIdle := false } } })
  ∧ ∀ s : State, exec (.firstIdle .field) s
      = .next { s with lu := { s.lu with fldRx := { s.lu.fldRx with awaitIdle := false } } }

/-- O12. With no place for a reply a command changes nothing and sets the overrun flag; RESTART is taken all
the same (log entry 14) (R166, R168, R175). -/
def Obligations.CommandWithoutReplyPlaceIsNotTaken : Prop :=
  (∀ (c : Instr) (f : CommandFrame) (s : State), c.wellFormed = true → commandOf c = some f →
    ¬(f.kind = 0x42 ∧ f.payload = []) → s.lu.supRx.awaitIdle = false → 64 ≤ s.lu.supTx.queue.length →
    exec c s = .next { s with lu := { s.lu with overrun := true } })
  ∧ ∀ (src : Byte) (s : State), s.lu.supRx.awaitIdle = false → ∃ t fields,
    exec (.restart src []) s = .next t
      ∧ t.lu.supTx.queue = [{ dst := src, src := s.lu.node, kind := 0xC2, payload := 0 :: fields }]

/-- O13. Every command taken gets one reply, last in its step, after its reports alone; a refused command
changes nothing else (log entries 8, 14) (R166, R168, R175, R176, R186). -/
def Obligations.EveryCommandTakenIsAnsweredOnce : Prop :=
  ∀ (c : Instr) (f : CommandFrame) (s : State), c.wellFormed = true → commandOf c = some f → s.supReady →
    ∃ t, exec c s = .next t
      ∧ ((∃ code : Byte, 1 ≤ code.toNat ∧ code.toNat ≤ 7 ∧ t = s.answer f.src (f.kind ||| 0x80) code [])
        ∨ ∃ added fields, t.lu.supTx.queue = (if f.kind = 0x42 then [] else s.lu.supTx.queue) ++ added
            ++ [{ dst := f.src, src := s.lu.node, kind := f.kind ||| 0x80, payload := 0 :: fields }]
          ∧ (f.kind = 0x42 → added = [])
          ∧ ∀ r ∈ added, r.dst = 126 ∧ r.src = s.lu.node
            ∧ (r.kind = 0x2E ∨ r.kind = 0x2F ∨ (0x30 ≤ r.kind.toNat ∧ r.kind.toNat ≤ 0x3F)))

/-- O14. A command whose payload length is not its kind's is answered BAD_FORM, a kind that is no command
kind BAD_KIND (R166, R175, section 10.1.2). -/
def Obligations.WrongPayloadLengthIsBadForm : Prop :=
  (∀ (c : Instr) (f : CommandFrame) (s : State), commandOf c = some f → isCommandKind f.kind = true →
    (∀ src k p, c ≠ .badKind src k p) → s.supReady → f.payload.length ≠ commandLength f.kind f.payload →
    exec c s = .next (s.answer f.src (f.kind ||| 0x80) 1 []))
  ∧ ∀ (src kind : Byte) (p : List Byte) (s : State), isCommandKind kind = false → s.supReady →
    exec (.badKind src kind p) s = .next (s.answer src (kind ||| 0x80) 2 [])

/-- O15. A point aligns tray k exactly when P equals (X + k·p) mod L; a point at X - e aligns the same tray
e counts earlier (R70). -/
def Obligations.AlignmentIsTrayAtPoint : Prop :=
  ∀ (y : Layout) (pos k : Nat) (pt : LoopPoint), 0 < y.pitch → pos < y.length → pt.coord < y.length →
    (y.aligns pos pt = some k ↔ k < y.trays ∧ pos = (pt.coord + k * y.pitch) % y.length)
    ∧ ∀ (e : Nat) (q : LoopPoint), e ≤ y.length → q.coord = (pt.coord + y.length - e) % y.length →
        y.aligns pos pt = some k → y.aligns ((pos + y.length - e) % y.length) q = some k

/-- O16. An alignment of a kind that its loop state does not raise changes nothing; a count's alignments
come in list order (log entry 16) (R70, R71). -/
def Obligations.AlignmentKindsFollowLoopState : Prop :=
  (∀ (s : State) (pt : LoopPoint) (k : Nat) (occ : Bool), s.lt.state = LoopState.stopped →
    s.takeAlignment pt k occ = s)
  ∧ (∀ (s : State) (pt : LoopPoint) (k : Nat) (occ : Bool),
    s.lt.state = LoopState.unsynced ∨ s.lt.state = LoopState.slipped →
    pt.kind = .home ∨ pt.kind = .arrival ∨ pt.kind = .decision ∨ pt.kind = .launch →
    s.takeAlignment pt k occ = s)
  ∧ (∀ (s : State) (y : Layout) (occ : Bool), (∀ pt ∈ s.lt.points, y.aligns s.lt.pos pt = none) →
    s.takeCount y occ = s)
  ∧ ∀ (s : State) (y : Layout) (occ : Bool),
    (∀ pt ∈ s.lt.points, pt.kind = .launchClose → y.aligns s.lt.pos pt = none) →
    s.takeCount y occ = s.lt.points.foldl (fun t pt =>
      match y.aligns s.lt.pos pt with
      | some k => t.takeAlignment pt k occ
      | none => t) s

/-- O17. The rebuilt loop point list holds every point of the layout, the stations and the chutes, in the
order of R71 (R68, R71). -/
def Obligations.LoopPointsAreAllPointsInOrder : Prop :=
  ∀ (s : State) (y : Layout), s.lt.layout = some y →
    s.rebuildPoints = { s with lt := { s.lt with points := s.rebuildPoints.lt.points } }
    ∧ s.rebuildPoints.lt.points.Perm
      ({ kind := .home, coord := 0, owner := 0 } :: { kind := .occupancy, coord := y.eye, owner := 0 }
        :: (s.stations.flatMap (fun r =>
            [{ kind := .launch, coord := (r.2.coord + y.length - r.2.lead) % y.length, owner := r.1 },
             { kind := .launchClose, coord := (r.2.coord + r.2.window) % y.length, owner := r.1 }])
          ++ s.chutes.flatMap (fun r =>
            [{ kind := .decision, coord := (r.2.coord + y.length - r.2.lead) % y.length, owner := r.1 },
             { kind := .arrival, coord := r.2.coord, owner := r.1 },
             { kind := .windowClose, coord := (r.2.coord + r.2.window) % y.length, owner := r.1 }])))
    ∧ s.rebuildPoints.lt.points.Pairwise (fun a b =>
        a.coord < b.coord ∨ a.coord = b.coord
          ∧ (a.kind.ctorIdx < b.kind.ctorIdx ∨ a.kind = b.kind ∧ a.owner ≤ b.owner))
    ∧ s.rebuildPoints.lt.points.length = 2 + 2 * s.stations.length + 3 * s.chutes.length

/-- O18. Launch orders come only in RUN, tilt orders only out of OFF, both only while SYNCED; a decision
tilts, a launch point launches when its test passes (R61, R74, R91, R92, R93, R94, R95, R112, R113,
R120, R121). -/
def Obligations.OrdersFollowSortModeAndLoopState : Prop :=
  (∀ (c : Instr) (occ : Bool) (s t : State), c = .encoderPulse occ ∨ c = .loopAdvance occ ∨ c = .homeRise occ →
    exec c s = .next t →
    ∃ added : List Frame, t.lu.fldTx.queue = s.lu.fldTx.queue ++ added
      ∧ (∀ f ∈ added, f.kind = 0x21 ∨ f.kind = 0x22)
      ∧ (s.lt.state ≠ LoopState.synced ∨ s.lt.mode = .off → added = [])
      ∧ (s.lt.mode ≠ .run → ∀ f ∈ added, f.kind = 0x22))
  ∧ (∀ (s : State) (pt : LoopPoint) (k : Nat) (occ : Bool), pt.kind = .decision → (∀ l, s.tray k ≠ .loaded l) →
    s.takeAlignment pt k occ = s)
  ∧ (∀ (s : State) (pt : LoopPoint) (k : Nat) (occ : Bool) (l : Load) (h : Chute), pt.kind = .decision →
    s.lt.state = LoopState.synced → s.tray k = .loaded l → Tbl.get s.chutes pt.owner = some h →
    let c := pt.owner
    let t := s.takeAlignment pt k occ
    let free := s.lt.mode ≠ .off ∧ s.lu.fldTx.queue.length < 32
    let order : Frame := {
      dst := h.node, src := s.lu.node, kind := 0x22,
      payload := b2 k ++ [if (h.side = .left ↔ h.inverted = true) then 1 else 0] }
    (l.target = .nowhere → t = s)
    ∧ (∀ r, l.target = .role r → r ≠ .sort →
      let passes := h.role = r ∧ h.avail = .inService
        ∧ (r = .manual → s.su.encode.length + s.manualTilts < 32)
      (free → passes → t = (s.putTray k (.tiltOrdered l c none)).fldSend order)
      ∧ (¬free ∨ ¬passes → t = s))
    ∧ ∀ g, l.target = .group g →
      let room (id : Nat) (cart : Cart) (limits : Group) : Prop := h.cart = some id
        ∧ Tbl.get s.carts id = some cart ∧ Tbl.get s.groups cart.group = some limits
        ∧ cart.bags.length + 1 ≤ limits.countLimit
        ∧ (cart.bags.map BagItem.charge).sum + l.charge ≤ limits.massLimit
      let passes (m : Nat) : Prop := l.index = some m ∧ h.role = .sort ∧ h.avail = .inService ∧ h.bound = g
        ∧ h.cycle = some .filling
        ∧ ∃ slot v grp, s.ownerOf m = some (slot, v) ∧ v.state ≠ .closing ∧ Tbl.get s.groups g = some grp
          ∧ grp.slot = slot
      (¬free ∨ (∀ m, ¬passes m) ∨ (∀ id cart limits, ¬room id cart limits) → t = s)
      ∧ ∀ m id cart limits, free → passes m → room id cart limits → cart.chute = some c →
        s.lu.supTx.queue.length < 60 →
        let bags := cart.bags ++ [{ index := m, charge := l.charge, mark := .ordered }]
        let full := bags.length = limits.countLimit
          ∨ limits.massLimit - (bags.map BagItem.charge).sum < s.cu.settings.lowerMass
        t.tray k = .tiltOrdered l c (some id) ∧ (∀ k', k' ≠ k → t.tray k' = s.tray k')
        ∧ t.lu.fldTx.queue = s.lu.fldTx.queue ++ [order]
        ∧ (∀ id', id' ≠ id → Tbl.get t.carts id' = Tbl.get s.carts id')
        ∧ (∀ c', c' ≠ c → Tbl.get t.chutes c' = Tbl.get s.chutes c')
        ∧ t.manifest = s.manifest ∧ t.su = s.su ∧ t.stations = s.stations ∧ t.groups = s.groups ∧ t.lt = s.lt
        ∧ (¬full → Tbl.get t.carts id = some { cart with bags := bags } ∧ Tbl.get t.chutes c = some h
          ∧ t.lu.supTx.queue = s.lu.supTx.queue)
        ∧ (full →
          Tbl.get t.carts id = some { cart with bags := bags, state := .closing, cause := some .limit }
          ∧ Tbl.get t.chutes c = some { h with cycle := some .closing }
          ∧ t.lu.supTx.queue = s.lu.supTx.queue ++ [{
              dst := 126, src := s.lu.node, kind := 0x39,
              payload := b1 c ++ [0, 0, 2] ++ b1 g ++ [1] ++ b1 id ++ [2] }]))
  ∧ ∀ (s : State) (pt : LoopPoint) (k : Nat) (occ : Bool) (st : Station), pt.kind = .launch →
    Tbl.get s.stations pt.owner = some st →
    let t := s.takeAlignment pt k occ
    let offered := s.lt.state = LoopState.synced ∧ s.lt.mode = .run ∧ st.ordered = none ∧ s.tray k = .empty
      ∧ s.lu.fldTx.queue.length < 32
    (¬offered ∨ st.queue = [] → t = s)
    ∧ ∀ bag rest, offered → st.queue = bag :: rest →
      t = ((s.putTray k .reserved).putStation pt.owner { st with ordered := some k }).tellField st.node 0x21
        (b2 k ++ bOpt 2 b2 bag.index ++ b2 (bag.ref.getD 0))

/-- O19. LOOP_RUN falling makes the loop STOPPED and rising makes it UNSYNCED, with one LOOP STATE report
(log entry 5) (R72, R73, R168). -/
def Obligations.LoopRunLineMovesLoopState : Prop :=
  (∀ s : State, s.lu.loopRun = false →
    let u : State := { s with lu := { s.lu with loopRun := true }, lt := { s.lt with state := .unsynced } }
    (s.lu.supTx.queue.length < 60 → exec .loopRunRise s
      = .next (u.tell 0x3B ([1, BitVec.ofNat 8 s.lt.state.ctorIdx, 1] ++ b2 s.lt.pos ++ [0, 0, 0])))
    ∧ (60 ≤ s.lu.supTx.queue.length →
        exec .loopRunRise s = .next { u with lu := { u.lu with overrun := true } }))
  ∧ (∀ s : State, s.lu.loopRun = true →
    let u : State := { s with
      lu := { s.lu with loopRun := false },
      lt :=
        if s.lt.state = LoopState.synced then
          { s.lt with state := .stopped, lossPoint := s.lt.pos, advances := 0, absorb := 0 }
        else { s.lt with state := .stopped } }
    (s.lu.supTx.queue.length < 60 → exec .loopRunFall s
      = .next (u.tell 0x3B ([0, BitVec.ofNat 8 s.lt.state.ctorIdx, 0] ++ b2 s.lt.pos ++ [0, 0, 0])))
    ∧ (60 ≤ s.lu.supTx.queue.length →
        exec .loopRunFall s = .next { u with lu := { u.lu with overrun := true } }))
  ∧ (∀ s : State, s.lu.loopRun = true → exec .loopRunRise s = .next s)
  ∧ ∀ s : State, s.lu.loopRun = false → exec .loopRunFall s = .next s

/-- O20. Each pulse counts; at the divisor the loop advances, or an absorb count swallows the advance (log
entries 3, 6) (R69, R70). -/
def Obligations.PulsesMoveTheLoop : Prop :=
  (∀ (s : State) (occ : Bool), s.lt.layout = none ∨ s.lu.loopRun = false →
    exec (.encoderPulse occ) s = .next { s with lu := { s.lu with occ := occ } }
    ∧ exec (.loopAdvance occ) s = .next s)
  ∧ ∀ (s : State) (y : Layout) (occ : Bool), s.lt.layout = some y → s.lu.loopRun = true →
    (s.lt.acc + 1 < max y.divisor 1 →
      exec (.encoderPulse occ) s
        = .next { s with lu := { s.lu with occ := occ }, lt := { s.lt with acc := s.lt.acc + 1 } }
      ∧ exec (.loopAdvance occ) s = .next s)
    ∧ (max y.divisor 1 ≤ s.lt.acc + 1 →
      exec (.loopAdvance occ) s = exec (.encoderPulse occ) s
      ∧ (0 < s.lt.absorb → exec (.encoderPulse occ) s
          = .next { s with
              lu := { s.lu with occ := occ }, lt := { s.lt with acc := 0, absorb := s.lt.absorb - 1 } })
      ∧ (s.lt.absorb = 0 → ∃ t, exec (.encoderPulse occ) s = .next t
          ∧ t = (({ s with
              lu := { s.lu with occ := occ }
              lt := { s.lt with
                acc := 0
                pos := if s.lt.pos + 1 < y.length then s.lt.pos + 1 else 0
                eyeTaken := false
                advances := if s.lt.state = LoopState.synced then s.lt.advances
                  else min (s.lt.advances + 1) y.length } } : State).takeCount y occ).eyeDone
          ∧ t.lt.pos = (if s.lt.pos + 1 < y.length then s.lt.pos + 1 else 0) ∧ t.lt.acc = 0 ∧ t.lt.eyeTaken = true
          ∧ t.lt.layout = some y))

/-- O21. While SYNCED a home within the tolerance corrects P, one outside it or a second missed home slips
the loop (log entries 5, 6, 12) (R69, R75, R76, R78). -/
def Obligations.HomeCorrectsOrSlipsSyncedLoop : Prop :=
  (∀ (s : State) (y : Layout) (occ : Bool), s.lt.layout = some y → s.lt.state = LoopState.synced →
    (2 * s.lt.pos ≤ y.length → s.lt.pos ≤ y.tolerance → exec (.homeRise occ) s
      = .next { s with
          lu := { s.lu with occ := occ }
          lt := { s.lt with absorb := s.lt.pos, lastCorrection := (s.lt.pos : Int), missed := 0 } })
    ∧ (y.length < 2 * s.lt.pos → s.lt.pos < y.length → y.length - s.lt.pos ≤ y.tolerance →
      ∃ u, u = ({ s with lu := { s.lu with occ := occ }, lt := { s.lt with absorb := 0 } } : State).stepCounts y
          occ (y.length - s.lt.pos)
        ∧ exec (.homeRise occ) s
          = .next { u with
              lt := { u.lt with lastCorrection := (s.lt.pos : Int) - y.length, missed := 0 } }
        ∧ u.lt.pos = 0 ∧ u.lt.absorb = 0)
    ∧ (y.tolerance < (y.deviation s.lt.pos).natAbs → s.lu.supTx.queue.length < 60 →
      exec (.homeRise occ) s
        = .next (({ s with
            lu := { s.lu with occ := occ }
            lt := { s.lt with
              state := .slipped, lossPoint := s.lt.pos, advances := 0, absorb := 0, missed := 0 } } : State).tell
          0x3B ([3, 2, 3] ++ b2 s.lt.pos ++ [1] ++ bInt (y.deviation s.lt.pos)))))
  ∧ (∀ s : State, s.lt.state = LoopState.synced → 2 ≤ s.lt.missed → s.lu.supTx.queue.length < 60 →
      exec .homeMissed s
        = .next (({ s with
            lt := { s.lt with
              state := .slipped, lossPoint := s.lt.pos, advances := 0, absorb := 0, missed := 0 } } : State).tell
          0x3B ([3, 2, 4] ++ b2 s.lt.pos ++ [0, 0, 0])))
  ∧ (∀ s : State, s.lt.state ≠ LoopState.synced ∨ s.lt.missed < 2 → exec .homeMissed s = .next s)
  ∧ (∀ (s : State) (occ : Bool), s.lt.layout = none ∨ s.lt.state = LoopState.stopped →
      exec (.homeRise occ) s = .next { s with lu := { s.lu with occ := occ } })
  ∧ (∀ (s : State) (pt : LoopPoint) (occ : Bool), pt.kind = .home → s.lt.state = LoopState.synced →
      (∀ k, k ≠ 0 → s.takeAlignment pt k occ = s)
      ∧ (s.lt.missed = 0 → s.takeAlignment pt 0 occ = { s with lt := { s.lt with missed := 1 } })
      ∧ (s.lt.missed = 1 → s.lu.supTx.queue.length < 60 → s.takeAlignment pt 0 occ
        = ({ s with
            lt := { s.lt with
              state := .slipped, lossPoint := s.lt.pos, advances := 0, absorb := 0, missed := 0 } } : State).tell
          0x3B ([3, 2, 4] ++ b2 s.lt.pos ++ [0, 0, 0])))
  ∧ ∀ (s : State) (y : Layout) (occ : Bool) (rest : List LoopPoint), s.lt.layout = some y →
      s.lu.loopRun = true → s.lt.state = LoopState.synced → max y.divisor 1 ≤ s.lt.acc + 1 → s.lt.absorb = 0 →
      s.lt.pos + 1 = y.length → s.lt.points = { kind := .home, coord := 0, owner := 0 } :: rest →
      (s.lt.missed = 1 → ∃ t, exec (.encoderPulse occ) s = .next t ∧ t.lt.state = LoopState.slipped
        ∧ t.lt.pos = 0 ∧ t.lt.lossPoint = 0 ∧ t.lt.advances = 0 ∧ t.lt.absorb = 0 ∧ t.lt.missed = 0)
      ∧ (s.lt.missed = 0 → (∀ q ∈ rest, q.kind ≠ .home) → ∃ t, exec (.encoderPulse occ) s = .next t
        ∧ t.lt.state = LoopState.synced ∧ t.lt.pos = 0 ∧ t.lt.missed = 1)

/-- O22. A home in UNSYNCED or SLIPPED sets P to 0 and makes the loop SYNCED, with nothing in flight judging
nothing (log entries 5, 6, 13) (R70, R77). -/
def Obligations.HomeSynchronisesLostLoop : Prop :=
  ∀ (s : State) (y : Layout) (occ : Bool), s.lt.layout = some y →
    s.lt.state = LoopState.unsynced ∨ s.lt.state = LoopState.slipped →
    (∃ t, exec (.homeRise occ) s = .next t
      ∧ t.lt = { s.lt with
          pos := 0, absorb := 0, advances := 0, missed := 0, lossPoint := 0, state := .synced,
          eyeTaken := true })
    ∧ ((∀ r ∈ s.trays, r.2.isTiltOrdered = false) → (∀ r ∈ s.stations, r.2.ordered = none) →
        (∀ r ∈ s.carts, r.2.state ≠ .closing) → s.lu.supTx.queue.length < 60 →
        exec (.homeRise occ) s
          = .next (({ s with
              lu := { s.lu with occ := occ }
              lt := { s.lt with
                pos := 0, absorb := 0, advances := 0, missed := 0, lossPoint := 0,
                state := .synced, eyeTaken := true } } : State).tell 0x3B
            ([2, BitVec.ofNat 8 s.lt.state.ctorIdx, 2, 0, 0, 1] ++ bInt (y.deviation s.lt.pos))))

/-- O23. A resynchronising home passes into doubt each tilt, and takes each launch, whose close lies in the
uncounted span, no other (log entries 8, 13) (R62, R64, R77, R98). -/
def Obligations.ResynchronisationJudgesSpan : Prop :=
  ∀ (s : State) (y : Layout) (occ : Bool), s.TablesOk → s.lt.layout = some y →
    s.lt.state = LoopState.unsynced ∨ s.lt.state = LoopState.slipped →
    let inSpan (z : Nat) : Prop := s.lt.lossPoint = 0 ∨ y.length ≤ s.lt.advances ∨ s.lt.lossPoint < z ∨ z = 0
    ∃ t, exec (.homeRise occ) s = .next t
      ∧ (∀ k c l cart h, s.tray k = .tiltOrdered l c cart → Tbl.get s.chutes c = some h →
        (∀ r ∈ s.stations, r.2.ordered ≠ some k) →
        let z := (h.coord + h.window + k * y.pitch) % y.length
        (inSpan z → t.tray k = .dropDoubt l c cart) ∧ (¬inSpan z → t.tray k = .tiltOrdered l c cart)
        ∧ ∀ id m, cart = some id → l.index = some m → s.cartHolds id m .ordered = true →
          (∀ k' l', k' ≠ k → (s.tray k').load? = some l' → l'.index ≠ some m) →
          (∀ r ∈ s.stations, ∀ b ∈ r.2.queue, b.index ≠ some m) →
          (inSpan z → t.cartHolds id m .doubt = true
            ∧ t.entry m = if l.isManifest then { s.entry m with state := .inCart id } else s.entry m)
          ∧ (¬inSpan z → t.cartHolds id m .ordered = true ∧ t.cartHolds id m .doubt = s.cartHolds id m .doubt
            ∧ t.entry m = s.entry m))
      ∧ ∀ n st j, Tbl.get s.stations n = some st → st.ordered = some j →
        let z := (st.coord + st.window + j * y.pitch) % y.length
        (¬inSpan z → Tbl.get t.stations n = some st)
        ∧ ∀ bag rest, inSpan z → st.queue = bag :: rest →
          Tbl.get t.stations n = some { st with queue := rest, ordered := none }
          ∧ ((∀ r ∈ s.stations, r.1 ≠ n → r.2.ordered ≠ some j) →
            t.tray j = .loaded { bag with verified := false })

/-- O24. The eye finds an untracked bag on an EMPTY tray, a lost bag where a LOADED one shows none, and
settles a tilt in doubt (log entries 5, 8, 13, 18) (R81, R83, R86, R87, R88, R104, R105, R106, R107,
R108). -/
def Obligations.EyeReadsEmptyAndLostTrays : Prop :=
  ∀ (s : State) (pt : LoopPoint) (k : Nat), pt.kind = .occupancy → s.lt.state ≠ LoopState.stopped →
    (s.tray k = .empty → s.takeAlignment pt k false = s)
    ∧ (∀ occ, s.tray k = .reserved → s.takeAlignment pt k occ = s)
    ∧ (s.tray k = .empty →
        (s.takeAlignment pt k true).tray k = .loaded
          { index := none, ref := if s.su.strays.length < 192 then some s.freshRef else none,
            target := s.classTarget 13, charge := s.cu.settings.defaultCharge, estimated := true, laps := 0,
            verified := true, station := none, rideSent := false }
        ∧ (s.su.strays.length < 192 → Tbl.get (s.takeAlignment pt k true).su.strays s.freshRef = some
            { cls := 13, index := none, linked := false, slot := none, tags := [], mass := none,
              loc := .onTray k, opened := s.lu.clock })
        ∧ (192 ≤ s.su.strays.length → (s.takeAlignment pt k true).su
            = { s.su with unrecorded := min (s.su.unrecorded + 1) 65535 }))
    ∧ (∀ l, s.tray k = .loaded l → (s.takeAlignment pt k false).tray k = .empty
        ∧ (∀ ref r, l.ref = some ref → Tbl.get s.su.strays ref = some r →
            Tbl.get (s.takeAlignment pt k false).su.strays ref = some { r with cls := 14, loc := .unknown }
            ∧ (s.takeAlignment pt k false).manifest = s.manifest)
        ∧ (∀ m, l.ref = none → l.index = some m → s.su.strays.length < 192 →
            ((s.takeAlignment pt k false).entry m).state = .stray s.freshRef
            ∧ Tbl.get (s.takeAlignment pt k false).su.strays s.freshRef = some
              { cls := 14, index := some m, linked := true, slot := some (s.slotOf m), tags := [],
                mass := (s.entry m).mass, loc := .unknown, opened := s.lu.clock })
        ∧ (∀ m, l.ref = none → l.index = some m → 192 ≤ s.su.strays.length →
            ((s.takeAlignment pt k false).entry m).state = .stray 0))
    ∧ (∀ l c cart occ close, s.tray k = .tiltOrdered l c cart → close.kind = .windowClose → close.owner = c →
        s.takeAlignment pt k occ = (s.takeAlignment close k occ).takeAlignment pt k occ)
    ∧ (∀ l c, s.tray k = .dropDoubt l c none →
        (s.lu.supTx.queue.length < 60 → s.takeAlignment pt k true
          = (s.putTray k (.loaded { l with verified := true })).tell 0x3A
            (b1 c ++ [8] ++ b2 k ++ b2 s.lt.pos ++ [0, 0, 0, 0, 0]))
        ∧ (l.ref = none → s.takeAlignment pt k false = s.putTray k .empty)
        ∧ ∀ ref r h, l.ref = some ref → Tbl.get s.su.strays ref = some r → Tbl.get s.chutes c = some h →
          h.role ≠ .sort →
          let t := s.takeAlignment pt k false
          t.trays = (s.putTray k .empty).trays ∧ t.manifest = s.manifest ∧ t.carts = s.carts ∧ t.groups = s.groups
          ∧ Tbl.get t.su.strays ref = some { r with
              loc := match h.role with
                | .manual => .atEncode | .hold => .atHold | .heavy => .atHeavy | .sort => r.loc }
          ∧ (h.role = .manual → r.loc ≠ .atEncode →
            { ref := ref, priority := (s.classEntry r.cls).priority } ∈ t.su.encode))
    ∧ ∀ l c id m g, s.tray k = .dropDoubt l c (some id) → l.index = some m → l.target = .group g →
        s.lu.supTx.queue.length < 58 →
        let gone := s.takeAlignment pt k false
        let back := s.takeAlignment pt k true
        let doubted := s.cartHolds id m .doubt
        gone.tray k = .empty ∧ (∀ k', k' ≠ k → gone.tray k' = s.tray k')
        ∧ (∀ ref, l.ref = some ref → Tbl.get gone.su.strays ref = none)
        ∧ gone.groups = s.groups ∧ gone.sailings = s.sailings ∧ gone.stations = s.stations
        ∧ (∃ before, gone.lu.supTx.queue = s.lu.supTx.queue ++ before ++ [{
              dst := 126, src := s.lu.node, kind := 0x30,
              payload := b2 m ++ b1 (s.slotOf m) ++ b1 g ++ b1 id ++ b1 c ++ b2 k ++ b2 l.charge
                ++ bFlag l.estimated ++ b2 (l.ref.getD 0) ++ [3] ++ bFlag (!doubted) }]
            ∧ (l.ref = none → before = []) ∧ ∀ f ∈ before, f.kind = 0x33)
        ∧ (doubted = true → gone.entry m = { s.entry m with state := .inCart id }
          ∧ (∀ m', m' ≠ m → gone.entry m' = s.entry m')
          ∧ (∀ x, Tbl.get s.carts id = some x →
            Tbl.get gone.carts id = some { x with bags := remark m .doubt .dropped x.bags })
          ∧ ∀ id', id' ≠ id → Tbl.get gone.carts id' = Tbl.get s.carts id')
        ∧ (doubted = false → gone.manifest = s.manifest ∧ gone.carts = s.carts)
        ∧ back.tray k = .loaded { l with verified := true } ∧ (∀ k', k' ≠ k → back.tray k' = s.tray k')
        ∧ back.su = s.su ∧ back.stations = s.stations
        ∧ back.lu.supTx.queue = s.lu.supTx.queue
          ++ (if doubted = true then [] else [{
                dst := 126, src := s.lu.node, kind := 0x38, payload := b2 m ++ b1 (s.slotOf m) ++ b1 id }])
          ++ [{
                dst := 126, src := s.lu.node, kind := 0x3A,
                payload := b1 c ++ [8] ++ b2 k ++ b2 s.lt.pos ++ [0, 0, 0, 1] ++ b1 id }]
        ∧ (∀ m', m' ≠ m → back.entry m' = s.entry m')
        ∧ (doubted = true → back.sailings = s.sailings
          ∧ back.entry m = (if l.ref = none then { s.entry m with state := .inFlight k } else s.entry m)
          ∧ (∀ x, Tbl.get s.carts id = some x →
            Tbl.get back.carts id = some { x with bags := unlist m .doubt x.bags }
            ∧ back.groups = Tbl.modify s.groups x.group (fun v =>
                { v with bagsInCarts := v.bagsInCarts - 1 }))
          ∧ ∀ id', id' ≠ id → Tbl.get back.carts id' = Tbl.get s.carts id')
        ∧ (doubted = false → back.carts = s.carts
          ∧ back.entry m = { s.entry m with
              state := match l.ref with | some ref => .stray ref | none => .inFlight k }
          ∧ back.sailings = Tbl.modify s.sailings (s.slotOf m) (fun v => { v with tally := v.tally - 1 })
          ∧ back.groups = Tbl.modify s.groups g (fun v =>
              if v.slot = s.slotOf m then { v with bagsAboard := v.bagsAboard - 1 } else v))

/-- O25. OCC high at a LOADED tray confirms a launch or counts a lap; a manifest load takes its group or
becomes a linked stray (log entries 13, 18) (R2, R33, R83, R84, R85, R150). -/
def Obligations.EyeCountsLapsAndConfirmsLaunches : Prop :=
  ∀ (s : State) (pt : LoopPoint) (k : Nat) (l : Load), pt.kind = .occupancy →
    s.lt.state ≠ LoopState.stopped → s.tray k = .loaded l →
    (l.isManifest = false → l.verified = false →
      s.takeAlignment pt k true = s.putTray k (.loaded { l with verified := true }))
    ∧ (l.isManifest = false → l.verified = true →
        l.rideSent = true ∨ min (l.laps + 1) 15 ≠ s.cu.settings.strayLapLimit ∨ 15 ≤ l.laps →
        s.takeAlignment pt k true = s.putTray k (.loaded { l with laps := min (l.laps + 1) 15 }))
    ∧ (l.isManifest = false → l.verified = true → l.rideSent = false → l.laps < 15 →
        l.laps + 1 = s.cu.settings.strayLapLimit →
        s.lu.supTx.queue.length < 60 →
        s.takeAlignment pt k true
          = (s.putTray k (.loaded { l with laps := l.laps + 1, rideSent := true })).tell 0x2E
            (b2 k ++ b2 (l.ref.getD 0)
              ++ bOpt 1 b1 (l.ref.bind (fun ref => (Tbl.get s.su.strays ref).map Stray.cls))
              ++ b1 (l.laps + 1)))
    ∧ (∀ (m slot g : Nat) (v : Sailing), l.isManifest = true → l.index = some m →
        s.ownerOf m = some (slot, v) → (s.entry m).hold = 0 → v.cover (s.entry m).cabin = some g →
        (l.verified = false →
          (s.takeAlignment pt k true).tray k = .loaded { l with verified := true, target := .group g }
          ∧ (s.takeAlignment pt k true).manifest = s.manifest ∧ (s.takeAlignment pt k true).su = s.su)
        ∧ (l.verified = true → min (l.laps + 1) 15 ≤ v.lapLimit →
          (s.takeAlignment pt k true).tray k
            = .loaded { l with laps := min (l.laps + 1) 15, target := .group g }
          ∧ (s.takeAlignment pt k true).manifest = s.manifest ∧ (s.takeAlignment pt k true).su = s.su))
    ∧ ∀ (m slot cls : Nat) (v : Sailing), l.isManifest = true → l.index = some m →
        s.ownerOf m = some (slot, v) →
        ((s.entry m).hold ≠ 0 ∧ cls = s.holdClass (s.entry m).hold)
          ∨ ((s.entry m).hold = 0 ∧ v.cover (s.entry m).cabin = none ∧ cls = 7)
          ∨ ((s.entry m).hold = 0 ∧ (v.cover (s.entry m).cabin).isSome = true ∧ l.verified = true
            ∧ v.lapLimit < min (l.laps + 1) 15 ∧ cls = 9) →
        let t := s.takeAlignment pt k true
        let ref := if s.su.strays.length < 192 then some s.freshRef else none
        t.tray k = .loaded { l with
          verified := true, ref := ref, target := s.classTarget cls, laps := 0, rideSent := false }
        ∧ t.entry m = { s.entry m with state := .stray (ref.getD 0) }
        ∧ (∀ m', m' ≠ m → t.entry m' = s.entry m')
        ∧ (s.su.strays.length < 192 → Tbl.get t.su.strays s.freshRef = some
            { cls := cls, index := some m, linked := true, slot := some slot, tags := [],
              mass := (s.entry m).mass, loc := .onTray k, opened := s.lu.clock })
        ∧ (192 ≤ s.su.strays.length → t.su.strays = s.su.strays
            ∧ t.su.unrecorded = min (s.su.unrecorded + 1) 65535)

/-- O26. LAP_LIMIT makes a manifest load past its limit a linked stray; STRAY_RIDING counts the lap and
reports it once (log entries 6, 13, 18) (R84, R85). -/
def Obligations.LapAndRidingRowsComplete : Prop :=
  (∀ (s : State) (k m slot : Nat) (l : Load) (v : Sailing), s.tray k = .loaded l → l.isManifest = true →
    l.index = some m → s.ownerOf m = some (slot, v) →
    (v.lapLimit < l.laps → s.su.strays.length < 192 → ∃ t, exec (.lapLimit k) s = .next t
      ∧ t.tray k = .loaded
          { l with ref := some s.freshRef, target := s.classTarget 9, laps := 0, rideSent := false }
      ∧ t.entry m = { s.entry m with state := .stray s.freshRef }
      ∧ Tbl.get t.su.strays s.freshRef = some
          { cls := 9, index := some m, linked := true, slot := some slot, tags := [], mass := (s.entry m).mass,
            loc := .onTray k, opened := s.lu.clock }
      ∧ (∀ m', m' ≠ m → t.entry m' = s.entry m'))
    ∧ (l.laps ≤ v.lapLimit → exec (.lapLimit k) s = .next s))
  ∧ (∀ (s : State) (k : Nat) (y : Layout) (l : Load), s.lt.layout = some y → s.lu.occ = true →
      s.lt.state ≠ LoopState.stopped →
      y.aligns s.lt.pos { kind := .occupancy, coord := y.eye, owner := 0 } = some k → s.tray k = .loaded l →
      s.lt.eyeTaken = false → l.verified = true → l.isManifest = false → l.rideSent = false → l.laps < 15 →
      l.laps + 1 = s.cu.settings.strayLapLimit → s.lu.supTx.queue.length < 60 →
      exec (.strayRiding k) s
        = .next (({ s with lt := { s.lt with eyeTaken := true } }.putTray k
            (.loaded { l with laps := l.laps + 1, rideSent := true })).tell 0x2E
            (b2 k ++ b2 (l.ref.getD 0)
              ++ bOpt 1 b1 (l.ref.bind (fun ref => (Tbl.get s.su.strays ref).map Stray.cls))
              ++ b1 (l.laps + 1))))
  ∧ (∀ (s : State) (k : Nat), (∀ m slot l v, s.tray k = .loaded l → l.isManifest = true → l.index = some m →
      s.ownerOf m = some (slot, v) → l.laps ≤ v.lapLimit) → exec (.lapLimit k) s = .next s)
  ∧ ∀ (s : State) (k : Nat), (∀ (y : Layout) (l : Load), s.lt.layout = some y → s.lu.occ = true →
      s.lt.state ≠ LoopState.stopped →
      y.aligns s.lt.pos { kind := .occupancy, coord := y.eye, owner := 0 } = some k → s.tray k = .loaded l →
      s.lt.eyeTaken = false → l.verified = true → l.isManifest = false → l.rideSent = false → l.laps < 15 →
      l.laps + 1 ≠ s.cu.settings.strayLapLimit) → exec (.strayRiding k) s = .next s

/-- O27. At its window close a tilt still ordered passes into doubt: tray, cart list, group, entry; a
CLOSING cart so emptied of orders closes (log entry 6) (R35, R98, R112, R122). -/
def Obligations.WindowCloseEntersDoubt : Prop :=
  ∀ (s : State) (y : Layout) (h : Chute) (c k : Nat), s.lt.layout = some y → Tbl.get s.chutes c = some h →
    s.lt.state ≠ LoopState.stopped →
    (y.aligns s.lt.pos { kind := .windowClose, coord := (h.coord + h.window) % y.length, owner := c } ≠ some k →
      exec (.windowClose c k) s = .next s)
    ∧ (y.aligns s.lt.pos { kind := .windowClose, coord := (h.coord + h.window) % y.length, owner := c } = some k →
      (∀ l, s.tray k = .tiltOrdered l c none →
        exec (.windowClose c k) s = .next (s.putTray k (.dropDoubt l c none)))
      ∧ (∀ l id m cart, s.tray k = .tiltOrdered l c (some id) → l.index = some m →
          Tbl.get s.carts id = some cart →
          let bags := remark m .ordered .doubt cart.bags
          let left := bags.filter (fun b => decide (b.mark = .ordered))
          let u := ((s.putTray k (.dropDoubt l c (some id))).putCart id { cart with bags := bags }).modifyGroup
            cart.group (fun g => { g with bagsInCarts := g.bagsInCarts + 1 })
          let u := if l.isManifest then u.setEntryState m (.inCart id) else u
          (cart.state ≠ .closing ∨ left ≠ [] → exec (.windowClose c k) s = .next u)
          ∧ (cart.state = .closing → left = [] → ∃ t, exec (.windowClose c k) s = .next t
            ∧ t.trays = u.trays ∧ t.manifest = u.manifest ∧ t.su = s.su ∧ t.stations = s.stations
            ∧ Tbl.get t.carts id = some { cart with
                bags := bags, state := .closed, closedTime := some s.lu.clock, chute := none }
            ∧ (∀ id', id' ≠ id → Tbl.get t.carts id' = Tbl.get s.carts id')
            ∧ t.groups = Tbl.modify s.groups cart.group (fun g => { g with
                bagsInCarts := g.bagsInCarts + 1, ready := g.ready ++ [id],
                cartsClosed := min (g.cartsClosed + 1) 65535 })
            ∧ (∀ ch, cart.chute = some ch → t.chutes = Tbl.modify s.chutes ch (fun x => { x with
                cart := none, cycle := some .swapping, swapTime := s.lu.clock, overdueSent := false }))))
      ∧ ((∀ l id, s.tray k ≠ .tiltOrdered l c id) → exec (.windowClose c k) s = .next s))

/-- O28. LAUNCHED or the launch close puts the head bag on its reserved tray; LAUNCH FAILED gives the tray
back (R62, R63, R64, R60). -/
def Obligations.LaunchEndsByAnswerOrClose : Prop :=
  ∀ (s : State) (src k1 k0 : Byte) (n : Nat) (st : Station), s.fldReady src →
    s.stationOfNode src = some (n, st) → Tbl.get s.stations n = some st →
    (st.ordered ≠ some (u16 k1 k0) → exec (.launched src [k1, k0]) s = .next s
      ∧ exec (.launchFailed src [k1, k0]) s = .next s)
    ∧ (st.ordered = some (u16 k1 k0) →
      exec (.launchFailed src [k1, k0]) s
        = .next ((s.putStation n { st with ordered := none }).putTray (u16 k1 k0) .empty)
      ∧ (∀ bag rest m, st.queue = bag :: rest → bag.isManifest = true → bag.index = some m →
          exec (.launched src [k1, k0]) s
            = .next (((s.putStation n { st with queue := rest, ordered := none }).putTray (u16 k1 k0)
                (.loaded { bag with verified := false })).setEntryState m (.inFlight (u16 k1 k0))))
      ∧ (∀ bag rest ref r, st.queue = bag :: rest → bag.ref = some ref → Tbl.get s.su.strays ref = some r →
          ∃ t, exec (.launched src [k1, k0]) s = .next t
            ∧ t.tray (u16 k1 k0) = .loaded { bag with verified := false }
            ∧ Tbl.get t.stations n = some { st with queue := rest, ordered := none }
            ∧ Tbl.get t.su.strays ref = some { r with loc := .onTray (u16 k1 k0) } ∧ t.manifest = s.manifest)
      ∧ ∀ y, s.lt.layout = some y → s.lt.state ≠ LoopState.stopped → st.queue ≠ [] →
          y.aligns s.lt.pos
              { kind := .launchClose, coord := (st.coord + st.window) % y.length, owner := n }
            = some (u16 k1 k0) →
          exec (.launchClose n (u16 k1 k0)) s = exec (.launched src [k1, k0]) s)
    ∧ ∀ k, st.ordered ≠ some k → exec (.launchClose n k) s = .next s

/-- O29. STATUS of page 0 to 4 answers the page and clears both error flags and the overrun flag; a higher
page is RANGE (R177). -/
def Obligations.StatusAnswersPageAndClearsFlags : Prop :=
  ∀ (s : State) (src page : Byte), s.supReady →
    let cleared : State := { s with
      lu := { s.lu with
        supRx := { s.lu.supRx with errorFlag := false }
        fldRx := { s.lu.fldRx with errorFlag := false }
        overrun := false } }
    (page = 0 → exec (.status src [page]) s = .next (cleared.answer src 0xC0 0
      ([s.lu.node] ++ b4 s.lu.clock ++ b2 s.lu.supRx.errors ++ bFlag s.lu.supRx.errorFlag
        ++ b2 s.lu.fldRx.errors ++ bFlag s.lu.fldRx.errorFlag ++ bFlag s.lu.overrun
        ++ b1 s.lt.state.ctorIdx ++ b1 s.lt.mode.ctorIdx ++ b2 s.lt.pos ++ bInt s.lt.lastCorrection
        ++ bOpt 9 (fun y => b2 y.trays ++ b1 y.pitch ++ b1 y.divisor ++ b1 y.tolerance ++ b2 y.eye
            ++ b2 (y.trays * y.pitch)) s.lt.layout
        ++ b2 s.cu.settings.lowerMass ++ b2 s.cu.settings.upperMass ++ b2 s.cu.settings.defaultCharge
        ++ b1 s.cu.settings.strayLapLimit ++ b2 s.cu.settings.swapLimit
        ++ (match s.cu.longOp with
            | none => [0, 0, 0, 0]
            | some o => b1 (1 + o.kind.ctorIdx) ++ b1 o.slot ++ b2 o.steps)
        ++ (match s.cu.lastEnd with
            | none => [0, 0, 0, 0]
            | some e => b1 (1 + e.kind.ctorIdx) ++ b1 e.slot ++ b1 e.outcome.ctorIdx ++ b1 e.reason.ctorIdx))))
    ∧ (1 ≤ page.toNat → page.toNat ≤ 4 → exec (.status src [page]) s = .next (cleared.answer src 0xC0 0
      (bFlag s.lu.supRx.errorFlag ++ bFlag s.lu.fldRx.errorFlag ++ bFlag s.lu.overrun
        ++ (match Tbl.get s.sailings page.toNat with
            | none => List.replicate 20 0
            | some v => b1 (1 + v.state.ctorIdx) ++ b1 v.key ++ b2 v.base ++ b2 v.length ++ bFlag v.ready
                ++ bFlag v.committed ++ [v.door] ++ b1 v.lapLimit ++ b2 v.tally ++ b1 v.seq.mode.ctorIdx
                ++ b1 v.seq.divisor ++ b2 v.seq.period ++ b1 v.seq.current ++ b1 v.seq.released
                ++ b1 v.seq.lifts ++ b1 v.steps.length))))
    ∧ (4 < page.toNat → exec (.status src [page]) s = .next (s.answer src 0xC0 3 []))

/-- O30. SET CLOCK, MASS LIMITS, PART SETTINGS and SORT MODE take their values, clamped where the rules say,
and answer them (log entry 8) (R74, R126, R138, R152, R178, R179, R180). -/
def Obligations.PartCommandsTakeTheirValues : Prop :=
  ∀ (s : State) (src : Byte), s.supReady →
    (∀ c3 c2 c1 c0 : Byte,
      let u := ({ s with lu := { s.lu with clock := u32 c3 c2 c1 c0 } } : State).swapTests
      exec (.setClock src [c3, c2, c1, c0]) s
        = .next (({ u with
            sailings := Tbl.mapRows u.sailings (fun v =>
              if v.seq.mode = .free then
                { v with seq := { v.seq with due := u32 c3 c2 c1 c0 + BitVec.ofNat 32 v.seq.period } }
              else v) } : State).answer src 0xC1 0 (b4 s.lu.clock)))
    ∧ (∀ l1 l0 u1 u0 d1 d0 : Byte,
      exec (.massLimits src [l1, l0, u1, u0, d1, d0]) s
        = .next (if 1 ≤ u16 l1 l0 ∧ u16 l1 l0 < u16 u1 u0 ∧ u16 u1 u0 ≤ 1000 ∧ 1 ≤ u16 d1 d0
              ∧ u16 d1 d0 ≤ 1023 then
            ({ s with cu := { s.cu with settings := { s.cu.settings with
                lowerMass := u16 l1 l0, upperMass := u16 u1 u0, defaultCharge := u16 d1 d0 } } } : State).answer
              src 0xC4 0 [l1, l0, u1, u0, d1, d0]
          else s.answer src 0xC4 3 []))
    ∧ (∀ lap w1 w0 : Byte,
      let u : State := { s with cu := { s.cu with settings := { s.cu.settings with
        strayLapLimit := max 1 (min lap.toNat 15), swapLimit := max 30 (min (u16 w1 w0) 900) } } }
      exec (.partSettings src [lap, w1, w0]) s
        = .next ((if max 30 (min (u16 w1 w0) 900) = s.cu.settings.swapLimit then u else u.swapTests).answer src
            0xC5 0 (b1 (max 1 (min lap.toNat 15)) ++ b2 (max 30 (min (u16 w1 w0) 900)))))
    ∧ exec (.sortMode src [0]) s = .next (({ s with lt := { s.lt with mode := .off } } : State).answer src 0xC3 0 [])
    ∧ (∀ y, s.lt.layout = some y →
        exec (.sortMode src [1]) s
          = .next (({ s with lt := { s.lt with mode := .run } } : State).answer src 0xC3 0 [])
        ∧ exec (.sortMode src [2]) s
          = .next (({ s with lt := { s.lt with mode := .drain } } : State).answer src 0xC3 0 []))
    ∧ (s.lt.layout = none → exec (.sortMode src [1]) s = .next (s.answer src 0xC3 4 [])
        ∧ exec (.sortMode src [2]) s = .next (s.answer src 0xC3 4 []))
    ∧ ∀ m : Byte, 3 ≤ m.toNat → exec (.sortMode src [m]) s = .next (s.answer src 0xC3 3 [])

/-- O31. RESTART empties the queues, trays and belts, restarts the loop and the sequencers and ends the long
operation (log entry 6) (R66, R89, R144, R171, R177, R184, R185, R186). -/
def Obligations.RestartClearsMotion : Prop :=
  ∀ (s : State) (src : Byte), s.lu.supRx.awaitIdle = false → ∃ t fields, exec (.restart src []) s = .next t
    ∧ t.trays = [] ∧ t.stations = Tbl.mapRows s.stations (fun st => { st with queue := [], ordered := none })
    ∧ t.lt = { s.lt with
        pos := 0, acc := 0, absorb := 0, lastCorrection := 0, missed := 0, lossPoint := 0, advances := 0,
        state := if s.lu.loopRun then .unsynced else .stopped, mode := .off,
        eyeTaken := true }
    ∧ t.sailings = Tbl.mapRows s.sailings (fun v => { v with seq := { v.seq with mode := .off, lifts := 0 } })
    ∧ t.cu.settings = s.cu.settings ∧ t.cu.longOp = none
    ∧ t.cu.lastEnd = (match s.cu.longOp with
        | none => s.cu.lastEnd
        | some o => some { kind := o.kind, slot := o.slot, outcome := .abandoned, reason := .noReason })
    ∧ t.lu.supTx.queue = [{ dst := src, src := s.lu.node, kind := 0xC2, payload := 0 :: fields }]
    ∧ fields.take 4 = (match s.cu.longOp with
        | none => [0, 0, 0, 0]
        | some o => b1 (1 + o.kind.ctorIdx) ++ b1 o.slot ++ b2 o.steps)
    ∧ t.lu.fldTx.queue = []
    ∧ (t.lu.supTx.completing = s.lu.supTx.completing ∨ t.lu.supTx.completing = s.lu.supTx.queue.head?)
    ∧ (t.lu.fldTx.completing = s.lu.fldTx.completing ∨ t.lu.fldTx.completing = s.lu.fldTx.queue.head?)
    ∧ t.lu.node = s.lu.node ∧ t.lu.supRx = s.lu.supRx ∧ t.lu.fldRx = s.lu.fldRx
    ∧ t.lu.overrun = s.lu.overrun ∧ t.lu.clock = s.lu.clock ∧ t.lu.loopRun = s.lu.loopRun
    ∧ t.lu.occ = s.lu.occ ∧ t.su.classes = s.su.classes ∧ t.su.nextRef = s.su.nextRef
    ∧ t.su.unrecorded = s.su.unrecorded ∧ t.su.notice = none ∧ t.pending = s.pending

/-- O32. RESTART takes waiting and riding bags back to NOT_SEEN, riding records to UNKNOWN, and settles the
cart lists and the strays in doubt (log entry 19) (R24, R66, R129, R162). -/
def Obligations.RestartKeepsBagsInTheirPlaces : Prop :=
  ∀ (s : State) (src : Byte), s.TablesOk → s.lu.supRx.awaitIdle = false →
    ∃ t, exec (.restart src []) s = .next t
      ∧ (∀ m, (∀ k l c id, s.tray k = .dropDoubt l c (some id) → l.ref ≠ none → l.index ≠ some m) →
          t.entry m = match (s.entry m).state with
          | .pending _ | .inFlight _ => { s.entry m with state := .notSeen }
          | _ => s.entry m)
      ∧ (∀ ref, (∀ k l c id, s.tray k = .dropDoubt l c (some id) → l.ref ≠ some ref) →
          Tbl.get t.su.strays ref = (Tbl.get s.su.strays ref).map (fun r =>
            match r.loc with
            | .onTray _ => { r with loc := .unknown }
            | _ => r))
      ∧ (∀ k l c id ref m g, s.tray k = .dropDoubt l c (some id) → l.ref = some ref → l.index = some m →
          l.target = .group g →
          (∀ k' l' c' id', k' ≠ k → s.tray k' = .dropDoubt l' c' (some id') → l'.index ≠ some m) →
          Tbl.get t.su.strays ref = none
          ∧ (s.cartHolds id m .doubt = true → t.entry m = { s.entry m with state := .inCart id })
          ∧ (s.cartHolds id m .doubt = false → (s.entry m).state = .aboard → t.entry m = s.entry m))
      ∧ (∀ id, Tbl.get t.carts id = (Tbl.get s.carts id).map (fun c =>
          let bags := (c.bags.filter (fun b => decide (b.mark ≠ .ordered))).map
            (fun b => if b.mark = .doubt then { b with mark := .dropped } else b)
          if c.state = .closing then
            { c with bags := bags, state := .closed, closedTime := some s.lu.clock, chute := none }
          else { c with bags := bags }))
      ∧ (∀ g grp, Tbl.get s.groups g = some grp → ∃ grp', Tbl.get t.groups g = some grp'
          ∧ grp'.ready = grp.ready ++ (s.carts.filter
              (fun r => decide (r.2.state = .closing) && r.2.group == g)).map Prod.fst
          ∧ grp'.bagsInCarts = grp.bagsInCarts ∧ grp'.bagsAboard = grp.bagsAboard)
      ∧ (∀ id cart c h, Tbl.get s.carts id = some cart → cart.state = .closing → cart.chute = some c →
          Tbl.get s.chutes c = some h →
          Tbl.get t.chutes c = some { h with
            cart := none, cycle := some .swapping, swapTime := s.lu.clock, overdueSent := false })

/-- O33. LAYOUT SET with values in range loads the layout, restarts the loop values, clamps stations and
chutes to it (log entries 5, 8) (R67, R68, R71, R73, section 10.1.3). -/
def Obligations.LayoutSetReplacesTheLayout : Prop :=
  ∀ (s : State) (src n1 n0 p d isDefault w z1 z0 : Byte), s.supRoom 1 →
    16 ≤ u16 n1 n0 → u16 n1 n0 ≤ 1024 → 8 ≤ p.toNat → u16 n1 n0 * p.toNat ≤ 65535 →
    s.lt.layout = none ∨ s.lt.mode = .off ∧ s.trays = [] → u16 z1 z0 < u16 n1 n0 * p.toNat →
    (∀ r ∈ s.stations, r.2.coord < u16 n1 n0 * p.toNat) → (∀ r ∈ s.chutes, r.2.coord < u16 n1 n0 * p.toNat) →
    let tolerance := if isDefault ≠ 0 then p.toNat / 4 else min w.toNat (p.toNat / 2)
    let len := u16 n1 n0 * p.toNat
    ∃ t, exec (.layoutSet src [n1, n0, p, d, isDefault, w, z1, z0]) s = .next t
      ∧ t.lt.layout = some
          { trays := u16 n1 n0, pitch := p.toNat, divisor := d.toNat, tolerance := tolerance, eye := u16 z1 z0 }
      ∧ t.lt.pos = 0 ∧ t.lt.acc = 0 ∧ t.lt.absorb = 0 ∧ t.lt.lastCorrection = 0 ∧ t.lt.missed = 0
      ∧ t.lt.lossPoint = 0 ∧ t.lt.advances = 0 ∧ t.lt.mode = s.lt.mode
      ∧ t.lt.state = (if s.lu.loopRun then .unsynced else .stopped) ∧ t.trays = []
      ∧ t.stations = Tbl.mapRows s.stations (fun st =>
          { st with lead := min st.lead (len - p.toNat), window := min (max st.window 1) (len / 2) })
      ∧ t.chutes = Tbl.mapRows s.chutes (fun h =>
          { h with lead := min h.lead (len - p.toNat), window := min (max h.window 1) (len / 2) })
      ∧ t.rebuildPoints = t
      ∧ t.manifest = s.manifest ∧ t.carts = s.carts ∧ t.groups = s.groups ∧ t.sailings = s.sailings
      ∧ t.su = s.su ∧ t.cu = s.cu ∧ t.pending = s.pending
      ∧ t.lu = ((s.tell 0x3B [if s.lu.loopRun then 1 else 0, BitVec.ofNat 8 s.lt.state.ctorIdx, 5, 0, 0, 0, 0,
          0]).answer src 0xC8 0 (b2 len ++ b1 tolerance)).lu

/-- O34. STATION SET with good values writes the station, its lead and window clamped, keeps its queue and
rebuilds the points (R46, R71, R155, section 10.1.3). -/
def Obligations.StationSetTakesItsFields : Prop :=
  ∀ (s : State) (src : Byte) (place : Nat) (f : StationFields), s.supReady →
    1 ≤ place → place ≤ 6 → f.node.toNat ≤ 125 → f.node ≠ s.lu.node →
    f.coord < 65536 → f.lead < 65536 → f.window < 65536 →
    f.cell1.tare < 65536 → f.cell2.tare < 65536 → f.cell3.tare < 65536 → f.cell4.tare < 65536 →
    f.cell1.gain ≤ 4095 → f.cell2.gain ≤ 4095 → f.cell3.gain ≤ 4095 → f.cell4.gain ≤ 4095 →
    let p := [BitVec.ofNat 8 place, f.node, BitVec.ofNat 8 f.kind.ctorIdx] ++ b2 f.coord ++ b2 f.lead
      ++ b2 f.window ++ b2 f.cell1.tare ++ b2 f.cell2.tare ++ b2 f.cell3.tare ++ b2 f.cell4.tare
      ++ b2 f.cell1.gain ++ b2 f.cell2.gain ++ b2 f.cell3.gain ++ b2 f.cell4.gain
    (s.lt.layout = none → exec (.stationSet src p) s = .next (s.answer src 0xCA 4 []))
    ∧ ∀ y, s.lt.layout = some y → f.coord < y.length →
      (∀ r ∈ s.stations, r.1 ≠ place → r.2.node ≠ f.node ∧ (f.kind = .encode → r.2.kind ≠ .encode)) →
      (∀ r ∈ s.chutes, r.2.node ≠ f.node) →
      let lead := min f.lead (y.length - y.pitch)
      let window := min (max f.window 1) (y.length / 2)
      (∀ st, Tbl.get s.stations place = some st → (st.queue = [] ∧ st.ordered = none)
        ∨ (st.node = f.node ∧ st.kind = f.kind ∧ st.coord = f.coord ∧ st.lead = lead ∧ st.window = window)) →
      let old := Tbl.get s.stations place
      let u := s.putStation place
        { node := f.node, kind := f.kind, coord := f.coord, lead := lead, window := window,
          cell1 := f.cell1, cell2 := f.cell2, cell3 := f.cell3, cell4 := f.cell4,
          queue := (old.map Station.queue).getD [], ordered := old.bind Station.ordered }
      let u : State := { u with
        su := { s.su with
          notice := if f.kind = .encode ∨ old.map Station.kind = some .encode then none else s.su.notice } }
      exec (.stationSet src p) s = .next (u.rebuildPoints.answer src 0xCA 0 (b2 lead ++ b2 window))

/-- O35. CHUTE SET writes a chute with lead and window clamped; CHUTE SERVICE moves its availability with a
report (log entries 5, 8) (R110, R111, R113, R115). -/
def Obligations.ChuteSetAndServiceTakeTheirFields : Prop :=
  (∀ (s : State) (src : Byte) (place : Nat) (f : ChuteFields) (y : Layout), s.supRoom 1 →
    1 ≤ place → place ≤ 48 → f.node.toNat ≤ 125 → f.node ≠ s.lu.node → s.lt.layout = some y →
    f.coord < y.length → f.coord < 65536 → f.lead < 65536 → f.window < 65536 →
    (∀ r ∈ s.stations, r.2.node ≠ f.node) → (∀ r ∈ s.chutes, r.1 ≠ place → r.2.node ≠ f.node) →
    (∀ h, Tbl.get s.chutes place = some h → (h.bound ≠ 0 → f.role = .sort)
      ∧ (h.role ≠ f.role → ∀ r ∈ s.trays, r.2.chute? ≠ some place)) →
    let old := Tbl.get s.chutes place
    let lead := min f.lead (y.length - y.pitch)
    let window := min (max f.window 1) (y.length / 2)
    let new : Chute :=
      { node := f.node, role := f.role, coord := f.coord, lead := lead, window := window, side := f.side,
        inverted := f.inverted, avail := (old.map Chute.avail).getD .inService,
        cycle := if f.role = .sort then some ((old.bind Chute.cycle).getD .noCart) else none,
        bound := (old.map Chute.bound).getD 0, cart := old.bind Chute.cart,
        swapTime := (old.map Chute.swapTime).getD 0, overdueSent := (old.map Chute.overdueSent).getD false }
    let p := [BitVec.ofNat 8 place, f.node, BitVec.ofNat 8 f.role.ctorIdx] ++ b2 f.coord
        ++ b2 f.lead ++ b2 f.window ++ [BitVec.ofNat 8 f.side.ctorIdx, if f.inverted then 1 else 0]
    let u := (s.putChute place new).rebuildPoints
    ((∀ h, old = some h → h.cycle = new.cycle) →
      exec (.chuteSet src p) s = .next (u.answer src 0xCC 0 (b2 lead ++ b2 window)))
    ∧ ∀ h, old = some h → h.cycle ≠ new.cycle →
      exec (.chuteSet src p) s = .next ((u.tell 0x39
        (b1 place ++ b1 f.role.ctorIdx ++ b1 h.avail.ctorIdx ++ b1 ((new.cycle.map CartCycle.ctorIdx).getD 0)
          ++ b1 h.bound ++ bOpt 1 b1 h.cart ++ [8])).answer src 0xCC 0 (b2 lead ++ b2 window)))
  ∧ ∀ (s : State) (src c : Byte), s.supReady → 1 ≤ c.toNat → c.toNat ≤ 48 →
    (Tbl.get s.chutes c.toNat = none → exec (.chuteService src [c, 0]) s = .next (s.answer src 0xCD 6 [])
      ∧ exec (.chuteService src [c, 2]) s = .next (s.answer src 0xCD 6 []))
    ∧ exec (.chuteService src [c, 1]) s = .next (s.answer src 0xCD 3 [])
    ∧ ∀ h, Tbl.get s.chutes c.toNat = some h →
      (h.avail = .inService → exec (.chuteService src [c, 0]) s = .next (s.answer src 0xCD 0 [0]))
      ∧ (h.avail = .outOfService → exec (.chuteService src [c, 2]) s = .next (s.answer src 0xCD 0 [2]))
      ∧ (s.lu.supTx.queue.length < 60 → h.avail ≠ .inService → exec (.chuteService src [c, 0]) s
          = .next (((s.putChute c.toNat { h with avail := .inService }).tell 0x39
              ([c, BitVec.ofNat 8 h.role.ctorIdx, 0] ++ b1 ((h.cycle.map CartCycle.ctorIdx).getD 0)
                ++ b1 h.bound ++ bOpt 1 b1 h.cart ++ [1])).answer src 0xCD 0 [0]))
      ∧ (s.lu.supTx.queue.length < 60 → h.avail ≠ .outOfService → exec (.chuteService src [c, 2]) s
          = .next (((s.putChute c.toNat { h with avail := .outOfService }).tell 0x39
              ([c, BitVec.ofNat 8 h.role.ctorIdx, 2] ++ b1 ((h.cycle.map CartCycle.ctorIdx).getD 0)
                ++ b1 h.bound ++ bOpt 1 b1 h.cart ++ [1])).answer src 0xCD 0 [2]))

/-- O36. CHUTE BIND binds a SORT chute by its cart cycle: waiting, empty cart, cart with bags closed by
force, or swapping (log entry 8) (R40, R41, R42, R113, R122). -/
def Obligations.ChuteBindFollowsCartCycle : Prop :=
  ∀ (s : State) (src c g : Byte) (h : Chute) (grp : Group), s.supRoom 2 → 1 ≤ c.toNat → c.toNat ≤ 48 →
    1 ≤ g.toNat → g.toNat ≤ 127 → Tbl.get s.chutes c.toNat = some h → Tbl.get s.groups g.toNat = some grp →
    h.role = .sort →
    (h.bound = g.toNat → exec (.chuteBind src [c, g]) s = .next (s.answer src 0xCE 0 []))
    ∧ (h.bound ≠ g.toNat →
      (h.cycle = some .closing ∨ (∃ id cart, h.cart = some id ∧ Tbl.get s.carts id = some cart
          ∧ cart.marked .ordered ≠ 0) → exec (.chuteBind src [c, g]) s = .next (s.answer src 0xCE 4 []))
      ∧ (h.cycle ≠ some .closing →
        (∀ id cart, h.cart = some id → Tbl.get s.carts id = some cart → cart.marked .ordered = 0) →
        (∀ v, Tbl.get s.sailings grp.slot = some v → v.state ≠ .closing) →
        (4 ≤ (s.chutes.filter (fun r => r.2.bound == g.toNat)).length →
          exec (.chuteBind src [c, g]) s = .next (s.answer src 0xCE 7 []))
        ∧ ((s.chutes.filter (fun r => r.2.bound == g.toNat)).length < 4 →
          let swapping : Chute := { h with
            bound := g.toNat, cart := none, cycle := some .swapping, swapTime := s.lu.clock,
            overdueSent := false }
          (h.cycle = some .noCart → exec (.chuteBind src [c, g]) s
            = .next (((s.putChute c.toNat swapping).tell 0x39
                ([c, 0] ++ b1 h.avail.ctorIdx ++ [3, g, 0, 0, 6])).answer src 0xCE 0 []))
          ∧ (h.cycle = some .swapping → exec (.chuteBind src [c, g]) s
            = .next (((s.putChute c.toNat { h with bound := g.toNat }).tell 0x39
                ([c, 0] ++ b1 h.avail.ctorIdx ++ [3, g] ++ bOpt 1 b1 h.cart ++ [6])).answer src 0xCE 0 []))
          ∧ ∀ id cart, h.cycle = some .filling → h.cart = some id → Tbl.get s.carts id = some cart →
            (cart.bags = [] → exec (.chuteBind src [c, g]) s
              = .next ((((s.putCart id { cart with group := g.toNat }).putChute c.toNat
                  { h with bound := g.toNat }).tell 0x39
                ([c, 0] ++ b1 h.avail.ctorIdx ++ [1, g, 1] ++ b1 id ++ [6])).answer src 0xCE 0 []))
            ∧ (cart.bags ≠ [] → ∃ t f1 f2, exec (.chuteBind src [c, g]) s = .next t
              ∧ t.chutes = Tbl.set s.chutes c.toNat swapping
              ∧ t.carts = Tbl.set s.carts id { cart with
                  cause := some .forced, state := .closed, closedTime := some s.lu.clock, chute := none }
              ∧ t.groups = Tbl.modify s.groups cart.group (fun x =>
                  { x with ready := x.ready ++ [id], cartsClosed := min (x.cartsClosed + 1) 65535 })
              ∧ t.manifest = s.manifest ∧ t.trays = s.trays ∧ t.su = s.su ∧ t.sailings = s.sailings
              ∧ t.lu.supTx.queue = s.lu.supTx.queue
                  ++ [f1, f2, { dst := src, src := s.lu.node, kind := 0xCE, payload := [0] }]
              ∧ f1.kind = 0x39 ∧ f2.kind = 0x34))))

/-- O37. CHUTE BIND with group 0 unbinds a SORT chute: NO_CART, its empty cart freed, one with bags closed
by force (log entry 8) (R41, R43, R112, R113). -/
def Obligations.ChuteUnbindFreesTheChute : Prop :=
  ∀ (s : State) (src c : Byte), s.supRoom 2 → 1 ≤ c.toNat → c.toNat ≤ 48 →
    (Tbl.get s.chutes c.toNat = none → exec (.chuteUnbind src [c, 0]) s = .next (s.answer src 0xCE 6 []))
    ∧ ∀ h, Tbl.get s.chutes c.toNat = some h →
      (h.role ≠ .sort → exec (.chuteUnbind src [c, 0]) s = .next (s.answer src 0xCE 4 []))
      ∧ (h.role = .sort → h.bound = 0 → exec (.chuteUnbind src [c, 0]) s = .next (s.answer src 0xCE 0 []))
      ∧ (h.role = .sort → h.bound ≠ 0 → h.cycle ≠ some .closing →
        let freed : Chute := { h with bound := 0, cycle := some .noCart, cart := none }
        (h.cycle = some .swapping ∨ h.cycle = some .noCart → h.cart = none →
          exec (.chuteUnbind src [c, 0]) s = .next (((s.putChute c.toNat freed).tell 0x39
            ([c, 0] ++ b1 h.avail.ctorIdx ++ [0, 0, 0, 0, 6])).answer src 0xCE 0 []))
        ∧ ∀ id cart, h.cycle = some .filling → h.cart = some id → Tbl.get s.carts id = some cart →
          cart.marked .ordered = 0 →
          (cart.bags = [] → exec (.chuteUnbind src [c, 0]) s
            = .next ((((s.freeCart id).putChute c.toNat freed).tell 0x39
              ([c, 0] ++ b1 h.avail.ctorIdx ++ [0, 0, 0, 0, 6])).answer src 0xCE 0 []))
          ∧ (cart.bags ≠ [] → ∃ t f1 f2, exec (.chuteUnbind src [c, 0]) s = .next t
            ∧ t.chutes = Tbl.set s.chutes c.toNat freed
            ∧ t.carts = Tbl.set s.carts id { cart with
                cause := some .forced, state := .closed, closedTime := some s.lu.clock, chute := none }
            ∧ t.groups = Tbl.modify s.groups cart.group (fun x =>
                { x with ready := x.ready ++ [id], cartsClosed := min (x.cartsClosed + 1) 65535 })
            ∧ t.manifest = s.manifest ∧ t.trays = s.trays ∧ t.su = s.su
            ∧ t.lu.supTx.queue = s.lu.supTx.queue
                ++ [f1, f2, { dst := src, src := s.lu.node, kind := 0xCE, payload := [0] }]
            ∧ f1.kind = 0x39 ∧ f2.kind = 0x34))

/-- O38. GROUP SET creates or changes a group, GROUP DELETE removes one that nothing uses, its bags resolved
again (log entries 13, 17, 18) (R2, R12, R29, R33, R35, R36, R37, R38, R148, R150). -/
def Obligations.GroupCommandsMakeAndRemoveGroups : Prop :=
  (∀ (s : State) (src g n deck zone count m1 m0 : Byte), s.supReady →
    groupInRange g.toNat n.toNat deck.toNat zone.toNat count.toNat (u16 m1 m0) = true →
    (Tbl.get s.sailings n.toNat = none →
      exec (.groupSet src [g, n, deck, zone, count, m1, m0]) s = .next (s.answer src 0xD0 6 []))
    ∧ ∀ v, Tbl.get s.sailings n.toNat = some v →
      (v.state = .closing →
        exec (.groupSet src [g, n, deck, zone, count, m1, m0]) s = .next (s.answer src 0xD0 4 []))
      ∧ (v.state ≠ .closing → Tbl.get s.groups g.toNat = none →
        exec (.groupSet src [g, n, deck, zone, count, m1, m0]) s = .next ((s.putGroup g.toNat
          { slot := n.toNat, deck := deck.toNat, zone := zone.toNat, countLimit := count.toNat,
            massLimit := u16 m1 m0, ready := [], bagsInCarts := 0, bagsAboard := 0, cartsClosed := 0,
            cartsAboard := 0 }).answer src 0xD0 0 []))
      ∧ ∀ old, v.state ≠ .closing → Tbl.get s.groups g.toNat = some old →
        (old.slot ≠ n.toNat →
          exec (.groupSet src [g, n, deck, zone, count, m1, m0]) s = .next (s.answer src 0xD0 5 []))
        ∧ (old.slot = n.toNat → (old.countLimit = count.toNat ∧ old.massLimit = u16 m1 m0)
            ∨ (∀ r ∈ s.carts, r.2.group = g.toNat →
                (r.2.state = .filling ∨ r.2.state = .closing → r.2.bags = [])
                ∧ (r.2.state = .closed ∨ r.2.state = .called →
                  r.2.bags.length ≤ count.toNat ∧ (r.2.bags.map BagItem.charge).sum ≤ u16 m1 m0)) →
          exec (.groupSet src [g, n, deck, zone, count, m1, m0]) s = .next ((s.putGroup g.toNat
            { old with deck := deck.toNat, zone := zone.toNat, countLimit := count.toNat,
                       massLimit := u16 m1 m0 }).answer src 0xD0 0 [])))
  ∧ ∀ (s : State) (src g : Byte), s.supReady → 1 ≤ g.toNat → g.toNat ≤ 127 →
    (Tbl.get s.groups g.toNat = none → exec (.groupDelete src [g]) s = .next (s.answer src 0xD1 6 []))
    ∧ ∀ old, Tbl.get s.groups g.toNat = some old →
      let used := (∃ r ∈ s.chutes, r.2.bound = g.toNat) ∨ (∃ r ∈ s.carts, r.2.group = g.toNat)
        ∨ (∃ v, Tbl.get s.sailings old.slot = some v
          ∧ ((∃ b ∈ v.live, b.group = g.toNat) ∨ ∃ x ∈ v.steps, x.group = g.toNat))
        ∨ ∃ r ∈ s.sailings, s.longRuns .planCommit r.1 = true ∧ ∃ b ∈ r.2.staged, b.group = g.toNat
      (used → exec (.groupDelete src [g]) s = .next (s.answer src 0xD1 4 []))
      ∧ (¬used →
      (∃ t, exec (.groupDelete src [g]) s = .next t ∧ Tbl.get t.groups g.toNat = none
        ∧ ∀ g', g' ≠ g.toNat → Tbl.get t.groups g' = Tbl.get s.groups g')
      ∧ ((∀ r ∈ s.stations, ∀ l ∈ r.2.queue, l.target ≠ .group g.toNat) →
          (∀ r ∈ s.trays, ∀ l, r.2 = .loaded l → l.target ≠ .group g.toNat) →
          exec (.groupDelete src [g]) s
            = .next (({ s with groups := Tbl.erase s.groups g.toNat } : State).answer src 0xD1 0 []))
      ∧ let held : List Load := s.stations.flatMap (fun r => r.2.queue) ++ s.trays.filterMap (fun r => r.2.load?)
        (s.TablesOk → (∀ x ∈ held, ∀ ref, x.ref = some ref → (Tbl.get s.su.strays ref).isSome = true
          ∧ (held.filter (fun x' => x'.ref == some ref)).length = 1) →
        ∃ t, exec (.groupDelete src [g]) s = .next t
          ∧ ∀ l m slot v loc, l.target = .group g.toNat → l.index = some m → s.ownerOf m = some (slot, v) →
          (held.filter (fun x => x.index == some m)).length = 1 →
          ((∃ k, s.tray k = .loaded l ∧ loc = .onTray k)
            ∨ ∃ n st, Tbl.get s.stations n = some st ∧ l ∈ st.queue ∧ loc = .atStation n) →
          let e := s.entry m
          ∃ l' : Load, (∀ k, loc = .onTray k → t.tray k = .loaded l')
            ∧ (∀ (n : Nat) (st : Station) (i : Nat), loc = .atStation n → Tbl.get s.stations n = some st → st.queue[i]? = some l →
              ∃ st', Tbl.get t.stations n = some st' ∧ st'.queue[i]? = some l')
            ∧ (∀ g', e.hold = 0 → v.cover e.cabin = some g' →
              l' = { l with target := .group g' } ∧ t.entry m = e)
            ∧ (e.hold ≠ 0 ∨ v.cover e.cabin = none →
              let cls := if e.hold ≠ 0 then s.holdClass e.hold else 7
              (∀ ref r, l.ref = some ref → Tbl.get s.su.strays ref = some r →
                l' = { l with target := s.classTarget cls } ∧ t.entry m = e
                ∧ Tbl.get t.su.strays ref = some { r with cls := cls })
              ∧ (l.ref = none → ∃ ref, l' = { l with
                  ref := ref, target := s.classTarget cls, laps := 0, rideSent := false }
                ∧ t.entry m = { e with state := .stray (ref.getD 0) }
                ∧ (ref = none → 192 ≤ t.su.strays.length)
                ∧ ∀ x, ref = some x → Tbl.get s.su.strays x = none ∧ Tbl.get t.su.strays x = some
                    { cls := cls, index := some m, linked := true, slot := some slot, tags := [],
                      mass := e.mass, loc := loc, opened := s.lu.clock }))))

/-- O39. SAILING DEFINE stages a sailing; SAILING STATE opens a ready committed one, or takes an OPEN one to
FINAL and closes its carts (log entries 1, 5, 10) (R7, R8, R9, R25, R124, R134). -/
def Obligations.SailingsAreDefinedOpenedAndFinal : Prop :=
  (∀ (s : State) (src n key h1 h0 l1 l0 door lap : Byte), s.supReady → 1 ≤ n.toNat → n.toNat ≤ 4 →
    Tbl.get s.sailings n.toNat = none → key ≠ 0 → 1 ≤ u16 l1 l0 → u16 h1 h0 + u16 l1 l0 ≤ 65536 →
    door.toNat ≤ 125 → (∀ r ∈ s.sailings, r.2.key ≠ key.toNat
      ∧ (u16 h1 h0 + u16 l1 l0 ≤ r.2.base ∨ r.2.base + r.2.length ≤ u16 h1 h0)) →
    exec (.sailingDefine src [n, key, h1, h0, l1, l0, door, lap]) s = .next ((s.putSailing n.toNat
      { key := key.toNat, state := .staged, base := u16 h1 h0, length := u16 l1 l0, ready := false,
        committed := false, door := door, lapLimit := if lap = 0 then 3 else min lap.toNat 15, tally := 0,
        live := [], staged := [], steps := [],
        seq := { mode := .off, divisor := 0, period := 0, current := 1, released := 0, lifts := 0,
                 due := 0 } }).answer src 0xD4 0 []))
  ∧ (∀ (s : State) (src n : Byte) (v : Sailing), s.supReady → 1 ≤ n.toNat → n.toNat ≤ 4 →
    Tbl.get s.sailings n.toNat = some v → exec (.sailingStateOpen src [n, 2]) s
      = .next (if v.state = .staged ∧ v.ready = true ∧ v.committed = true then
          (s.putSailing n.toNat { v with state := .opened }).answer src 0xD6 0 []
        else s.answer src 0xD6 4 []))
  ∧ ∀ (s : State) (src n : Byte) (v : Sailing), s.supReady → s.TablesOk → 1 ≤ n.toNat → n.toNat ≤ 4 →
    Tbl.get s.sailings n.toNat = some v →
    (v.state ≠ .opened → exec (.sailingStateFinal src [n, 3]) s = .next (s.answer src 0xD6 4 []))
    ∧ (v.state = .opened →
      (∃ t, exec (.sailingStateFinal src [n, 3]) s = .next t
        ∧ Tbl.get t.sailings n.toNat = some { v with state := .finalCall } ∧ t.manifest = s.manifest
        ∧ t.trays = s.trays
        ∧ ∀ id cart grp, Tbl.get s.carts id = some cart → Tbl.get s.groups cart.group = some grp →
          (grp.slot = n.toNat → cart.state = .filling → cart.bags ≠ [] →
            ∃ cart', Tbl.get t.carts id = some cart' ∧ cart'.bags = cart.bags
              ∧ cart'.group = cart.group ∧ cart'.cause = some .finalMove
              ∧ cart'.state = if cart.marked .ordered = 0 then .closed else .closing)
          ∧ (grp.slot ≠ n.toNat ∨ cart.state ≠ .filling ∨ cart.bags = [] →
            Tbl.get t.carts id = some cart))
      ∧ ((∀ r ∈ s.carts, r.2.state ≠ .filling ∨ r.2.bags = []) →
        exec (.sailingStateFinal src [n, 3]) s
          = .next ((s.putSailing n.toNat { v with state := .finalCall }).answer src 0xD6 0 [])))

/-- O40. REGION INIT, PLAN COMMIT and SAILING CLOSE start their operation, ending one in flight SUPERSEDED
(log entries 5, 13) (R18, R19, R29, R176, R182, R184, R185). -/
def Obligations.LongCommandsStartTheirOperation : Prop :=
  ∀ (s : State) (src n : Byte), s.supRoom 1 → 1 ≤ n.toNat → n.toNat ≤ 4 →
    (Tbl.get s.sailings n.toNat = none → exec (.regionInit src [n]) s = .next (s.answer src 0xD5 6 [])
      ∧ exec (.planCommit src [n]) s = .next (s.answer src 0xDB 6 [])
      ∧ exec (.sailingClose src [n]) s = .next (s.answer src 0xD7 6 []))
    ∧ ∀ v, Tbl.get s.sailings n.toNat = some v →
      let begun (k : LongKind) : LongOp :=
        { kind := k, slot := n.toNat, steps := 0,
          tallies := { aboard := 0, inCart := 0, ashore := 0, withdrawn := 0 } }
      let start (k : LongKind) (w : Tbl Sailing) (reply : Byte) : State :=
        match s.cu.longOp with
        | none =>
          ({ s with sailings := w, cu := { s.cu with longOp := some (begun k) } } : State).answer src reply 0
            (b1 (1 + k.ctorIdx) ++ [0, 0, 0, 0])
        | some o =>
          let ended : EndRecord := { kind := o.kind, slot := o.slot, outcome := .superseded, reason := .noReason }
          (({ s with
              sailings := w,
              cu := { s.cu with lastEnd := some ended, longOp := some (begun k) } } : State).tell 0x3C
            (b1 (1 + o.kind.ctorIdx) ++ b1 o.slot ++ [2, 0] ++ b2 o.steps ++ List.replicate 8 0
              ++ b4 s.lu.clock)).answer src reply 0
            (b1 (1 + k.ctorIdx) ++ b1 (1 + o.kind.ctorIdx) ++ b1 o.slot ++ b2 o.steps)
      (v.state = .staged → exec (.regionInit src [n]) s
        = .next (start .regionInit (Tbl.set s.sailings n.toNat { v with ready := false }) 0xD5))
      ∧ (v.state ≠ .staged → exec (.regionInit src [n]) s = .next (s.answer src 0xD5 4 []))
      ∧ exec (.planCommit src [n]) s = .next (start .planCommit s.sailings 0xDB)
      ∧ (v.state = .finalCall ∨ v.state = .closing → exec (.sailingClose src [n]) s
        = .next (start .sailingClose
            (Tbl.set s.sailings n.toNat { v with state := .closing, seq := { v.seq with mode := .off } }) 0xD7))
      ∧ (v.state = .staged ∨ v.state = .opened →
        exec (.sailingClose src [n]) s = .next (s.answer src 0xD7 4 []))

/-- O41. BLOCK PUT puts a block at its place in the staged plan, or replaces the group of the same cabins
(R25, R26). -/
def Obligations.BlockPutKeepsPlanOrder : Prop :=
  ∀ (s : State) (src n f1 f0 l1 l0 g : Byte) (v : Sailing), s.supReady → 1 ≤ n.toNat → n.toNat ≤ 4 →
    Tbl.get s.sailings n.toNat = some v → 1 ≤ u16 f1 f0 → u16 f1 f0 ≤ u16 l1 l0 → 1 ≤ g.toNat →
    g.toNat ≤ 127 →
    let p := [n, f1, f0, l1, l0, g]
    (v.state = .closing ∨ s.longRuns .planCommit n.toNat = true →
      exec (.blockPut src p) s = .next (s.answer src 0xD8 4 []))
    ∧ (v.state ≠ .closing → s.longRuns .planCommit n.toNat = false →
      ((∃ b ∈ v.staged, b.first = u16 f1 f0 ∧ b.last = u16 l1 l0) →
        exec (.blockPut src p) s = .next ((s.putSailing n.toNat
          { v with staged := v.staged.map (fun b =>
              if b.first = u16 f1 f0 ∧ b.last = u16 l1 l0 then { b with group := g.toNat } else b) }).answer src
            0xD8 0 []))
      ∧ ((∀ b ∈ v.staged, b.first ≠ u16 f1 f0 ∨ b.last ≠ u16 l1 l0) →
        (∃ b ∈ v.staged, b.first ≤ u16 l1 l0 ∧ u16 f1 f0 ≤ b.last) →
        exec (.blockPut src p) s = .next (s.answer src 0xD8 5 []))
      ∧ ((∀ b ∈ v.staged, u16 l1 l0 < b.first ∨ b.last < u16 f1 f0) →
        (64 ≤ v.staged.length → exec (.blockPut src p) s = .next (s.answer src 0xD8 7 []))
        ∧ (v.staged.length < 64 → (∀ b ∈ v.staged, b.first ≤ b.last) →
          v.staged.Pairwise (fun a b => a.last < b.first) →
          exec (.blockPut src p) s = .next ((s.putSailing n.toNat
            { v with staged := v.staged.filter (fun b => decide (b.first < u16 f1 f0))
                ++ [{ first := u16 f1 f0, last := u16 l1 l0, group := g.toNat }]
                ++ v.staged.filter (fun b => decide (u16 f1 f0 < b.first)) }).answer src 0xD8 0
              (b1 (v.staged.length + 1))))))

/-- O42. BLOCK DELETE removes the staged block that begins at the cabin, the live plan as it was; PLAN CLEAR
empties the staged plan (R25, R27, R28, R33). -/
def Obligations.BlockDeleteUncoversStagedCabins : Prop :=
  ∀ (s : State) (src n f1 f0 : Byte), s.supReady → 1 ≤ n.toNat → n.toNat ≤ 4 →
    (Tbl.get s.sailings n.toNat = none → exec (.blockDelete src [n, f1, f0]) s = .next (s.answer src 0xD9 6 [])
      ∧ exec (.planClear src [n]) s = .next (s.answer src 0xDA 6 []))
    ∧ ∀ v, Tbl.get s.sailings n.toNat = some v →
      (u16 f1 f0 = 0 → exec (.blockDelete src [n, f1, f0]) s = .next (s.answer src 0xD9 3 []))
      ∧ (1 ≤ u16 f1 f0 → v.state = .closing ∨ s.longRuns .planCommit n.toNat = true →
        exec (.blockDelete src [n, f1, f0]) s = .next (s.answer src 0xD9 4 []))
      ∧ (1 ≤ u16 f1 f0 → v.state ≠ .closing → s.longRuns .planCommit n.toNat = false →
        ((∀ b ∈ v.staged, b.first ≠ u16 f1 f0) →
          exec (.blockDelete src [n, f1, f0]) s = .next (s.answer src 0xD9 6 []))
        ∧ ∀ before b after, v.staged = before ++ b :: after → b.first = u16 f1 f0 →
          v.staged.Pairwise (fun a b => a.first ≤ a.last ∧ a.last < b.first) → b.first ≤ b.last →
          exec (.blockDelete src [n, f1, f0]) s
            = .next ((s.putSailing n.toNat { v with staged := before ++ after }).answer src 0xD9 0
                (b1 (before ++ after).length))
          ∧ (∀ x ∈ before ++ after, ∀ cabin, b.first ≤ cabin → cabin ≤ b.last →
              ¬(x.first ≤ cabin ∧ cabin ≤ x.last))
          ∧ ∀ cabin, ({ v with staged := before ++ after } : Sailing).cover cabin = v.cover cabin)
      ∧ (v.state = .closing ∨ s.longRuns .planCommit n.toNat = true →
        exec (.planClear src [n]) s = .next (s.answer src 0xDA 4 []))
      ∧ (v.state ≠ .closing → s.longRuns .planCommit n.toNat = false →
        exec (.planClear src [n]) s
          = .next ((s.putSailing n.toNat { v with staged := [] }).answer src 0xDA 0 []))

/-- O43. ENTRY PUT issues one to eight entries of a ready region, all or none (R5, R11). -/
def Obligations.EntryPutIssuesAllOrNothing : Prop :=
  ∀ (s : State) (src n : Byte) (first : Nat) (es : List NewEntry) (v : Sailing), s.supReady →
    1 ≤ n.toNat → n.toNat ≤ 4 → Tbl.get s.sailings n.toNat = some v → 1 ≤ es.length → es.length ≤ 8 →
    (∀ e ∈ es, 1 ≤ e.issue ∧ e.issue ≤ 15 ∧ 1 ≤ e.cabin ∧ e.cabin ≤ 65535
      ∧ (e.hold = 0 ∨ e.hold = 1 ∨ (16 ≤ e.hold ∧ e.hold ≤ 31))) →
    first + es.length ≤ v.length → v.length ≤ 65535 → v.state ≠ .closing →
    s.longRuns .regionInit n.toNat = false → v.ready = true →
    let p := n :: (b2 first ++ b1 es.length ++ es.flatMap (fun e => b1 e.issue ++ b2 e.cabin ++ b1 e.hold))
    ((∃ i, i < es.length ∧ (s.entry (v.base + first + i)).issue ≠ 0) →
      exec (.entryPut src p) s = .next (s.answer src 0xDC 5 []))
    ∧ ((∀ i, i < es.length → (s.entry (v.base + first + i)).issue = 0) → ∃ t,
      exec (.entryPut src p) s = .next (({ s with manifest := t } : State).answer src 0xDC 0 [])
      ∧ (∀ i e, es[i]? = some e → ({ s with manifest := t } : State).entry (v.base + first + i)
          = { issue := e.issue, cabin := e.cabin, hold := e.hold, mass := none, state := .notSeen })
      ∧ ∀ m, m < v.base + first ∨ v.base + first + es.length ≤ m →
          ({ s with manifest := t } : State).entry m = s.entry m)

/-- O44. CABIN CHANGE, HOLD SET, HOLD CLEAR write the entry; a waiting or riding bag takes its group or
becomes a linked stray (log entries 5, 8, 13, 18) (R5, R12, R13, R14, R15). -/
def Obligations.EditsWriteTheEntryAndResolveTheBag : Prop :=
  ∀ (s : State) (src n i1 i0 c1 c0 flag reason : Byte) (v : Sailing) (c : Instr) (kind : Byte)
    (reissued : Bool) (e' : Entry), s.supRoom 2 → 1 ≤ n.toNat → n.toNat ≤ 4 →
    Tbl.get s.sailings n.toNat = some v → u16 i1 i0 < v.length → s.longRuns .regionInit n.toNat = false →
    v.state ≠ .closing → v.ready = true →
    let m := v.base + u16 i1 i0
    let e := s.entry m
    e.issue ≠ 0 →
    (c = .cabinChange src [n, i1, i0, c1, c0, flag] ∧ kind = 0xDD ∧ u16 c1 c0 ≠ 0 ∧ reissued = (flag != 0)
        ∧ (reissued = true → e.issue ≠ 15)
        ∧ e' = { e with cabin := u16 c1 c0, issue := if reissued then e.issue + 1 else e.issue })
      ∨ (c = .holdSet src [n, i1, i0, reason] ∧ kind = 0xDE ∧ (reason = 1 ∨ (16 ≤ reason.toNat ∧ reason.toNat ≤ 31))
        ∧ reissued = false ∧ e' = { e with hold := reason.toNat })
      ∨ (c = .holdClear src [n, i1, i0] ∧ kind = 0xDF ∧ reissued = false ∧ e' = { e with hold := 0 }) →
    ((e.state = .withdrawn ∨ (∃ k, e.state = .inFlight k ∧ (s.tray k).isTiltOrdered = true)
        ∨ (kind = 0xDD ∧ (e.state = .aboard ∨ ∃ id, e.state = .inCart id)) →
      exec c s = .next (s.answer src kind 4 []))
    ∧ (e.state = .notSeen ∨ (∃ ref, e.state = .stray ref)
        ∨ (kind ≠ 0xDD ∧ (e.state = .aboard ∨ ∃ id, e.state = .inCart id)) →
      exec c s = .next ((s.putEntry m e').answer src kind 0 (b1 e.state.ctorIdx ++ e.state.locBytes)))
    ∧ ∀ loc, (∃ st, e.state = .pending st ∧ loc = .atStation st)
        ∨ (∃ k, e.state = .inFlight k ∧ (s.tray k).isTiltOrdered = false ∧ loc = .onTray k) →
      let held (f : Load → Load) (l : Load) : Load := if l.index = some m then f l else l
      let queues (f : Load → Load) : Tbl Station :=
        Tbl.mapRows s.stations (fun st => { st with queue := st.queue.map (held f) })
      let trays (f : Load → Load) : Tbl Tray := Tbl.mapRows s.trays (Tray.mapLoad (held f))
      (∀ g, reissued = false → e'.hold = 0 → v.cover e'.cabin = some g →
        let f (l : Load) : Load := { l with target := .group g }
        exec c s = .next (({ s.putEntry m e' with stations := queues f, trays := trays f } : State).answer src
          kind 0 (b1 e.state.ctorIdx ++ e.state.locBytes)))
      ∧ (reissued = true ∨ e'.hold ≠ 0 ∨ v.cover e'.cabin = none →
        let cls := if reissued then 5 else if e'.hold ≠ 0 then s.holdClass e'.hold else 7
        ∃ t, exec c s = .next t ∧ (∀ m', m' ≠ m → t.entry m' = s.entry m')
          ∧ (s.su.strays.length < 192 →
            t.entry m = { e' with state := .stray s.freshRef }
            ∧ (∃ told, t.lu.supTx.queue = s.lu.supTx.queue ++ told ++ [{
                dst := src, src := s.lu.node, kind := kind, payload := [0, 5, 5] ++ b2 s.freshRef }]
              ∧ ∀ f ∈ told, f.kind = 0x31 ∨ f.kind = 0x3F)
            ∧ Tbl.get t.su.strays s.freshRef = some
                { cls := cls, index := some m, linked := true, slot := some n.toNat, tags := [],
                  mass := e.mass, loc := loc, opened := s.lu.clock }
            ∧ t.stations = queues (fun l =>
                { l with ref := some s.freshRef, target := s.classTarget cls, laps := 0, rideSent := false })
            ∧ t.trays = trays (fun l =>
                { l with ref := some s.freshRef, target := s.classTarget cls, laps := 0, rideSent := false }))
          ∧ (192 ≤ s.su.strays.length →
            t.entry m = { e' with state := .stray 0 } ∧ t.su.strays = s.su.strays
            ∧ t.lu.supTx.queue = s.lu.supTx.queue ++ [{
                dst := src, src := s.lu.node, kind := kind, payload := [0, 5, 5, 0, 0] }]
            ∧ t.su.unrecorded = min (s.su.unrecorded + 1) 65535
            ∧ t.stations = queues (fun l =>
                { l with ref := none, target := s.classTarget cls, laps := 0, rideSent := false })
            ∧ t.trays = trays (fun l =>
                { l with ref := none, target := s.classTarget cls, laps := 0, rideSent := false }))))

/-- O45. WITHDRAW makes an entry WITHDRAWN and its bag an unlinked stray of class 8, at once (log entries 5,
13, 18) (R5, R16, R17). -/
def Obligations.WithdrawStrikesTheEntry : Prop :=
  ∀ (s : State) (src n i1 i0 : Byte) (v : Sailing), s.supRoom 2 → 1 ≤ n.toNat → n.toNat ≤ 4 →
    Tbl.get s.sailings n.toNat = some v → u16 i1 i0 < v.length → s.longRuns .regionInit n.toNat = false →
    v.state ≠ .closing → v.ready = true →
    let m := v.base + u16 i1 i0
    let e := s.entry m
    let c : Instr := .withdraw src [n, i1, i0]
    let struck : Entry := { e with state := .withdrawn }
    let queues (p : Load → Bool) (f : Load → Load) : Tbl Station :=
      Tbl.mapRows s.stations (fun st => { st with queue := st.queue.map (fun l => if p l then f l else l) })
    let trays (p : Load → Bool) (f : Load → Load) : Tbl Tray :=
      Tbl.mapRows s.trays (Tray.mapLoad (fun l => if p l then f l else l))
    e.issue ≠ 0 →
    (e.state = .aboard ∨ (∃ id, e.state = .inCart id)
        ∨ (∃ k, e.state = .inFlight k ∧ (s.tray k).isTiltOrdered = true)
        ∨ (∃ ref, e.state = .stray ref ∧ s.strayTilting m ref = true) →
      exec c s = .next (s.answer src 0xE0 4 []))
    ∧ (e.state = .withdrawn → exec c s = .next (s.answer src 0xE0 0 [6, 6, 0, 0]))
    ∧ (e.state = .notSeen → exec c s = .next ((s.putEntry m struck).answer src 0xE0 0 [6, 6, 0, 0]))
    ∧ (∀ loc, (∃ st, e.state = .pending st ∧ loc = .atStation st)
        ∨ (∃ k, e.state = .inFlight k ∧ (s.tray k).isTiltOrdered = false ∧ loc = .onTray k) →
      ∃ t, exec c s = .next t ∧ t.entry m = struck ∧ (∀ m', m' ≠ m → t.entry m' = s.entry m')
        ∧ (s.su.strays.length < 192 →
          Tbl.get t.su.strays s.freshRef = some
            { cls := 8, index := some m, linked := false, slot := some n.toNat, tags := [], mass := e.mass,
              loc := loc, opened := s.lu.clock }
          ∧ t.stations = queues (fun l => l.index == some m)
              (fun l => { l with
                index := none, ref := some s.freshRef, target := s.classTarget 8, rideSent := false })
          ∧ t.trays = trays (fun l => l.index == some m)
              (fun l => { l with
                index := none, ref := some s.freshRef, target := s.classTarget 8, rideSent := false }))
        ∧ (192 ≤ s.su.strays.length →
          t.su.strays = s.su.strays ∧ t.su.unrecorded = min (s.su.unrecorded + 1) 65535
          ∧ t.stations = queues (fun l => l.index == some m)
              (fun l => { l with index := none, ref := none, target := s.classTarget 8, rideSent := false })
          ∧ t.trays = trays (fun l => l.index == some m)
              (fun l => { l with index := none, ref := none, target := s.classTarget 8, rideSent := false })))
    ∧ ∀ ref, e.state = .stray ref → s.strayTilting m ref = false →
      ∃ t, exec c s = .next t ∧ t.entry m = struck ∧ (∀ m', m' ≠ m → t.entry m' = s.entry m')
        ∧ Tbl.get t.su.strays ref
            = (Tbl.get s.su.strays ref).map (fun r => { r with cls := 8, linked := false })
        ∧ (∀ ref', ref' ≠ ref → Tbl.get t.su.strays ref' = Tbl.get s.su.strays ref')
        ∧ t.su.encode = s.su.encode
        ∧ t.stations = queues (fun l => l.index == some m || (ref != 0 && l.ref == some ref))
            (fun l => { l with index := none, target := s.classTarget 8 })
        ∧ t.trays = trays (fun l => l.index == some m || (ref != 0 && l.ref == some ref))
            (fun l => { l with index := none, target := s.classTarget 8 })

/-- O46. CLASS SET changes one class entry; STRAY CLOSE closes a record that nothing holds; a fresh ref is
the next free one (log entries 5, 8) (R145, R146, R148, R158, R159). -/
def Obligations.StrayCommandsSetClassesAndCloseRecords : Prop :=
  (∀ (s : State) (src cls d p : Byte), s.supReady → exec (.classSet src [cls, d, p]) s = .next
    (match Disposition.ofByte d with
    | none => s.answer src 0xE4 3 []
    | some x =>
      if cls.toNat ≤ 31 ∧ p.toNat ≤ 7 ∧ cls ≠ 14 ∧ (x = .recordOnly → cls = 9 ∨ cls = 13) then
        let entry : ClassEntry := { disposition := some x, priority := p.toNat, loaded := true }
        ({ s with su := { s.su with classes := Tbl.set s.su.classes cls.toNat entry } } : State).answer src
          0xE4 0 []
      else s.answer src 0xE4 3 []))
  ∧ (∀ (s : State) (src r1 r0 why : Byte) (reason : CloseReason), s.supRoom 1 →
    CloseReason.ofByte why = some reason →
    let c : Instr := .strayClose src [r1, r0, why]
    let ref := u16 r1 r0
    (ref = 0 → exec c s = .next (s.answer src 0xE6 3 []))
    ∧ (ref ≠ 0 → Tbl.get s.su.strays ref = none → exec c s = .next (s.answer src 0xE6 6 []))
    ∧ ∀ r, ref ≠ 0 → Tbl.get s.su.strays ref = some r →
      let closing := reason = .withdrawn ∧ r.linked = true
        ∧ ∃ n v, r.slot = some n ∧ Tbl.get s.sailings n = some v ∧ v.state = .closing
      (s.refHeld ref = true ∨ closing → exec c s = .next (s.answer src 0xE6 4 []))
      ∧ (s.refHeld ref = false → ¬closing →
        let closed : State := { s with su := { s.su with
          strays := Tbl.erase s.su.strays ref,
          encode := s.su.encode.filter (fun it => decide (it.ref ≠ ref)) } }
        let told := closed.tell 0x33 (b2 ref ++ b1 r.cls ++ bOpt 2 b2 r.index ++ bFlag r.linked
          ++ bOpt 1 b1 r.slot ++ strayLocBytes r.loc ++ b1 (1 + reason.ctorIdx) ++ [0, 0] ++ b4 r.opened
          ++ b4 s.lu.clock)
        (r.linked = false ∨ r.index = none → exec c s = .next (told.answer src 0xE6 0 []))
        ∧ ∀ m, r.linked = true → r.index = some m →
          exec c s = .next ((told.putEntry m { s.entry m with
            state := if reason = .withdrawn then .withdrawn else .notSeen }).answer src 0xE6 0 [])))
  ∧ ∀ (s : State) (r : Stray) (cause : OpenCause), s.su.strays.length < 192 → 1 ≤ s.su.nextRef →
    s.su.nextRef ≤ 65535 →
    let count (i : Nat) : Nat := (s.su.nextRef - 1 + i) % 65535 + 1
    ∃ i, (s.openStray r cause).2 = some (count i) ∧ (∀ j, j < i → (Tbl.get s.su.strays (count j)).isSome)
      ∧ Tbl.get s.su.strays (count i) = none ∧ (s.openStray r cause).1.su.nextRef = count (i + 1)
      ∧ Tbl.get (s.openStray r cause).1.su.strays (count i) = some { r with opened := s.lu.clock }

/-- O47. Every read answers the record as it stands, or marks it absent, and changes nothing but the reply
queue (log entry 5) (R5, R39, R82, R117, R128, R161, R181). -/
def Obligations.ReadsAnswerTheRecordAndChangeNothing : Prop :=
  (∀ (c : Instr) (f : CommandFrame) (s : State), isRead c = true → commandOf c = some f → s.supReady →
    ∃ code fields, exec c s = .next (s.answer f.src (f.kind ||| 0x80) code fields))
  ∧ ∀ (s : State) (src a b d : Byte), s.supReady →
    (∀ v, 1 ≤ a.toNat → a.toNat ≤ 4 → Tbl.get s.sailings a.toNat = some v → u16 b d < v.length →
      let e := s.entry (v.base + u16 b d)
      exec (.entryRead src [a, b, d]) s = .next (s.answer src 0xE1 0
        (if e.issue = 0 then List.replicate 14 0
        else 1 :: (b2 (v.base + u16 b d) ++ b1 e.issue ++ b2 e.cabin ++ b1 e.hold ++ b1 e.state.ctorIdx
          ++ bOpt 2 b2 e.mass ++ e.state.locBytes))))
    ∧ exec (.strayRead src [a, b, 0]) s = .next (s.answer src 0xE5 0
        (match Tbl.get s.su.strays (u16 a b) with
        | none => List.replicate 24 0
        | some r => 1 :: s.strayFields (u16 a b) r))
    ∧ (∀ ref r, s.TablesOk → Tbl.get s.su.strays ref = some r → u16 a b < ref →
        (∀ ref', u16 a b < ref' → ref' < ref → Tbl.get s.su.strays ref' = none) →
        exec (.strayRead src [a, b, 1]) s = .next (s.answer src 0xE5 0 (1 :: s.strayFields ref r)))
    ∧ ((∀ ref, u16 a b < ref → Tbl.get s.su.strays ref = none) →
        exec (.strayRead src [a, b, 1]) s = .next (s.answer src 0xE5 0 (List.replicate 24 0)))
    ∧ (let items := (s.su.encode.drop (if a = 0 then 0 else a.toNat - 1)).take 12
      exec (.queueRead src [a]) s = .next (s.answer src 0xE7 0
        (b1 items.length ++ items.flatMap (fun it => b2 it.ref ++ b1 it.priority)
          ++ b2 s.manualTilts ++ b2 s.su.strays.length ++ b2 s.su.unrecorded ++ b2 s.su.nextRef
          ++ bOpt 2 b2 s.su.notice)))
    ∧ (a ≠ 0 → exec (.cartRead src [a, b]) s = .next (s.answer src 0xE9 0
        (match Tbl.get s.carts a.toNat with
        | none => List.replicate 20 0
        | some c => s.cartFields a.toNat b.toNat c)))
    ∧ (∀ y, s.lt.layout = some y → u16 a b < y.trays →
        let t := s.tray (u16 a b)
        exec (.trayRead src [a, b]) s = .next (s.answer src 0xC9 0
          (b1 t.stateCode ++ b2 ((s.lt.pos + y.length - u16 a b * y.pitch) % y.length) ++ bOpt 1 b1 t.chute?
            ++ bOpt 1 b1 t.cart? ++ bOpt 16 Load.fields t.load?)))
    ∧ (∀ y, s.lt.layout = some y → y.trays ≤ u16 a b →
        exec (.trayRead src [a, b]) s = .next (s.answer src 0xC9 3 []))
    ∧ (s.lt.layout = none → exec (.trayRead src [a, b]) s = .next (s.answer src 0xC9 4 []))
    ∧ (1 ≤ a.toNat → a.toNat ≤ 48 → exec (.chuteRead src [a]) s = .next (s.answer src 0xCF 0
        (match Tbl.get s.chutes a.toNat with
        | none => List.replicate 38 0
        | some h => 1 :: s.chuteFields a.toNat h)))
    ∧ (1 ≤ a.toNat → a.toNat ≤ 127 → exec (.groupRead src [a]) s = .next (s.answer src 0xD2 0
        (match Tbl.get s.groups a.toNat with
        | none => List.replicate 23 0
        | some g => 1 :: s.groupFields a.toNat g)))

/-- O48. CART CLOSE sends a FILLING cart with entries into CLOSING, or straight to CLOSED when none is
ORDERED (log entry 8) (R113, R119, R122, R123). -/
def Obligations.CartCloseForcesAFillingCart : Prop :=
  ∀ (s : State) (src id : Byte), s.supRoom 2 →
    let x : Instr := .cartClose src [id]
    (id = 0 → exec x s = .next (s.answer src 0xE8 3 []))
    ∧ (id ≠ 0 → Tbl.get s.carts id.toNat = none → exec x s = .next (s.answer src 0xE8 6 []))
    ∧ ∀ c, id ≠ 0 → Tbl.get s.carts id.toNat = some c →
      (c.state = .closed ∨ c.state = .called → exec x s = .next (s.answer src 0xE8 4 []))
      ∧ (c.state = .closing → exec x s = .next (s.answer src 0xE8 0 [2]))
      ∧ (c.state = .filling → c.bags = [] → exec x s = .next (s.answer src 0xE8 0 [1]))
      ∧ ∀ ch h, c.state = .filling → c.bags ≠ [] → c.chute = some ch → Tbl.get s.chutes ch = some h →
        (c.marked .ordered ≠ 0 → exec x s = .next
          ((((s.putCart id.toNat { c with state := .closing, cause := some .forced }).modifyChute ch
              (fun h => { h with cycle := some .closing })).tell 0x39
            (b1 ch ++ b1 h.role.ctorIdx ++ b1 h.avail.ctorIdx ++ [2] ++ b1 h.bound ++ bOpt 1 b1 h.cart
              ++ [3])).answer src 0xE8 0 [2]))
        ∧ (c.marked .ordered = 0 → ∃ t, exec x s = .next t
          ∧ t.carts = Tbl.set s.carts id.toNat { c with
              state := .closed, cause := some .forced, closedTime := some s.lu.clock, chute := none }
          ∧ t.groups = Tbl.modify s.groups c.group (fun g =>
              { g with ready := g.ready ++ [id.toNat], cartsClosed := min (g.cartsClosed + 1) 65535 })
          ∧ t.chutes = Tbl.modify s.chutes ch (fun h =>
              { h with cart := none, cycle := some .swapping, swapTime := s.lu.clock, overdueSent := false })
          ∧ t.manifest = s.manifest ∧ t.trays = s.trays ∧ t.su = s.su ∧ t.sailings = s.sailings
          ∧ ∃ f1 f2, t.lu.supTx.queue = s.lu.supTx.queue
              ++ [f1, f2, { dst := src, src := s.lu.node, kind := 0xE8, payload := [0, 3] }]
            ∧ f1.kind = 0x34 ∧ f2.kind = 0x39)

/-- O49. STEP PUT and STEP CLEAR edit the step list, SEQ START and SEQ STOP the sequencer, each within its
rule's checks (R131, R132, R133, R135, R136). -/
def Obligations.StepAndSequencerCommands : Prop :=
  ∀ (s : State) (src n k g batch quota first div p1 p0 : Byte) (v : Sailing), s.supReady → 1 ≤ n.toNat →
    n.toNat ≤ 4 → Tbl.get s.sailings n.toNat = some v →
    (1 ≤ k.toNat → k.toNat ≤ 32 → 1 ≤ g.toNat → g.toNat ≤ 127 →
      let x : Instr := .stepPut src [n, k, g, batch, quota]
      (v.steps.length + 1 < k.toNat → exec x s = .next (s.answer src 0xEC 3 []))
      ∧ (k.toNat ≤ v.steps.length + 1 →
        (v.state = .closing → exec x s = .next (s.answer src 0xEC 4 []))
        ∧ (v.state ≠ .closing → Tbl.get s.groups g.toNat = none → exec x s = .next (s.answer src 0xEC 6 []))
        ∧ ∀ grp, v.state ≠ .closing → Tbl.get s.groups g.toNat = some grp →
          (grp.slot ≠ n.toNat → exec x s = .next (s.answer src 0xEC 5 []))
          ∧ (grp.slot = n.toNat →
            let b := if batch = 0 then 1 else min batch.toNat 12
            exec x s = .next ((s.putSailing n.toNat { v with
              steps := v.steps.take (k.toNat - 1) ++ [{ group := g.toNat, batch := b, quota := quota.toNat }]
                ++ v.steps.drop k.toNat }).answer src 0xEC 0
              ([g] ++ b1 b ++ [quota] ++ b1 (max v.steps.length k.toNat))))))
    ∧ (1 ≤ k.toNat → k.toNat ≤ 32 →
      let held := v.state = .closing ∨ ((v.seq.mode = .locked ∨ v.seq.mode = .free) ∧ k.toNat ≤ v.seq.current)
      (held → exec (.stepClear src [n, k]) s = .next (s.answer src 0xED 4 []))
      ∧ (¬held → v.steps.length < k.toNat → exec (.stepClear src [n, k]) s = .next (s.answer src 0xED 0 []))
      ∧ (¬held → k.toNat ≤ v.steps.length → exec (.stepClear src [n, k]) s = .next
          ((s.putSailing n.toNat { v with steps := v.steps.take (k.toNat - 1) }).answer src 0xED 0
            (b1 (k.toNat - 1)))))
    ∧ (first.toNat ≤ 32 →
      let at' := if first = 0 then v.seq.current else first.toNat
      let count := if first = 0 then v.seq.released else 0
      let m := if div = 0 then 1 else min div.toNat 12
      let t := max 20 (min (u16 p1 p0) 600)
      let refused := v.state = .staged ∨ v.state = .closing ∨ v.steps.length < at'
      (refused → exec (.seqStart src [n, first, 1, div, p1, p0]) s = .next (s.answer src 0xEE 4 [])
        ∧ exec (.seqStart src [n, first, 2, div, p1, p0]) s = .next (s.answer src 0xEE 4 []))
      ∧ (¬refused →
        exec (.seqStart src [n, first, 1, div, p1, p0]) s = .next ((s.putSailing n.toNat
          { v with seq := { v.seq with
              mode := .locked, divisor := m, current := at', released := count, lifts := 0 } }).answer src 0xEE 0
          ([1] ++ b1 m ++ b1 at' ++ b1 count))
        ∧ exec (.seqStart src [n, first, 2, div, p1, p0]) s = .next ((s.putSailing n.toNat
          { v with seq := { v.seq with
              mode := .free, period := t, current := at', released := count, lifts := 0,
              due := s.lu.clock + BitVec.ofNat 32 t } }).answer src 0xEE 0
          ([2] ++ b2 t ++ b1 at' ++ b1 count))))
    ∧ exec (.seqStop src [n]) s = .next ((s.putSailing n.toNat
        { v with seq := { v.seq with mode := .off, lifts := 0 } }).answer src 0xEF 0
        (b1 v.seq.current ++ b1 v.seq.released))

/-- O50. A bag's mass is the sum of its calibrated net counts in tenths of a kilogram, rounded half up and
clamped to 1,023 (R48). -/
def Obligations.WeighingRoundsTheCalibratedSum : Prop :=
  (∀ (st : Station) (r1 r2 r3 r4 : Nat), r1 ≤ 65535 → r2 ≤ 65535 → r3 ≤ 65535 → r4 ≤ 65535 →
    st.cell1.gain ≤ 4095 → st.cell2.gain ≤ 4095 → st.cell3.gain ≤ 4095 → st.cell4.gain ≤ 4095 →
    (r1 = 65535 ∨ r2 = 65535 ∨ r3 = 65535 ∨ r4 = 65535 → st.weigh r1 r2 r3 r4 = none)
    ∧ (r1 ≠ 65535 → r2 ≠ 65535 → r3 ≠ 65535 → r4 ≠ 65535 →
      let net (raw tare : Nat) : Int := max ((raw : Int) - tare) 0
      let sum : Int := net r1 st.cell1.tare * st.cell1.gain + net r2 st.cell2.tare * st.cell2.gain
        + net r3 st.cell3.tare * st.cell3.gain + net r4 st.cell4.tare * st.cell4.gain
      0 ≤ sum ∧ sum ≤ 1073463300 ∧ ∃ mass : Nat, st.weigh r1 r2 r3 r4 = some mass
        ∧ (mass : Int) = min ((sum + 51200) / 102400) 1023 ∧ mass ≤ 1023 ∧ (mass = 0 ↔ sum < 51200)
        ∧ (1023 < (sum + 51200) / 102400 → ∀ upper : Nat, upper ≤ 1000 → upper < mass)
        ∧ (st.cell4.gain = 0 → ∀ r tare, r < 65535 →
            ({ st with cell4 := { tare := tare, gain := 0 } } : Station).weigh r1 r2 r3 r = some mass)
        ∧ (st.cell1.gain = 0 → ∀ r tare, r < 65535 →
            ({ st with cell1 := { tare := tare, gain := 0 } } : Station).weigh r r2 r3 r4 = some mass)
        ∧ (st.cell2.gain = 0 → ∀ r tare, r < 65535 →
            ({ st with cell2 := { tare := tare, gain := 0 } } : Station).weigh r1 r r3 r4 = some mass)
        ∧ (st.cell3.gain = 0 → ∀ r tare, r < 65535 →
            ({ st with cell3 := { tare := tare, gain := 0 } } : Station).weigh r1 r2 r r4 = some mass)))
  ∧ (∀ (s : State) (src : Byte) (p : List Byte) (t : State), exec (.massLimits src p) s = .next t →
      s.cu.settings.upperMass ≤ 1000 → t.cu.settings.upperMass ≤ 1000)
  ∧ ∀ (s : State) (src : Byte) (n : Nat) (st : Station) (p : List Byte) (x : InductionFields), s.fldReady src →
    s.stationOfNode src = some (n, st) → InductionFields.parse p = some x → s.lu.fldTx.queue.length < 32 →
    st.queue.length < 4 → ∃ t bag, exec (.inductionReport src p) s = .next t
      ∧ t.stations = Tbl.set s.stations n { st with queue := st.queue ++ [bag] }
      ∧ bag.estimated = (st.weigh x.raw1 x.raw2 x.raw3 x.raw4).isNone
      ∧ ∀ w, st.weigh x.raw1 x.raw2 x.raw3 x.raw4 = some w → bag.charge = max w 1

/-- O51. An INDUCTION REPORT is turned away, or puts one weighed and classified bag at its station's tail,
its own, keyed or stray (log entries 5, 13, 18) (R4, R47, R49, R50, R53, R54, R55, R56, R57, R58, R59,
R151). -/
def Obligations.InductionReportQueuesTheBag : Prop :=
  ∀ (s : State) (src : Byte) (n : Nat) (st : Station) (p : List Byte), s.fldReady src →
    s.stationOfNode src = some (n, st) →
    (readCountAbove2 p = true → exec (.inductionReport src p) s = .next s)
    ∧ ∀ x, InductionFields.parse p = some x →
      (32 ≤ s.lu.fldTx.queue.length → exec (.inductionReport src p) s = .next s)
      ∧ (s.lu.fldTx.queue.length < 32 → 4 ≤ st.queue.length →
          exec (.inductionReport src p) s = .next (s.tellField src 0x20 [1]))
      ∧ (s.lu.fldTx.queue.length < 32 → st.queue.length < 4 →
        let mass := st.weigh x.raw1 x.raw2 x.raw3 x.raw4
        let charge := match mass with | some w => max w 1 | none => s.cu.settings.defaultCharge
        let newMass (mass old : Option Nat) : Option Nat := match mass with | some w => some w | none => old
        let inLimits (mass : Option Nat) : Prop :=
          ∀ w, mass = some w → s.cu.settings.lowerMass ≤ w ∧ w ≤ s.cu.settings.upperMass
        let strayClass (e : Entry) (v : Sailing) (mass : Option Nat) (cls : Nat) : Prop :=
          (e.hold ≠ 0 ∧ cls = s.holdClass e.hold)
          ∨ (e.hold = 0 ∧ (∃ w, mass = some w ∧ w < s.cu.settings.lowerMass) ∧ cls = 11)
          ∨ (e.hold = 0 ∧ (∃ w, mass = some w ∧ s.cu.settings.lowerMass ≤ w ∧ s.cu.settings.upperMass < w)
            ∧ cls = 10)
          ∨ (e.hold = 0 ∧ inLimits mass ∧ v.cover e.cabin = none ∧ cls = 7)
        (∃ t bag reply, exec (.inductionReport src p) s = .next t
          ∧ t.stations = Tbl.set s.stations n { st with queue := st.queue ++ [bag] }
          ∧ bag.charge = charge ∧ bag.estimated = mass.isNone ∧ bag.laps = 0 ∧ bag.verified = false ∧ bag.rideSent = false
          ∧ bag.station = some n ∧ t.trays = s.trays ∧ t.carts = s.carts ∧ t.chutes = s.chutes
          ∧ t.groups = s.groups ∧ t.sailings = s.sailings ∧ t.lt = s.lt
          ∧ t.lu.fldTx.queue = s.lu.fldTx.queue ++ [{
              dst := src, src := s.lu.node, kind := 0x20,
              payload := [0] ++ b1 (st.queue.length + 1) ++ b2 charge ++ bFlag mass.isNone ++ reply }])
        ∧ (x.tags = [] → x.keyed = false → s.su.strays.length < 192 →
          ∃ t bag, exec (.inductionReport src p) s = .next t
            ∧ t.stations = Tbl.set s.stations n { st with queue := st.queue ++ [bag] }
            ∧ bag.index = none ∧ bag.ref = some s.freshRef ∧ bag.target = s.classTarget 0
            ∧ t.manifest = s.manifest
            ∧ Tbl.get t.su.strays s.freshRef = some
              { cls := 0, index := none, linked := false, slot := none, tags := [], mass := mass,
                loc := .atStation n, opened := s.lu.clock })
        ∧ (∀ tag slot v cls, x.tags = [tag] → x.keyed = false →
          s.sailingOfKey (tagKey tag) = some (slot, v) → v.state = .opened ∨ v.state = .finalCall →
          tagIndex tag < v.length →
          let m := v.base + tagIndex tag
          let e := s.entry m
          e.issue = tagIssue tag → e.issue ≠ 0 → e.state = .notSeen ∨ e.state = .stray 0 →
          s.indexHeld m = false → Tbl.get s.su.strays 0 = none → strayClass e v mass cls →
          ∃ t bag, exec (.inductionReport src p) s = .next t
            ∧ t.stations = Tbl.set s.stations n { st with queue := st.queue ++ [bag] }
            ∧ bag.index = some m ∧ bag.target = s.classTarget cls
            ∧ (∀ m', m' ≠ m → t.entry m' = s.entry m')
            ∧ (s.su.strays.length < 192 → bag.ref = some s.freshRef
              ∧ t.entry m = { e with mass := newMass mass e.mass, state := .stray s.freshRef }
              ∧ Tbl.get t.su.strays s.freshRef = some
                { cls := cls, index := some m, linked := true, slot := some slot, tags := [tag], mass := mass,
                  loc := .atStation n, opened := s.lu.clock })
            ∧ (192 ≤ s.su.strays.length → bag.ref = none
              ∧ t.entry m = { e with mass := newMass mass e.mass, state := .stray 0 }
              ∧ t.su.strays = s.su.strays ∧ t.su.unrecorded = min (s.su.unrecorded + 1) 65535))
        ∧ (∀ tag slot v ref r, x.tags = [tag] →
          s.sailingOfKey (tagKey tag) = some (slot, v) → v.state = .opened ∨ v.state = .finalCall →
          tagIndex tag < v.length →
          let m := v.base + tagIndex tag
          let e := s.entry m
          e.issue = tagIssue tag → e.issue ≠ 0 → e.state = .stray ref → Tbl.get s.su.strays ref = some r →
          s.indexHeld m = false → s.refHeld ref = false →
          (x.keyed = false ∨ st.kind ≠ .encode)
            ∨ (x.keyed = true ∧ st.kind = .encode ∧ x.ref = ref ∧ r.linked = true ∧ r.index = some m) →
          ∃ t bag, exec (.inductionReport src p) s = .next t
            ∧ t.stations = Tbl.set s.stations n { st with queue := st.queue ++ [bag] }
            ∧ bag.index = some m ∧ bag.ref = some ref
            ∧ t.entry m = { e with mass := newMass mass e.mass } ∧ (∀ m', m' ≠ m → t.entry m' = s.entry m')
            ∧ (∀ ref', ref' ≠ ref → Tbl.get t.su.strays ref' = Tbl.get s.su.strays ref')
            ∧ (∀ cls, strayClass e v mass cls → bag.target = s.classTarget cls
              ∧ Tbl.get t.su.strays ref = some { r with
                  cls := cls, loc := .atStation n, tags := [tag], mass := newMass mass r.mass })
            ∧ (∀ g, e.hold = 0 → inLimits mass → v.cover e.cabin = some g → bag.target = .group g
              ∧ Tbl.get t.su.strays ref = some { r with
                  loc := .atStation n, tags := [tag], mass := newMass mass r.mass }))
        ∧ (∀ r m cls, st.kind = .encode → x.keyed = true → Tbl.get s.su.strays x.ref = some r →
          s.refHeld x.ref = false → r.linked = true → r.index = some m →
          (x.tags = [] ∧ cls = 0)
            ∨ (∃ tag slot v, x.tags = [tag] ∧ s.sailingOfKey (tagKey tag) = some (slot, v)
              ∧ (v.state = .opened ∨ v.state = .finalCall)
              ∧ (v.length ≤ tagIndex tag ∨ v.base + tagIndex tag ≠ m) ∧ cls = 1) →
          ∃ t bag, exec (.inductionReport src p) s = .next t
            ∧ t.stations = Tbl.set s.stations n { st with queue := st.queue ++ [bag] }
            ∧ bag.index = some m ∧ bag.ref = some x.ref ∧ bag.target = s.classTarget cls
            ∧ t.entry m = { s.entry m with mass := newMass mass (s.entry m).mass }
            ∧ (∀ m', m' ≠ m → t.entry m' = s.entry m')
            ∧ Tbl.get t.su.strays x.ref = some { r with
                cls := cls, loc := .atStation n, tags := x.tags, mass := newMass mass r.mass })
        ∧ (∀ r, st.kind = .encode → x.keyed = true → Tbl.get s.su.strays x.ref = some r →
          s.refHeld x.ref = false → r.linked = false →
          (x.tags = [] → ∃ t bag, exec (.inductionReport src p) s = .next t
            ∧ t.stations = Tbl.set s.stations n { st with queue := st.queue ++ [bag] }
            ∧ bag.index = none ∧ bag.ref = some x.ref ∧ bag.target = s.classTarget 0 ∧ t.manifest = s.manifest
            ∧ Tbl.get t.su.strays x.ref = some { r with
                cls := 0, index := none, slot := none, loc := .atStation n, tags := [],
                mass := newMass mass r.mass })
          ∧ ∀ tag slot v, x.tags = [tag] → s.sailingOfKey (tagKey tag) = some (slot, v) →
            v.state = .opened ∨ v.state = .finalCall → tagIndex tag < v.length →
            let m := v.base + tagIndex tag
            let e := s.entry m
            e.issue = tagIssue tag → e.issue ≠ 0 → e.state = .notSeen →
            ∃ t bag, exec (.inductionReport src p) s = .next t
              ∧ t.stations = Tbl.set s.stations n { st with queue := st.queue ++ [bag] }
              ∧ bag.index = some m ∧ bag.ref = some x.ref
              ∧ t.entry m = { e with mass := newMass mass e.mass, state := .stray x.ref }
              ∧ (∀ m', m' ≠ m → t.entry m' = s.entry m')
              ∧ (∀ cls, strayClass e v mass cls → bag.target = s.classTarget cls
                ∧ Tbl.get t.su.strays x.ref = some { r with
                    cls := cls, index := some m, linked := true, slot := some slot, loc := .atStation n,
                    tags := [tag], mass := newMass mass r.mass })
              ∧ (∀ g, e.hold = 0 → inLimits mass → v.cover e.cabin = some g → bag.target = .group g
                ∧ Tbl.get t.su.strays x.ref = some { r with
                    index := some m, linked := true, slot := some slot, loc := .atStation n, tags := [tag],
                    mass := newMass mass r.mass }))
        ∧ ∀ tag slot v g grp, x.tags = [tag] → x.keyed = false →
          s.sailingOfKey (tagKey tag) = some (slot, v) → v.state = .opened ∨ v.state = .finalCall →
          tagIndex tag < v.length →
          let m := v.base + tagIndex tag
          let e := s.entry m
          e.issue = tagIssue tag → e.issue ≠ 0 → e.state = .notSeen → e.hold = 0 →
          (∀ w, mass = some w → s.cu.settings.lowerMass ≤ w ∧ w ≤ s.cu.settings.upperMass) →
          v.cover e.cabin = some g → Tbl.get s.groups g = some grp →
          let bag : Load :=
            { index := some m, ref := none, target := .group g, charge := charge, estimated := mass.isNone,
              laps := 0, verified := false, station := some n, rideSent := false }
          let placed : Entry :=
            { e with mass := match mass with | some w => some w | none => e.mass, state := .pending n }
          exec (.inductionReport src p) s = .next
            (((s.putEntry m placed).putStation n { st with queue := st.queue ++ [bag] }).tellField src 0x20
              ([0] ++ b1 (st.queue.length + 1) ++ b2 charge ++ bFlag mass.isNone ++ [0] ++ b1 grp.deck
                ++ b1 grp.zone ++ [0, 0, 0])))

/-- O52. BAG REMOVED takes the named bag out of its station's queue; ENCODE TAKEN puts a free record with
the operator (R65, R153, R154, R156). -/
def Obligations.BagsTakenByHandLeaveTheirPlace : Prop :=
  (∀ (s : State) (src pos : Byte) (n : Nat) (st : Station), s.TablesOk → s.fldReady src →
    s.stationOfNode src = some (n, st) →
    (pos.toNat = 0 ∨ st.queue.length < pos.toNat → exec (.bagRemoved src [pos]) s = .next s)
    ∧ ∀ i bag, pos.toNat = i + 1 → st.queue[i]? = some bag → ∃ t, exec (.bagRemoved src [pos]) s = .next t
      ∧ Tbl.get t.stations n = some { st with
          queue := st.queue.take i ++ st.queue.drop (i + 1),
          ordered := if i = 0 then none else st.ordered }
      ∧ (∀ n', n' ≠ n → Tbl.get t.stations n' = Tbl.get s.stations n')
      ∧ (∀ k, t.tray k = if i = 0 ∧ st.ordered = some k then .empty else s.tray k)
      ∧ t.su = s.su
      ∧ (∀ m, bag.isManifest = true → bag.index = some m → t.entry m = { s.entry m with state := .notSeen }
          ∧ ∀ m', m' ≠ m → t.entry m' = s.entry m')
      ∧ (bag.isManifest = false → t.manifest = s.manifest)
      ∧ ∀ ref r, bag.ref = some ref → Tbl.get s.su.strays ref = some r → s.lu.supTx.queue.length < 60 →
          ∃ f, t.lu.supTx.queue = s.lu.supTx.queue ++ [f] ∧ f.dst = 126 ∧ f.kind = 0x32)
  ∧ ∀ (s : State) (src r1 r0 : Byte), s.TablesOk → s.fldReady src →
    (∃ row ∈ s.stations, row.2.node = src ∧ row.2.kind = .encode) →
    let ref := u16 r1 r0
    (s.refHeld ref = true ∨ Tbl.get s.su.strays ref = none
        ∨ (∃ r, Tbl.get s.su.strays ref = some r ∧ r.loc = .withOperator) →
      exec (.encodeTaken src [r1, r0]) s = .next s)
    ∧ ∀ r, s.refHeld ref = false → Tbl.get s.su.strays ref = some r → r.loc ≠ .withOperator →
      s.lu.supTx.queue.length < 60 →
      let waiting := if r.loc = .atEncode then s.su.encode.filter (fun it => decide (it.ref ≠ ref))
        else s.su.encode
      exec (.encodeTaken src [r1, r0]) s = .next
        (({ s with su := { s.su with
            strays := Tbl.set s.su.strays ref { r with loc := .withOperator }, encode := waiting } } : State).tell
          0x32 (b2 ref ++ b1 r.cls ++ b1 r.cls ++ [2, 0, 0] ++ strayLocBytes r.loc ++ bOpt 2 b2 r.index
            ++ bFlag r.linked ++ bOpt 1 b1 r.slot ++ bOpt 2 b2 r.mass ++ [8]))

/-- O53. Each clock advance adds a second, reports swaps that come due, makes due batch events and tells the
encode station a new head (log entry 6) (R126, R138, R155, R172). -/
def Obligations.ClockAdvanceTimesSwapsAndNotices : Prop :=
  (∀ s : State, s.TablesOk → ∃ t, exec .hallClockAdvance s = .next t ∧ t.lu.clock = s.lu.clock + 1
    ∧ t.manifest = s.manifest ∧ t.trays = s.trays ∧ t.stations = s.stations ∧ t.lt = s.lt ∧ t.cu = s.cu
    ∧ t.su.strays = s.su.strays ∧ t.su.encode = s.su.encode ∧ t.su.classes = s.su.classes
    ∧ (∀ c, Tbl.get t.chutes c = (Tbl.get s.chutes c).map (fun h =>
        let elapsed := if h.swapTime ≤ s.lu.clock + 1 then s.lu.clock + 1 - h.swapTime else 0
        { h with overdueSent := h.overdueSent
            || decide (h.cycle = some .swapping ∧ s.cu.settings.swapLimit ≤ elapsed.toNat) }))
    ∧ ((∀ r ∈ s.sailings, r.2.seq.mode = .free → 2 ^ 31 ≤ (s.lu.clock + 1 - r.2.seq.due).toNat) →
        t.sailings = s.sailings ∧ t.groups = s.groups ∧ t.carts = s.carts
        ∧ ∀ node, s.encodeNode = some node →
          if s.su.notice ≠ some s.encodeHead ∧ s.lu.fldTx.queue.length < 32 then
            t.su.notice = some s.encodeHead ∧ ∃ f, t.lu.fldTx.queue = s.lu.fldTx.queue ++ [f] ∧ f.dst = node
              ∧ f.kind = 0x24
          else t.su.notice = s.su.notice ∧ t.lu.fldTx = s.lu.fldTx))
  ∧ (∀ s : State, (∀ r ∈ s.sailings, r.2.seq.mode = .locked → r.2.seq.lifts < r.2.seq.divisor) →
    exec .hallClockAdvance s = .next
      ((s.chutes.map (fun r => Instr.swapOverdue r.1) ++ s.sailings.map (fun r => Instr.batchEvent r.1)
          ++ [Instr.encodeNext]).foldl
        (fun t c =>
          match exec c t with
          | .next t' => t'
          | _ => t) { s with lu := { s.lu with clock := s.lu.clock + 1 } }))
  ∧ (∀ (s : State) (c : Nat) (h : Chute), Tbl.get s.chutes c = some h → h.cycle = some .swapping →
    h.overdueSent = false → h.swapTime.toNat ≤ s.lu.clock.toNat →
    (s.cu.settings.swapLimit ≤ s.lu.clock.toNat - h.swapTime.toNat → s.lu.supTx.queue.length < 60 →
      exec (.swapOverdue c) s
        = .next ((s.tell 0x3D (b1 c ++ b1 h.bound ++ b4 h.swapTime ++ b4 (s.lu.clock - h.swapTime))).putChute c
            { h with overdueSent := true }))
    ∧ (s.lu.clock.toNat - h.swapTime.toNat < s.cu.settings.swapLimit → exec (.swapOverdue c) s = .next s))
  ∧ (∀ (s : State) (c : Nat), (∀ h, Tbl.get s.chutes c = some h → h.cycle ≠ some .swapping ∨ h.overdueSent = true
      ∨ (s.lu.clock.toNat < h.swapTime.toNat ∧ 1 ≤ s.cu.settings.swapLimit)) →
      exec (.swapOverdue c) s = .next s)
  ∧ ∀ s : State,
    (s.encodeNode = none ∨ s.su.notice = some s.encodeHead ∨ 32 ≤ s.lu.fldTx.queue.length →
      exec .encodeNext s = .next s)
    ∧ ∀ node, s.encodeNode = some node → s.lu.fldTx.queue.length < 32 →
      (s.su.encode = [] → s.su.notice ≠ some 0 → Tbl.get s.su.strays 0 = none →
        exec .encodeNext s = .next (({ s with su := { s.su with notice := some 0 } } : State).tellField node
          0x24 [0, 0]))
      ∧ ∀ it rest r, s.su.encode = it :: rest → s.su.notice ≠ some it.ref →
        Tbl.get s.su.strays it.ref = some r →
        exec .encodeNext s = .next (({ s with su := { s.su with notice := some it.ref } } : State).tellField
          node 0x24 (b2 it.ref ++ b1 r.cls ++ bOpt 2 b2 r.index ++ bFlag r.linked ++ b1 (r.slot.getD 0)
            ++ bOpt 2 b2 r.mass ++ b1 (rest.length + 1)))

/-- O54. DROP SEEN and TILT FAULT are judged by tray and offset, and end the tilt or report a CHUTE FAULT;
so does an ARRIVAL out of use (log entry 5) (R96, R97, R99, R100, R101, R102, R103, R104, R105, R108). -/
def Obligations.DropSeenAndTiltFaultEndATilt : Prop :=
  (∀ (s : State) (src k1 k0 : Byte) (c : Nat) (h : Chute) (y : Layout), s.fldReady src → s.TablesOk →
    s.chuteOfPanel src = some (c, h) → s.lt.layout = some y → s.lu.supTx.queue.length < 60 →
    let k := u16 k1 k0
    let seen : Instr := .dropSeen src [k1, k0]
    let failed : Instr := .tiltFault src [k1, k0]
    let e := (s.lt.pos + y.length - (h.coord + k * y.pitch) % y.length) % y.length
    let told (cause : Byte) (offset : List Byte) : State :=
      s.tell 0x3A (b1 c ++ [cause] ++ b2 k ++ b2 s.lt.pos ++ offset ++ [0, 0])
    (y.trays ≤ k → exec seen s = .next (told 2 [0, 0, 0]) ∧ exec failed s = .next (told 2 [0, 0, 0]))
    ∧ (k < y.trays →
      (s.tray k = .empty ∨ s.tray k = .reserved ∨ (∃ l, s.tray k = .loaded l) →
        exec seen s = .next (told 4 [0, 0, 0]) ∧ exec failed s = .next (told 5 [0, 0, 0]))
      ∧ (∀ l c' cart, c' ≠ c → s.tray k = .tiltOrdered l c' cart ∨ s.tray k = .dropDoubt l c' cart →
        exec seen s = .next (told 3 [0, 0, 0]) ∧ exec failed s = .next (told 3 [0, 0, 0]))
      ∧ (∀ l cart, s.tray k = .dropDoubt l c cart → exec failed s = .next (told 7 [0, 0, 0]))
      ∧ (∀ l cart, s.tray k = .tiltOrdered l c cart ∨ s.tray k = .dropDoubt l c cart →
        s.lt.state = LoopState.synced → h.window < e → y.length < 2 * e →
        exec seen s = .next (told 1 (1 :: b2 e)))
      ∧ (∀ l, s.tray k = .tiltOrdered l c none → exec failed s
          = .next ((s.putTray k (.loaded l)).tell 0x3A (b1 c ++ [6] ++ b2 k ++ b2 s.lt.pos ++ [0, 0, 0, 0, 0])))
      ∧ (∀ l id m cart, s.tray k = .tiltOrdered l c (some id) → l.index = some m →
        Tbl.get s.carts id = some cart → ∃ t cart', exec failed s = .next t ∧ t.tray k = .loaded l
          ∧ (∀ k', k' ≠ k → t.tray k' = s.tray k') ∧ t.manifest = s.manifest ∧ t.su = s.su
          ∧ Tbl.get t.carts id = some cart' ∧ cart'.bags = unlist m .ordered cart.bags
          ∧ (cart'.state = if cart.state = .closing ∧ cart'.marked .ordered = 0 then .closed else cart.state))
      ∧ (∀ l id m cart, s.tray k = .tiltOrdered l c (some id) → l.index = some m →
        Tbl.get s.carts id = some cart → s.lt.state ≠ LoopState.synced ∨ e ≤ h.window →
        ∃ t cart', exec seen s = .next t ∧ t.tray k = .empty ∧ (∀ k', k' ≠ k → t.tray k' = s.tray k')
          ∧ t.entry m = { s.entry m with state := .inCart id } ∧ (∀ m', m' ≠ m → t.entry m' = s.entry m')
          ∧ (∀ ref, l.ref = some ref → Tbl.get t.su.strays ref = none)
          ∧ Tbl.get t.carts id = some cart' ∧ cart'.bags = remark m .ordered .dropped cart.bags
          ∧ (cart'.state = if cart.state = .closing ∧ cart'.marked .ordered = 0 then .closed else cart.state)
          ∧ (∀ id', id' ≠ id → Tbl.get t.carts id' = Tbl.get s.carts id')
          ∧ ∀ g, Tbl.get s.groups cart.group = some g → ∃ g', Tbl.get t.groups cart.group = some g'
            ∧ g'.bagsInCarts = g.bagsInCarts + 1)
      ∧ (∀ l ref r, s.tray k = .tiltOrdered l c none ∨ s.tray k = .dropDoubt l c none → l.ref = some ref →
        Tbl.get s.su.strays ref = some r → s.lt.state ≠ LoopState.synced ∨ e ≤ h.window ∨ 2 * e ≤ y.length →
        h.role ≠ .sort → ∃ t, exec seen s = .next t ∧ t.tray k = .empty
          ∧ (∀ k', k' ≠ k → t.tray k' = s.tray k') ∧ t.manifest = s.manifest ∧ t.carts = s.carts
          ∧ Tbl.get t.su.strays ref = some { r with
              loc := match h.role with
                | .manual => .atEncode | .hold => .atHold | .heavy => .atHeavy | .sort => r.loc }
          ∧ (h.role = .manual → r.loc ≠ .atEncode →
            { ref := ref, priority := (s.classEntry r.cls).priority } ∈ t.su.encode))
      ∧ (∀ l id m cart, s.tray k = .tiltOrdered l c (some id) → l.index = some m →
        Tbl.get s.carts id = some cart → holdsMark cart.bags m .ordered = true →
        s.lt.state = LoopState.synced → h.window < e → 2 * e ≤ y.length →
        ∃ t, exec seen s = .next t ∧ t.tray k = .empty ∧ t.entry m = { s.entry m with state := .inCart id })
      ∧ ∀ l id m, s.tray k = .dropDoubt l c (some id) → l.index = some m →
        s.lt.state ≠ LoopState.synced ∨ e ≤ h.window ∨ 2 * e ≤ y.length →
        ∃ t, exec seen s = .next t ∧ t.tray k = .empty
          ∧ (∀ ref, l.ref = some ref → Tbl.get t.su.strays ref = none)
          ∧ (s.cartHolds id m .doubt = true → t.entry m = { s.entry m with state := .inCart id })
          ∧ (s.cartHolds id m .doubt = false → t.manifest = s.manifest ∧ t.carts = s.carts)))
  ∧ ∀ (s : State) (pt : LoopPoint) (k : Nat) (occ : Bool), pt.kind = .arrival →
    (s.lt.state ≠ LoopState.synced ∨ (∀ l cart, s.tray k ≠ .tiltOrdered l pt.owner cart) →
      s.takeAlignment pt k occ = s)
    ∧ ∀ l cart h, s.lt.state = LoopState.synced → s.tray k = .tiltOrdered l pt.owner cart →
      Tbl.get s.chutes pt.owner = some h →
      (h.avail = .inService → s.takeAlignment pt k occ = s)
      ∧ (h.avail ≠ .inService → s.lu.supTx.queue.length < 60 → s.takeAlignment pt k occ
        = s.tell 0x3A (b1 pt.owner ++ [0] ++ b2 k ++ b2 s.lt.pos ++ [0, 0, 0, 0, 0]))

/-- O55. CHUTE BLOCKED and CHUTE CLEAR move a chute between IN_SERVICE and BLOCKED; CART PLACED fills a
SWAPPING SORT chute (log entry 5) (R113, R114, R116, R118, R125). -/
def Obligations.PanelFramesMoveTheChute : Prop :=
  (∀ (s : State) (src : Byte) (c : Nat) (h : Chute), s.fldReady src → s.chuteOfPanel src = some (c, h) →
    s.lu.supTx.queue.length < 60 →
    let told (h' : Chute) (cause : Byte) (t : State) : State :=
      (t.putChute c h').tell 0x39 (b1 c ++ b1 h.role.ctorIdx ++ b1 h'.avail.ctorIdx
        ++ b1 ((h'.cycle.map CartCycle.ctorIdx).getD 0) ++ b1 h.bound ++ bOpt 1 b1 h'.cart ++ [cause])
    exec (.chuteBlocked src []) s
      = .next (if h.avail = .inService then told { h with avail := .blocked } 0 s else s)
    ∧ exec (.chuteClear src []) s
      = .next (if h.avail = .blocked then told { h with avail := .inService } 0 s else s)
    ∧ (h.role ≠ .sort → exec (.cartPlaced src []) s
        = .next (s.tell 0x2F ([src, 0x1C, 1, 0] ++ b4 s.lu.clock)))
    ∧ (h.role = .sort → h.cycle ≠ some .swapping → exec (.cartPlaced src []) s = .next s)
    ∧ (h.role = .sort → h.cycle = some .swapping →
      ((∀ id, 1 ≤ id → id ≤ 255 → (Tbl.get s.carts id).isSome) →
        exec (.cartPlaced src []) s = .next (s.tell 0x3E (b1 c ++ b1 h.bound)))
      ∧ ∀ id, 1 ≤ id → id ≤ 255 → Tbl.get s.carts id = none →
        (∀ id', 1 ≤ id' → id' < id → (Tbl.get s.carts id').isSome) →
        exec (.cartPlaced src []) s = .next (told { h with cycle := some .filling, cart := some id } 5
          (s.putCart id { group := h.bound, state := .filling, chute := some c, bags := [],
                          closedTime := none, cause := none }))))
  ∧ ∀ (s : State) (src : Byte) (p : List Byte), (∃ r ∈ s.chutes, r.2.node = src ∧ r.2.avail = .outOfService) →
    ∀ x ∈ [Instr.dropSeen src p, .tiltFault src p, .chuteBlocked src p, .chuteClear src p,
        .cartPlaced src p], exec x s = .next s

/-- O56. CART ABOARD takes a CALLED cart's bags aboard and frees the cart; CART REFUSED puts it back at its
queue's head (R10, R35, R141, R142, R143). -/
def Obligations.DoorTakesACalledCartAboardOrRefusesIt : Prop :=
  ∀ (s : State) (src id : Byte), s.fldReady src →
    (∀ c g v, Tbl.get s.carts id.toNat = some c → c.state = .called → Tbl.get s.groups c.group = some g →
      Tbl.get s.sailings g.slot = some v → v.state ≠ .staged → v.door = src → s.lu.supTx.queue.length < 60 →
      let n := c.bags.length
      (∃ t, exec (.cartAboard src [id]) s = .next t
        ∧ (∀ b ∈ c.bags, t.entry b.index = { s.entry b.index with state := .aboard })
        ∧ (∀ m, (∀ b ∈ c.bags, b.index ≠ m) → t.entry m = s.entry m)
        ∧ t.sailings = Tbl.set s.sailings g.slot { v with tally := v.tally + n }
        ∧ t.groups = Tbl.set s.groups c.group { g with
            bagsAboard := min (g.bagsAboard + n) 65535, cartsAboard := min (g.cartsAboard + 1) 65535,
            bagsInCarts := g.bagsInCarts - (c.marked .dropped + c.marked .doubt) }
        ∧ t.carts = Tbl.erase s.carts id.toNat ∧ t.trays = s.trays ∧ t.su = s.su ∧ t.chutes = s.chutes
        ∧ t.stations = s.stations ∧ t.lt = s.lt
        ∧ t.lu.supTx.queue = s.lu.supTx.queue ++ [{
            dst := 126, src := s.lu.node, kind := 0x36,
            payload := [id] ++ b1 c.group ++ b1 g.slot ++ b1 n ++ b1 (c.marked .doubt)
              ++ b2 (c.bags.map BagItem.charge).sum ++ b2 (v.tally + n) ++ b4 s.lu.clock }])
      ∧ exec (.cartRefused src [id]) s = .next
          (((s.putCart id.toNat { c with state := .closed }).putGroup c.group
            { g with ready := id.toNat :: g.ready }).tell 0x37
              ([id] ++ b1 c.group ++ b1 g.slot ++ b1 n)))
    ∧ ((∃ r ∈ s.sailings, r.2.state ≠ .staged ∧ r.2.door = src) →
      (∀ c g v, Tbl.get s.carts id.toNat = some c → c.state = .called → Tbl.get s.groups c.group = some g →
        Tbl.get s.sailings g.slot = some v → v.state ≠ .staged → v.door ≠ src) →
      exec (.cartAboard src [id]) s = .next s ∧ exec (.cartRefused src [id]) s = .next s)

/-- O57. A batch event calls carts from the current step's ready queue, up to its batch and quota, passing
steps that have ended (log entries 4, 6) (R137, R138, R139, R140). -/
def Obligations.BatchEventCallsFromTheCurrentStep : Prop :=
  (∀ (s : State) (slot : Nat) (v : Sailing), s.TablesOk → Tbl.get s.sailings slot = some v →
    let lock := v.seq.mode = .locked ∧ v.seq.divisor ≤ v.seq.lifts
    let due := v.seq.mode = .free ∧ (s.lu.clock - v.seq.due).toNat < 2 ^ 31
    (¬lock → ¬due → exec (.batchEvent slot) s = .next s)
    ∧ (lock ∨ due → 1 ≤ v.seq.current → v.steps.length < v.seq.current →
      let q : Sequencer := if v.seq.mode = .locked then { v.seq with lifts := 0 }
        else { v.seq with due := s.lu.clock + BitVec.ofNat 32 v.seq.period }
      exec (.batchEvent slot) s = .next (s.putSailing slot { v with seq := { q with mode := .done } }))
    ∧ (∀ x, lock ∨ due → 1 ≤ v.seq.current → v.steps[v.seq.current - 1]? = some x → x.quota ≠ 0 →
      x.quota ≤ v.seq.released → exec (.batchEvent slot) s = exec (.batchEvent slot) (s.putSailing slot
        { v with seq := { v.seq with current := v.seq.current + 1, released := 0 } }))
    ∧ ∀ x g, lock ∨ due → 1 ≤ v.seq.current → v.steps[v.seq.current - 1]? = some x →
      Tbl.get s.groups x.group = some g → x.quota = 0 ∨ v.seq.released < x.quota →
      let q : Sequencer := if v.seq.mode = .locked then { v.seq with lifts := 0 }
        else { v.seq with due := s.lu.clock + BitVec.ofNat 32 v.seq.period }
      let n := min (min (if x.quota = 0 then x.batch else min x.batch (x.quota - v.seq.released)) g.ready.length)
        (32 - s.lu.fldTx.queue.length)
      (g.ready = [] → x.quota ≠ 0 ∨ v.state ≠ .finalCall →
        exec (.batchEvent slot) s = .next (s.putSailing slot { v with seq := q }))
      ∧ (g.ready ≠ [] → 32 ≤ s.lu.fldTx.queue.length →
        exec (.batchEvent slot) s = .next (s.putSailing slot { v with seq := q }))
      ∧ (g.ready = [] → x.quota = 0 → v.state = .finalCall →
        let filling := ∃ r ∈ s.carts, r.2.group = x.group ∧ (r.2.state = .filling ∨ r.2.state = .closing)
          ∧ r.2.bags ≠ []
        (filling → exec (.batchEvent slot) s = .next (s.putSailing slot { v with seq := q }))
        ∧ (¬filling → v.seq.current < v.steps.length →
          exec (.batchEvent slot) s = exec (.batchEvent slot) (s.putSailing slot
            { v with seq := { v.seq with current := v.seq.current + 1, released := 0 } }))
        ∧ (¬filling → v.steps.length ≤ v.seq.current →
          exec (.batchEvent slot) s = .next (s.putSailing slot
            { v with seq := { q with current := v.seq.current + 1, released := 0, mode := .done } })))
      ∧ (1 ≤ n → g.ready.Nodup → v.seq.released + n ≤ 255 →
        (∀ id ∈ g.ready, (Tbl.get s.carts id).isSome) →
        let ended := x.quota ≠ 0 ∧ x.quota ≤ v.seq.released + n
        ∃ t, exec (.batchEvent slot) s = .next t
          ∧ t.groups = Tbl.set s.groups x.group { g with ready := g.ready.drop n }
          ∧ (∀ id c, Tbl.get s.carts id = some c → Tbl.get t.carts id
              = some (if id ∈ g.ready.take n then { c with state := .called } else c))
          ∧ t.lu.fldTx.queue = s.lu.fldTx.queue ++ (g.ready.take n).map (fun id => {
              dst := v.door, src := s.lu.node, kind := 0x23,
              payload := b1 id ++ b1 x.group ++ b1 g.deck ++ b1 g.zone })
          ∧ t.sailings = Tbl.set s.sailings slot { v with seq := { q with
              released := if ended then 0 else v.seq.released + n,
              current := if ended then v.seq.current + 1 else v.seq.current,
              mode := if ended ∧ v.steps.length < v.seq.current + 1 then .done else v.seq.mode } }
          ∧ (s.lu.supTx.queue.length + n ≤ 60 → ∃ told, t.lu.supTx.queue = s.lu.supTx.queue ++ told
              ∧ told.length = n
              ∧ ∀ i id c, i < n → g.ready[i]? = some id → Tbl.get s.carts id = some c → told[i]? = some {
                  dst := 126, src := s.lu.node, kind := 0x35,
                  payload := b1 id ++ b1 x.group ++ b1 g.slot ++ b1 g.deck ++ b1 g.zone ++ b1 c.bags.length
                    ++ b2 c.charge ++ b1 (c.marked .doubt) ++ b1 v.seq.current
                    ++ b1 (v.seq.released + i + 1) ++ b4 s.lu.clock })
          ∧ t.manifest = s.manifest ∧ t.trays = s.trays ∧ t.chutes = s.chutes ∧ t.su = s.su))
  ∧ ∀ (s : State) (src : Byte) (slot : Nat) (v : Sailing), s.TablesOk → s.fldReady src →
    Tbl.get s.sailings slot = some v → v.state ≠ .staged → v.door = src →
    (∀ r ∈ s.sailings, r.2.door = src → r.2.state ≠ .staged → r.1 = slot) →
    (v.seq.mode ≠ .locked → exec (.liftReady src []) s = .next s)
    ∧ (v.seq.mode = .locked →
      let raised : State := s.putSailing slot { v with seq := { v.seq with lifts := v.seq.lifts + 1 } }
      (v.seq.lifts + 1 < v.seq.divisor → exec (.liftReady src []) s = .next raised)
      ∧ (v.seq.divisor ≤ v.seq.lifts + 1 → exec (.liftReady src []) s = exec (.batchEvent slot) raised))

/-- O58. Bad frames are counted on their port, other nodes' frames forwarded or dropped whole, mismatched
field frames reported (log entries 7, 15) (R164, R165, R167, R168, R169, R170). -/
def Obligations.LineDropsForwardsAndSends : Prop :=
  (∀ (s : State) (rx : RxRun), rx.bytes ≠ [] → goodRun rx = false →
    (s.lu.supRx.awaitIdle = false → exec (.frameCheckFailed .supervisor rx) s = .next { s with
      lu := { s.lu with supRx := {
        awaitIdle := false, errors := min (s.lu.supRx.errors + 1) 65535, errorFlag := true } } })
    ∧ (s.lu.fldRx.awaitIdle = false → exec (.frameCheckFailed .field rx) s = .next { s with
      lu := { s.lu with fldRx := {
        awaitIdle := false, errors := min (s.lu.fldRx.errors + 1) 65535, errorFlag := true } } }))
  ∧ (∀ (s : State) (f : Frame), f.payload.length ≤ 56 →
    (f.dst = s.lu.node → ∀ port, exec (.frameForward port f) s = .next s)
    ∧ (f.dst ≠ s.lu.node → s.lu.fldRx.awaitIdle = false → exec (.frameForward .field f) s = .next
        (if s.lu.supTx.queue.length < 60 then s.supSend f
        else { s with lu := { s.lu with overrun := true } }))
    ∧ (f.dst ≠ s.lu.node → s.lu.supRx.awaitIdle = false → exec (.frameForward .supervisor f) s = .next
        (if s.lu.fldTx.queue.length < 24 then s.fldSend f
        else { s with lu := { s.lu with overrun := true } })))
  ∧ (∀ s : State, (exec (.frameSent .supervisor) s = .next { s with lu := { s.lu with supTx :=
        match s.lu.supTx.completing with
        | some _ => { s.lu.supTx with completing := none }
        | none => { s.lu.supTx with queue := s.lu.supTx.queue.tail } } })
    ∧ exec (.frameSent .field) s = .next { s with lu := { s.lu with fldTx :=
        match s.lu.fldTx.completing with
        | some _ => { s.lu.fldTx with completing := none }
        | none => { s.lu.fldTx with queue := s.lu.fldTx.queue.tail } } })
  ∧ ∀ (s : State) (src kind : Byte) (p : List Byte), s.fldReady src → s.lu.supTx.queue.length < 60 →
    (isFieldKind kind = false → exec (.unknownKind src kind p) s
      = .next (s.tell 0x2F ([src, kind, 0] ++ b1 p.length ++ b4 s.lu.clock)))
    ∧ (let mismatch (kind cause : Byte) : Host.Outcome State Fault Refusal :=
        .next (s.tell 0x2F ([src, kind, cause] ++ b1 p.length ++ b4 s.lu.clock))
      let station := ∃ r ∈ s.stations, r.2.node = src
      let encode := ∃ r ∈ s.stations, r.2.node = src ∧ r.2.kind = .encode
      let panel := ∃ r ∈ s.chutes, r.2.node = src
      let door := ∃ r ∈ s.sailings, r.2.door = src ∧ r.2.state ≠ .staged
      (¬station → ∀ x : Instr × Byte, x ∈ [(Instr.inductionReport src p, (0x10 : Byte)),
          (.launched src p, 0x11), (.launchFailed src p, 0x12), (.bagRemoved src p, 0x13)] →
        exec x.1 s = mismatch x.2 1)
      ∧ (station → (p[8]? = none ∨ ∃ n, p[8]? = some n ∧ n.toNat ≤ 2 ∧ p.length ≠ 12 + 4 * n.toNat) →
        exec (.inductionReport src p) s = mismatch 0x10 2)
      ∧ (station → (p.length ≠ 2 → exec (.launched src p) s = mismatch 0x11 2
          ∧ exec (.launchFailed src p) s = mismatch 0x12 2)
        ∧ (p.length ≠ 1 → exec (.bagRemoved src p) s = mismatch 0x13 2))
      ∧ (¬encode → exec (.encodeTaken src p) s = mismatch 0x14 1)
      ∧ (encode → p.length ≠ 2 → exec (.encodeTaken src p) s = mismatch 0x14 2)
      ∧ (¬panel → ∀ x : Instr × Byte, x ∈ [(Instr.dropSeen src p, (0x18 : Byte)), (.tiltFault src p, 0x19),
          (.chuteBlocked src p, 0x1A), (.chuteClear src p, 0x1B)] → exec x.1 s = mismatch x.2 1)
      ∧ (panel → (p.length ≠ 2 → exec (.dropSeen src p) s = mismatch 0x18 2
          ∧ exec (.tiltFault src p) s = mismatch 0x19 2)
        ∧ (p.length ≠ 0 → exec (.chuteBlocked src p) s = mismatch 0x1A 2
          ∧ exec (.chuteClear src p) s = mismatch 0x1B 2))
      ∧ ((∀ r ∈ s.chutes, r.2.node = src → r.2.role ≠ .sort) →
        exec (.cartPlaced src p) s = mismatch 0x1C 1)
      ∧ (panel → (∀ r ∈ s.chutes, r.2.node = src → r.2.role = .sort) → p.length ≠ 0 →
        exec (.cartPlaced src p) s = mismatch 0x1C 2)
      ∧ (¬door → ∀ x : Instr × Byte, x ∈ [(Instr.liftReady src p, (0x1D : Byte)), (.cartAboard src p, 0x1E),
          (.cartRefused src p, 0x1F)] → exec x.1 s = mismatch x.2 1)
      ∧ (door → (p.length ≠ 0 → exec (.liftReady src p) s = mismatch 0x1D 2)
        ∧ (p.length ≠ 1 → exec (.cartAboard src p) s = mismatch 0x1E 2
          ∧ exec (.cartRefused src p) s = mismatch 0x1F 2)))

/-- O59. Each step of a long operation clears an entry, validates a block or tallies an entry; the last
done, it completes (log entries 5, 6) (R18, R21, R30, R31, R183, R185). -/
def Obligations.LongStepsVisitOnePlaceEach : Prop :=
  (∀ (s : State) (x : Instr × LongKind), x ∈ [(Instr.regionInitStep, LongKind.regionInit),
      (.regionInitComplete, .regionInit), (.planCommitStep, .planCommit), (.planCommitComplete, .planCommit),
      (.sailingCloseStep, .sailingClose), (.sailingCloseComplete, .sailingClose)] →
      (∀ o, s.cu.longOp = some o → o.kind ≠ x.2) → exec x.1 s = .next s)
  ∧ ∀ (s : State) (o : LongOp) (v : Sailing), s.cu.longOp = some o → Tbl.get s.sailings o.slot = some v →
    s.lu.supTx.queue.length < 60 →
    let stepped (tallies : Tallies) (t : State) : State :=
      { t with cu := { t.cu with longOp := some { o with steps := o.steps + 1, tallies := tallies } } }
    let ended (outcome : LongOutcome) (reason : LongReason) (values : List Byte) (t : State) : State :=
      ({ t with cu := { t.cu with
        longOp := none,
        lastEnd := some { kind := o.kind, slot := o.slot, outcome := outcome, reason := reason } } } : State).tell
        0x3C (b1 (1 + o.kind.ctorIdx) ++ b1 o.slot ++ b1 outcome.ctorIdx ++ b1 reason.ctorIdx ++ values
          ++ b4 s.lu.clock)
    let m := v.base + o.steps
    (o.kind = .regionInit →
      (o.steps < v.length → exec .regionInitStep s = .next (stepped o.tallies (s.putEntry m
          { issue := 0, cabin := 0, hold := 0, mass := none, state := .notSeen }))
        ∧ exec .regionInitComplete s = .next s)
      ∧ (v.length ≤ o.steps → exec .regionInitStep s = .next s
        ∧ exec .regionInitComplete s = .next (ended .done .noReason (b2 o.steps ++ List.replicate 8 0)
          (s.putSailing o.slot { v with ready := true }))))
    ∧ (o.kind = .sailingClose → o.steps < v.length → exec .sailingCloseComplete s = .next s
      ∧ exec .sailingCloseStep s = .next (stepped
        (if (s.entry m).issue = 0 then o.tallies
        else match (s.entry m).state with
          | .aboard => { o.tallies with aboard := o.tallies.aboard + 1 }
          | .inCart _ => { o.tallies with inCart := o.tallies.inCart + 1 }
          | .withdrawn => { o.tallies with withdrawn := o.tallies.withdrawn + 1 }
          | _ => { o.tallies with ashore := o.tallies.ashore + 1 }) s))
    ∧ (o.kind = .planCommit →
      (∀ b, v.staged[o.steps]? = some b → exec .planCommitComplete s = .next s
        ∧ (∀ g, Tbl.get s.groups b.group = some g → g.slot = o.slot →
            exec .planCommitStep s = .next (stepped o.tallies s))
        ∧ (∀ g, Tbl.get s.groups b.group = some g → g.slot ≠ o.slot → exec .planCommitStep s
            = .next (ended .failed .foreignGroup (b2 b.first ++ b2 b.last ++ b2 b.group ++ [0, 0, 0, 0]) s))
        ∧ (Tbl.get s.groups b.group = none → exec .planCommitStep s
            = .next (ended .failed .noGroup (b2 b.first ++ b2 b.last ++ b2 b.group ++ [0, 0, 0, 0]) s)))
      ∧ (v.staged.length ≤ o.steps → exec .planCommitStep s = .next s
        ∧ exec .planCommitComplete s = .next (ended .done .noReason
          (b2 v.staged.length ++ List.replicate 8 0)
          (s.putSailing o.slot { v with live := v.staged, committed := true }))))

/-- O60. The completion of SAILING CLOSE reports the tallies and leaves nothing of the sailing: bag, record,
cart, chute or group (log entry 5) (R10, R22, R160, R183, R185). -/
def Obligations.SailingCloseReleasesTheSailing : Prop :=
  ∀ (s : State) (o : LongOp) (v : Sailing), s.TablesOk → s.cu.longOp = some o → o.kind = .sailingClose →
    Tbl.get s.sailings o.slot = some v → v.length ≤ o.steps → s.lu.supTx.queue.length < 60 →
    let mine (g : Nat) : Prop := ∃ grp, Tbl.get s.groups g = some grp ∧ grp.slot = o.slot
    ∃ t rest, exec .sailingCloseComplete s = .next t
      ∧ Tbl.get t.sailings o.slot = none
      ∧ (∀ n, n ≠ o.slot → Tbl.get t.sailings n = Tbl.get s.sailings n)
      ∧ t.manifest = s.manifest ∧ t.cu.longOp = none
      ∧ t.cu.lastEnd
        = some { kind := .sailingClose, slot := o.slot, outcome := .done, reason := .noReason }
      ∧ t.lu.supTx.queue = s.lu.supTx.queue ++ (({
          dst := 126, src := s.lu.node, kind := 0x3C,
          payload := [3] ++ b1 o.slot ++ [0, 0] ++ b2 o.tallies.aboard ++ b2 o.tallies.inCart
            ++ b2 o.tallies.ashore ++ b2 o.tallies.withdrawn ++ b2 v.tally ++ b4 s.lu.clock } : Frame) :: rest)
      ∧ (∀ m, v.base ≤ m → m < v.base + v.length → t.indexHeld m = false)
      ∧ (∀ ref r, Tbl.get t.su.strays ref = some r → r.slot ≠ some o.slot)
      ∧ (∀ g grp, Tbl.get t.groups g = some grp → grp.slot ≠ o.slot)
      ∧ (∀ g grp, Tbl.get s.groups g = some grp → grp.slot ≠ o.slot → Tbl.get t.groups g = some grp)
      ∧ (∀ id c, Tbl.get s.carts id = some c → (mine c.group → Tbl.get t.carts id = none)
          ∧ (¬mine c.group → Tbl.get t.carts id = some c))
      ∧ (∀ n h, Tbl.get s.chutes n = some h →
          (h.bound ≠ 0 ∧ mine h.bound →
            Tbl.get t.chutes n = some { h with bound := 0, cycle := some .noCart, cart := none })
          ∧ (h.bound = 0 ∨ ¬mine h.bound → Tbl.get t.chutes n = some h))
      ∧ ∀ k, (t.tray k).load?.isSome = (s.tray k).load?.isSome
end

