-- ==== Sys2Proof/Laws/Table.lean ====
section
/-! SUPPORT. Reading and writing tables, and that every change keeps their canonical form. -/

namespace Sys2Proof.Machine

variable {α β : Type}

theorem Tbl.get_nil (k : Nat) : Tbl.get ([] : Tbl α) k = none := rfl

theorem Tbl.get_set_same (t : Tbl α) (k : Nat) (v : α) : Tbl.get (Tbl.set t k v) k = some v := by
  induction t with
  | nil => simp [Tbl.set, Tbl.get]
  | cons r t ih =>
    obtain ⟨j, w⟩ := r
    simp only [Tbl.set]
    split
    · simp [Tbl.get]
    · split
      · simp [Tbl.get]
      · next h => simp [Tbl.get, h, ih]

theorem Tbl.get_set_other (t : Tbl α) (k j : Nat) (v : α) (h : j ≠ k) :
    Tbl.get (Tbl.set t k v) j = Tbl.get t j := by
  induction t with
  | nil => simp [Tbl.set, Tbl.get, h.symm]
  | cons r t ih =>
    obtain ⟨i, w⟩ := r
    simp only [Tbl.set]
    split
    · simp [Tbl.get, h.symm]
    · split
      · next h' => subst h'; simp [Tbl.get, h.symm]
      · simp [Tbl.get, ih]

theorem Tbl.get_erase_same (t : Tbl α) (k : Nat) : Tbl.get (Tbl.erase t k) k = none := by
  induction t with
  | nil => rfl
  | cons r t ih =>
    obtain ⟨j, w⟩ := r
    simp only [Tbl.erase, List.filter_cons] at ih ⊢
    split
    · next h => simp only [bne_iff_ne, ne_eq] at h; simp [Tbl.get, h, ih]
    · exact ih

theorem Tbl.get_erase_other (t : Tbl α) (k j : Nat) (h : j ≠ k) :
    Tbl.get (Tbl.erase t k) j = Tbl.get t j := by
  induction t with
  | nil => rfl
  | cons r t ih =>
    obtain ⟨i, w⟩ := r
    simp only [Tbl.erase, List.filter_cons] at ih ⊢
    split
    · simp [Tbl.get, ih]
    · next h' =>
      simp only [bne_iff_ne, ne_eq, not_not] at h'
      subst h'
      simp [Tbl.get, h.symm, ih]

theorem Tbl.get_mapRows (t : Tbl α) (f : α → β) (k : Nat) :
    Tbl.get (Tbl.mapRows t f) k = (Tbl.get t k).map f := by
  induction t with
  | nil => rfl
  | cons r t ih =>
    obtain ⟨j, w⟩ := r
    simp only [Tbl.mapRows, List.map_cons, Tbl.get] at ih ⊢
    split
    · rfl
    · exact ih

theorem Tbl.get_modify (t : Tbl α) (k j : Nat) (f : α → α) :
    Tbl.get (Tbl.modify t k f) j = if j = k then (Tbl.get t j).map f else Tbl.get t j := by
  induction t with
  | nil => simp [Tbl.modify, Tbl.get]
  | cons r t ih =>
    obtain ⟨i, w⟩ := r
    simp only [Tbl.modify, List.map_cons] at ih ⊢
    by_cases hi : i = k
    · subst hi
      simp only [if_true, Tbl.get]
      by_cases hj : i = j
      · subst hj; simp
      · simp only [hj, if_false, ih]
    · simp only [hi, if_false, Tbl.get]
      by_cases hj : i = j
      · subst hj; simp [hi]
      · simp only [hj, if_false, ih]

/-! The canonical form -/

theorem Tbl.mem_keys_set (t : Tbl α) (k : Nat) (v : α) (j : Nat) :
    j ∈ Tbl.keys (Tbl.set t k v) ↔ j = k ∨ j ∈ Tbl.keys t := by
  induction t with
  | nil => simp [Tbl.set, Tbl.keys]
  | cons r t ih =>
    obtain ⟨i, w⟩ := r
    simp only [Tbl.set]
    split
    · simp [Tbl.keys]
    · split
      · next h => subst h; simp [Tbl.keys]
      · simp only [Tbl.keys, List.map_cons, List.mem_cons] at ih ⊢
        rw [ih]
        tauto

theorem Tbl.sorted_set (t : Tbl α) (k : Nat) (v : α) (h : Tbl.Sorted t) : Tbl.Sorted (Tbl.set t k v) := by
  induction t with
  | nil => simp [Tbl.set, Tbl.Sorted, Tbl.keys]
  | cons r t ih =>
    obtain ⟨i, w⟩ := r
    simp only [Tbl.Sorted, Tbl.keys, List.map_cons, List.pairwise_cons] at h
    simp only [Tbl.set]
    split
    · next hk =>
      simp only [Tbl.Sorted, Tbl.keys, List.map_cons, List.pairwise_cons, List.mem_cons, forall_eq_or_imp]
      exact ⟨⟨hk, fun a ha => lt_trans hk (h.1 a ha)⟩, h⟩
    · split
      · next hk => subst hk; simpa [Tbl.Sorted, Tbl.keys, List.pairwise_cons] using h
      · simp only [Tbl.Sorted, Tbl.keys, List.map_cons, List.pairwise_cons]
        refine ⟨fun a ha => ?_, ih h.2⟩
        have := (Tbl.mem_keys_set t k v a).1 ha
        rcases this with rfl | ha'
        · omega
        · exact h.1 a ha'

theorem Tbl.sorted_filter (t : Tbl α) (f : Nat × α → Bool) (h : Tbl.Sorted t) : Tbl.Sorted (t.filter f) :=
  List.Pairwise.sublist ((List.filter_sublist).map Prod.fst) h

theorem Tbl.sorted_erase (t : Tbl α) (k : Nat) (h : Tbl.Sorted t) : Tbl.Sorted (Tbl.erase t k) :=
  Tbl.sorted_filter t _ h

theorem Tbl.keys_mapRows (t : Tbl α) (f : α → β) : Tbl.keys (Tbl.mapRows t f) = Tbl.keys t := by
  simp [Tbl.keys, Tbl.mapRows]

theorem Tbl.sorted_mapRows (t : Tbl α) (f : α → β) (h : Tbl.Sorted t) : Tbl.Sorted (Tbl.mapRows t f) := by
  rw [Tbl.Sorted, Tbl.keys_mapRows]; exact h

theorem Tbl.keys_modify (t : Tbl α) (k : Nat) (f : α → α) : Tbl.keys (Tbl.modify t k f) = Tbl.keys t := by
  simp only [Tbl.keys, Tbl.modify, List.map_map]
  apply List.map_congr_left
  intro r _
  simp only [Function.comp]
  split <;> rfl

theorem Tbl.sorted_modify (t : Tbl α) (k : Nat) (f : α → α) (h : Tbl.Sorted t) :
    Tbl.Sorted (Tbl.modify t k f) := by
  rw [Tbl.Sorted, Tbl.keys_modify]; exact h

theorem Tbl.sorted_nil : Tbl.Sorted ([] : Tbl α) := List.Pairwise.nil

/-! Rows and lengths -/

theorem Tbl.mem_of_get (t : Tbl α) (k : Nat) (v : α) (h : Tbl.get t k = some v) : (k, v) ∈ t := by
  induction t with
  | nil => cases h
  | cons r t ih =>
    obtain ⟨i, w⟩ := r
    simp only [Tbl.get] at h
    split at h
    · next hi => cases h; subst hi; exact List.mem_cons_self
    · exact List.mem_cons_of_mem _ (ih h)

theorem Tbl.get_of_mem (t : Tbl α) (k : Nat) (v : α) (hs : Tbl.Sorted t) (h : (k, v) ∈ t) :
    Tbl.get t k = some v := by
  induction t with
  | nil => cases h
  | cons r t ih =>
    obtain ⟨i, w⟩ := r
    simp only [Tbl.Sorted, Tbl.keys, List.map_cons, List.pairwise_cons] at hs
    rcases List.mem_cons.1 h with h' | h'
    · cases h'; simp [Tbl.get]
    · have : i < k := hs.1 k (List.mem_map_of_mem (f := Prod.fst) h')
      simp only [Tbl.get, Nat.ne_of_lt this, if_false]
      exact ih hs.2 h'

theorem Tbl.mem_set (t : Tbl α) (k : Nat) (v : α) (r : Nat × α) (h : r ∈ Tbl.set t k v) :
    r = (k, v) ∨ r ∈ t := by
  induction t with
  | nil => simpa [Tbl.set] using h
  | cons x t ih =>
    obtain ⟨i, w⟩ := x
    simp only [Tbl.set] at h
    split at h
    · simpa using h
    · split at h
      · rcases List.mem_cons.1 h with h' | h'
        · exact .inl h'
        · exact .inr (List.mem_cons_of_mem _ h')
      · rcases List.mem_cons.1 h with h' | h'
        · exact .inr (h' ▸ List.mem_cons_self)
        · rcases ih h' with h'' | h''
          · exact .inl h''
          · exact .inr (List.mem_cons_of_mem _ h'')

theorem Tbl.length_set_le (t : Tbl α) (k : Nat) (v : α) : (Tbl.set t k v).length ≤ t.length + 1 := by
  induction t with
  | nil => simp [Tbl.set]
  | cons x t ih =>
    obtain ⟨i, w⟩ := x
    simp only [Tbl.set]
    split
    · simp
    · split
      · simp
      · simp only [List.length_cons]; omega

/-- Writing a row that is there does not lengthen a table in canonical form. -/
theorem Tbl.length_set_of_get (t : Tbl α) (k : Nat) (v w : α) (hs : Tbl.Sorted t)
    (h : Tbl.get t k = some w) : (Tbl.set t k v).length = t.length := by
  induction t with
  | nil => cases h
  | cons x t ih =>
    obtain ⟨i, u⟩ := x
    simp only [Tbl.Sorted, Tbl.keys, List.map_cons, List.pairwise_cons] at hs
    simp only [Tbl.get] at h
    simp only [Tbl.set]
    by_cases hi : i = k
    · simp [hi]
    · simp only [hi, if_false] at h
      have hk : i < k := hs.1 k (List.mem_map_of_mem (f := Prod.fst) (Tbl.mem_of_get t k w h))
      simp only [Nat.not_lt.2 (Nat.le_of_lt hk), if_false, hi, List.length_cons, ih hs.2 h]

theorem Tbl.length_mapRows (t : Tbl α) (f : α → β) : (Tbl.mapRows t f).length = t.length := by
  simp [Tbl.mapRows]

theorem Tbl.length_erase_le (t : Tbl α) (k : Nat) : (Tbl.erase t k).length ≤ t.length :=
  List.length_filter_le _ _

end Sys2Proof.Machine
end

