-- ==== Sys2Proof/Laws/Fleet.lean ====
section
/-! SUPPORT. What each change of the chutes, the carts and the ready queues does to their agreement
(`FleetOk`): one lemma per change, over the readings of the three tables. -/

namespace Sys2Proof.Machine

/-- A reading with one place changed. -/
def put {α : Type} (f : Nat → Option α) (k : Nat) (v : Option α) : Nat → Option α :=
  fun j => if j = k then v else f j

theorem get_set_fun {α : Type} (t : Tbl α) (k : Nat) (v : α) :
    Tbl.get (Tbl.set t k v) = put (Tbl.get t) k (some v) := by
  funext j
  unfold put
  split
  · next h => rw [h, Tbl.get_set_same]
  · next h => rw [Tbl.get_set_other _ _ _ _ h]

theorem get_erase_fun {α : Type} (t : Tbl α) (k : Nat) : Tbl.get (Tbl.erase t k) = put (Tbl.get t) k none := by
  funext j
  unfold put
  split
  · next h => rw [h, Tbl.get_erase_same]
  · next h => rw [Tbl.get_erase_other _ _ _ h]

theorem get_modify_fun {α : Type} (t : Tbl α) (k : Nat) (f : α → α) :
    Tbl.get (Tbl.modify t k f) = put (Tbl.get t) k ((Tbl.get t k).map f) := by
  funext j
  unfold put
  rw [Tbl.get_modify]
  split <;> simp_all

theorem get_mapRows_fun {α β : Type} (t : Tbl α) (f : α → β) :
    Tbl.get (Tbl.mapRows t f) = fun j => (Tbl.get t j).map f := funext fun j => Tbl.get_mapRows t f j

variable {C : Nat → Option Chute} {K : Nat → Option Cart} {G : Nat → Option Group}

/-- Only what else the rows hold has changed. -/
theorem FleetOk.same {C' : Nat → Option Chute} {K' : Nat → Option Cart} {G' : Nat → Option Group}
    (h : FleetOk C K G)
    (hc : ∀ c, (C' c).map (fun x => (x.role, x.cycle, x.bound, x.cart))
      = (C c).map (fun x => (x.role, x.cycle, x.bound, x.cart)))
    (hk : ∀ id, (K' id).map (fun x => (x.group, x.state, x.chute))
      = (K id).map (fun x => (x.group, x.state, x.chute)))
    (hg : ∀ g, (G' g).map Group.ready = (G g).map Group.ready) : FleetOk C' K' G' := by
  have c1 : ∀ c x', C' c = some x' → ∃ x, C c = some x ∧ x.role = x'.role ∧ x.cycle = x'.cycle
      ∧ x.bound = x'.bound ∧ x.cart = x'.cart := by
    intro c x' e; have := hc c; rw [e] at this
    cases e' : C c <;> simp_all
  have c2 : ∀ c x, C c = some x → ∃ x', C' c = some x' ∧ x.role = x'.role ∧ x.cycle = x'.cycle
      ∧ x.bound = x'.bound ∧ x.cart = x'.cart := by
    intro c x e; have := hc c; rw [e] at this
    cases e' : C' c <;> simp_all
  have k1 : ∀ c x', K' c = some x' → ∃ x, K c = some x ∧ x.group = x'.group ∧ x.state = x'.state
      ∧ x.chute = x'.chute := by
    intro c x' e; have := hk c; rw [e] at this
    cases e' : K c <;> simp_all
  have k2 : ∀ c x, K c = some x → ∃ x', K' c = some x' ∧ x.group = x'.group ∧ x.state = x'.state
      ∧ x.chute = x'.chute := by
    intro c x e; have := hk c; rw [e] at this
    cases e' : K' c <;> simp_all
  have g1 : ∀ c x', G' c = some x' → ∃ x, G c = some x ∧ x.ready = x'.ready := by
    intro c x' e; have := hg c; rw [e] at this
    cases e' : G c <;> simp_all
  have g2 : ∀ c x, G c = some x → ∃ x', G' c = some x' ∧ x.ready = x'.ready := by
    intro c x e; have := hg c; rw [e] at this
    cases e' : G' c <;> simp_all
  clear hc hk hg
  obtain ⟨a1, a2, a3, a4, a5, a6, a7, a8, a9⟩ := h
  constructor <;> grind

/-- Closing is complete, or a change of binding closes a cart by force: the cart is CLOSED at the tail of
its ready queue, and its chute has none (R122, R42, R43). -/
theorem FleetOk.close (h : FleetOk C K G) {id c : Nat} {k k' : Cart} {x x' : Chute} {g g' : Group}
    (hk : K id = some k) (hs : k.state = .filling ∨ k.state = .closing) (hc : k.chute = some c)
    (hx : C c = some x) (hg : G k.group = some g) (k1 : k'.group = k.group) (k2 : k'.state = .closed)
    (k3 : k'.chute = none) (g1 : g'.ready = g.ready ++ [id]) (x1 : x'.cart = none) (x2 : x'.role = x.role)
    (x3 : (x'.cycle = some .swapping ∧ x'.bound ≠ 0 ∧ ∃ y, G x'.bound = some y)
      ∨ (x'.cycle = some .noCart ∧ x'.bound = 0)) :
    FleetOk (put C c (some x')) (put K id (some k')) (put G k.group (some g')) := by
  obtain ⟨a1, a2, a3, a4, a5, a6, a7, a8, a9⟩ := h
  constructor <;> grind [put, List.nodup_cons]

/-- A FILLING or CLOSING cart and its chute stand in CLOSING (R112). -/
theorem FleetOk.enterClosing (h : FleetOk C K G) {id c : Nat} {k k' : Cart} {x x' : Chute}
    (hk : K id = some k) (hs : k.state = .filling ∨ k.state = .closing) (hc : k.chute = some c)
    (hx : C c = some x) (k1 : k'.group = k.group) (k2 : k'.state = .closing) (k3 : k'.chute = k.chute)
    (x1 : x'.cart = x.cart) (x2 : x'.role = x.role) (x3 : x'.bound = x.bound) (x4 : x'.cycle = some .closing) :
    FleetOk (put C c (some x')) (put K id (some k')) G := by
  obtain ⟨a1, a2, a3, a4, a5, a6, a7, a8, a9⟩ := h
  constructor <;> grind [put, List.nodup_cons]

/-- An empty current cart goes over to the chute's new group (R42). -/
theorem FleetOk.regroup (h : FleetOk C K G) {id c : Nat} {k k' : Cart} {x x' : Chute} {n : Nat} {g : Group}
    (hx : C c = some x) (hid : x.cart = some id) (hk : K id = some k) (hf : x.cycle = some .filling)
    (hn : n ≠ 0) (hg : G n = some g) (k1 : k'.group = n) (k2 : k'.state = k.state) (k3 : k'.chute = k.chute)
    (x1 : x'.cart = x.cart) (x2 : x'.role = x.role) (x3 : x'.bound = n) (x4 : x'.cycle = x.cycle) :
    FleetOk (put C c (some x')) (put K id (some k')) G := by
  obtain ⟨a1, a2, a3, a4, a5, a6, a7, a8, a9⟩ := h
  constructor <;> grind [put, List.nodup_cons]

/-- An empty current cart is freed as its chute is unbound (R43). -/
theorem FleetOk.free (h : FleetOk C K G) {id c : Nat} {x x' : Chute} (hx : C c = some x)
    (hid : x.cart = some id) (x1 : x'.cart = none) (x2 : x'.role = x.role) (x3 : x'.bound = 0)
    (x4 : x'.cycle = some .noCart) : FleetOk (put C c (some x')) (put K id none) G := by
  obtain ⟨a1, a2, a3, a4, a5, a6, a7, a8, a9⟩ := h
  constructor <;> grind [put, List.nodup_cons]

/-- A chute with no current cart changes: it stays without one, outside FILLING and CLOSING. -/
theorem FleetOk.bareChute (h : FleetOk C K G) {c : Nat} {x' : Chute}
    (hx : ∀ x, C c = some x → x.cart = none) (x1 : x'.cart = none) (x2 : x'.role = .sort ↔ x'.cycle ≠ none)
    (x3 : x'.bound = 0 ↔ x'.cycle = none ∨ x'.cycle = some .noCart)
    (x4 : x'.bound ≠ 0 → ∃ g, G x'.bound = some g)
    (x5 : x'.cycle ≠ some .filling ∧ x'.cycle ≠ some .closing) : FleetOk (put C c (some x')) K G := by
  obtain ⟨a1, a2, a3, a4, a5, a6, a7, a8, a9⟩ := h
  constructor <;> grind [put, List.nodup_cons]

/-- A FREE record becomes the FILLING cart of a SWAPPING chute (R125). -/
theorem FleetOk.place (h : FleetOk C K G) {id c : Nat} {k' : Cart} {x x' : Chute} (hx : C c = some x)
    (hs : x.cycle = some .swapping) (hid : K id = none) (k1 : k'.group = x.bound) (k2 : k'.state = .filling)
    (k3 : k'.chute = some c) (x1 : x'.cart = some id) (x2 : x'.role = x.role) (x3 : x'.bound = x.bound)
    (x4 : x'.cycle = some .filling) : FleetOk (put C c (some x')) (put K id (some k')) G := by
  obtain ⟨a1, a2, a3, a4, a5, a6, a7, a8, a9⟩ := h
  constructor <;> grind [put, List.nodup_cons]

/-- The head of a ready queue is called (R140). -/
theorem FleetOk.call (h : FleetOk C K G) {id n : Nat} {k k' : Cart} {g g' : Group} {rest : List Nat}
    (hg : G n = some g) (hr : g.ready = id :: rest) (hk : K id = some k) (k1 : k'.group = k.group)
    (k2 : k'.state = .called) (k3 : k'.chute = k.chute) (g1 : g'.ready = rest) :
    FleetOk C (put K id (some k')) (put G n (some g')) := by
  obtain ⟨a1, a2, a3, a4, a5, a6, a7, a8, a9⟩ := h
  obtain ⟨nd, all⟩ := a9 n g hg
  obtain ⟨k0, e, kn⟩ := all id (hr ▸ List.mem_cons_self)
  cases e.symm.trans hk
  obtain ⟨g0, eg, kc⟩ := a8 id k hk
  cases eg.symm.trans (kn ▸ hg)
  have closed := kc.2 (hr ▸ List.mem_cons_self)
  have off := a7 id k hk (.inl closed)
  rw [hr, List.nodup_cons] at nd
  constructor <;> grind [put, List.nodup_cons]

/-- A CALLED cart is refused: CLOSED, at the head of its ready queue (R142). -/
theorem FleetOk.refuse (h : FleetOk C K G) {id : Nat} {k k' : Cart} {g g' : Group} (hk : K id = some k)
    (hs : k.state = .called) (hg : G k.group = some g) (k1 : k'.group = k.group) (k2 : k'.state = .closed)
    (k3 : k'.chute = k.chute) (g1 : g'.ready = id :: g.ready) :
    FleetOk C (put K id (some k')) (put G k.group (some g')) := by
  obtain ⟨a1, a2, a3, a4, a5, a6, a7, a8, a9⟩ := h
  constructor <;> grind [put, List.nodup_cons]

/-- A CALLED cart goes aboard and is freed (R141). -/
theorem FleetOk.board (h : FleetOk C K G) {id : Nat} {k : Cart} (hk : K id = some k)
    (hs : k.state = .called) : FleetOk C (put K id none) G := by
  obtain ⟨a1, a2, a3, a4, a5, a6, a7, a8, a9⟩ := h
  constructor <;> grind [put, List.nodup_cons]

/-- A group is made, with an empty queue (R36). -/
theorem FleetOk.newGroup (h : FleetOk C K G) {n : Nat} {g : Group} (hn : G n = none) (hg : g.ready = []) :
    FleetOk C K (put G n (some g)) := by
  obtain ⟨a1, a2, a3, a4, a5, a6, a7, a8, a9⟩ := h
  constructor <;> grind [put, List.nodup_cons]

/-- Groups go with their carts, and their chutes are unbound (R22, R38). -/
theorem FleetOk.drop (h : FleetOk C K G) {C' : Nat → Option Chute} {K' : Nat → Option Cart}
    {G' : Nat → Option Group} (gone : Nat → Prop) (hg : ∀ n, gone n → G' n = none)
    (hg' : ∀ n, ¬gone n → G' n = G n) (hk : ∀ id k, K id = some k → gone k.group → K' id = none)
    (hk' : ∀ id k, K id = some k → ¬gone k.group → K' id = some k) (hk0 : ∀ id, K id = none → K' id = none)
    (hc : ∀ c x, C c = some x → x.bound ≠ 0 → gone x.bound →
      ∃ x', C' c = some x' ∧ x'.role = x.role ∧ x'.bound = 0 ∧ x'.cycle = some .noCart ∧ x'.cart = none)
    (hc' : ∀ c x, C c = some x → x.bound = 0 ∨ ¬gone x.bound → C' c = some x)
    (hc0 : ∀ c, C c = none → C' c = none) : FleetOk C' K' G' := by
  have c1 : ∀ c x', C' c = some x' → ∃ x, C c = some x := by
    intro c x' e; cases e' : C c with
    | none => simp [hc0 c e'] at e
    | some x => exact ⟨x, rfl⟩
  have k1 : ∀ id k', K' id = some k' → K id = some k' := by
    intro id k' e; cases e' : K id with
    | none => simp [hk0 id e'] at e
    | some x =>
      by_cases hx : gone x.group
      · simp [hk id x e' hx] at e
      · rw [hk' id x e' hx] at e; exact e
  obtain ⟨a1, a2, a3, a4, a5, a6, a7, a8, a9⟩ := h
  constructor <;> grind

end Sys2Proof.Machine
end

