-- ==== Sys2Proof/Laws/State.lean ====
section
/-! SUPPORT. Beside the state: what every named update leaves as it was, one lemma per field. -/

namespace Sys2Proof.Machine

/-! Tables -/
@[simp] theorem State.putEntry_lu (s : State) (m : Nat) (e : Entry) : (s.putEntry m e).lu = s.lu := rfl
@[simp] theorem State.putEntry_cu (s : State) (m : Nat) (e : Entry) : (s.putEntry m e).cu = s.cu := rfl
@[simp] theorem State.putEntry_sailings (s : State) (m : Nat) (e : Entry) :
    (s.putEntry m e).sailings = s.sailings := rfl
@[simp] theorem State.putEntry_groups (s : State) (m : Nat) (e : Entry) :
    (s.putEntry m e).groups = s.groups := rfl
@[simp] theorem State.putEntry_stations (s : State) (m : Nat) (e : Entry) :
    (s.putEntry m e).stations = s.stations := rfl
@[simp] theorem State.putEntry_lt (s : State) (m : Nat) (e : Entry) : (s.putEntry m e).lt = s.lt := rfl
@[simp] theorem State.putEntry_trays (s : State) (m : Nat) (e : Entry) :
    (s.putEntry m e).trays = s.trays := rfl
@[simp] theorem State.putEntry_chutes (s : State) (m : Nat) (e : Entry) :
    (s.putEntry m e).chutes = s.chutes := rfl
@[simp] theorem State.putEntry_carts (s : State) (m : Nat) (e : Entry) :
    (s.putEntry m e).carts = s.carts := rfl
@[simp] theorem State.putEntry_su (s : State) (m : Nat) (e : Entry) : (s.putEntry m e).su = s.su := rfl
@[simp] theorem State.putEntry_freeIdx (s : State) (m : Nat) (e : Entry) :
    (s.putEntry m e).freeIdx = s.freeIdx := rfl
@[simp] theorem State.putEntry_pending (s : State) (m : Nat) (e : Entry) :
    (s.putEntry m e).pending = s.pending := rfl
@[simp] theorem State.setEntryState_lu (s : State) (m : Nat) (st : EntryState) :
    (s.setEntryState m st).lu = s.lu := rfl
@[simp] theorem State.setEntryState_cu (s : State) (m : Nat) (st : EntryState) :
    (s.setEntryState m st).cu = s.cu := rfl
@[simp] theorem State.setEntryState_sailings (s : State) (m : Nat) (st : EntryState) :
    (s.setEntryState m st).sailings = s.sailings := rfl
@[simp] theorem State.setEntryState_groups (s : State) (m : Nat) (st : EntryState) :
    (s.setEntryState m st).groups = s.groups := rfl
@[simp] theorem State.setEntryState_stations (s : State) (m : Nat) (st : EntryState) :
    (s.setEntryState m st).stations = s.stations := rfl
@[simp] theorem State.setEntryState_lt (s : State) (m : Nat) (st : EntryState) :
    (s.setEntryState m st).lt = s.lt := rfl
@[simp] theorem State.setEntryState_trays (s : State) (m : Nat) (st : EntryState) :
    (s.setEntryState m st).trays = s.trays := rfl
@[simp] theorem State.setEntryState_chutes (s : State) (m : Nat) (st : EntryState) :
    (s.setEntryState m st).chutes = s.chutes := rfl
@[simp] theorem State.setEntryState_carts (s : State) (m : Nat) (st : EntryState) :
    (s.setEntryState m st).carts = s.carts := rfl
@[simp] theorem State.setEntryState_su (s : State) (m : Nat) (st : EntryState) :
    (s.setEntryState m st).su = s.su := rfl
@[simp] theorem State.setEntryState_freeIdx (s : State) (m : Nat) (st : EntryState) :
    (s.setEntryState m st).freeIdx = s.freeIdx := rfl
@[simp] theorem State.setEntryState_pending (s : State) (m : Nat) (st : EntryState) :
    (s.setEntryState m st).pending = s.pending := rfl
@[simp] theorem State.putTray_lu (s : State) (k : Nat) (x : Tray) : (s.putTray k x).lu = s.lu := rfl
@[simp] theorem State.putTray_cu (s : State) (k : Nat) (x : Tray) : (s.putTray k x).cu = s.cu := rfl
@[simp] theorem State.putTray_sailings (s : State) (k : Nat) (x : Tray) :
    (s.putTray k x).sailings = s.sailings := rfl
@[simp] theorem State.putTray_manifest (s : State) (k : Nat) (x : Tray) :
    (s.putTray k x).manifest = s.manifest := rfl
@[simp] theorem State.putTray_groups (s : State) (k : Nat) (x : Tray) :
    (s.putTray k x).groups = s.groups := rfl
@[simp] theorem State.putTray_stations (s : State) (k : Nat) (x : Tray) :
    (s.putTray k x).stations = s.stations := rfl
@[simp] theorem State.putTray_lt (s : State) (k : Nat) (x : Tray) : (s.putTray k x).lt = s.lt := rfl
@[simp] theorem State.putTray_chutes (s : State) (k : Nat) (x : Tray) :
    (s.putTray k x).chutes = s.chutes := rfl
@[simp] theorem State.putTray_carts (s : State) (k : Nat) (x : Tray) :
    (s.putTray k x).carts = s.carts := rfl
@[simp] theorem State.putTray_su (s : State) (k : Nat) (x : Tray) : (s.putTray k x).su = s.su := rfl
@[simp] theorem State.putTray_freeIdx (s : State) (k : Nat) (x : Tray) :
    (s.putTray k x).freeIdx = s.freeIdx := rfl
@[simp] theorem State.putTray_pending (s : State) (k : Nat) (x : Tray) :
    (s.putTray k x).pending = s.pending := rfl
@[simp] theorem State.putSailing_lu (s : State) (n : Nat) (v : Sailing) :
    (s.putSailing n v).lu = s.lu := rfl
@[simp] theorem State.putSailing_cu (s : State) (n : Nat) (v : Sailing) :
    (s.putSailing n v).cu = s.cu := rfl
@[simp] theorem State.putSailing_manifest (s : State) (n : Nat) (v : Sailing) :
    (s.putSailing n v).manifest = s.manifest := rfl
@[simp] theorem State.putSailing_groups (s : State) (n : Nat) (v : Sailing) :
    (s.putSailing n v).groups = s.groups := rfl
@[simp] theorem State.putSailing_stations (s : State) (n : Nat) (v : Sailing) :
    (s.putSailing n v).stations = s.stations := rfl
@[simp] theorem State.putSailing_lt (s : State) (n : Nat) (v : Sailing) :
    (s.putSailing n v).lt = s.lt := rfl
@[simp] theorem State.putSailing_trays (s : State) (n : Nat) (v : Sailing) :
    (s.putSailing n v).trays = s.trays := rfl
@[simp] theorem State.putSailing_chutes (s : State) (n : Nat) (v : Sailing) :
    (s.putSailing n v).chutes = s.chutes := rfl
@[simp] theorem State.putSailing_carts (s : State) (n : Nat) (v : Sailing) :
    (s.putSailing n v).carts = s.carts := rfl
@[simp] theorem State.putSailing_su (s : State) (n : Nat) (v : Sailing) :
    (s.putSailing n v).su = s.su := rfl
@[simp] theorem State.putSailing_freeIdx (s : State) (n : Nat) (v : Sailing) :
    (s.putSailing n v).freeIdx = s.freeIdx := rfl
@[simp] theorem State.putSailing_pending (s : State) (n : Nat) (v : Sailing) :
    (s.putSailing n v).pending = s.pending := rfl
@[simp] theorem State.putSailing_sailings (s : State) (n : Nat) (v : Sailing) :
    (s.putSailing n v).sailings = Tbl.set s.sailings n v := rfl
@[simp] theorem State.putGroup_lu (s : State) (g : Nat) (v : Group) : (s.putGroup g v).lu = s.lu := rfl
@[simp] theorem State.putGroup_cu (s : State) (g : Nat) (v : Group) : (s.putGroup g v).cu = s.cu := rfl
@[simp] theorem State.putGroup_sailings (s : State) (g : Nat) (v : Group) :
    (s.putGroup g v).sailings = s.sailings := rfl
@[simp] theorem State.putGroup_manifest (s : State) (g : Nat) (v : Group) :
    (s.putGroup g v).manifest = s.manifest := rfl
@[simp] theorem State.putGroup_stations (s : State) (g : Nat) (v : Group) :
    (s.putGroup g v).stations = s.stations := rfl
@[simp] theorem State.putGroup_lt (s : State) (g : Nat) (v : Group) : (s.putGroup g v).lt = s.lt := rfl
@[simp] theorem State.putGroup_trays (s : State) (g : Nat) (v : Group) :
    (s.putGroup g v).trays = s.trays := rfl
@[simp] theorem State.putGroup_chutes (s : State) (g : Nat) (v : Group) :
    (s.putGroup g v).chutes = s.chutes := rfl
@[simp] theorem State.putGroup_carts (s : State) (g : Nat) (v : Group) :
    (s.putGroup g v).carts = s.carts := rfl
@[simp] theorem State.putGroup_su (s : State) (g : Nat) (v : Group) : (s.putGroup g v).su = s.su := rfl
@[simp] theorem State.putGroup_freeIdx (s : State) (g : Nat) (v : Group) :
    (s.putGroup g v).freeIdx = s.freeIdx := rfl
@[simp] theorem State.putGroup_pending (s : State) (g : Nat) (v : Group) :
    (s.putGroup g v).pending = s.pending := rfl
@[simp] theorem State.putGroup_groups (s : State) (g : Nat) (v : Group) :
    (s.putGroup g v).groups = Tbl.set s.groups g v := rfl
@[simp] theorem State.modifyGroup_lu (s : State) (g : Nat) (f : Group → Group) :
    (s.modifyGroup g f).lu = s.lu := rfl
@[simp] theorem State.modifyGroup_cu (s : State) (g : Nat) (f : Group → Group) :
    (s.modifyGroup g f).cu = s.cu := rfl
@[simp] theorem State.modifyGroup_sailings (s : State) (g : Nat) (f : Group → Group) :
    (s.modifyGroup g f).sailings = s.sailings := rfl
@[simp] theorem State.modifyGroup_manifest (s : State) (g : Nat) (f : Group → Group) :
    (s.modifyGroup g f).manifest = s.manifest := rfl
@[simp] theorem State.modifyGroup_stations (s : State) (g : Nat) (f : Group → Group) :
    (s.modifyGroup g f).stations = s.stations := rfl
@[simp] theorem State.modifyGroup_lt (s : State) (g : Nat) (f : Group → Group) :
    (s.modifyGroup g f).lt = s.lt := rfl
@[simp] theorem State.modifyGroup_trays (s : State) (g : Nat) (f : Group → Group) :
    (s.modifyGroup g f).trays = s.trays := rfl
@[simp] theorem State.modifyGroup_chutes (s : State) (g : Nat) (f : Group → Group) :
    (s.modifyGroup g f).chutes = s.chutes := rfl
@[simp] theorem State.modifyGroup_carts (s : State) (g : Nat) (f : Group → Group) :
    (s.modifyGroup g f).carts = s.carts := rfl
@[simp] theorem State.modifyGroup_su (s : State) (g : Nat) (f : Group → Group) :
    (s.modifyGroup g f).su = s.su := rfl
@[simp] theorem State.modifyGroup_freeIdx (s : State) (g : Nat) (f : Group → Group) :
    (s.modifyGroup g f).freeIdx = s.freeIdx := rfl
@[simp] theorem State.modifyGroup_pending (s : State) (g : Nat) (f : Group → Group) :
    (s.modifyGroup g f).pending = s.pending := rfl
@[simp] theorem State.modifyGroup_groups (s : State) (g : Nat) (f : Group → Group) :
    (s.modifyGroup g f).groups = Tbl.modify s.groups g f := rfl
@[simp] theorem State.putStation_lu (s : State) (n : Nat) (v : Station) :
    (s.putStation n v).lu = s.lu := rfl
@[simp] theorem State.putStation_cu (s : State) (n : Nat) (v : Station) :
    (s.putStation n v).cu = s.cu := rfl
@[simp] theorem State.putStation_sailings (s : State) (n : Nat) (v : Station) :
    (s.putStation n v).sailings = s.sailings := rfl
@[simp] theorem State.putStation_manifest (s : State) (n : Nat) (v : Station) :
    (s.putStation n v).manifest = s.manifest := rfl
@[simp] theorem State.putStation_groups (s : State) (n : Nat) (v : Station) :
    (s.putStation n v).groups = s.groups := rfl
@[simp] theorem State.putStation_lt (s : State) (n : Nat) (v : Station) :
    (s.putStation n v).lt = s.lt := rfl
@[simp] theorem State.putStation_trays (s : State) (n : Nat) (v : Station) :
    (s.putStation n v).trays = s.trays := rfl
@[simp] theorem State.putStation_chutes (s : State) (n : Nat) (v : Station) :
    (s.putStation n v).chutes = s.chutes := rfl
@[simp] theorem State.putStation_carts (s : State) (n : Nat) (v : Station) :
    (s.putStation n v).carts = s.carts := rfl
@[simp] theorem State.putStation_su (s : State) (n : Nat) (v : Station) :
    (s.putStation n v).su = s.su := rfl
@[simp] theorem State.putStation_freeIdx (s : State) (n : Nat) (v : Station) :
    (s.putStation n v).freeIdx = s.freeIdx := rfl
@[simp] theorem State.putStation_pending (s : State) (n : Nat) (v : Station) :
    (s.putStation n v).pending = s.pending := rfl
@[simp] theorem State.putStation_stations (s : State) (n : Nat) (v : Station) :
    (s.putStation n v).stations = Tbl.set s.stations n v := rfl
@[simp] theorem State.putChute_lu (s : State) (c : Nat) (v : Chute) : (s.putChute c v).lu = s.lu := rfl
@[simp] theorem State.putChute_cu (s : State) (c : Nat) (v : Chute) : (s.putChute c v).cu = s.cu := rfl
@[simp] theorem State.putChute_sailings (s : State) (c : Nat) (v : Chute) :
    (s.putChute c v).sailings = s.sailings := rfl
@[simp] theorem State.putChute_manifest (s : State) (c : Nat) (v : Chute) :
    (s.putChute c v).manifest = s.manifest := rfl
@[simp] theorem State.putChute_groups (s : State) (c : Nat) (v : Chute) :
    (s.putChute c v).groups = s.groups := rfl
@[simp] theorem State.putChute_stations (s : State) (c : Nat) (v : Chute) :
    (s.putChute c v).stations = s.stations := rfl
@[simp] theorem State.putChute_lt (s : State) (c : Nat) (v : Chute) : (s.putChute c v).lt = s.lt := rfl
@[simp] theorem State.putChute_trays (s : State) (c : Nat) (v : Chute) :
    (s.putChute c v).trays = s.trays := rfl
@[simp] theorem State.putChute_carts (s : State) (c : Nat) (v : Chute) :
    (s.putChute c v).carts = s.carts := rfl
@[simp] theorem State.putChute_su (s : State) (c : Nat) (v : Chute) : (s.putChute c v).su = s.su := rfl
@[simp] theorem State.putChute_freeIdx (s : State) (c : Nat) (v : Chute) :
    (s.putChute c v).freeIdx = s.freeIdx := rfl
@[simp] theorem State.putChute_pending (s : State) (c : Nat) (v : Chute) :
    (s.putChute c v).pending = s.pending := rfl
@[simp] theorem State.putChute_chutes (s : State) (c : Nat) (v : Chute) :
    (s.putChute c v).chutes = Tbl.set s.chutes c v := rfl
@[simp] theorem State.modifyChute_lu (s : State) (c : Nat) (f : Chute → Chute) :
    (s.modifyChute c f).lu = s.lu := rfl
@[simp] theorem State.modifyChute_cu (s : State) (c : Nat) (f : Chute → Chute) :
    (s.modifyChute c f).cu = s.cu := rfl
@[simp] theorem State.modifyChute_sailings (s : State) (c : Nat) (f : Chute → Chute) :
    (s.modifyChute c f).sailings = s.sailings := rfl
@[simp] theorem State.modifyChute_manifest (s : State) (c : Nat) (f : Chute → Chute) :
    (s.modifyChute c f).manifest = s.manifest := rfl
@[simp] theorem State.modifyChute_groups (s : State) (c : Nat) (f : Chute → Chute) :
    (s.modifyChute c f).groups = s.groups := rfl
@[simp] theorem State.modifyChute_stations (s : State) (c : Nat) (f : Chute → Chute) :
    (s.modifyChute c f).stations = s.stations := rfl
@[simp] theorem State.modifyChute_lt (s : State) (c : Nat) (f : Chute → Chute) :
    (s.modifyChute c f).lt = s.lt := rfl
@[simp] theorem State.modifyChute_trays (s : State) (c : Nat) (f : Chute → Chute) :
    (s.modifyChute c f).trays = s.trays := rfl
@[simp] theorem State.modifyChute_carts (s : State) (c : Nat) (f : Chute → Chute) :
    (s.modifyChute c f).carts = s.carts := rfl
@[simp] theorem State.modifyChute_su (s : State) (c : Nat) (f : Chute → Chute) :
    (s.modifyChute c f).su = s.su := rfl
@[simp] theorem State.modifyChute_freeIdx (s : State) (c : Nat) (f : Chute → Chute) :
    (s.modifyChute c f).freeIdx = s.freeIdx := rfl
@[simp] theorem State.modifyChute_pending (s : State) (c : Nat) (f : Chute → Chute) :
    (s.modifyChute c f).pending = s.pending := rfl
@[simp] theorem State.modifyChute_chutes (s : State) (c : Nat) (f : Chute → Chute) :
    (s.modifyChute c f).chutes = Tbl.modify s.chutes c f := rfl
@[simp] theorem State.putCart_lu (s : State) (id : Nat) (v : Cart) : (s.putCart id v).lu = s.lu := rfl
@[simp] theorem State.putCart_cu (s : State) (id : Nat) (v : Cart) : (s.putCart id v).cu = s.cu := rfl
@[simp] theorem State.putCart_sailings (s : State) (id : Nat) (v : Cart) :
    (s.putCart id v).sailings = s.sailings := rfl
@[simp] theorem State.putCart_manifest (s : State) (id : Nat) (v : Cart) :
    (s.putCart id v).manifest = s.manifest := rfl
@[simp] theorem State.putCart_groups (s : State) (id : Nat) (v : Cart) :
    (s.putCart id v).groups = s.groups := rfl
@[simp] theorem State.putCart_stations (s : State) (id : Nat) (v : Cart) :
    (s.putCart id v).stations = s.stations := rfl
@[simp] theorem State.putCart_lt (s : State) (id : Nat) (v : Cart) : (s.putCart id v).lt = s.lt := rfl
@[simp] theorem State.putCart_trays (s : State) (id : Nat) (v : Cart) :
    (s.putCart id v).trays = s.trays := rfl
@[simp] theorem State.putCart_chutes (s : State) (id : Nat) (v : Cart) :
    (s.putCart id v).chutes = s.chutes := rfl
@[simp] theorem State.putCart_su (s : State) (id : Nat) (v : Cart) : (s.putCart id v).su = s.su := rfl
@[simp] theorem State.putCart_freeIdx (s : State) (id : Nat) (v : Cart) :
    (s.putCart id v).freeIdx = s.freeIdx := rfl
@[simp] theorem State.putCart_pending (s : State) (id : Nat) (v : Cart) :
    (s.putCart id v).pending = s.pending := rfl
@[simp] theorem State.putCart_carts (s : State) (id : Nat) (v : Cart) :
    (s.putCart id v).carts = Tbl.set s.carts id v := rfl
@[simp] theorem State.freeCart_lu (s : State) (id : Nat) : (s.freeCart id).lu = s.lu := rfl
@[simp] theorem State.freeCart_cu (s : State) (id : Nat) : (s.freeCart id).cu = s.cu := rfl
@[simp] theorem State.freeCart_sailings (s : State) (id : Nat) :
    (s.freeCart id).sailings = s.sailings := rfl
@[simp] theorem State.freeCart_manifest (s : State) (id : Nat) :
    (s.freeCart id).manifest = s.manifest := rfl
@[simp] theorem State.freeCart_groups (s : State) (id : Nat) : (s.freeCart id).groups = s.groups := rfl
@[simp] theorem State.freeCart_stations (s : State) (id : Nat) :
    (s.freeCart id).stations = s.stations := rfl
@[simp] theorem State.freeCart_lt (s : State) (id : Nat) : (s.freeCart id).lt = s.lt := rfl
@[simp] theorem State.freeCart_trays (s : State) (id : Nat) : (s.freeCart id).trays = s.trays := rfl
@[simp] theorem State.freeCart_chutes (s : State) (id : Nat) : (s.freeCart id).chutes = s.chutes := rfl
@[simp] theorem State.freeCart_su (s : State) (id : Nat) : (s.freeCart id).su = s.su := rfl
@[simp] theorem State.freeCart_freeIdx (s : State) (id : Nat) : (s.freeCart id).freeIdx = s.freeIdx := rfl
@[simp] theorem State.freeCart_pending (s : State) (id : Nat) : (s.freeCart id).pending = s.pending := rfl
@[simp] theorem State.freeCart_carts (s : State) (id : Nat) :
    (s.freeCart id).carts = Tbl.erase s.carts id := rfl
@[simp] theorem State.mapLoads_lu (s : State) (f : Load → Load) : (s.mapLoads f).lu = s.lu := rfl
@[simp] theorem State.mapLoads_cu (s : State) (f : Load → Load) : (s.mapLoads f).cu = s.cu := rfl
@[simp] theorem State.mapLoads_sailings (s : State) (f : Load → Load) :
    (s.mapLoads f).sailings = s.sailings := rfl
@[simp] theorem State.mapLoads_manifest (s : State) (f : Load → Load) :
    (s.mapLoads f).manifest = s.manifest := rfl
@[simp] theorem State.mapLoads_groups (s : State) (f : Load → Load) :
    (s.mapLoads f).groups = s.groups := rfl
@[simp] theorem State.mapLoads_lt (s : State) (f : Load → Load) : (s.mapLoads f).lt = s.lt := rfl
@[simp] theorem State.mapLoads_chutes (s : State) (f : Load → Load) :
    (s.mapLoads f).chutes = s.chutes := rfl
@[simp] theorem State.mapLoads_carts (s : State) (f : Load → Load) : (s.mapLoads f).carts = s.carts := rfl
@[simp] theorem State.mapLoads_su (s : State) (f : Load → Load) : (s.mapLoads f).su = s.su := rfl
@[simp] theorem State.mapLoads_freeIdx (s : State) (f : Load → Load) :
    (s.mapLoads f).freeIdx = s.freeIdx := rfl
@[simp] theorem State.mapLoads_pending (s : State) (f : Load → Load) :
    (s.mapLoads f).pending = s.pending := rfl
@[simp] theorem State.retarget_lu (s : State) (m : Nat) (x : Target) : (s.retarget m x).lu = s.lu := rfl
@[simp] theorem State.retarget_cu (s : State) (m : Nat) (x : Target) : (s.retarget m x).cu = s.cu := rfl
@[simp] theorem State.retarget_sailings (s : State) (m : Nat) (x : Target) :
    (s.retarget m x).sailings = s.sailings := rfl
@[simp] theorem State.retarget_manifest (s : State) (m : Nat) (x : Target) :
    (s.retarget m x).manifest = s.manifest := rfl
@[simp] theorem State.retarget_groups (s : State) (m : Nat) (x : Target) :
    (s.retarget m x).groups = s.groups := rfl
@[simp] theorem State.retarget_lt (s : State) (m : Nat) (x : Target) : (s.retarget m x).lt = s.lt := rfl
@[simp] theorem State.retarget_chutes (s : State) (m : Nat) (x : Target) :
    (s.retarget m x).chutes = s.chutes := rfl
@[simp] theorem State.retarget_carts (s : State) (m : Nat) (x : Target) :
    (s.retarget m x).carts = s.carts := rfl
@[simp] theorem State.retarget_su (s : State) (m : Nat) (x : Target) : (s.retarget m x).su = s.su := rfl
@[simp] theorem State.retarget_freeIdx (s : State) (m : Nat) (x : Target) :
    (s.retarget m x).freeIdx = s.freeIdx := rfl
@[simp] theorem State.retarget_pending (s : State) (m : Nat) (x : Target) :
    (s.retarget m x).pending = s.pending := rfl

/-! The line -/
@[simp] theorem State.setOverrun_cu (s : State) : (s.setOverrun).cu = s.cu := rfl
@[simp] theorem State.setOverrun_sailings (s : State) : (s.setOverrun).sailings = s.sailings := rfl
@[simp] theorem State.setOverrun_manifest (s : State) : (s.setOverrun).manifest = s.manifest := rfl
@[simp] theorem State.setOverrun_groups (s : State) : (s.setOverrun).groups = s.groups := rfl
@[simp] theorem State.setOverrun_stations (s : State) : (s.setOverrun).stations = s.stations := rfl
@[simp] theorem State.setOverrun_lt (s : State) : (s.setOverrun).lt = s.lt := rfl
@[simp] theorem State.setOverrun_trays (s : State) : (s.setOverrun).trays = s.trays := rfl
@[simp] theorem State.setOverrun_chutes (s : State) : (s.setOverrun).chutes = s.chutes := rfl
@[simp] theorem State.setOverrun_carts (s : State) : (s.setOverrun).carts = s.carts := rfl
@[simp] theorem State.setOverrun_su (s : State) : (s.setOverrun).su = s.su := rfl
@[simp] theorem State.setOverrun_freeIdx (s : State) : (s.setOverrun).freeIdx = s.freeIdx := rfl
@[simp] theorem State.setOverrun_pending (s : State) : (s.setOverrun).pending = s.pending := rfl
@[simp] theorem State.setOverrun_lu_node (s : State) : (s.setOverrun).lu.node = s.lu.node := rfl
@[simp] theorem State.setOverrun_lu_supRx (s : State) : (s.setOverrun).lu.supRx = s.lu.supRx := rfl
@[simp] theorem State.setOverrun_lu_fldRx (s : State) : (s.setOverrun).lu.fldRx = s.lu.fldRx := rfl
@[simp] theorem State.setOverrun_lu_supTx (s : State) : (s.setOverrun).lu.supTx = s.lu.supTx := rfl
@[simp] theorem State.setOverrun_lu_fldTx (s : State) : (s.setOverrun).lu.fldTx = s.lu.fldTx := rfl
@[simp] theorem State.setOverrun_lu_clock (s : State) : (s.setOverrun).lu.clock = s.lu.clock := rfl
@[simp] theorem State.setOverrun_lu_loopRun (s : State) : (s.setOverrun).lu.loopRun = s.lu.loopRun := rfl
@[simp] theorem State.setOverrun_lu_occ (s : State) : (s.setOverrun).lu.occ = s.lu.occ := rfl
@[simp] theorem State.setOverrun_overrun (s : State) : s.setOverrun.lu.overrun = true := rfl
@[simp] theorem State.clearFlags_cu (s : State) : (s.clearFlags).cu = s.cu := rfl
@[simp] theorem State.clearFlags_sailings (s : State) : (s.clearFlags).sailings = s.sailings := rfl
@[simp] theorem State.clearFlags_manifest (s : State) : (s.clearFlags).manifest = s.manifest := rfl
@[simp] theorem State.clearFlags_groups (s : State) : (s.clearFlags).groups = s.groups := rfl
@[simp] theorem State.clearFlags_stations (s : State) : (s.clearFlags).stations = s.stations := rfl
@[simp] theorem State.clearFlags_lt (s : State) : (s.clearFlags).lt = s.lt := rfl
@[simp] theorem State.clearFlags_trays (s : State) : (s.clearFlags).trays = s.trays := rfl
@[simp] theorem State.clearFlags_chutes (s : State) : (s.clearFlags).chutes = s.chutes := rfl
@[simp] theorem State.clearFlags_carts (s : State) : (s.clearFlags).carts = s.carts := rfl
@[simp] theorem State.clearFlags_su (s : State) : (s.clearFlags).su = s.su := rfl
@[simp] theorem State.clearFlags_freeIdx (s : State) : (s.clearFlags).freeIdx = s.freeIdx := rfl
@[simp] theorem State.clearFlags_pending (s : State) : (s.clearFlags).pending = s.pending := rfl
@[simp] theorem State.clearFlags_lu_node (s : State) : (s.clearFlags).lu.node = s.lu.node := rfl
@[simp] theorem State.clearFlags_lu_supTx (s : State) : (s.clearFlags).lu.supTx = s.lu.supTx := rfl
@[simp] theorem State.clearFlags_lu_fldTx (s : State) : (s.clearFlags).lu.fldTx = s.lu.fldTx := rfl
@[simp] theorem State.clearFlags_lu_clock (s : State) : (s.clearFlags).lu.clock = s.lu.clock := rfl
@[simp] theorem State.clearFlags_lu_loopRun (s : State) : (s.clearFlags).lu.loopRun = s.lu.loopRun := rfl
@[simp] theorem State.clearFlags_lu_occ (s : State) : (s.clearFlags).lu.occ = s.lu.occ := rfl
@[simp] theorem State.report_cu (s : State) (k : Nat) (p : List Byte) : (s.report k p).cu = s.cu := by
  unfold State.report; split <;> rfl
@[simp] theorem State.report_sailings (s : State) (k : Nat) (p : List Byte) :
    (s.report k p).sailings = s.sailings := by
  unfold State.report; split <;> rfl
@[simp] theorem State.report_manifest (s : State) (k : Nat) (p : List Byte) :
    (s.report k p).manifest = s.manifest := by
  unfold State.report; split <;> rfl
@[simp] theorem State.report_groups (s : State) (k : Nat) (p : List Byte) :
    (s.report k p).groups = s.groups := by
  unfold State.report; split <;> rfl
@[simp] theorem State.report_stations (s : State) (k : Nat) (p : List Byte) :
    (s.report k p).stations = s.stations := by
  unfold State.report; split <;> rfl
@[simp] theorem State.report_lt (s : State) (k : Nat) (p : List Byte) : (s.report k p).lt = s.lt := by
  unfold State.report; split <;> rfl
@[simp] theorem State.report_trays (s : State) (k : Nat) (p : List Byte) :
    (s.report k p).trays = s.trays := by
  unfold State.report; split <;> rfl
@[simp] theorem State.report_chutes (s : State) (k : Nat) (p : List Byte) :
    (s.report k p).chutes = s.chutes := by
  unfold State.report; split <;> rfl
@[simp] theorem State.report_carts (s : State) (k : Nat) (p : List Byte) :
    (s.report k p).carts = s.carts := by
  unfold State.report; split <;> rfl
@[simp] theorem State.report_su (s : State) (k : Nat) (p : List Byte) : (s.report k p).su = s.su := by
  unfold State.report; split <;> rfl
@[simp] theorem State.report_freeIdx (s : State) (k : Nat) (p : List Byte) :
    (s.report k p).freeIdx = s.freeIdx := by
  unfold State.report; split <;> rfl
@[simp] theorem State.report_pending (s : State) (k : Nat) (p : List Byte) :
    (s.report k p).pending = s.pending := by
  unfold State.report; split <;> rfl
@[simp] theorem State.report_lu_node (s : State) (k : Nat) (p : List Byte) :
    (s.report k p).lu.node = s.lu.node := by
  unfold State.report; split <;> rfl
@[simp] theorem State.report_lu_supRx (s : State) (k : Nat) (p : List Byte) :
    (s.report k p).lu.supRx = s.lu.supRx := by
  unfold State.report; split <;> rfl
@[simp] theorem State.report_lu_fldRx (s : State) (k : Nat) (p : List Byte) :
    (s.report k p).lu.fldRx = s.lu.fldRx := by
  unfold State.report; split <;> rfl
@[simp] theorem State.report_lu_fldTx (s : State) (k : Nat) (p : List Byte) :
    (s.report k p).lu.fldTx = s.lu.fldTx := by
  unfold State.report; split <;> rfl
@[simp] theorem State.report_lu_clock (s : State) (k : Nat) (p : List Byte) :
    (s.report k p).lu.clock = s.lu.clock := by
  unfold State.report; split <;> rfl
@[simp] theorem State.report_lu_loopRun (s : State) (k : Nat) (p : List Byte) :
    (s.report k p).lu.loopRun = s.lu.loopRun := by
  unfold State.report; split <;> rfl
@[simp] theorem State.report_lu_occ (s : State) (k : Nat) (p : List Byte) :
    (s.report k p).lu.occ = s.lu.occ := by
  unfold State.report; split <;> rfl
@[simp] theorem State.reply_cu (s : State) (d k : Byte) (c : Code) (p : List Byte) :
    (s.reply d k c p).cu = s.cu := by
  unfold State.reply; split <;> rfl
@[simp] theorem State.reply_sailings (s : State) (d k : Byte) (c : Code) (p : List Byte) :
    (s.reply d k c p).sailings = s.sailings := by
  unfold State.reply; split <;> rfl
@[simp] theorem State.reply_manifest (s : State) (d k : Byte) (c : Code) (p : List Byte) :
    (s.reply d k c p).manifest = s.manifest := by
  unfold State.reply; split <;> rfl
@[simp] theorem State.reply_groups (s : State) (d k : Byte) (c : Code) (p : List Byte) :
    (s.reply d k c p).groups = s.groups := by
  unfold State.reply; split <;> rfl
@[simp] theorem State.reply_stations (s : State) (d k : Byte) (c : Code) (p : List Byte) :
    (s.reply d k c p).stations = s.stations := by
  unfold State.reply; split <;> rfl
@[simp] theorem State.reply_lt (s : State) (d k : Byte) (c : Code) (p : List Byte) :
    (s.reply d k c p).lt = s.lt := by
  unfold State.reply; split <;> rfl
@[simp] theorem State.reply_trays (s : State) (d k : Byte) (c : Code) (p : List Byte) :
    (s.reply d k c p).trays = s.trays := by
  unfold State.reply; split <;> rfl
@[simp] theorem State.reply_chutes (s : State) (d k : Byte) (c : Code) (p : List Byte) :
    (s.reply d k c p).chutes = s.chutes := by
  unfold State.reply; split <;> rfl
@[simp] theorem State.reply_carts (s : State) (d k : Byte) (c : Code) (p : List Byte) :
    (s.reply d k c p).carts = s.carts := by
  unfold State.reply; split <;> rfl
@[simp] theorem State.reply_su (s : State) (d k : Byte) (c : Code) (p : List Byte) :
    (s.reply d k c p).su = s.su := by
  unfold State.reply; split <;> rfl
@[simp] theorem State.reply_freeIdx (s : State) (d k : Byte) (c : Code) (p : List Byte) :
    (s.reply d k c p).freeIdx = s.freeIdx := by
  unfold State.reply; split <;> rfl
@[simp] theorem State.reply_pending (s : State) (d k : Byte) (c : Code) (p : List Byte) :
    (s.reply d k c p).pending = s.pending := by
  unfold State.reply; split <;> rfl
@[simp] theorem State.reply_lu_node (s : State) (d k : Byte) (c : Code) (p : List Byte) :
    (s.reply d k c p).lu.node = s.lu.node := by
  unfold State.reply; split <;> rfl
@[simp] theorem State.reply_lu_supRx (s : State) (d k : Byte) (c : Code) (p : List Byte) :
    (s.reply d k c p).lu.supRx = s.lu.supRx := by
  unfold State.reply; split <;> rfl
@[simp] theorem State.reply_lu_fldRx (s : State) (d k : Byte) (c : Code) (p : List Byte) :
    (s.reply d k c p).lu.fldRx = s.lu.fldRx := by
  unfold State.reply; split <;> rfl
@[simp] theorem State.reply_lu_fldTx (s : State) (d k : Byte) (c : Code) (p : List Byte) :
    (s.reply d k c p).lu.fldTx = s.lu.fldTx := by
  unfold State.reply; split <;> rfl
@[simp] theorem State.reply_lu_overrun (s : State) (d k : Byte) (c : Code) (p : List Byte) :
    (s.reply d k c p).lu.overrun = s.lu.overrun := by
  unfold State.reply; split <;> rfl
@[simp] theorem State.reply_lu_clock (s : State) (d k : Byte) (c : Code) (p : List Byte) :
    (s.reply d k c p).lu.clock = s.lu.clock := by
  unfold State.reply; split <;> rfl
@[simp] theorem State.reply_lu_loopRun (s : State) (d k : Byte) (c : Code) (p : List Byte) :
    (s.reply d k c p).lu.loopRun = s.lu.loopRun := by
  unfold State.reply; split <;> rfl
@[simp] theorem State.reply_lu_occ (s : State) (d k : Byte) (c : Code) (p : List Byte) :
    (s.reply d k c p).lu.occ = s.lu.occ := by
  unfold State.reply; split <;> rfl
@[simp] theorem State.order_cu (s : State) (d : Byte) (k : Nat) (p : List Byte) :
    (s.order d k p).cu = s.cu := by
  unfold State.order; split <;> rfl
@[simp] theorem State.order_sailings (s : State) (d : Byte) (k : Nat) (p : List Byte) :
    (s.order d k p).sailings = s.sailings := by
  unfold State.order; split <;> rfl
@[simp] theorem State.order_manifest (s : State) (d : Byte) (k : Nat) (p : List Byte) :
    (s.order d k p).manifest = s.manifest := by
  unfold State.order; split <;> rfl
@[simp] theorem State.order_groups (s : State) (d : Byte) (k : Nat) (p : List Byte) :
    (s.order d k p).groups = s.groups := by
  unfold State.order; split <;> rfl
@[simp] theorem State.order_stations (s : State) (d : Byte) (k : Nat) (p : List Byte) :
    (s.order d k p).stations = s.stations := by
  unfold State.order; split <;> rfl
@[simp] theorem State.order_lt (s : State) (d : Byte) (k : Nat) (p : List Byte) :
    (s.order d k p).lt = s.lt := by
  unfold State.order; split <;> rfl
@[simp] theorem State.order_trays (s : State) (d : Byte) (k : Nat) (p : List Byte) :
    (s.order d k p).trays = s.trays := by
  unfold State.order; split <;> rfl
@[simp] theorem State.order_chutes (s : State) (d : Byte) (k : Nat) (p : List Byte) :
    (s.order d k p).chutes = s.chutes := by
  unfold State.order; split <;> rfl
@[simp] theorem State.order_carts (s : State) (d : Byte) (k : Nat) (p : List Byte) :
    (s.order d k p).carts = s.carts := by
  unfold State.order; split <;> rfl
@[simp] theorem State.order_su (s : State) (d : Byte) (k : Nat) (p : List Byte) :
    (s.order d k p).su = s.su := by
  unfold State.order; split <;> rfl
@[simp] theorem State.order_freeIdx (s : State) (d : Byte) (k : Nat) (p : List Byte) :
    (s.order d k p).freeIdx = s.freeIdx := by
  unfold State.order; split <;> rfl
@[simp] theorem State.order_pending (s : State) (d : Byte) (k : Nat) (p : List Byte) :
    (s.order d k p).pending = s.pending := by
  unfold State.order; split <;> rfl
@[simp] theorem State.order_lu_node (s : State) (d : Byte) (k : Nat) (p : List Byte) :
    (s.order d k p).lu.node = s.lu.node := by
  unfold State.order; split <;> rfl
@[simp] theorem State.order_lu_supRx (s : State) (d : Byte) (k : Nat) (p : List Byte) :
    (s.order d k p).lu.supRx = s.lu.supRx := by
  unfold State.order; split <;> rfl
@[simp] theorem State.order_lu_fldRx (s : State) (d : Byte) (k : Nat) (p : List Byte) :
    (s.order d k p).lu.fldRx = s.lu.fldRx := by
  unfold State.order; split <;> rfl
@[simp] theorem State.order_lu_supTx (s : State) (d : Byte) (k : Nat) (p : List Byte) :
    (s.order d k p).lu.supTx = s.lu.supTx := by
  unfold State.order; split <;> rfl
@[simp] theorem State.order_lu_overrun (s : State) (d : Byte) (k : Nat) (p : List Byte) :
    (s.order d k p).lu.overrun = s.lu.overrun := by
  unfold State.order; split <;> rfl
@[simp] theorem State.order_lu_clock (s : State) (d : Byte) (k : Nat) (p : List Byte) :
    (s.order d k p).lu.clock = s.lu.clock := by
  unfold State.order; split <;> rfl
@[simp] theorem State.order_lu_loopRun (s : State) (d : Byte) (k : Nat) (p : List Byte) :
    (s.order d k p).lu.loopRun = s.lu.loopRun := by
  unfold State.order; split <;> rfl
@[simp] theorem State.order_lu_occ (s : State) (d : Byte) (k : Nat) (p : List Byte) :
    (s.order d k p).lu.occ = s.lu.occ := by
  unfold State.order; split <;> rfl
@[simp] theorem State.setRx_cu (s : State) (port : Port) (r : Receiver) : (s.setRx port r).cu = s.cu := by
  cases port <;> rfl
@[simp] theorem State.setRx_sailings (s : State) (port : Port) (r : Receiver) :
    (s.setRx port r).sailings = s.sailings := by
  cases port <;> rfl
@[simp] theorem State.setRx_manifest (s : State) (port : Port) (r : Receiver) :
    (s.setRx port r).manifest = s.manifest := by
  cases port <;> rfl
@[simp] theorem State.setRx_groups (s : State) (port : Port) (r : Receiver) :
    (s.setRx port r).groups = s.groups := by
  cases port <;> rfl
@[simp] theorem State.setRx_stations (s : State) (port : Port) (r : Receiver) :
    (s.setRx port r).stations = s.stations := by
  cases port <;> rfl
@[simp] theorem State.setRx_lt (s : State) (port : Port) (r : Receiver) : (s.setRx port r).lt = s.lt := by
  cases port <;> rfl
@[simp] theorem State.setRx_trays (s : State) (port : Port) (r : Receiver) :
    (s.setRx port r).trays = s.trays := by
  cases port <;> rfl
@[simp] theorem State.setRx_chutes (s : State) (port : Port) (r : Receiver) :
    (s.setRx port r).chutes = s.chutes := by
  cases port <;> rfl
@[simp] theorem State.setRx_carts (s : State) (port : Port) (r : Receiver) :
    (s.setRx port r).carts = s.carts := by
  cases port <;> rfl
@[simp] theorem State.setRx_su (s : State) (port : Port) (r : Receiver) : (s.setRx port r).su = s.su := by
  cases port <;> rfl
@[simp] theorem State.setRx_freeIdx (s : State) (port : Port) (r : Receiver) :
    (s.setRx port r).freeIdx = s.freeIdx := by
  cases port <;> rfl
@[simp] theorem State.setRx_pending (s : State) (port : Port) (r : Receiver) :
    (s.setRx port r).pending = s.pending := by
  cases port <;> rfl
@[simp] theorem State.setRx_lu_node (s : State) (port : Port) (r : Receiver) :
    (s.setRx port r).lu.node = s.lu.node := by
  cases port <;> rfl
@[simp] theorem State.setRx_lu_supTx (s : State) (port : Port) (r : Receiver) :
    (s.setRx port r).lu.supTx = s.lu.supTx := by
  cases port <;> rfl
@[simp] theorem State.setRx_lu_fldTx (s : State) (port : Port) (r : Receiver) :
    (s.setRx port r).lu.fldTx = s.lu.fldTx := by
  cases port <;> rfl
@[simp] theorem State.setRx_lu_overrun (s : State) (port : Port) (r : Receiver) :
    (s.setRx port r).lu.overrun = s.lu.overrun := by
  cases port <;> rfl
@[simp] theorem State.setRx_lu_clock (s : State) (port : Port) (r : Receiver) :
    (s.setRx port r).lu.clock = s.lu.clock := by
  cases port <;> rfl
@[simp] theorem State.setRx_lu_loopRun (s : State) (port : Port) (r : Receiver) :
    (s.setRx port r).lu.loopRun = s.lu.loopRun := by
  cases port <;> rfl
@[simp] theorem State.setRx_lu_occ (s : State) (port : Port) (r : Receiver) :
    (s.setRx port r).lu.occ = s.lu.occ := by
  cases port <;> rfl
@[simp] theorem State.supSend_cu (s : State) (f : Frame) : (s.supSend f).cu = s.cu := rfl
@[simp] theorem State.supSend_sailings (s : State) (f : Frame) : (s.supSend f).sailings = s.sailings := rfl
@[simp] theorem State.supSend_manifest (s : State) (f : Frame) : (s.supSend f).manifest = s.manifest := rfl
@[simp] theorem State.supSend_groups (s : State) (f : Frame) : (s.supSend f).groups = s.groups := rfl
@[simp] theorem State.supSend_stations (s : State) (f : Frame) : (s.supSend f).stations = s.stations := rfl
@[simp] theorem State.supSend_lt (s : State) (f : Frame) : (s.supSend f).lt = s.lt := rfl
@[simp] theorem State.supSend_trays (s : State) (f : Frame) : (s.supSend f).trays = s.trays := rfl
@[simp] theorem State.supSend_chutes (s : State) (f : Frame) : (s.supSend f).chutes = s.chutes := rfl
@[simp] theorem State.supSend_carts (s : State) (f : Frame) : (s.supSend f).carts = s.carts := rfl
@[simp] theorem State.supSend_su (s : State) (f : Frame) : (s.supSend f).su = s.su := rfl
@[simp] theorem State.supSend_freeIdx (s : State) (f : Frame) : (s.supSend f).freeIdx = s.freeIdx := rfl
@[simp] theorem State.supSend_pending (s : State) (f : Frame) : (s.supSend f).pending = s.pending := rfl
@[simp] theorem State.supSend_lu_node (s : State) (f : Frame) : (s.supSend f).lu.node = s.lu.node := rfl
@[simp] theorem State.supSend_lu_supRx (s : State) (f : Frame) : (s.supSend f).lu.supRx = s.lu.supRx := rfl
@[simp] theorem State.supSend_lu_fldRx (s : State) (f : Frame) : (s.supSend f).lu.fldRx = s.lu.fldRx := rfl
@[simp] theorem State.supSend_lu_fldTx (s : State) (f : Frame) : (s.supSend f).lu.fldTx = s.lu.fldTx := rfl
@[simp] theorem State.supSend_lu_overrun (s : State) (f : Frame) :
    (s.supSend f).lu.overrun = s.lu.overrun := rfl
@[simp] theorem State.supSend_lu_clock (s : State) (f : Frame) : (s.supSend f).lu.clock = s.lu.clock := rfl
@[simp] theorem State.supSend_lu_loopRun (s : State) (f : Frame) :
    (s.supSend f).lu.loopRun = s.lu.loopRun := rfl
@[simp] theorem State.supSend_lu_occ (s : State) (f : Frame) : (s.supSend f).lu.occ = s.lu.occ := rfl
@[simp] theorem State.fldSend_cu (s : State) (f : Frame) : (s.fldSend f).cu = s.cu := rfl
@[simp] theorem State.fldSend_sailings (s : State) (f : Frame) : (s.fldSend f).sailings = s.sailings := rfl
@[simp] theorem State.fldSend_manifest (s : State) (f : Frame) : (s.fldSend f).manifest = s.manifest := rfl
@[simp] theorem State.fldSend_groups (s : State) (f : Frame) : (s.fldSend f).groups = s.groups := rfl
@[simp] theorem State.fldSend_stations (s : State) (f : Frame) : (s.fldSend f).stations = s.stations := rfl
@[simp] theorem State.fldSend_lt (s : State) (f : Frame) : (s.fldSend f).lt = s.lt := rfl
@[simp] theorem State.fldSend_trays (s : State) (f : Frame) : (s.fldSend f).trays = s.trays := rfl
@[simp] theorem State.fldSend_chutes (s : State) (f : Frame) : (s.fldSend f).chutes = s.chutes := rfl
@[simp] theorem State.fldSend_carts (s : State) (f : Frame) : (s.fldSend f).carts = s.carts := rfl
@[simp] theorem State.fldSend_su (s : State) (f : Frame) : (s.fldSend f).su = s.su := rfl
@[simp] theorem State.fldSend_freeIdx (s : State) (f : Frame) : (s.fldSend f).freeIdx = s.freeIdx := rfl
@[simp] theorem State.fldSend_pending (s : State) (f : Frame) : (s.fldSend f).pending = s.pending := rfl
@[simp] theorem State.fldSend_lu_node (s : State) (f : Frame) : (s.fldSend f).lu.node = s.lu.node := rfl
@[simp] theorem State.fldSend_lu_supRx (s : State) (f : Frame) : (s.fldSend f).lu.supRx = s.lu.supRx := rfl
@[simp] theorem State.fldSend_lu_fldRx (s : State) (f : Frame) : (s.fldSend f).lu.fldRx = s.lu.fldRx := rfl
@[simp] theorem State.fldSend_lu_supTx (s : State) (f : Frame) : (s.fldSend f).lu.supTx = s.lu.supTx := rfl
@[simp] theorem State.fldSend_lu_overrun (s : State) (f : Frame) :
    (s.fldSend f).lu.overrun = s.lu.overrun := rfl
@[simp] theorem State.fldSend_lu_clock (s : State) (f : Frame) : (s.fldSend f).lu.clock = s.lu.clock := rfl
@[simp] theorem State.fldSend_lu_loopRun (s : State) (f : Frame) :
    (s.fldSend f).lu.loopRun = s.lu.loopRun := rfl
@[simp] theorem State.fldSend_lu_occ (s : State) (f : Frame) : (s.fldSend f).lu.occ = s.lu.occ := rfl
@[simp] theorem State.withPending_lu (s : State) (q : List Instr) : (s.withPending q).lu = s.lu := rfl
@[simp] theorem State.withPending_cu (s : State) (q : List Instr) : (s.withPending q).cu = s.cu := rfl
@[simp] theorem State.withPending_sailings (s : State) (q : List Instr) :
    (s.withPending q).sailings = s.sailings := rfl
@[simp] theorem State.withPending_manifest (s : State) (q : List Instr) :
    (s.withPending q).manifest = s.manifest := rfl
@[simp] theorem State.withPending_groups (s : State) (q : List Instr) :
    (s.withPending q).groups = s.groups := rfl
@[simp] theorem State.withPending_stations (s : State) (q : List Instr) :
    (s.withPending q).stations = s.stations := rfl
@[simp] theorem State.withPending_lt (s : State) (q : List Instr) : (s.withPending q).lt = s.lt := rfl
@[simp] theorem State.withPending_trays (s : State) (q : List Instr) :
    (s.withPending q).trays = s.trays := rfl
@[simp] theorem State.withPending_chutes (s : State) (q : List Instr) :
    (s.withPending q).chutes = s.chutes := rfl
@[simp] theorem State.withPending_carts (s : State) (q : List Instr) :
    (s.withPending q).carts = s.carts := rfl
@[simp] theorem State.withPending_su (s : State) (q : List Instr) : (s.withPending q).su = s.su := rfl
@[simp] theorem State.withPending_freeIdx (s : State) (q : List Instr) :
    (s.withPending q).freeIdx = s.freeIdx := rfl
@[simp] theorem State.withPending_pending (s : State) (q : List Instr) :
    (s.withPending q).pending = q := rfl

/-! Stray records -/
@[simp] theorem State.rewriteStray_lu (s : State) (ref : Nat) (o r : Stray) :
    (s.rewriteStray ref o r).lu = s.lu := rfl
@[simp] theorem State.rewriteStray_cu (s : State) (ref : Nat) (o r : Stray) :
    (s.rewriteStray ref o r).cu = s.cu := rfl
@[simp] theorem State.rewriteStray_sailings (s : State) (ref : Nat) (o r : Stray) :
    (s.rewriteStray ref o r).sailings = s.sailings := rfl
@[simp] theorem State.rewriteStray_manifest (s : State) (ref : Nat) (o r : Stray) :
    (s.rewriteStray ref o r).manifest = s.manifest := rfl
@[simp] theorem State.rewriteStray_groups (s : State) (ref : Nat) (o r : Stray) :
    (s.rewriteStray ref o r).groups = s.groups := rfl
@[simp] theorem State.rewriteStray_stations (s : State) (ref : Nat) (o r : Stray) :
    (s.rewriteStray ref o r).stations = s.stations := rfl
@[simp] theorem State.rewriteStray_lt (s : State) (ref : Nat) (o r : Stray) :
    (s.rewriteStray ref o r).lt = s.lt := rfl
@[simp] theorem State.rewriteStray_trays (s : State) (ref : Nat) (o r : Stray) :
    (s.rewriteStray ref o r).trays = s.trays := rfl
@[simp] theorem State.rewriteStray_chutes (s : State) (ref : Nat) (o r : Stray) :
    (s.rewriteStray ref o r).chutes = s.chutes := rfl
@[simp] theorem State.rewriteStray_carts (s : State) (ref : Nat) (o r : Stray) :
    (s.rewriteStray ref o r).carts = s.carts := rfl
@[simp] theorem State.rewriteStray_freeIdx (s : State) (ref : Nat) (o r : Stray) :
    (s.rewriteStray ref o r).freeIdx = s.freeIdx := rfl
@[simp] theorem State.rewriteStray_pending (s : State) (ref : Nat) (o r : Stray) :
    (s.rewriteStray ref o r).pending = s.pending := rfl
@[simp] theorem State.removeStray_lu (s : State) (ref : Nat) : (s.removeStray ref).lu = s.lu := rfl
@[simp] theorem State.removeStray_cu (s : State) (ref : Nat) : (s.removeStray ref).cu = s.cu := rfl
@[simp] theorem State.removeStray_sailings (s : State) (ref : Nat) :
    (s.removeStray ref).sailings = s.sailings := rfl
@[simp] theorem State.removeStray_manifest (s : State) (ref : Nat) :
    (s.removeStray ref).manifest = s.manifest := rfl
@[simp] theorem State.removeStray_groups (s : State) (ref : Nat) :
    (s.removeStray ref).groups = s.groups := rfl
@[simp] theorem State.removeStray_stations (s : State) (ref : Nat) :
    (s.removeStray ref).stations = s.stations := rfl
@[simp] theorem State.removeStray_lt (s : State) (ref : Nat) : (s.removeStray ref).lt = s.lt := rfl
@[simp] theorem State.removeStray_trays (s : State) (ref : Nat) : (s.removeStray ref).trays = s.trays := rfl
@[simp] theorem State.removeStray_chutes (s : State) (ref : Nat) :
    (s.removeStray ref).chutes = s.chutes := rfl
@[simp] theorem State.removeStray_carts (s : State) (ref : Nat) : (s.removeStray ref).carts = s.carts := rfl
@[simp] theorem State.removeStray_freeIdx (s : State) (ref : Nat) :
    (s.removeStray ref).freeIdx = s.freeIdx := rfl
@[simp] theorem State.removeStray_pending (s : State) (ref : Nat) :
    (s.removeStray ref).pending = s.pending := rfl
@[simp] theorem State.moveStray_cu (s : State) (ref : Nat) (f : Stray → Stray) (c : MoveCause) (a : Bool) :
    (s.moveStray ref f c a).cu = s.cu := by
  unfold State.moveStray
  split
  · rfl
  · dsimp only; split <;> simp [State.reportMoved]
@[simp] theorem State.moveStray_sailings (s : State) (ref : Nat) (f : Stray → Stray) (c : MoveCause) (a : Bool) :
    (s.moveStray ref f c a).sailings = s.sailings := by
  unfold State.moveStray
  split
  · rfl
  · dsimp only; split <;> simp [State.reportMoved]
@[simp] theorem State.moveStray_manifest (s : State) (ref : Nat) (f : Stray → Stray) (c : MoveCause) (a : Bool) :
    (s.moveStray ref f c a).manifest = s.manifest := by
  unfold State.moveStray
  split
  · rfl
  · dsimp only; split <;> simp [State.reportMoved]
@[simp] theorem State.moveStray_groups (s : State) (ref : Nat) (f : Stray → Stray) (c : MoveCause) (a : Bool) :
    (s.moveStray ref f c a).groups = s.groups := by
  unfold State.moveStray
  split
  · rfl
  · dsimp only; split <;> simp [State.reportMoved]
@[simp] theorem State.moveStray_stations (s : State) (ref : Nat) (f : Stray → Stray) (c : MoveCause) (a : Bool) :
    (s.moveStray ref f c a).stations = s.stations := by
  unfold State.moveStray
  split
  · rfl
  · dsimp only; split <;> simp [State.reportMoved]
@[simp] theorem State.moveStray_lt (s : State) (ref : Nat) (f : Stray → Stray) (c : MoveCause) (a : Bool) :
    (s.moveStray ref f c a).lt = s.lt := by
  unfold State.moveStray
  split
  · rfl
  · dsimp only; split <;> simp [State.reportMoved]
@[simp] theorem State.moveStray_trays (s : State) (ref : Nat) (f : Stray → Stray) (c : MoveCause) (a : Bool) :
    (s.moveStray ref f c a).trays = s.trays := by
  unfold State.moveStray
  split
  · rfl
  · dsimp only; split <;> simp [State.reportMoved]
@[simp] theorem State.moveStray_chutes (s : State) (ref : Nat) (f : Stray → Stray) (c : MoveCause) (a : Bool) :
    (s.moveStray ref f c a).chutes = s.chutes := by
  unfold State.moveStray
  split
  · rfl
  · dsimp only; split <;> simp [State.reportMoved]
@[simp] theorem State.moveStray_carts (s : State) (ref : Nat) (f : Stray → Stray) (c : MoveCause) (a : Bool) :
    (s.moveStray ref f c a).carts = s.carts := by
  unfold State.moveStray
  split
  · rfl
  · dsimp only; split <;> simp [State.reportMoved]
@[simp] theorem State.moveStray_freeIdx (s : State) (ref : Nat) (f : Stray → Stray) (c : MoveCause) (a : Bool) :
    (s.moveStray ref f c a).freeIdx = s.freeIdx := by
  unfold State.moveStray
  split
  · rfl
  · dsimp only; split <;> simp [State.reportMoved]
@[simp] theorem State.moveStray_pending (s : State) (ref : Nat) (f : Stray → Stray) (c : MoveCause) (a : Bool) :
    (s.moveStray ref f c a).pending = s.pending := by
  unfold State.moveStray
  split
  · rfl
  · dsimp only; split <;> simp [State.reportMoved]
@[simp] theorem State.moveStray_lu_node (s : State) (ref : Nat) (f : Stray → Stray) (c : MoveCause) (a : Bool) :
    (s.moveStray ref f c a).lu.node = s.lu.node := by
  unfold State.moveStray
  split
  · rfl
  · dsimp only; split <;> simp [State.reportMoved]
@[simp] theorem State.moveStray_lu_supRx (s : State) (ref : Nat) (f : Stray → Stray) (c : MoveCause) (a : Bool) :
    (s.moveStray ref f c a).lu.supRx = s.lu.supRx := by
  unfold State.moveStray
  split
  · rfl
  · dsimp only; split <;> simp [State.reportMoved]
@[simp] theorem State.moveStray_lu_fldRx (s : State) (ref : Nat) (f : Stray → Stray) (c : MoveCause) (a : Bool) :
    (s.moveStray ref f c a).lu.fldRx = s.lu.fldRx := by
  unfold State.moveStray
  split
  · rfl
  · dsimp only; split <;> simp [State.reportMoved]
@[simp] theorem State.moveStray_lu_fldTx (s : State) (ref : Nat) (f : Stray → Stray) (c : MoveCause) (a : Bool) :
    (s.moveStray ref f c a).lu.fldTx = s.lu.fldTx := by
  unfold State.moveStray
  split
  · rfl
  · dsimp only; split <;> simp [State.reportMoved]
@[simp] theorem State.moveStray_lu_clock (s : State) (ref : Nat) (f : Stray → Stray) (c : MoveCause) (a : Bool) :
    (s.moveStray ref f c a).lu.clock = s.lu.clock := by
  unfold State.moveStray
  split
  · rfl
  · dsimp only; split <;> simp [State.reportMoved]
@[simp] theorem State.moveStray_lu_loopRun (s : State) (ref : Nat) (f : Stray → Stray) (c : MoveCause) (a : Bool) :
    (s.moveStray ref f c a).lu.loopRun = s.lu.loopRun := by
  unfold State.moveStray
  split
  · rfl
  · dsimp only; split <;> simp [State.reportMoved]
@[simp] theorem State.moveStray_lu_occ (s : State) (ref : Nat) (f : Stray → Stray) (c : MoveCause) (a : Bool) :
    (s.moveStray ref f c a).lu.occ = s.lu.occ := by
  unfold State.moveStray
  split
  · rfl
  · dsimp only; split <;> simp [State.reportMoved]
@[simp] theorem State.closeStray_cu (s : State) (ref : Nat) (o : StrayOutcome) (c : Option Nat) :
    (s.closeStray ref o c).cu = s.cu := by
  unfold State.closeStray; split <;> simp
@[simp] theorem State.closeStray_sailings (s : State) (ref : Nat) (o : StrayOutcome) (c : Option Nat) :
    (s.closeStray ref o c).sailings = s.sailings := by
  unfold State.closeStray; split <;> simp
@[simp] theorem State.closeStray_manifest (s : State) (ref : Nat) (o : StrayOutcome) (c : Option Nat) :
    (s.closeStray ref o c).manifest = s.manifest := by
  unfold State.closeStray; split <;> simp
@[simp] theorem State.closeStray_groups (s : State) (ref : Nat) (o : StrayOutcome) (c : Option Nat) :
    (s.closeStray ref o c).groups = s.groups := by
  unfold State.closeStray; split <;> simp
@[simp] theorem State.closeStray_stations (s : State) (ref : Nat) (o : StrayOutcome) (c : Option Nat) :
    (s.closeStray ref o c).stations = s.stations := by
  unfold State.closeStray; split <;> simp
@[simp] theorem State.closeStray_lt (s : State) (ref : Nat) (o : StrayOutcome) (c : Option Nat) :
    (s.closeStray ref o c).lt = s.lt := by
  unfold State.closeStray; split <;> simp
@[simp] theorem State.closeStray_trays (s : State) (ref : Nat) (o : StrayOutcome) (c : Option Nat) :
    (s.closeStray ref o c).trays = s.trays := by
  unfold State.closeStray; split <;> simp
@[simp] theorem State.closeStray_chutes (s : State) (ref : Nat) (o : StrayOutcome) (c : Option Nat) :
    (s.closeStray ref o c).chutes = s.chutes := by
  unfold State.closeStray; split <;> simp
@[simp] theorem State.closeStray_carts (s : State) (ref : Nat) (o : StrayOutcome) (c : Option Nat) :
    (s.closeStray ref o c).carts = s.carts := by
  unfold State.closeStray; split <;> simp
@[simp] theorem State.closeStray_freeIdx (s : State) (ref : Nat) (o : StrayOutcome) (c : Option Nat) :
    (s.closeStray ref o c).freeIdx = s.freeIdx := by
  unfold State.closeStray; split <;> simp
@[simp] theorem State.closeStray_pending (s : State) (ref : Nat) (o : StrayOutcome) (c : Option Nat) :
    (s.closeStray ref o c).pending = s.pending := by
  unfold State.closeStray; split <;> simp
@[simp] theorem State.closeStray_lu_node (s : State) (ref : Nat) (o : StrayOutcome) (c : Option Nat) :
    (s.closeStray ref o c).lu.node = s.lu.node := by
  unfold State.closeStray; split <;> simp
@[simp] theorem State.closeStray_lu_supRx (s : State) (ref : Nat) (o : StrayOutcome) (c : Option Nat) :
    (s.closeStray ref o c).lu.supRx = s.lu.supRx := by
  unfold State.closeStray; split <;> simp
@[simp] theorem State.closeStray_lu_fldRx (s : State) (ref : Nat) (o : StrayOutcome) (c : Option Nat) :
    (s.closeStray ref o c).lu.fldRx = s.lu.fldRx := by
  unfold State.closeStray; split <;> simp
@[simp] theorem State.closeStray_lu_fldTx (s : State) (ref : Nat) (o : StrayOutcome) (c : Option Nat) :
    (s.closeStray ref o c).lu.fldTx = s.lu.fldTx := by
  unfold State.closeStray; split <;> simp
@[simp] theorem State.closeStray_lu_clock (s : State) (ref : Nat) (o : StrayOutcome) (c : Option Nat) :
    (s.closeStray ref o c).lu.clock = s.lu.clock := by
  unfold State.closeStray; split <;> simp
@[simp] theorem State.closeStray_lu_loopRun (s : State) (ref : Nat) (o : StrayOutcome) (c : Option Nat) :
    (s.closeStray ref o c).lu.loopRun = s.lu.loopRun := by
  unfold State.closeStray; split <;> simp
@[simp] theorem State.closeStray_lu_occ (s : State) (ref : Nat) (o : StrayOutcome) (c : Option Nat) :
    (s.closeStray ref o c).lu.occ = s.lu.occ := by
  unfold State.closeStray; split <;> simp
@[simp] theorem State.openStray_cu (s : State) (r : Stray) (c : OpenCause) :
    ((s.openStray r c).1).cu = s.cu := by
  unfold State.openStray
  split
  · rfl
  · dsimp only; split <;> simp [State.reportTableFull, State.reportOpened]
@[simp] theorem State.openStray_sailings (s : State) (r : Stray) (c : OpenCause) :
    ((s.openStray r c).1).sailings = s.sailings := by
  unfold State.openStray
  split
  · rfl
  · dsimp only; split <;> simp [State.reportTableFull, State.reportOpened]
@[simp] theorem State.openStray_manifest (s : State) (r : Stray) (c : OpenCause) :
    ((s.openStray r c).1).manifest = s.manifest := by
  unfold State.openStray
  split
  · rfl
  · dsimp only; split <;> simp [State.reportTableFull, State.reportOpened]
@[simp] theorem State.openStray_groups (s : State) (r : Stray) (c : OpenCause) :
    ((s.openStray r c).1).groups = s.groups := by
  unfold State.openStray
  split
  · rfl
  · dsimp only; split <;> simp [State.reportTableFull, State.reportOpened]
@[simp] theorem State.openStray_stations (s : State) (r : Stray) (c : OpenCause) :
    ((s.openStray r c).1).stations = s.stations := by
  unfold State.openStray
  split
  · rfl
  · dsimp only; split <;> simp [State.reportTableFull, State.reportOpened]
@[simp] theorem State.openStray_lt (s : State) (r : Stray) (c : OpenCause) :
    ((s.openStray r c).1).lt = s.lt := by
  unfold State.openStray
  split
  · rfl
  · dsimp only; split <;> simp [State.reportTableFull, State.reportOpened]
@[simp] theorem State.openStray_trays (s : State) (r : Stray) (c : OpenCause) :
    ((s.openStray r c).1).trays = s.trays := by
  unfold State.openStray
  split
  · rfl
  · dsimp only; split <;> simp [State.reportTableFull, State.reportOpened]
@[simp] theorem State.openStray_chutes (s : State) (r : Stray) (c : OpenCause) :
    ((s.openStray r c).1).chutes = s.chutes := by
  unfold State.openStray
  split
  · rfl
  · dsimp only; split <;> simp [State.reportTableFull, State.reportOpened]
@[simp] theorem State.openStray_carts (s : State) (r : Stray) (c : OpenCause) :
    ((s.openStray r c).1).carts = s.carts := by
  unfold State.openStray
  split
  · rfl
  · dsimp only; split <;> simp [State.reportTableFull, State.reportOpened]
@[simp] theorem State.openStray_freeIdx (s : State) (r : Stray) (c : OpenCause) :
    ((s.openStray r c).1).freeIdx = s.freeIdx := by
  unfold State.openStray
  split
  · rfl
  · dsimp only; split <;> simp [State.reportTableFull, State.reportOpened]
@[simp] theorem State.openStray_pending (s : State) (r : Stray) (c : OpenCause) :
    ((s.openStray r c).1).pending = s.pending := by
  unfold State.openStray
  split
  · rfl
  · dsimp only; split <;> simp [State.reportTableFull, State.reportOpened]
@[simp] theorem State.openStray_lu_node (s : State) (r : Stray) (c : OpenCause) :
    ((s.openStray r c).1).lu.node = s.lu.node := by
  unfold State.openStray
  split
  · rfl
  · dsimp only; split <;> simp [State.reportTableFull, State.reportOpened]
@[simp] theorem State.openStray_lu_supRx (s : State) (r : Stray) (c : OpenCause) :
    ((s.openStray r c).1).lu.supRx = s.lu.supRx := by
  unfold State.openStray
  split
  · rfl
  · dsimp only; split <;> simp [State.reportTableFull, State.reportOpened]
@[simp] theorem State.openStray_lu_fldRx (s : State) (r : Stray) (c : OpenCause) :
    ((s.openStray r c).1).lu.fldRx = s.lu.fldRx := by
  unfold State.openStray
  split
  · rfl
  · dsimp only; split <;> simp [State.reportTableFull, State.reportOpened]
@[simp] theorem State.openStray_lu_fldTx (s : State) (r : Stray) (c : OpenCause) :
    ((s.openStray r c).1).lu.fldTx = s.lu.fldTx := by
  unfold State.openStray
  split
  · rfl
  · dsimp only; split <;> simp [State.reportTableFull, State.reportOpened]
@[simp] theorem State.openStray_lu_clock (s : State) (r : Stray) (c : OpenCause) :
    ((s.openStray r c).1).lu.clock = s.lu.clock := by
  unfold State.openStray
  split
  · rfl
  · dsimp only; split <;> simp [State.reportTableFull, State.reportOpened]
@[simp] theorem State.openStray_lu_loopRun (s : State) (r : Stray) (c : OpenCause) :
    ((s.openStray r c).1).lu.loopRun = s.lu.loopRun := by
  unfold State.openStray
  split
  · rfl
  · dsimp only; split <;> simp [State.reportTableFull, State.reportOpened]
@[simp] theorem State.openStray_lu_occ (s : State) (r : Stray) (c : OpenCause) :
    ((s.openStray r c).1).lu.occ = s.lu.occ := by
  unfold State.openStray
  split
  · rfl
  · dsimp only; split <;> simp [State.reportTableFull, State.reportOpened]

/-! Carts and chutes -/
@[simp] theorem State.reportChute_cu (s : State) (c : Nat) (x : ChuteCause) :
    (s.reportChute c x).cu = s.cu := by
  unfold State.reportChute; split <;> simp
@[simp] theorem State.reportChute_sailings (s : State) (c : Nat) (x : ChuteCause) :
    (s.reportChute c x).sailings = s.sailings := by
  unfold State.reportChute; split <;> simp
@[simp] theorem State.reportChute_manifest (s : State) (c : Nat) (x : ChuteCause) :
    (s.reportChute c x).manifest = s.manifest := by
  unfold State.reportChute; split <;> simp
@[simp] theorem State.reportChute_groups (s : State) (c : Nat) (x : ChuteCause) :
    (s.reportChute c x).groups = s.groups := by
  unfold State.reportChute; split <;> simp
@[simp] theorem State.reportChute_stations (s : State) (c : Nat) (x : ChuteCause) :
    (s.reportChute c x).stations = s.stations := by
  unfold State.reportChute; split <;> simp
@[simp] theorem State.reportChute_lt (s : State) (c : Nat) (x : ChuteCause) :
    (s.reportChute c x).lt = s.lt := by
  unfold State.reportChute; split <;> simp
@[simp] theorem State.reportChute_trays (s : State) (c : Nat) (x : ChuteCause) :
    (s.reportChute c x).trays = s.trays := by
  unfold State.reportChute; split <;> simp
@[simp] theorem State.reportChute_chutes (s : State) (c : Nat) (x : ChuteCause) :
    (s.reportChute c x).chutes = s.chutes := by
  unfold State.reportChute; split <;> simp
@[simp] theorem State.reportChute_carts (s : State) (c : Nat) (x : ChuteCause) :
    (s.reportChute c x).carts = s.carts := by
  unfold State.reportChute; split <;> simp
@[simp] theorem State.reportChute_su (s : State) (c : Nat) (x : ChuteCause) :
    (s.reportChute c x).su = s.su := by
  unfold State.reportChute; split <;> simp
@[simp] theorem State.reportChute_freeIdx (s : State) (c : Nat) (x : ChuteCause) :
    (s.reportChute c x).freeIdx = s.freeIdx := by
  unfold State.reportChute; split <;> simp
@[simp] theorem State.reportChute_pending (s : State) (c : Nat) (x : ChuteCause) :
    (s.reportChute c x).pending = s.pending := by
  unfold State.reportChute; split <;> simp
@[simp] theorem State.reportChute_lu_node (s : State) (c : Nat) (x : ChuteCause) :
    (s.reportChute c x).lu.node = s.lu.node := by
  unfold State.reportChute; split <;> simp
@[simp] theorem State.reportChute_lu_supRx (s : State) (c : Nat) (x : ChuteCause) :
    (s.reportChute c x).lu.supRx = s.lu.supRx := by
  unfold State.reportChute; split <;> simp
@[simp] theorem State.reportChute_lu_fldRx (s : State) (c : Nat) (x : ChuteCause) :
    (s.reportChute c x).lu.fldRx = s.lu.fldRx := by
  unfold State.reportChute; split <;> simp
@[simp] theorem State.reportChute_lu_fldTx (s : State) (c : Nat) (x : ChuteCause) :
    (s.reportChute c x).lu.fldTx = s.lu.fldTx := by
  unfold State.reportChute; split <;> simp
@[simp] theorem State.reportChute_lu_clock (s : State) (c : Nat) (x : ChuteCause) :
    (s.reportChute c x).lu.clock = s.lu.clock := by
  unfold State.reportChute; split <;> simp
@[simp] theorem State.reportChute_lu_loopRun (s : State) (c : Nat) (x : ChuteCause) :
    (s.reportChute c x).lu.loopRun = s.lu.loopRun := by
  unfold State.reportChute; split <;> simp
@[simp] theorem State.reportChute_lu_occ (s : State) (c : Nat) (x : ChuteCause) :
    (s.reportChute c x).lu.occ = s.lu.occ := by
  unfold State.reportChute; split <;> simp
@[simp] theorem State.reportFault_cu (s : State) (c : Nat) (x : FaultCause) (k : Nat) (o i : Option Nat) :
    (s.reportFault c x k o i).cu = s.cu := by
  simp [State.reportFault]
@[simp] theorem State.reportFault_sailings (s : State) (c : Nat) (x : FaultCause) (k : Nat) (o i : Option Nat) :
    (s.reportFault c x k o i).sailings = s.sailings := by
  simp [State.reportFault]
@[simp] theorem State.reportFault_manifest (s : State) (c : Nat) (x : FaultCause) (k : Nat) (o i : Option Nat) :
    (s.reportFault c x k o i).manifest = s.manifest := by
  simp [State.reportFault]
@[simp] theorem State.reportFault_groups (s : State) (c : Nat) (x : FaultCause) (k : Nat) (o i : Option Nat) :
    (s.reportFault c x k o i).groups = s.groups := by
  simp [State.reportFault]
@[simp] theorem State.reportFault_stations (s : State) (c : Nat) (x : FaultCause) (k : Nat) (o i : Option Nat) :
    (s.reportFault c x k o i).stations = s.stations := by
  simp [State.reportFault]
@[simp] theorem State.reportFault_lt (s : State) (c : Nat) (x : FaultCause) (k : Nat) (o i : Option Nat) :
    (s.reportFault c x k o i).lt = s.lt := by
  simp [State.reportFault]
@[simp] theorem State.reportFault_trays (s : State) (c : Nat) (x : FaultCause) (k : Nat) (o i : Option Nat) :
    (s.reportFault c x k o i).trays = s.trays := by
  simp [State.reportFault]
@[simp] theorem State.reportFault_chutes (s : State) (c : Nat) (x : FaultCause) (k : Nat) (o i : Option Nat) :
    (s.reportFault c x k o i).chutes = s.chutes := by
  simp [State.reportFault]
@[simp] theorem State.reportFault_carts (s : State) (c : Nat) (x : FaultCause) (k : Nat) (o i : Option Nat) :
    (s.reportFault c x k o i).carts = s.carts := by
  simp [State.reportFault]
@[simp] theorem State.reportFault_su (s : State) (c : Nat) (x : FaultCause) (k : Nat) (o i : Option Nat) :
    (s.reportFault c x k o i).su = s.su := by
  simp [State.reportFault]
@[simp] theorem State.reportFault_freeIdx (s : State) (c : Nat) (x : FaultCause) (k : Nat) (o i : Option Nat) :
    (s.reportFault c x k o i).freeIdx = s.freeIdx := by
  simp [State.reportFault]
@[simp] theorem State.reportFault_pending (s : State) (c : Nat) (x : FaultCause) (k : Nat) (o i : Option Nat) :
    (s.reportFault c x k o i).pending = s.pending := by
  simp [State.reportFault]
@[simp] theorem State.reportFault_lu_node (s : State) (c : Nat) (x : FaultCause) (k : Nat) (o i : Option Nat) :
    (s.reportFault c x k o i).lu.node = s.lu.node := by
  simp [State.reportFault]
@[simp] theorem State.reportFault_lu_supRx (s : State) (c : Nat) (x : FaultCause) (k : Nat) (o i : Option Nat) :
    (s.reportFault c x k o i).lu.supRx = s.lu.supRx := by
  simp [State.reportFault]
@[simp] theorem State.reportFault_lu_fldRx (s : State) (c : Nat) (x : FaultCause) (k : Nat) (o i : Option Nat) :
    (s.reportFault c x k o i).lu.fldRx = s.lu.fldRx := by
  simp [State.reportFault]
@[simp] theorem State.reportFault_lu_fldTx (s : State) (c : Nat) (x : FaultCause) (k : Nat) (o i : Option Nat) :
    (s.reportFault c x k o i).lu.fldTx = s.lu.fldTx := by
  simp [State.reportFault]
@[simp] theorem State.reportFault_lu_clock (s : State) (c : Nat) (x : FaultCause) (k : Nat) (o i : Option Nat) :
    (s.reportFault c x k o i).lu.clock = s.lu.clock := by
  simp [State.reportFault]
@[simp] theorem State.reportFault_lu_loopRun (s : State) (c : Nat) (x : FaultCause) (k : Nat) (o i : Option Nat) :
    (s.reportFault c x k o i).lu.loopRun = s.lu.loopRun := by
  simp [State.reportFault]
@[simp] theorem State.reportFault_lu_occ (s : State) (c : Nat) (x : FaultCause) (k : Nat) (o i : Option Nat) :
    (s.reportFault c x k o i).lu.occ = s.lu.occ := by
  simp [State.reportFault]
@[simp] theorem State.closeRecord_lu (s : State) (id : Nat) (c : Cart) :
    (s.closeRecord id c).lu = s.lu := rfl
@[simp] theorem State.closeRecord_cu (s : State) (id : Nat) (c : Cart) :
    (s.closeRecord id c).cu = s.cu := rfl
@[simp] theorem State.closeRecord_sailings (s : State) (id : Nat) (c : Cart) :
    (s.closeRecord id c).sailings = s.sailings := rfl
@[simp] theorem State.closeRecord_manifest (s : State) (id : Nat) (c : Cart) :
    (s.closeRecord id c).manifest = s.manifest := rfl
@[simp] theorem State.closeRecord_stations (s : State) (id : Nat) (c : Cart) :
    (s.closeRecord id c).stations = s.stations := rfl
@[simp] theorem State.closeRecord_lt (s : State) (id : Nat) (c : Cart) :
    (s.closeRecord id c).lt = s.lt := rfl
@[simp] theorem State.closeRecord_trays (s : State) (id : Nat) (c : Cart) :
    (s.closeRecord id c).trays = s.trays := rfl
@[simp] theorem State.closeRecord_chutes (s : State) (id : Nat) (c : Cart) :
    (s.closeRecord id c).chutes = s.chutes := rfl
@[simp] theorem State.closeRecord_su (s : State) (id : Nat) (c : Cart) :
    (s.closeRecord id c).su = s.su := rfl
@[simp] theorem State.closeRecord_freeIdx (s : State) (id : Nat) (c : Cart) :
    (s.closeRecord id c).freeIdx = s.freeIdx := rfl
@[simp] theorem State.closeRecord_pending (s : State) (id : Nat) (c : Cart) :
    (s.closeRecord id c).pending = s.pending := rfl
@[simp] theorem State.closeCart_lu (s : State) (id : Nat) : (s.closeCart id).lu = s.lu := by
  unfold State.closeCart
  split
  · rfl
  · split <;> simp
@[simp] theorem State.closeCart_cu (s : State) (id : Nat) : (s.closeCart id).cu = s.cu := by
  unfold State.closeCart
  split
  · rfl
  · split <;> simp
@[simp] theorem State.closeCart_sailings (s : State) (id : Nat) :
    (s.closeCart id).sailings = s.sailings := by
  unfold State.closeCart
  split
  · rfl
  · split <;> simp
@[simp] theorem State.closeCart_manifest (s : State) (id : Nat) :
    (s.closeCart id).manifest = s.manifest := by
  unfold State.closeCart
  split
  · rfl
  · split <;> simp
@[simp] theorem State.closeCart_stations (s : State) (id : Nat) :
    (s.closeCart id).stations = s.stations := by
  unfold State.closeCart
  split
  · rfl
  · split <;> simp
@[simp] theorem State.closeCart_lt (s : State) (id : Nat) : (s.closeCart id).lt = s.lt := by
  unfold State.closeCart
  split
  · rfl
  · split <;> simp
@[simp] theorem State.closeCart_trays (s : State) (id : Nat) : (s.closeCart id).trays = s.trays := by
  unfold State.closeCart
  split
  · rfl
  · split <;> simp
@[simp] theorem State.closeCart_su (s : State) (id : Nat) : (s.closeCart id).su = s.su := by
  unfold State.closeCart
  split
  · rfl
  · split <;> simp
@[simp] theorem State.closeCart_freeIdx (s : State) (id : Nat) : (s.closeCart id).freeIdx = s.freeIdx := by
  unfold State.closeCart
  split
  · rfl
  · split <;> simp
@[simp] theorem State.closeCart_pending (s : State) (id : Nat) : (s.closeCart id).pending = s.pending := by
  unfold State.closeCart
  split
  · rfl
  · split <;> simp
@[simp] theorem State.reportCartClosed_cu (s : State) (id c : Nat) :
    (s.reportCartClosed id c).cu = s.cu := by
  unfold State.reportCartClosed; split <;> simp
@[simp] theorem State.reportCartClosed_sailings (s : State) (id c : Nat) :
    (s.reportCartClosed id c).sailings = s.sailings := by
  unfold State.reportCartClosed; split <;> simp
@[simp] theorem State.reportCartClosed_manifest (s : State) (id c : Nat) :
    (s.reportCartClosed id c).manifest = s.manifest := by
  unfold State.reportCartClosed; split <;> simp
@[simp] theorem State.reportCartClosed_groups (s : State) (id c : Nat) :
    (s.reportCartClosed id c).groups = s.groups := by
  unfold State.reportCartClosed; split <;> simp
@[simp] theorem State.reportCartClosed_stations (s : State) (id c : Nat) :
    (s.reportCartClosed id c).stations = s.stations := by
  unfold State.reportCartClosed; split <;> simp
@[simp] theorem State.reportCartClosed_lt (s : State) (id c : Nat) :
    (s.reportCartClosed id c).lt = s.lt := by
  unfold State.reportCartClosed; split <;> simp
@[simp] theorem State.reportCartClosed_trays (s : State) (id c : Nat) :
    (s.reportCartClosed id c).trays = s.trays := by
  unfold State.reportCartClosed; split <;> simp
@[simp] theorem State.reportCartClosed_chutes (s : State) (id c : Nat) :
    (s.reportCartClosed id c).chutes = s.chutes := by
  unfold State.reportCartClosed; split <;> simp
@[simp] theorem State.reportCartClosed_carts (s : State) (id c : Nat) :
    (s.reportCartClosed id c).carts = s.carts := by
  unfold State.reportCartClosed; split <;> simp
@[simp] theorem State.reportCartClosed_su (s : State) (id c : Nat) :
    (s.reportCartClosed id c).su = s.su := by
  unfold State.reportCartClosed; split <;> simp
@[simp] theorem State.reportCartClosed_freeIdx (s : State) (id c : Nat) :
    (s.reportCartClosed id c).freeIdx = s.freeIdx := by
  unfold State.reportCartClosed; split <;> simp
@[simp] theorem State.reportCartClosed_pending (s : State) (id c : Nat) :
    (s.reportCartClosed id c).pending = s.pending := by
  unfold State.reportCartClosed; split <;> simp
@[simp] theorem State.reportCartClosed_lu_node (s : State) (id c : Nat) :
    (s.reportCartClosed id c).lu.node = s.lu.node := by
  unfold State.reportCartClosed; split <;> simp
@[simp] theorem State.reportCartClosed_lu_supRx (s : State) (id c : Nat) :
    (s.reportCartClosed id c).lu.supRx = s.lu.supRx := by
  unfold State.reportCartClosed; split <;> simp
@[simp] theorem State.reportCartClosed_lu_fldRx (s : State) (id c : Nat) :
    (s.reportCartClosed id c).lu.fldRx = s.lu.fldRx := by
  unfold State.reportCartClosed; split <;> simp
@[simp] theorem State.reportCartClosed_lu_fldTx (s : State) (id c : Nat) :
    (s.reportCartClosed id c).lu.fldTx = s.lu.fldTx := by
  unfold State.reportCartClosed; split <;> simp
@[simp] theorem State.reportCartClosed_lu_clock (s : State) (id c : Nat) :
    (s.reportCartClosed id c).lu.clock = s.lu.clock := by
  unfold State.reportCartClosed; split <;> simp
@[simp] theorem State.reportCartClosed_lu_loopRun (s : State) (id c : Nat) :
    (s.reportCartClosed id c).lu.loopRun = s.lu.loopRun := by
  unfold State.reportCartClosed; split <;> simp
@[simp] theorem State.reportCartClosed_lu_occ (s : State) (id c : Nat) :
    (s.reportCartClosed id c).lu.occ = s.lu.occ := by
  unfold State.reportCartClosed; split <;> simp
@[simp] theorem State.closingTest_cu (s : State) (id : Nat) (x : ChuteCause) :
    (s.closingTest id x).cu = s.cu := by
  unfold State.closingTest
  split
  · rfl
  · split
    · split <;> simp
    · rfl
@[simp] theorem State.closingTest_sailings (s : State) (id : Nat) (x : ChuteCause) :
    (s.closingTest id x).sailings = s.sailings := by
  unfold State.closingTest
  split
  · rfl
  · split
    · split <;> simp
    · rfl
@[simp] theorem State.closingTest_manifest (s : State) (id : Nat) (x : ChuteCause) :
    (s.closingTest id x).manifest = s.manifest := by
  unfold State.closingTest
  split
  · rfl
  · split
    · split <;> simp
    · rfl
@[simp] theorem State.closingTest_stations (s : State) (id : Nat) (x : ChuteCause) :
    (s.closingTest id x).stations = s.stations := by
  unfold State.closingTest
  split
  · rfl
  · split
    · split <;> simp
    · rfl
@[simp] theorem State.closingTest_lt (s : State) (id : Nat) (x : ChuteCause) :
    (s.closingTest id x).lt = s.lt := by
  unfold State.closingTest
  split
  · rfl
  · split
    · split <;> simp
    · rfl
@[simp] theorem State.closingTest_trays (s : State) (id : Nat) (x : ChuteCause) :
    (s.closingTest id x).trays = s.trays := by
  unfold State.closingTest
  split
  · rfl
  · split
    · split <;> simp
    · rfl
@[simp] theorem State.closingTest_su (s : State) (id : Nat) (x : ChuteCause) :
    (s.closingTest id x).su = s.su := by
  unfold State.closingTest
  split
  · rfl
  · split
    · split <;> simp
    · rfl
@[simp] theorem State.closingTest_freeIdx (s : State) (id : Nat) (x : ChuteCause) :
    (s.closingTest id x).freeIdx = s.freeIdx := by
  unfold State.closingTest
  split
  · rfl
  · split
    · split <;> simp
    · rfl
@[simp] theorem State.closingTest_pending (s : State) (id : Nat) (x : ChuteCause) :
    (s.closingTest id x).pending = s.pending := by
  unfold State.closingTest
  split
  · rfl
  · split
    · split <;> simp
    · rfl
@[simp] theorem State.closingTest_lu_node (s : State) (id : Nat) (x : ChuteCause) :
    (s.closingTest id x).lu.node = s.lu.node := by
  unfold State.closingTest
  split
  · rfl
  · split
    · split <;> simp
    · rfl
@[simp] theorem State.closingTest_lu_supRx (s : State) (id : Nat) (x : ChuteCause) :
    (s.closingTest id x).lu.supRx = s.lu.supRx := by
  unfold State.closingTest
  split
  · rfl
  · split
    · split <;> simp
    · rfl
@[simp] theorem State.closingTest_lu_fldRx (s : State) (id : Nat) (x : ChuteCause) :
    (s.closingTest id x).lu.fldRx = s.lu.fldRx := by
  unfold State.closingTest
  split
  · rfl
  · split
    · split <;> simp
    · rfl
@[simp] theorem State.closingTest_lu_fldTx (s : State) (id : Nat) (x : ChuteCause) :
    (s.closingTest id x).lu.fldTx = s.lu.fldTx := by
  unfold State.closingTest
  split
  · rfl
  · split
    · split <;> simp
    · rfl
@[simp] theorem State.closingTest_lu_clock (s : State) (id : Nat) (x : ChuteCause) :
    (s.closingTest id x).lu.clock = s.lu.clock := by
  unfold State.closingTest
  split
  · rfl
  · split
    · split <;> simp
    · rfl
@[simp] theorem State.closingTest_lu_loopRun (s : State) (id : Nat) (x : ChuteCause) :
    (s.closingTest id x).lu.loopRun = s.lu.loopRun := by
  unfold State.closingTest
  split
  · rfl
  · split
    · split <;> simp
    · rfl
@[simp] theorem State.closingTest_lu_occ (s : State) (id : Nat) (x : ChuteCause) :
    (s.closingTest id x).lu.occ = s.lu.occ := by
  unfold State.closingTest
  split
  · rfl
  · split
    · split <;> simp
    · rfl
@[simp] theorem State.editBags_lu (s : State) (id : Nat) (f : List BagItem → List BagItem) (g : Nat → Nat) :
    (s.editBags id f g).lu = s.lu := by
  unfold State.editBags; split <;> simp
@[simp] theorem State.editBags_cu (s : State) (id : Nat) (f : List BagItem → List BagItem) (g : Nat → Nat) :
    (s.editBags id f g).cu = s.cu := by
  unfold State.editBags; split <;> simp
@[simp] theorem State.editBags_sailings (s : State) (id : Nat) (f : List BagItem → List BagItem) (g : Nat → Nat) :
    (s.editBags id f g).sailings = s.sailings := by
  unfold State.editBags; split <;> simp
@[simp] theorem State.editBags_manifest (s : State) (id : Nat) (f : List BagItem → List BagItem) (g : Nat → Nat) :
    (s.editBags id f g).manifest = s.manifest := by
  unfold State.editBags; split <;> simp
@[simp] theorem State.editBags_stations (s : State) (id : Nat) (f : List BagItem → List BagItem) (g : Nat → Nat) :
    (s.editBags id f g).stations = s.stations := by
  unfold State.editBags; split <;> simp
@[simp] theorem State.editBags_lt (s : State) (id : Nat) (f : List BagItem → List BagItem) (g : Nat → Nat) :
    (s.editBags id f g).lt = s.lt := by
  unfold State.editBags; split <;> simp
@[simp] theorem State.editBags_trays (s : State) (id : Nat) (f : List BagItem → List BagItem) (g : Nat → Nat) :
    (s.editBags id f g).trays = s.trays := by
  unfold State.editBags; split <;> simp
@[simp] theorem State.editBags_chutes (s : State) (id : Nat) (f : List BagItem → List BagItem) (g : Nat → Nat) :
    (s.editBags id f g).chutes = s.chutes := by
  unfold State.editBags; split <;> simp
@[simp] theorem State.editBags_su (s : State) (id : Nat) (f : List BagItem → List BagItem) (g : Nat → Nat) :
    (s.editBags id f g).su = s.su := by
  unfold State.editBags; split <;> simp
@[simp] theorem State.editBags_freeIdx (s : State) (id : Nat) (f : List BagItem → List BagItem) (g : Nat → Nat) :
    (s.editBags id f g).freeIdx = s.freeIdx := by
  unfold State.editBags; split <;> simp
@[simp] theorem State.editBags_pending (s : State) (id : Nat) (f : List BagItem → List BagItem) (g : Nat → Nat) :
    (s.editBags id f g).pending = s.pending := by
  unfold State.editBags; split <;> simp

/-! Tilts and launches -/
@[simp] theorem State.enterDoubt_lu (s : State) (k : Nat) : (s.enterDoubt k).lu = s.lu := by
  unfold State.enterDoubt
  split
  · dsimp only
    split
    · split <;> simp
    · simp
  · rfl
@[simp] theorem State.enterDoubt_cu (s : State) (k : Nat) : (s.enterDoubt k).cu = s.cu := by
  unfold State.enterDoubt
  split
  · dsimp only
    split
    · split <;> simp
    · simp
  · rfl
@[simp] theorem State.enterDoubt_sailings (s : State) (k : Nat) :
    (s.enterDoubt k).sailings = s.sailings := by
  unfold State.enterDoubt
  split
  · dsimp only
    split
    · split <;> simp
    · simp
  · rfl
@[simp] theorem State.enterDoubt_stations (s : State) (k : Nat) :
    (s.enterDoubt k).stations = s.stations := by
  unfold State.enterDoubt
  split
  · dsimp only
    split
    · split <;> simp
    · simp
  · rfl
@[simp] theorem State.enterDoubt_lt (s : State) (k : Nat) : (s.enterDoubt k).lt = s.lt := by
  unfold State.enterDoubt
  split
  · dsimp only
    split
    · split <;> simp
    · simp
  · rfl
@[simp] theorem State.enterDoubt_chutes (s : State) (k : Nat) : (s.enterDoubt k).chutes = s.chutes := by
  unfold State.enterDoubt
  split
  · dsimp only
    split
    · split <;> simp
    · simp
  · rfl
@[simp] theorem State.enterDoubt_su (s : State) (k : Nat) : (s.enterDoubt k).su = s.su := by
  unfold State.enterDoubt
  split
  · dsimp only
    split
    · split <;> simp
    · simp
  · rfl
@[simp] theorem State.enterDoubt_freeIdx (s : State) (k : Nat) : (s.enterDoubt k).freeIdx = s.freeIdx := by
  unfold State.enterDoubt
  split
  · dsimp only
    split
    · split <;> simp
    · simp
  · rfl
@[simp] theorem State.enterDoubt_pending (s : State) (k : Nat) : (s.enterDoubt k).pending = s.pending := by
  unfold State.enterDoubt
  split
  · dsimp only
    split
    · split <;> simp
    · simp
  · rfl
@[simp] theorem State.takeLaunch_cu (s : State) (n : Nat) : (s.takeLaunch n).cu = s.cu := by
  unfold State.takeLaunch
  split
  · rfl
  · split
    · dsimp only; split <;> split <;> (try split) <;> simp
    · rfl
@[simp] theorem State.takeLaunch_sailings (s : State) (n : Nat) :
    (s.takeLaunch n).sailings = s.sailings := by
  unfold State.takeLaunch
  split
  · rfl
  · split
    · dsimp only; split <;> split <;> (try split) <;> simp
    · rfl
@[simp] theorem State.takeLaunch_groups (s : State) (n : Nat) : (s.takeLaunch n).groups = s.groups := by
  unfold State.takeLaunch
  split
  · rfl
  · split
    · dsimp only; split <;> split <;> (try split) <;> simp
    · rfl
@[simp] theorem State.takeLaunch_lt (s : State) (n : Nat) : (s.takeLaunch n).lt = s.lt := by
  unfold State.takeLaunch
  split
  · rfl
  · split
    · dsimp only; split <;> split <;> (try split) <;> simp
    · rfl
@[simp] theorem State.takeLaunch_chutes (s : State) (n : Nat) : (s.takeLaunch n).chutes = s.chutes := by
  unfold State.takeLaunch
  split
  · rfl
  · split
    · dsimp only; split <;> split <;> (try split) <;> simp
    · rfl
@[simp] theorem State.takeLaunch_carts (s : State) (n : Nat) : (s.takeLaunch n).carts = s.carts := by
  unfold State.takeLaunch
  split
  · rfl
  · split
    · dsimp only; split <;> split <;> (try split) <;> simp
    · rfl
@[simp] theorem State.takeLaunch_freeIdx (s : State) (n : Nat) : (s.takeLaunch n).freeIdx = s.freeIdx := by
  unfold State.takeLaunch
  split
  · rfl
  · split
    · dsimp only; split <;> split <;> (try split) <;> simp
    · rfl
@[simp] theorem State.takeLaunch_pending (s : State) (n : Nat) : (s.takeLaunch n).pending = s.pending := by
  unfold State.takeLaunch
  split
  · rfl
  · split
    · dsimp only; split <;> split <;> (try split) <;> simp
    · rfl
@[simp] theorem State.takeLaunch_lu_node (s : State) (n : Nat) : (s.takeLaunch n).lu.node = s.lu.node := by
  unfold State.takeLaunch
  split
  · rfl
  · split
    · dsimp only; split <;> split <;> (try split) <;> simp
    · rfl
@[simp] theorem State.takeLaunch_lu_supRx (s : State) (n : Nat) :
    (s.takeLaunch n).lu.supRx = s.lu.supRx := by
  unfold State.takeLaunch
  split
  · rfl
  · split
    · dsimp only; split <;> split <;> (try split) <;> simp
    · rfl
@[simp] theorem State.takeLaunch_lu_fldRx (s : State) (n : Nat) :
    (s.takeLaunch n).lu.fldRx = s.lu.fldRx := by
  unfold State.takeLaunch
  split
  · rfl
  · split
    · dsimp only; split <;> split <;> (try split) <;> simp
    · rfl
@[simp] theorem State.takeLaunch_lu_fldTx (s : State) (n : Nat) :
    (s.takeLaunch n).lu.fldTx = s.lu.fldTx := by
  unfold State.takeLaunch
  split
  · rfl
  · split
    · dsimp only; split <;> split <;> (try split) <;> simp
    · rfl
@[simp] theorem State.takeLaunch_lu_clock (s : State) (n : Nat) :
    (s.takeLaunch n).lu.clock = s.lu.clock := by
  unfold State.takeLaunch
  split
  · rfl
  · split
    · dsimp only; split <;> split <;> (try split) <;> simp
    · rfl
@[simp] theorem State.takeLaunch_lu_loopRun (s : State) (n : Nat) :
    (s.takeLaunch n).lu.loopRun = s.lu.loopRun := by
  unfold State.takeLaunch
  split
  · rfl
  · split
    · dsimp only; split <;> split <;> (try split) <;> simp
    · rfl
@[simp] theorem State.takeLaunch_lu_occ (s : State) (n : Nat) : (s.takeLaunch n).lu.occ = s.lu.occ := by
  unfold State.takeLaunch
  split
  · rfl
  · split
    · dsimp only; split <;> split <;> (try split) <;> simp
    · rfl

/-! `eyeDone` -/

@[simp] theorem State.eyeDone_lu (s : State) : s.eyeDone.lu = s.lu := rfl
@[simp] theorem State.eyeDone_cu (s : State) : s.eyeDone.cu = s.cu := rfl
@[simp] theorem State.eyeDone_sailings (s : State) : s.eyeDone.sailings = s.sailings := rfl
@[simp] theorem State.eyeDone_manifest (s : State) : s.eyeDone.manifest = s.manifest := rfl
@[simp] theorem State.eyeDone_groups (s : State) : s.eyeDone.groups = s.groups := rfl
@[simp] theorem State.eyeDone_stations (s : State) : s.eyeDone.stations = s.stations := rfl
@[simp] theorem State.eyeDone_trays (s : State) : s.eyeDone.trays = s.trays := rfl
@[simp] theorem State.eyeDone_chutes (s : State) : s.eyeDone.chutes = s.chutes := rfl
@[simp] theorem State.eyeDone_carts (s : State) : s.eyeDone.carts = s.carts := rfl
@[simp] theorem State.eyeDone_su (s : State) : s.eyeDone.su = s.su := rfl
@[simp] theorem State.eyeDone_freeIdx (s : State) : s.eyeDone.freeIdx = s.freeIdx := rfl
@[simp] theorem State.eyeDone_pending (s : State) : s.eyeDone.pending = s.pending := rfl
@[simp] theorem State.eyeDone_lt_layout (s : State) : s.eyeDone.lt.layout = s.lt.layout := rfl
@[simp] theorem State.eyeDone_lt_pos (s : State) : s.eyeDone.lt.pos = s.lt.pos := rfl
@[simp] theorem State.eyeDone_lt_acc (s : State) : s.eyeDone.lt.acc = s.lt.acc := rfl
@[simp] theorem State.eyeDone_lt_absorb (s : State) : s.eyeDone.lt.absorb = s.lt.absorb := rfl
@[simp] theorem State.eyeDone_lt_lastCorrection (s : State) : s.eyeDone.lt.lastCorrection = s.lt.lastCorrection := rfl
@[simp] theorem State.eyeDone_lt_missed (s : State) : s.eyeDone.lt.missed = s.lt.missed := rfl
@[simp] theorem State.eyeDone_lt_lossPoint (s : State) : s.eyeDone.lt.lossPoint = s.lt.lossPoint := rfl
@[simp] theorem State.eyeDone_lt_advances (s : State) : s.eyeDone.lt.advances = s.lt.advances := rfl
@[simp] theorem State.eyeDone_lt_state (s : State) : s.eyeDone.lt.state = s.lt.state := rfl
@[simp] theorem State.eyeDone_lt_mode (s : State) : s.eyeDone.lt.mode = s.lt.mode := rfl
@[simp] theorem State.eyeDone_lt_points (s : State) : s.eyeDone.lt.points = s.lt.points := rfl
@[simp] theorem State.eyeDone_lt_eyeTaken (s : State) : s.eyeDone.lt.eyeTaken = true := rfl

end Sys2Proof.Machine
end

