-- ==== Sys2Proof/Laws/FleetOps.lean ====
section
/-! SUPPORT. Which operations keep chutes, carts and ready queues in agreement (`State.fleetOk`), and what
each needs for it. -/

namespace Sys2Proof.Machine

variable {s t : State}

/-- The three tables are the same. -/
theorem fleetOk_of_eq (h : s.fleetOk) (hc : t.chutes = s.chutes) (hk : t.carts = s.carts)
    (hg : t.groups = s.groups) : t.fleetOk := by
  unfold State.fleetOk
  rw [hc, hk, hg]
  exact h

/-- The change of a cart's bag list keeps the agreement. -/
theorem editBags_fleet (h : s.fleetOk) (id : Nat) (f : List BagItem → List BagItem) (n : Nat → Nat) :
    (s.editBags id f n).fleetOk := by
  unfold State.editBags
  split
  · exact h
  · next k hk =>
    unfold State.fleetOk State.modifyGroup State.putCart
    dsimp only
    rw [get_set_fun, get_modify_fun]
    refine FleetOk.same h (fun c => rfl) (fun j => ?_) (fun g => ?_)
    · unfold put; split <;> simp_all
    · unfold put; split <;> simp_all [Option.map_map, Function.comp_def]

/-- A FILLING or CLOSING cart goes into CLOSING with its chute. -/
theorem enterClosing_fleet (h : s.fleetOk) {id : Nat} {k : Cart} (hk : Tbl.get s.carts id = some k)
    (hs : k.state = .filling ∨ k.state = .closing) (x : CloseCause) : (s.enterClosing id x).fleetOk := by
  obtain ⟨c, y, hc, hy, _⟩ := h.placed id k hk hs
  unfold State.enterClosing
  simp only [hk, hc]
  unfold State.fleetOk State.modifyChute State.putCart
  dsimp only
  rw [get_modify_fun, get_set_fun, hy]
  exact FleetOk.enterClosing h hk hs hc hy rfl rfl hc.symm rfl rfl rfl rfl

/-- Closing a FILLING or CLOSING cart keeps the agreement. -/
theorem closeCart_fleet (h : s.fleetOk) {id : Nat} {k : Cart} (hk : Tbl.get s.carts id = some k)
    (hs : k.state = .filling ∨ k.state = .closing) : (s.closeCart id).fleetOk := by
  obtain ⟨c, y, hc, hy, hid⟩ := h.placed id k hk hs
  obtain ⟨g, hg, _⟩ := h.queued id k hk
  obtain ⟨k', hk', _, hb, hcy⟩ := h.current c y id hy hid
  cases hk.symm.trans hk'
  have hb0 : y.bound ≠ 0 := fun e => by
    have := (h.unbound c y hy).1 e
    rcases hcy with ⟨e1, _⟩ | ⟨e1, _⟩ <;> simp [e1] at this
  unfold State.closeCart
  simp only [hk, hc]
  show FleetOk (Tbl.get (Tbl.modify s.chutes c _)) (Tbl.get (Tbl.set s.carts id _))
    (Tbl.get (Tbl.modify s.groups k.group _))
  rw [get_modify_fun, get_set_fun, get_modify_fun, hy, hg]
  exact FleetOk.close h hk hs hc hy hg rfl rfl rfl rfl rfl rfl (.inl ⟨rfl, hb0, hb ▸ ⟨g, hg⟩⟩)

theorem report_fleet (h : s.fleetOk) (k : Nat) (p : List Byte) : (s.report k p).fleetOk :=
  fleetOk_of_eq h (by simp) (by simp) (by simp)

theorem reportChute_fleet (h : s.fleetOk) (c : Nat) (x : ChuteCause) : (s.reportChute c x).fleetOk :=
  fleetOk_of_eq h (by simp) (by simp) (by simp)

theorem reportCartClosed_fleet (h : s.fleetOk) (id c : Nat) : (s.reportCartClosed id c).fleetOk :=
  fleetOk_of_eq h (by simp) (by simp) (by simp)

theorem closingTest_fleet (h : s.fleetOk) (id : Nat) (x : ChuteCause) : (s.closingTest id x).fleetOk := by
  unfold State.closingTest
  split
  · exact h
  · next k hk =>
    split
    · next hd =>
      have hs : k.state = .filling ∨ k.state = .closing := by
        simp only [Cart.doneClosing, Bool.and_eq_true, decide_eq_true_eq] at hd
        exact .inr hd.1
      split
      · exact closeCart_fleet h hk hs
      · exact reportChute_fleet (reportCartClosed_fleet (closeCart_fleet h hk hs) _ _) _ _
    · exact h

theorem forceClose_fleet (h : s.fleetOk) (id : Nat) (x : CloseCause) : (s.forceClose id x).fleetOk := by
  unfold State.forceClose
  split
  · exact h
  · next k hk =>
    split
    · next hf =>
      have he := enterClosing_fleet h hk (.inl hf.1) x
      dsimp only
      split
      · exact closingTest_fleet he _ _
      · split
        · exact he
        · exact reportChute_fleet he _ _
    · exact h

theorem fullTest_fleet (h : s.fleetOk) {id : Nat} (c : Nat)
    (hs : ∀ k, Tbl.get s.carts id = some k → k.state = .filling ∨ k.state = .closing) :
    (s.fullTest id c).fleetOk := by
  unfold State.fullTest
  split
  · exact h
  · next k hk =>
    split
    · exact h
    · split
      · exact reportChute_fleet (enterClosing_fleet h hk (hs k hk) _) _ _
      · exact h

/-- A tilt taken at a chute keeps the agreement: the cart it reserves in is the chute's current cart. -/
theorem takeTilt_fleet (h : s.fleetOk) {c : Nat} {x : Chute} (hx : Tbl.get s.chutes c = some x) (k : Nat)
    (l : Load) : (s.takeTilt c k l x).fleetOk := by
  unfold State.takeTilt
  dsimp only
  refine fleetOk_of_eq (s := match x.tiltCart with | some id => s.reserve id c l | none => s) ?_
    (by rw [State.order_chutes]; rfl) (by rw [State.order_carts]; rfl) (by rw [State.order_groups]; rfl)
  split
  · next id hid =>
    unfold State.reserve
    split
    · exact h
    · refine fullTest_fleet (editBags_fleet h _ _ _) _ (fun k' hk' => ?_)
      have hcur : x.cart = some id := by
        unfold Chute.tiltCart at hid
        split at hid
        · exact hid
        · cases hid
      obtain ⟨k0, hk0, _, _, hs⟩ := h.current c x id hx hcur
      unfold State.editBags at hk'
      simp only [hk0] at hk'
      have : Tbl.get (Tbl.set s.carts id _) id = some k' := hk'
      rw [Tbl.get_set_same] at this
      cases this
      rcases hs with ⟨_, e⟩ | ⟨_, e⟩
      · exact .inl e
      · exact .inr e
  · exact h

theorem decisionPoint_fleet (h : s.fleetOk) (c k : Nat) : (s.decisionPoint c k).fleetOk := by
  unfold State.decisionPoint
  split
  · next hx =>
    split
    · exact takeTilt_fleet h hx _ _
    · exact h
  · exact h

/-- A chute keeps its role, cycle, bound group and current cart. -/
theorem putChute_same_fleet (h : s.fleetOk) {c : Nat} {x x' : Chute} (hx : Tbl.get s.chutes c = some x)
    (e : (x'.role, x'.cycle, x'.bound, x'.cart) = (x.role, x.cycle, x.bound, x.cart)) :
    (s.putChute c x').fleetOk := by
  refine FleetOk.same h (fun j => ?_) (fun j => rfl) (fun g => rfl)
  show (Tbl.get (Tbl.set s.chutes c x') j).map _ = _
  rw [get_set_fun]; unfold put
  split
  · next ej => rw [ej, hx]; simp [e]
  · rfl

theorem swapTest_fleet (h : s.fleetOk) (c : Nat) : (s.swapTest c).fleetOk := by
  unfold State.swapTest
  split
  · exact h
  · next x hx =>
    split
    · exact putChute_same_fleet (report_fleet h _ _) (x := x) (by simpa using hx) rfl
    · exact h

theorem setAvail_fleet (h : s.fleetOk) {c : Nat} {x : Chute} (hx : Tbl.get s.chutes c = some x) (a : Avail)
    (y : ChuteCause) : (s.setAvail c x a y).fleetOk := by
  unfold State.setAvail
  split
  · exact h
  · exact reportChute_fleet (putChute_same_fleet h hx (x' := { x with avail := a }) rfl) _ _

/-- A group keeps its ready queue. -/
theorem putGroup_same_fleet (h : s.fleetOk) {n : Nat} {g g' : Group} (hg : Tbl.get s.groups n = some g)
    (e : g'.ready = g.ready) : (s.putGroup n g').fleetOk := by
  refine FleetOk.same h (fun j => rfl) (fun j => rfl) (fun j => ?_)
  show (Tbl.get (Tbl.set s.groups n g') j).map _ = _
  rw [get_set_fun]; unfold put
  split
  · next ej => rw [ej, hg]; simp [e]
  · rfl

theorem modifyTally_fleet (h : s.fleetOk) (n : Nat) (f : Sailing → Sailing) (g : Nat) (f' : Group → Group)
    (e : ∀ x, (f' x).ready = x.ready) :
    State.fleetOk { s with sailings := Tbl.modify s.sailings n f, groups := Tbl.modify s.groups g f' } := by
  refine FleetOk.same h (fun j => rfl) (fun j => rfl) (fun j => ?_)
  show (Tbl.get (Tbl.modify s.groups g f') j).map _ = _
  rw [get_modify_fun]; unfold put
  split
  · next ej => rw [ej]; cases Tbl.get s.groups g <;> simp [e]
  · rfl

theorem correctAboard_fleet (h : s.fleetOk) (x : Tilt) : (s.correctAboard x).fleetOk := by
  unfold State.correctAboard
  refine report_fleet (modifyTally_fleet (fleetOk_of_eq h (by simp) (by simp) (by simp)) _ _ _ _ (fun y => ?_)) _ _
  split <;> rfl

/-! Bindings -/

theorem currentCart_eq {x : Chute} {id : Nat} {k : Cart} (e : s.currentCart x = some (id, k)) :
    x.cart = some id ∧ Tbl.get s.carts id = some k := by
  unfold State.currentCart at e
  cases hx : x.cart with
  | none => simp [hx] at e
  | some j =>
    cases hk : Tbl.get s.carts j with
    | none => simp [hx, hk] at e
    | some k' =>
      simp only [hx, hk, Option.bind_some, Option.map_some, Option.some.injEq, Prod.mk.injEq] at e
      exact ⟨by rw [e.1], by rw [← e.1, hk, e.2]⟩

/-- A chute without a FILLING or CLOSING cart has none. -/
theorem noCart_of_cycle (h : s.fleetOk) {c : Nat} {x : Chute} (hx : Tbl.get s.chutes c = some x)
    (hb : s.bindBusy x = false) (hn : ∀ id k, x.cycle = some .filling → s.currentCart x ≠ some (id, k)) :
    x.cart = none := by
  cases hid : x.cart with
  | none => rfl
  | some id =>
    obtain ⟨k, hk, _, _, hs⟩ := h.current c x id hx hid
    rcases hs with ⟨e, _⟩ | ⟨e, _⟩
    · exact absurd (by unfold State.currentCart; simp [hid, hk]) (hn id k e)
    · simp [State.bindBusy, e] at hb

theorem bindTo_fleet (h : s.fleetOk) {c n : Nat} {x : Chute} {g : Group} (hx : Tbl.get s.chutes c = some x)
    (hr : x.role = .sort) (hb : s.bindBusy x = false) (hn : n ≠ 0) (hg : Tbl.get s.groups n = some g) :
    (s.bindTo c x n).fleetOk := by
  have bare : ∀ x' : Chute, x.cart = none → x'.role = x.role → x'.cart = none → x'.cycle = some .swapping →
      x'.bound = n → (s.putChute c x').fleetOk := by
    intro x' hc e1 e2 e3 e4
    show FleetOk (Tbl.get (Tbl.set s.chutes c x')) _ _
    rw [get_set_fun]
    refine FleetOk.bareChute h (fun y hy => ?_) e2 (by simp [e1, hr, e3]) (by simp [e3, e4, hn])
      (fun _ => ⟨g, by rw [e4, hg]⟩) (by simp [e3])
    cases hx.symm.trans hy
    exact hc
  unfold State.bindTo
  dsimp only
  split
  · next id k hcy hcur =>
    obtain ⟨hid, hk⟩ := currentCart_eq hcur
    obtain ⟨k', hk', hkc, hkb, hs⟩ := h.current c x id hx hid
    cases hk.symm.trans hk'
    have hks : k.state = .filling := by
      rcases hs with ⟨_, e⟩ | ⟨e, _⟩
      · exact e
      · simp [hcy] at e
    obtain ⟨g0, hg0, _⟩ := h.queued id k hk
    split
    · refine reportChute_fleet ?_ _ _
      show FleetOk (Tbl.get (Tbl.set s.chutes c _)) (Tbl.get (Tbl.set s.carts id _)) _
      rw [get_set_fun, get_set_fun]
      exact FleetOk.regroup h hx hid hk hcy hn hg rfl rfl rfl rfl rfl rfl rfl
    · refine reportCartClosed_fleet (reportChute_fleet ?_ _ _) _ _
      show FleetOk (Tbl.get (Tbl.set s.chutes c _)) (Tbl.get (Tbl.set s.carts id _))
        (Tbl.get (Tbl.modify s.groups k.group _))
      rw [get_set_fun, get_set_fun, get_modify_fun, hg0]
      exact FleetOk.close h hk (.inl hks) hkc hx hg0 rfl rfl rfl rfl rfl rfl (.inl ⟨rfl, hn, ⟨g, hg⟩⟩)
  · next hcy =>
    refine reportChute_fleet (bare { x with bound := n }
      (noCart_of_cycle (x := x) h hx hb (fun id k e => ?_)) rfl ?_ hcy rfl) _ _
    · simp [hcy] at e
    · exact noCart_of_cycle (x := x) h hx hb (fun id k e => by simp [hcy] at e)
  · next hn' =>
    refine reportChute_fleet (bare (Chute.startSwap s.lu.clock { x with bound := n })
      (noCart_of_cycle (x := x) h hx hb (fun id k e hcur => ?_)) rfl rfl rfl rfl) _ _
    exact hn' id k e hcur

theorem unbind_fleet (h : s.fleetOk) {c : Nat} {x : Chute} (hx : Tbl.get s.chutes c = some x)
    (hr : x.role = .sort) (hb : s.bindBusy x = false) : (s.unbind c x).fleetOk := by
  unfold State.unbind
  dsimp only
  split
  · next id k hcy hcur =>
    obtain ⟨hid, hk⟩ := currentCart_eq hcur
    obtain ⟨k', hk', hkc, hkb, hs⟩ := h.current c x id hx hid
    cases hk.symm.trans hk'
    have hks : k.state = .filling := by
      rcases hs with ⟨_, e⟩ | ⟨e, _⟩
      · exact e
      · simp [hcy] at e
    obtain ⟨g0, hg0, _⟩ := h.queued id k hk
    split
    · refine reportChute_fleet ?_ _ _
      show FleetOk (Tbl.get (Tbl.set s.chutes c _)) (Tbl.get (Tbl.erase s.carts id)) _
      rw [get_set_fun, get_erase_fun]
      exact FleetOk.free h hx hid rfl rfl rfl rfl
    · refine reportCartClosed_fleet (reportChute_fleet ?_ _ _) _ _
      show FleetOk (Tbl.get (Tbl.set s.chutes c _)) (Tbl.get (Tbl.set s.carts id _))
        (Tbl.get (Tbl.modify s.groups k.group _))
      rw [get_set_fun, get_set_fun, get_modify_fun, hg0]
      exact FleetOk.close h hk (.inl hks) hkc hx hg0 rfl rfl rfl rfl rfl rfl (.inr ⟨rfl, rfl⟩)
  · next hn' =>
    refine reportChute_fleet ?_ _ _
    show FleetOk (Tbl.get (Tbl.set s.chutes c _)) _ _
    rw [get_set_fun]
    refine FleetOk.bareChute h (fun y hy => ?_) rfl (by simp [hr]) (by simp) (fun e => absurd rfl e) (by simp)
    cases hx.symm.trans hy
    exact noCart_of_cycle (x := x) h hx hb (fun id k e hcur => hn' id k e hcur)

/-! CHUTE SET, CART PLACED -/

theorem setChute_fleet (h : s.fleetOk) {c : Nat} (f : ChuteFields) (y : Layout)
    (hb : ∀ x, Tbl.get s.chutes c = some x → x.bound ≠ 0 → f.role = .sort) :
    (s.putChute c (f.chute y (Tbl.get s.chutes c))).fleetOk := by
  cases hx : Tbl.get s.chutes c with
  | none =>
    show FleetOk (Tbl.get (Tbl.set s.chutes c _)) _ _
    rw [get_set_fun]
    refine FleetOk.bareChute h (fun x e => by simp [hx] at e) rfl ?_ ?_ (fun e => absurd rfl e) ?_
    all_goals
      simp only [ChuteFields.chute, ChuteFields.cycle]
      split <;> simp_all
  | some x =>
    by_cases hr : x.role = .sort ∧ f.role = .sort
    · refine putChute_same_fleet h hx ?_
      have : x.cycle ≠ none := (h.roles c x hx).1 hr.1
      cases hcy : x.cycle with
      | none => exact absurd hcy this
      | some v => simp [ChuteFields.chute, ChuteFields.cycle, hr.1, hr.2, hcy]
    · have hb0 : x.bound = 0 := by
        apply Classical.byContradiction
        intro e
        have e1 := hb x hx e
        have : x.cycle ≠ none := fun e' => e ((h.unbound c x hx).2 (.inl e'))
        exact hr ⟨(h.roles c x hx).2 this, e1⟩
      have hcy := (h.unbound c x hx).1 hb0
      have hc : x.cart = none := by
        cases hid : x.cart with
        | none => rfl
        | some id =>
          obtain ⟨k, _, _, _, hs⟩ := h.current c x id hx hid
          rcases hs with ⟨e, _⟩ | ⟨e, _⟩ <;> simp [e] at hcy
      show FleetOk (Tbl.get (Tbl.set s.chutes c _)) _ _
      rw [get_set_fun]
      refine FleetOk.bareChute h (fun y' hy' => ?_) ?_ ?_ ?_ (fun e => absurd ?_ e) ?_
      · cases hx.symm.trans hy'; exact hc
      · simp [ChuteFields.chute, hc]
      all_goals
        simp only [ChuteFields.chute, ChuteFields.cycle]
        rcases hcy with e | e <;> simp_all [Classical.em, or_comm]

theorem lowestFree_free {id : Nat} (e : s.lowestFree = some id) : Tbl.get s.carts id = none := by
  unfold State.lowestFree at e
  simpa using List.find?_some e

theorem placeCart_fleet (h : s.fleetOk) {c : Nat} {x : Chute} (hx : Tbl.get s.chutes c = some x) :
    (s.placeCart c x).fleetOk := by
  unfold State.placeCart
  split
  · next hcy =>
    split
    · next id hid =>
      refine reportChute_fleet ?_ _ _
      show FleetOk (Tbl.get (Tbl.set s.chutes c _)) (Tbl.get (Tbl.set s.carts id _)) _
      rw [get_set_fun, get_set_fun]
      exact FleetOk.place h hx hcy (lowestFree_free hid) rfl rfl rfl rfl rfl rfl rfl
    · exact report_fleet h _ _
  · exact h

/-! The ship -/

theorem callCart_fleet (h : s.fleetOk) {slot n : Nat} {v : Sailing} {id : Nat} {k : Cart} {g : Group}
    {rest : List Nat} (hg : Tbl.get s.groups n = some g) (hr : g.ready = id :: rest)
    (hk : Tbl.get s.carts id = some k) : (s.callCart slot n v id k g rest).fleetOk := by
  unfold State.callCart
  unfold State.reportCalled
  refine report_fleet ?_ _ _
  unfold State.fleetOk
  simp only [State.order_chutes, State.order_carts, State.order_groups]
  show FleetOk _ (Tbl.get (Tbl.set s.carts id _)) (Tbl.get (Tbl.set s.groups n _))
  rw [get_set_fun, get_set_fun]
  exact FleetOk.call h hg hr hk rfl rfl rfl rfl

theorem calledAt_eq {node : Byte} {id : Nat} {k : Cart} {g : Group} {v : Sailing}
    (e : s.calledAt node id = some (k, g, v)) :
    Tbl.get s.carts id = some k ∧ k.state = .called ∧ Tbl.get s.groups k.group = some g := by
  unfold State.calledAt at e
  repeat' split at e
  all_goals first
    | (cases e; done)
    | (next h1 _ _ h2 _ _ _ h3 => cases e; exact ⟨h1, h3.1, h2⟩)

theorem boardCart_fleet (h : s.fleetOk) {id : Nat} {k : Cart} {g : Group} (v : Sailing)
    (hk : Tbl.get s.carts id = some k) (hs : k.state = .called) (hg : Tbl.get s.groups k.group = some g) :
    (s.boardCart id k g v).fleetOk := by
  have hb : ∀ (l : List BagItem) (u : State), (u.boardBags l).chutes = u.chutes ∧ (u.boardBags l).carts = u.carts
      ∧ (u.boardBags l).groups = u.groups := by
    intro l
    induction l with
    | nil => exact fun u => ⟨rfl, rfl, rfl⟩
    | cons b l ih =>
      intro u
      have := ih (u.setEntryState b.index .aboard)
      simpa [State.boardBags] using this
  unfold State.boardCart
  dsimp only
  refine report_fleet ?_ _ _
  have h1 : ((s.boardBags k.bags).putSailing g.slot { v with tally := v.tally + k.bags.length }).fleetOk :=
    fleetOk_of_eq h (hb _ _).1 (hb _ _).2.1 (hb _ _).2.2
  have h2 := putGroup_same_fleet h1 (n := k.group) (g := g) (g' := { g with
      bagsAboard := min (g.bagsAboard + k.bags.length) Config.countStop,
      cartsAboard := bumpStop g.cartsAboard,
      bagsInCarts := g.bagsInCarts - (k.marked .dropped + k.marked .doubt) })
    (by rw [← hg]; exact congrArg (fun t => Tbl.get t k.group) (hb k.bags s).2.2) rfl
  show FleetOk _ (Tbl.get (Tbl.erase _ id)) _
  rw [get_erase_fun]
  refine FleetOk.board h2 (k := k) ?_ hs
  rw [← hk]
  exact congrArg (fun t => Tbl.get t id) (hb k.bags s).2.1

theorem refuseCart_fleet (h : s.fleetOk) {id : Nat} {k : Cart} {g : Group}
    (hk : Tbl.get s.carts id = some k) (hs : k.state = .called) (hg : Tbl.get s.groups k.group = some g) :
    (s.refuseCart id k g).fleetOk := by
  unfold State.refuseCart
  refine report_fleet ?_ _ _
  show FleetOk _ (Tbl.get (Tbl.set s.carts id _)) (Tbl.get (Tbl.set s.groups k.group _))
  rw [get_set_fun, get_set_fun]
  exact FleetOk.refuse h hk hs hg rfl rfl rfl rfl

/-! Groups -/

theorem newGroup_fleet (h : s.fleetOk) {n : Nat} {g : Group} (hn : Tbl.get s.groups n = none)
    (hg : g.ready = []) : (s.putGroup n g).fleetOk := by
  show FleetOk _ _ (Tbl.get (Tbl.set s.groups n g))
  rw [get_set_fun]
  exact FleetOk.newGroup h hn hg

theorem eraseGroup_fleet (h : s.fleetOk) {n : Nat} (hk : ∀ id k, Tbl.get s.carts id = some k → k.group ≠ n)
    (hc : ∀ c x, Tbl.get s.chutes c = some x → x.bound ≠ n) :
    State.fleetOk { s with groups := Tbl.erase s.groups n } := by
  show FleetOk _ _ (Tbl.get (Tbl.erase s.groups n))
  rw [get_erase_fun]
  refine FleetOk.drop h (fun j => j = n) (fun j e => by simp [put, e]) (fun j e => by simp [put, e])
    (fun id k e e' => absurd e' (hk id k e)) (fun id k e _ => e) (fun id e => e)
    (fun c x e _ e' => absurd e' (hc c x e)) (fun c x e _ => e) (fun c e => e)

/-! A new layout, RESTART -/

theorem clampChutes_fleet (h : s.fleetOk) (y : Layout) (hc : t.chutes = Tbl.mapRows s.chutes (Chute.clampTo y))
    (hk : t.carts = s.carts) (hg : t.groups = s.groups) : t.fleetOk := by
  unfold State.fleetOk
  rw [hc, hk, hg, get_mapRows_fun]
  refine FleetOk.same h (fun c => ?_) (fun _ => rfl) (fun _ => rfl)
  rw [Option.map_map]
  rfl

theorem restartBags_fleet (h : s.fleetOk) :
    State.fleetOk { s with carts := Tbl.mapRows s.carts (fun c => { c with bags := restartBags c.bags }) } := by
  unfold State.fleetOk
  dsimp only
  rw [get_mapRows_fun]
  refine FleetOk.same h (fun _ => rfl) (fun id => ?_) (fun _ => rfl)
  rw [Option.map_map]
  rfl

/-- CLOSING carts, each named once, all close. -/
theorem closeCarts_fleet (l : List Nat) (hl : l.Nodup) (h : s.fleetOk)
    (hs : ∀ id ∈ l, ∃ k, Tbl.get s.carts id = some k ∧ k.state = .closing) :
    (l.foldl State.closeCart s).fleetOk := by
  induction l generalizing s with
  | nil => exact h
  | cons id l ih =>
    obtain ⟨k, hk, hc⟩ := hs id List.mem_cons_self
    rw [List.nodup_cons] at hl
    refine ih hl.2 (closeCart_fleet h hk (.inr hc)) (fun j hj => ?_)
    obtain ⟨k', hk', hc'⟩ := hs j (List.mem_cons_of_mem _ hj)
    have hne : j ≠ id := fun e => hl.1 (e ▸ hj)
    refine ⟨k', ?_, hc'⟩
    have : (s.closeCart id).carts = Tbl.set s.carts id { k with
        state := .closed, closedTime := some s.lu.clock, chute := none } := by
      unfold State.closeCart
      simp only [hk]
      split <;> rfl
    rw [this, Tbl.get_set_other _ _ _ _ hne]
    exact hk'

/-- RESTART closes every CLOSING cart (R24). -/
theorem restartCarts_fleet (h : s.fleetOk) (hs : Tbl.Sorted s.carts) : s.restartCarts.fleetOk := by
  unfold State.restartCarts
  refine closeCarts_fleet _ ?_ (restartBags_fleet h) (fun id hid => ?_)
  · exact (List.Pairwise.imp (fun e => Nat.ne_of_lt e) (Tbl.sorted_filter s.carts _ hs) :
      ((s.carts.filter _).map Prod.fst).Nodup)
  · obtain ⟨r, hr, rfl⟩ := List.mem_map.1 hid
    obtain ⟨hm, hc⟩ := List.mem_filter.1 hr
    refine ⟨{ r.2 with bags := restartBags r.2.bags }, ?_, of_decide_eq_true hc⟩
    dsimp only
    rw [Tbl.get_mapRows, Tbl.get_of_mem _ _ _ hs hm]
    rfl

/-! SAILING CLOSE -/

theorem get_filter_fun {α : Type} (t : Tbl α) (f : Nat × α → Bool) (hs : Tbl.Sorted t) :
    Tbl.get (t.filter f) = fun k => (Tbl.get t k).filter (fun v => f (k, v)) := by
  funext k
  ext v
  constructor
  · intro e
    obtain ⟨hm, hf⟩ := List.mem_filter.1 (Tbl.mem_of_get _ _ _ e)
    simp [Tbl.get_of_mem _ _ _ hs hm, hf]
  · intro e
    obtain ⟨he, hf⟩ := Option.filter_eq_some_iff.1 e
    exact Tbl.get_of_mem _ _ _ (Tbl.sorted_filter _ _ hs)
      (List.mem_filter.2 ⟨Tbl.mem_of_get _ _ _ he, hf⟩)

theorem mem_groupsOf (hs : Tbl.Sorted s.groups) (n j : Nat) :
    j ∈ s.groupsOf n ↔ ∃ g, Tbl.get s.groups j = some g ∧ g.slot = n := by
  unfold State.groupsOf
  constructor
  · intro hj
    obtain ⟨r, hr, rfl⟩ := List.mem_map.1 hj
    obtain ⟨hm, he⟩ := List.mem_filter.1 hr
    exact ⟨r.2, Tbl.get_of_mem _ _ _ hs hm, by simpa using he⟩
  · rintro ⟨g, hg, he⟩
    exact List.mem_map.2 ⟨(j, g), List.mem_filter.2 ⟨Tbl.mem_of_get _ _ _ hg, by simpa using he⟩, rfl⟩

theorem unbindClosed_fold (l : List Nat) (u : State) :
    (l.foldl State.unbindClosed u).carts = u.carts ∧ (l.foldl State.unbindClosed u).groups = u.groups
      ∧ ∀ c, Tbl.get (l.foldl State.unbindClosed u).chutes c = if c ∈ l then
          (Tbl.get u.chutes c).map (fun h => { h with bound := 0, cycle := some .noCart, cart := none })
        else Tbl.get u.chutes c := by
  induction l generalizing u with
  | nil => exact ⟨rfl, rfl, fun c => by simp⟩
  | cons d l ih =>
    obtain ⟨h1, h2, h3⟩ := ih (u.unbindClosed d)
    refine ⟨h1.trans (by simp [State.unbindClosed]), h2.trans (by simp [State.unbindClosed]), fun c => ?_⟩
    rw [List.foldl_cons, h3]
    have e : Tbl.get (u.unbindClosed d).chutes c = if c = d then
        (Tbl.get u.chutes c).map (fun h => { h with bound := 0, cycle := some .noCart, cart := none })
      else Tbl.get u.chutes c := by
      simp only [State.unbindClosed, State.reportChute_chutes, State.modifyChute]
      rw [Tbl.get_modify]
    rw [e]
    by_cases hd : c = d <;> by_cases hl : c ∈ l <;> simp [hd, hl]
    all_goals subst hd; simp_all [Function.comp_def]

/-- The groups of a closed sailing go with their carts, and their chutes are unbound (R22). -/
theorem releaseCarts_fleet (h : s.fleetOk) (hs : s.TablesOk) (n : Nat) (f : Tbl Sailing → Tbl Sailing) :
    State.fleetOk { s.releaseCarts n with
      groups := (s.releaseCarts n).groups.filter (fun r => r.2.slot != n),
      sailings := f (s.releaseCarts n).sailings } := by
  obtain ⟨h1, h2, h3⟩ := unbindClosed_fold
    ((s.chutes.filter (fun r => r.2.bound != 0 && (s.groupsOf n).contains r.2.bound)).map Prod.fst)
    { s with carts := s.carts.filter (fun r => !(s.groupsOf n).contains r.2.group) }
  have key : ∀ c x, Tbl.get s.chutes c = some x →
      (c ∈ (s.chutes.filter (fun r => r.2.bound != 0 && (s.groupsOf n).contains r.2.bound)).map Prod.fst
        ↔ x.bound ≠ 0 ∧ x.bound ∈ s.groupsOf n) := by
    intro c x hx
    constructor
    · intro hc
      obtain ⟨r, hr, rfl⟩ := List.mem_map.1 hc
      obtain ⟨hm, he⟩ := List.mem_filter.1 hr
      have := Tbl.get_of_mem _ _ _ hs.chutes hm
      cases hx.symm.trans this
      simpa using he
    · intro hc
      exact List.mem_map.2 ⟨(c, x), List.mem_filter.2 ⟨Tbl.mem_of_get _ _ _ hx, by simpa using hc⟩, rfl⟩
  unfold State.fleetOk State.releaseCarts
  dsimp only
  rw [h1, h2]
  dsimp only
  rw [get_filter_fun _ _ hs.carts, get_filter_fun _ _ hs.groups]
  refine FleetOk.drop h (fun j => j ∈ s.groupsOf n) ?_ ?_ ?_ ?_ ?_ ?_ ?_ ?_
  · intro j hj
    obtain ⟨g, hg, e⟩ := (mem_groupsOf hs.groups n j).1 hj
    simp [hg, e]
  · intro j hj
    cases hg : Tbl.get s.groups j with
    | none => rfl
    | some g =>
      have : g.slot ≠ n := fun e => hj ((mem_groupsOf hs.groups n j).2 ⟨g, hg, e⟩)
      simp [this]
  · intro id k hk hj; simp [hk, hj]
  · intro id k hk hj; simp [hk, hj]
  · intro id hk; simp [hk]
  · intro c x hx hb hj
    rw [h3, if_pos ((key c x hx).2 ⟨hb, hj⟩), hx]
    exact ⟨_, rfl, rfl, rfl, rfl, rfl⟩
  · intro c x hx hj
    rw [h3, if_neg (fun e => ?_)]
    · exact hx
    · obtain ⟨e1, e2⟩ := (key c x hx).1 e
      exact hj.elim e1 (fun e' => e' e2)
  · intro c hc
    rw [h3, show Tbl.get _ c = none from hc]
    split <;> rfl

/-! A panel's chute -/

theorem chuteOfPanel_get (hs : Tbl.Sorted s.chutes) {node : Byte} {c : Nat} {x : Chute}
    (e : s.chuteOfPanel node = some (c, x)) : Tbl.get s.chutes c = some x :=
  Tbl.get_of_mem _ _ _ hs (List.mem_of_find?_eq_some e)

end Sys2Proof.Machine
end

