-- ==== Sys2Proof/Laws/Keeps.lean ====
section
/-! SUPPORT. What every operation keeps: the relation `Keeps` from the state before to the state after,
and one lemma per shared operation that says the operation extends it. -/

namespace Sys2Proof.Machine

/-- What only some commands may do: make the loop SYNCED, load a layout, queue a reply, clear flags; and
what only a part of an operation may do: leave chutes, carts and ready queues at odds, or the eye's
alignment of a count to be taken. -/
structure Leave where
  home : Bool
  layout : Bool
  answers : Bool
  flags : Bool
  fleet : Bool
  eye : Bool
  deriving DecidableEq, Repr

/-- Leave for none of it. -/
def Leave.nothing : Leave :=
  { home := false, layout := false, answers := false, flags := false, fleet := false,
    eye := false }

theorem Leave.not_strict {l : Leave} {p : Prop} (h : l.fleet = true) (h' : l.fleet = false) : p :=
  absurd (h.symm.trans h') (by simp)

/-- The same leave within an operation, where the tables of the fleet may disagree. -/
def Leave.loose (l : Leave) : Leave := { l with fleet := true }

/-- The same leave within a move of the position, before the eye's alignment is taken. -/
def Leave.moving (l : Leave) : Leave := { l with eye := true }

/-- What a run of operations from `s` to `t` keeps. Without leave for it, the loop does not
become SYNCED, the layout stays, a place for a reply stays free, no flag of the line is cleared,
chutes, carts and ready queues stay in agreement, and no alignment of the eye is left to be taken. -/
structure Keeps (leave : Leave) (s t : State) : Prop where
  pending : t.pending = s.pending
  node : t.lu.node = s.lu.node
  sup : s.lu.supTx.queue.length ≤ 64 → t.lu.supTx.queue.length ≤ 64
  fld : s.lu.fldTx.queue.length ≤ 32 → t.lu.fldTx.queue.length ≤ 32
  sailings : Tbl.Sorted s.sailings → Tbl.Sorted t.sailings
  manifest : manifestOk s.manifest → manifestOk t.manifest
  groups : Tbl.Sorted s.groups → Tbl.Sorted t.groups
  stations : queuesOk s.stations → queuesOk t.stations
  trays : traysOk s.trays → traysOk t.trays
  chutes : Tbl.Sorted s.chutes → Tbl.Sorted t.chutes
  carts : Tbl.Sorted s.carts → Tbl.Sorted t.carts
  strays : straysOk s.su.strays → straysOk t.su.strays
  loop : s.lt.Ok → t.lt.Ok
  run : s.runOk → t.runOk
  sync : leave.home = false → t.lt.state = LoopState.synced → s.lt.state = LoopState.synced
  lay : leave.layout = false → t.lt.layout = s.lt.layout
  place : leave.answers = false → s.lu.supTx.queue.length < 64 → t.lu.supTx.queue.length < 64
  overrun : leave.flags = false → s.lu.overrun = true → t.lu.overrun = true
  supFlag : leave.flags = false → s.lu.supRx.errorFlag = true → t.lu.supRx.errorFlag = true
  fldFlag : leave.flags = false → s.lu.fldRx.errorFlag = true → t.lu.fldRx.errorFlag = true
  ref : s.refOk → t.refOk
  fleet : leave.fleet = false → s.TablesOk → s.fleetOk → t.fleetOk
  eye : leave.eye = false → s.lt.eyeTaken = true → t.lt.eyeTaken = true

variable {leave : Leave} {s t : State}

theorem Keeps.refl (s : State) : Keeps leave s s :=
  ⟨rfl, rfl, id, id, id, id, id, id, id, id, id, id, id, id, fun _ h => h, fun _ => rfl, fun _ => id,
    fun _ => id, fun _ => id, fun _ => id, id, fun _ _ => id, fun _ => id⟩

theorem Keeps.tables (h : Keeps leave s t) (o : s.TablesOk) : t.TablesOk :=
  ⟨h.sailings o.sailings, h.manifest o.manifest, h.groups o.groups, h.stations o.stations, h.trays o.trays,
    h.chutes o.chutes, h.carts o.carts, h.strays o.strays⟩

/-- An operation that keeps all else and, as a whole, the agreement of the fleet. -/
theorem Keeps.mend (h : Keeps leave.loose s t) (k : s.TablesOk → s.fleetOk → t.fleetOk) : Keeps leave s t :=
  ⟨h.pending, h.node, h.sup, h.fld, h.sailings, h.manifest, h.groups, h.stations, h.trays, h.chutes, h.carts,
    h.strays, h.loop, h.run, h.sync, h.lay, h.place, h.overrun, h.supFlag, h.fldFlag, h.ref, fun _ => k, h.eye⟩

/-- A move of the position at whose end the eye's alignment is taken. -/
theorem Keeps.settle (h : Keeps leave.moving s t) (k : t.lt.eyeTaken = true) : Keeps leave s t :=
  ⟨h.pending, h.node, h.sup, h.fld, h.sailings, h.manifest, h.groups, h.stations, h.trays, h.chutes, h.carts,
    h.strays, h.loop, h.run, h.sync, h.lay, h.place, h.overrun, h.supFlag, h.fldFlag, h.ref, h.fleet,
    fun _ _ => k⟩

theorem Keeps.trans {r : State} (h : Keeps leave s t) (k : Keeps leave t r) : Keeps leave s r :=
  ⟨k.pending.trans h.pending, k.node.trans h.node, k.sup ∘ h.sup, k.fld ∘ h.fld, k.sailings ∘ h.sailings,
    k.manifest ∘ h.manifest, k.groups ∘ h.groups, k.stations ∘ h.stations, k.trays ∘ h.trays,
    k.chutes ∘ h.chutes, k.carts ∘ h.carts, k.strays ∘ h.strays, k.loop ∘ h.loop, k.run ∘ h.run,
    fun hh hs => h.sync hh (k.sync hh hs), fun hl => (k.lay hl).trans (h.lay hl),
    fun hl => k.place hl ∘ h.place hl, fun hl => k.overrun hl ∘ h.overrun hl,
    fun hl => k.supFlag hl ∘ h.supFlag hl, fun hl => k.fldFlag hl ∘ h.fldFlag hl,
    k.ref ∘ h.ref, fun hl o => k.fleet hl (h.tables o) ∘ h.fleet hl o,
    fun hl => k.eye hl ∘ h.eye hl⟩

/-- A fold of operations that each extend the relation extends it. -/
theorem Keeps.fold {α : Type} (f : State → α → State) (hf : ∀ u a, Keeps leave u (f u a)) (l : List α)
    (h : Keeps leave s t) : Keeps leave s (l.foldl f t) := by
  induction l generalizing t with
  | nil => exact h
  | cons a l ih => exact ih (h.trans (hf t a))

/-! Tables -/

theorem manifestOk_put {t : Tbl Entry} (h : manifestOk t) (m : Nat) (e : Entry) :
    manifestOk (if e = Entry.unissued then Tbl.erase t m else Tbl.set t m e) := by
  split
  · exact ⟨Tbl.sorted_erase t m h.1, fun r hr => h.2 r (List.mem_filter.1 hr).1⟩
  · next he =>
    refine ⟨Tbl.sorted_set t m e h.1, fun r hr => ?_⟩
    rcases Tbl.mem_set t m e r hr with rfl | hr
    · exact he
    · exact h.2 r hr

theorem traysOk_put {t : Tbl Tray} (h : traysOk t) (k : Nat) (x : Tray) :
    traysOk (if x = .empty then Tbl.erase t k else Tbl.set t k x) := by
  split
  · exact ⟨Tbl.sorted_erase t k h.1, fun r hr => h.2 r (List.mem_filter.1 hr).1⟩
  · next he =>
    refine ⟨Tbl.sorted_set t k x h.1, fun r hr => ?_⟩
    rcases Tbl.mem_set t k x r hr with rfl | hr
    · exact he
    · exact h.2 r hr

theorem Keeps.putEntry (h : Keeps leave s t) (m : Nat) (e : Entry) : Keeps leave s (t.putEntry m e) :=
  { h with manifest := fun hs => manifestOk_put (h.manifest hs) m e }

theorem Keeps.setEntryState (h : Keeps leave s t) (m : Nat) (st : EntryState) :
    Keeps leave s (t.setEntryState m st) := h.putEntry _ _

theorem Keeps.putTray (h : Keeps leave s t) (k : Nat) (x : Tray) : Keeps leave s (t.putTray k x) :=
  { h with trays := fun hs => traysOk_put (h.trays hs) k x }

theorem Keeps.putSailing (h : Keeps leave s t) (n : Nat) (v : Sailing) : Keeps leave s (t.putSailing n v) :=
  { h with sailings := fun hs => Tbl.sorted_set _ _ _ (h.sailings hs) }

theorem Keeps.putGroup (h : Keeps leave s t) (g : Nat) (v : Group)
    (hf : leave.fleet = true := by first | rfl | assumption) :
    Keeps leave s (t.putGroup g v) :=
  { h with
    groups := fun hs => Tbl.sorted_set _ _ _ (h.groups hs)
    fleet := fun hn => Leave.not_strict hf hn }

theorem Keeps.modifyGroup (h : Keeps leave s t) (g : Nat) (f : Group → Group)
    (hf : leave.fleet = true := by first | rfl | assumption) :
    Keeps leave s (t.modifyGroup g f) :=
  { h with
    groups := fun hs => Tbl.sorted_modify _ _ _ (h.groups hs)
    fleet := fun hn => Leave.not_strict hf hn }

theorem Keeps.putStation (h : Keeps leave s t) (n : Nat) (v : Station)
    (hv : queuesOk s.stations → v.queue.length ≤ Config.pendingPlaces) : Keeps leave s (t.putStation n v) :=
  { h with
    stations := fun hs => by
      refine ⟨Tbl.sorted_set _ _ _ (h.stations hs).1, fun r hr => ?_⟩
      rcases Tbl.mem_set _ _ _ r hr with rfl | hr
      · exact hv hs
      · exact (h.stations hs).2 r hr }

theorem Keeps.putChute (h : Keeps leave s t) (c : Nat) (v : Chute)
    (hf : leave.fleet = true := by first | rfl | assumption) :
    Keeps leave s (t.putChute c v) :=
  { h with
    chutes := fun hs => Tbl.sorted_set _ _ _ (h.chutes hs)
    fleet := fun hn => Leave.not_strict hf hn }

theorem Keeps.modifyChute (h : Keeps leave s t) (c : Nat) (f : Chute → Chute)
    (hf : leave.fleet = true := by first | rfl | assumption) :
    Keeps leave s (t.modifyChute c f) :=
  { h with
    chutes := fun hs => Tbl.sorted_modify _ _ _ (h.chutes hs)
    fleet := fun hn => Leave.not_strict hf hn }

theorem Keeps.putCart (h : Keeps leave s t) (id : Nat) (v : Cart)
    (hf : leave.fleet = true := by first | rfl | assumption) :
    Keeps leave s (t.putCart id v) :=
  { h with
    carts := fun hs => Tbl.sorted_set _ _ _ (h.carts hs)
    fleet := fun hn => Leave.not_strict hf hn }

theorem Keeps.freeCart (h : Keeps leave s t) (id : Nat)
    (hf : leave.fleet = true := by first | rfl | assumption) :
    Keeps leave s (t.freeCart id) :=
  { h with
    carts := fun hs => Tbl.sorted_erase _ _ (h.carts hs)
    fleet := fun hn => Leave.not_strict hf hn }

theorem queuesOk_mapRows {t : Tbl Station} (h : queuesOk t) (f : Station → Station)
    (hf : ∀ st, (f st).queue.length ≤ st.queue.length) : queuesOk (Tbl.mapRows t f) := by
  refine ⟨Tbl.sorted_mapRows _ _ h.1, fun r hr => ?_⟩
  obtain ⟨q, hq, rfl⟩ := List.mem_map.1 hr
  exact (hf q.2).trans (h.2 q hq)

theorem queuesOk_modify {t : Tbl Station} (h : queuesOk t) (n : Nat) (f : Station → Station)
    (hf : ∀ st, (f st).queue.length ≤ st.queue.length) : queuesOk (Tbl.modify t n f) := by
  refine ⟨Tbl.sorted_modify _ _ _ h.1, fun r hr => ?_⟩
  obtain ⟨q, hq, rfl⟩ := List.mem_map.1 hr
  split
  · exact (hf q.2).trans (h.2 q hq)
  · exact h.2 q hq

theorem Tray.mapLoad_eq_empty (f : Load → Load) (x : Tray) : x.mapLoad f = .empty ↔ x = .empty := by
  cases x <;> simp [Tray.mapLoad]

theorem traysOk_mapLoad {t : Tbl Tray} (h : traysOk t) (f : Load → Load) :
    traysOk (Tbl.mapRows t (Tray.mapLoad f)) := by
  refine ⟨Tbl.sorted_mapRows _ _ h.1, fun r hr => ?_⟩
  obtain ⟨q, hq, rfl⟩ := List.mem_map.1 hr
  exact fun he => h.2 q hq ((Tray.mapLoad_eq_empty f q.2).1 he)

theorem Keeps.mapLoads (h : Keeps leave s t) (f : Load → Load) : Keeps leave s (t.mapLoads f) :=
  { h with
    stations := fun hs => queuesOk_mapRows (h.stations hs) (fun st => { st with queue := st.queue.map f })
      (fun st => by simp)
    trays := fun hs => traysOk_mapLoad (h.trays hs) f }

theorem Keeps.retarget (h : Keeps leave s t) (m : Nat) (x : Target) : Keeps leave s (t.retarget m x) :=
  h.mapLoads _

/-! The line -/

theorem Keeps.setOverrun (h : Keeps leave s t) : Keeps leave s t.setOverrun :=
  { h with overrun := fun _ _ => rfl }

theorem Keeps.clearFlags (hl : leave.flags = true) (h : Keeps leave s t) : Keeps leave s t.clearFlags :=
  { h with
    overrun := fun hn => absurd (hl.symm.trans hn) (by simp)
    supFlag := fun hn => absurd (hl.symm.trans hn) (by simp)
    fldFlag := fun hn => absurd (hl.symm.trans hn) (by simp) }

theorem Keeps.setRx (h : Keeps leave s t) (port : Port) (r : Receiver)
    (hr : (t.rx port).errorFlag = true → r.errorFlag = true) : Keeps leave s (t.setRx port r) := by
  cases port
  · exact { h with supFlag := fun hn hs => hr (h.supFlag hn hs) }
  · exact { h with fldFlag := fun hn hs => hr (h.fldFlag hn hs) }

theorem Keeps.report (h : Keeps leave s t) (k : Nat) (p : List Byte) : Keeps leave s (t.report k p) := by
  unfold State.report
  split
  · next hq =>
    exact { h with
      sup := fun _ => by
        simp only [List.length_append, List.length_singleton, Config.supReportPlaces] at hq ⊢; omega
      place := fun _ _ => by
        simp only [List.length_append, List.length_singleton, Config.supReportPlaces] at hq ⊢; omega }
  · exact h.setOverrun

theorem Keeps.reply (hl : leave.answers = true) (h : Keeps leave s t) (dst kind : Byte) (c : Code) (p : List Byte) :
    Keeps leave s (t.reply dst kind c p) := by
  unfold State.reply State.replyPlace
  split
  · next hq =>
    exact { h with
      sup := fun _ => by
        have := of_decide_eq_true hq
        simp only [List.length_append, List.length_singleton, Config.supPlaces] at this ⊢
        omega
      place := fun hn => absurd (hl.symm.trans hn) (by simp) }
  · exact h

theorem Keeps.order (h : Keeps leave s t) (dst : Byte) (k : Nat) (p : List Byte) :
    Keeps leave s (t.order dst k p) := by
  unfold State.order State.orderPlace
  split
  · next hq =>
    exact { h with
      fld := fun _ => by
        have := of_decide_eq_true hq
        simp only [List.length_append, List.length_singleton, Config.fldPlaces] at this ⊢
        omega }
  · exact h

theorem Keeps.fieldMismatch (h : Keeps leave s t) (src kind : Byte) (c : MismatchCause) (n : Nat) :
    Keeps leave s (t.fieldMismatch src kind c n) := h.report _ _

/-- A command keeps what its body keeps when it answers OK. -/
theorem Keeps.takeCommand (hl : leave.answers = true) (s : State) (src kind : Byte) (body : State → CmdResult)
    (hb : ∀ u fields, body s = .ok (u, fields) → Keeps leave s u) :
    Keeps leave s (s.takeCommand src kind body) := by
  unfold State.takeCommand
  split
  · exact .refl s
  · split
    · split
      · next h => exact (hb _ _ h).reply hl _ _ _ _
      · exact (Keeps.refl s).reply hl _ _ _ _
    · exact (Keeps.refl s).setOverrun

/-- A field frame keeps what its owner keeps. -/
theorem Keeps.takeField (s : State) (src kind : Byte) (p : List Byte) (a b : Bool) (owner : State → State)
    (ho : Keeps leave s (owner s)) : Keeps leave s (s.takeField src kind p a b owner) := by
  unfold State.takeField
  split
  · exact .refl s
  · split
    · exact .refl s
    · split
      · exact (Keeps.refl s).fieldMismatch _ _ _ _
      · split
        · exact (Keeps.refl s).fieldMismatch _ _ _ _
        · exact ho

/-! Stray records -/

theorem Keeps.reportOpened (h : Keeps leave s t) (ref : Nat) (r : Stray) (c : OpenCause) :
    Keeps leave s (t.reportOpened ref r c) := h.report _ _

theorem Keeps.reportMoved (h : Keeps leave s t) (ref : Nat) (a b : Stray) (c : MoveCause) :
    Keeps leave s (t.reportMoved ref a b c) := h.report _ _

theorem Keeps.reportTableFull (h : Keeps leave s t) : Keeps leave s t.reportTableFull := by
  have k := h.report 0x3F (b4 t.lu.clock ++ b2 t.su.unrecorded)
  exact { k with }

theorem freshFrom_range (t : Tbl Stray) (n ref : Nat) (h : 1 ≤ ref ∧ ref ≤ 65535) :
    1 ≤ freshFrom t n ref ∧ freshFrom t n ref ≤ 65535 := by
  induction n generalizing ref with
  | zero => exact h
  | succ n ih =>
    unfold freshFrom
    split
    · exact ih _ (by split <;> omega)
    · exact h

theorem Keeps.openStray (h : Keeps leave s t) (r : Stray) (c : OpenCause) :
    Keeps leave s (t.openStray r c).1 := by
  unfold State.openStray
  split
  · exact { h with }
  · next hl =>
    have k : Keeps leave s { t with
        su := { t.su with
          strays := Tbl.set t.su.strays t.freshRef { r with opened := t.lu.clock },
          nextRef := if t.freshRef = 65535 then 1 else t.freshRef + 1 } } :=
      { h with
        strays := fun hs => ⟨Tbl.sorted_set _ _ _ (h.strays hs).1, by
          have := Tbl.length_set_le t.su.strays t.freshRef { r with opened := t.lu.clock }
          show (Tbl.set t.su.strays t.freshRef { r with opened := t.lu.clock }).length ≤ _
          omega⟩
        ref := fun hr => by
          have := freshFrom_range t.su.strays (t.su.strays.length + 1) t.su.nextRef (h.ref hr)
          unfold State.refOk State.freshRef
          dsimp only
          split <;> omega }
    dsimp only
    split
    · exact (k.reportOpened _ _ _).reportTableFull
    · exact k.reportOpened _ _ _

theorem Keeps.rewriteStray (h : Keeps leave s t) (ref : Nat) (old r x : Stray)
    (hx : Tbl.get t.su.strays ref = some x) : Keeps leave s (t.rewriteStray ref old r) :=
  { h with
    strays := fun hs => ⟨Tbl.sorted_set _ _ _ (h.strays hs).1, by
      show (Tbl.set t.su.strays ref r).length ≤ _
      rw [Tbl.length_set_of_get _ _ _ _ (h.strays hs).1 hx]; exact (h.strays hs).2⟩ }

theorem Keeps.moveStray (h : Keeps leave s t) (ref : Nat) (f : Stray → Stray) (c : MoveCause) (a : Bool) :
    Keeps leave s (t.moveStray ref f c a) := by
  unfold State.moveStray
  split
  · exact h
  · next hx =>
    dsimp only
    split
    · exact h.rewriteStray _ _ _ _ hx
    · exact (h.rewriteStray _ _ _ _ hx).reportMoved _ _ _ _

theorem Keeps.removeStray (h : Keeps leave s t) (ref : Nat) : Keeps leave s (t.removeStray ref) :=
  { h with
    strays := fun hs => ⟨Tbl.sorted_erase _ _ (h.strays hs).1,
      (Tbl.length_erase_le _ _).trans (h.strays hs).2⟩ }

theorem Keeps.closeStray (h : Keeps leave s t) (ref : Nat) (o : StrayOutcome) (c : Option Nat) :
    Keeps leave s (t.closeStray ref o c) := by
  unfold State.closeStray
  split
  · exact h
  · exact (h.removeStray _).report _ _

theorem Keeps.strayBag (h : Keeps leave s t) (m slot cls : Nat) (loc : StrayLoc) (c : OpenCause) :
    Keeps leave s (t.strayBag m slot cls loc c) :=
  ((h.openStray _ _).setEntryState _ _).mapLoads _

theorem Keeps.applyResolution (h : Keeps leave s t) (m slot : Nat) (res : Resolution) (loc : StrayLoc)
    (c : OpenCause) : Keeps leave s (t.applyResolution m slot res loc c) := by
  unfold State.applyResolution
  split
  · exact h.retarget _ _
  · exact h.strayBag _ _ _ _ _

/-! Carts and chutes -/

theorem Keeps.reportChute (h : Keeps leave s t) (c : Nat) (x : ChuteCause) :
    Keeps leave s (t.reportChute c x) := by
  unfold State.reportChute
  split
  · exact h
  · exact h.report _ _

theorem Keeps.reportFault (h : Keeps leave s t) (c : Nat) (x : FaultCause) (k : Nat) (o i : Option Nat) :
    Keeps leave s (t.reportFault c x k o i) := h.report _ _

theorem Keeps.closeRecord (h : Keeps leave s t) (id : Nat) (c : Cart)
    (hf : leave.fleet = true := by first | rfl | assumption) :
    Keeps leave s (t.closeRecord id c) :=
  (h.putCart _ _).modifyGroup _ _

theorem Keeps.closeCart (h : Keeps leave s t) (id : Nat)
    (hf : leave.fleet = true := by first | rfl | assumption) :
    Keeps leave s (t.closeCart id) := by
  unfold State.closeCart
  split
  · exact h
  · split
    · exact h.closeRecord _ _
    · exact (h.closeRecord _ _).modifyChute _ _

theorem Keeps.reportCartClosed (h : Keeps leave s t) (id c : Nat) : Keeps leave s (t.reportCartClosed id c) := by
  unfold State.reportCartClosed
  split
  · exact h
  · exact h.report _ _

theorem Keeps.closingTest (h : Keeps leave s t) (id : Nat) (x : ChuteCause) :
    Keeps leave s (t.closingTest id x) := by
  refine h.trans (.mend ?_ (fun _ o => closingTest_fleet o _ _))
  have h := Keeps.refl (leave := leave.loose) t
  unfold State.closingTest
  split
  · exact h
  · split
    · split
      · exact h.closeCart _
      · exact ((h.closeCart _).reportCartClosed _ _).reportChute _ _
    · exact h

theorem Keeps.enterClosing (h : Keeps leave s t) (id : Nat) (x : CloseCause)
    (hf : leave.fleet = true := by first | rfl | assumption) :
    Keeps leave s (t.enterClosing id x) := by
  unfold State.enterClosing
  split
  · exact h
  · dsimp only
    split
    · exact h.putCart _ _
    · exact (h.putCart _ _).modifyChute _ _

theorem Keeps.forceClose (h : Keeps leave s t) (id : Nat) (x : CloseCause) :
    Keeps leave s (t.forceClose id x) := by
  refine h.trans (.mend ?_ (fun _ o => forceClose_fleet o _ _))
  have h := Keeps.refl (leave := leave.loose) t
  unfold State.forceClose
  split
  · exact h
  · split
    · dsimp only
      split
      · exact (h.enterClosing _ _).closingTest _ _
      · split
        · exact h.enterClosing _ _
        · exact (h.enterClosing _ _).reportChute _ _
    · exact h

theorem Keeps.fullTest (h : Keeps leave s t) (id c : Nat)
    (hf : leave.fleet = true := by first | rfl | assumption) :
    Keeps leave s (t.fullTest id c) := by
  unfold State.fullTest
  split
  · exact h
  · split
    · exact h
    · split
      · exact (h.enterClosing _ _).reportChute _ _
      · exact h

theorem Keeps.editBags (h : Keeps leave s t) (id : Nat) (f : List BagItem → List BagItem) (g : Nat → Nat) :
    Keeps leave s (t.editBags id f g) := by
  refine h.trans (.mend ?_ (fun _ o => editBags_fleet o _ _ _))
  have h := Keeps.refl (leave := leave.loose) t
  unfold State.editBags
  split
  · exact h
  · exact (h.putCart _ _).modifyGroup _ _

theorem Keeps.swapTest (h : Keeps leave s t) (c : Nat) : Keeps leave s (t.swapTest c) := by
  refine h.trans (.mend ?_ (fun _ o => swapTest_fleet o _))
  have h := Keeps.refl (leave := leave.loose) t
  unfold State.swapTest
  split
  · exact h
  · split
    · exact (h.report _ _).putChute _ _
    · exact h

theorem Keeps.swapTests (h : Keeps leave s t) : Keeps leave s t.swapTests :=
  h.fold _ (fun u c => (Keeps.refl u).swapTest c) _

/-! Tilts -/

theorem Keeps.reserve (h : Keeps leave s t) (id c : Nat) (l : Load)
    (hf : leave.fleet = true := by first | rfl | assumption) :
    Keeps leave s (t.reserve id c l) := by
  unfold State.reserve
  split
  · exact h
  · exact (h.editBags _ _ _).fullTest _ _

theorem Keeps.takeTilt (h : Keeps leave s t) (c k : Nat) (l : Load) (x : Chute)
    (hf : leave.fleet = true := by first | rfl | assumption) :
    Keeps leave s (t.takeTilt c k l x) := by
  unfold State.takeTilt
  dsimp only
  refine (Keeps.putTray ?_ _ _).order _ _ _
  split
  · exact h.reserve _ _ _
  · exact h

theorem Keeps.decisionPoint (h : Keeps leave s t) (c k : Nat) : Keeps leave s (t.decisionPoint c k) := by
  refine h.trans (.mend ?_ (fun _ o => decisionPoint_fleet o _ _))
  have h := Keeps.refl (leave := leave.loose) t
  unfold State.decisionPoint
  split
  · split
    · exact h.takeTilt _ _ _ _
    · exact h
  · exact h

theorem Keeps.arrivalPoint (h : Keeps leave s t) (c k : Nat) : Keeps leave s (t.arrivalPoint c k) := by
  unfold State.arrivalPoint
  split
  · split
    · exact h.reportFault _ _ _ _ _
    · exact h
  · exact h

theorem Keeps.enterDoubt (h : Keeps leave s t) (k : Nat) : Keeps leave s (t.enterDoubt k) := by
  unfold State.enterDoubt
  split
  · dsimp only
    split
    · split
      · exact ((h.putTray _ _).editBags _ _ _).setEntryState _ _
      · exact (h.putTray _ _).editBags _ _ _
    · exact h.putTray _ _
  · exact h

theorem Keeps.passIntoDoubt (h : Keeps leave s t) (k : Nat) : Keeps leave s (t.passIntoDoubt k) := by
  unfold State.passIntoDoubt
  split
  · exact (h.enterDoubt _).closingTest _ _
  · exact h.enterDoubt _

theorem Keeps.windowCloses (h : Keeps leave s t) (c k : Nat) : Keeps leave s (t.windowCloses c k) := by
  unfold State.windowCloses
  split
  · split
    · exact h.passIntoDoubt _
    · exact h
  · exact h

theorem Keeps.reportSorted (h : Keeps leave s t) (x : Tilt) (b : Basis) (a : Bool) :
    Keeps leave s (t.reportSorted x b a) := h.report _ _

theorem Keeps.bagInCart (h : Keeps leave s t) (x : Tilt) : Keeps leave s (t.bagInCart x) := by
  unfold State.bagInCart
  dsimp only
  split
  · exact (h.setEntryState _ _).closeStray _ _ _
  · exact h.setEntryState _ _

theorem Keeps.confirmDrop (h : Keeps leave s t) (x : Tilt) (b : Basis) :
    Keeps leave s (t.confirmDrop x b) :=
  ((((h.editBags _ _ _).bagInCart _).putTray _ _).reportSorted _ _ _).closingTest _ _

theorem Keeps.roleDrop (h : Keeps leave s t) (k c : Nat) (l : Load) : Keeps leave s (t.roleDrop k c l) := by
  unfold State.roleDrop
  dsimp only
  split
  · exact (h.putTray _ _).moveStray _ _ _ _
  · exact h.putTray _ _

theorem Keeps.settleSorted (h : Keeps leave s t) (x : Tilt) (b : Basis) :
    Keeps leave s (t.settleSorted x b) := by
  unfold State.settleSorted
  split
  · exact (((h.editBags _ _ _).bagInCart _).putTray _ _).reportSorted _ _ _
  · dsimp only
    refine (Keeps.putTray ?_ _ _).reportSorted _ _ _
    split
    · exact h.closeStray _ _ _
    · exact h

theorem Keeps.settleDropped (h : Keeps leave s t) (k : Nat) (b : Basis) :
    Keeps leave s (t.settleDropped k b) := by
  unfold State.settleDropped
  split
  · split
    · exact h.settleSorted _ _
    · exact h.putTray _ _
  · exact h.roleDrop _ _ _
  · exact h

theorem Keeps.modifyTally (h : Keeps leave s t) (n : Nat) (f : Sailing → Sailing) (g : Nat)
    (f' : Group → Group) (e : ∀ x, (f' x).ready = x.ready) :
    Keeps leave s
      { t with sailings := Tbl.modify t.sailings n f, groups := Tbl.modify t.groups g f' } :=
  { h with
    sailings := fun hs => Tbl.sorted_modify _ _ _ (h.sailings hs)
    groups := fun hs => Tbl.sorted_modify _ _ _ (h.groups hs)
    fleet := fun hl o k => modifyTally_fleet (h.fleet hl o k) _ _ _ _ e }

theorem Keeps.correctAboard (h : Keeps leave s t) (x : Tilt) : Keeps leave s (t.correctAboard x) := by
  unfold State.correctAboard
  exact ((h.setEntryState _ _).modifyTally _ _ _ _ (fun _ => by split <;> rfl)).report _ _

theorem Keeps.undoSorted (h : Keeps leave s t) (x : Tilt) : Keeps leave s (t.undoSorted x) := by
  unfold State.undoSorted
  split
  · dsimp only
    split
    · exact (h.editBags _ _ _).setEntryState _ _
    · exact h.editBags _ _ _
  · exact h.correctAboard _

theorem Keeps.settleOnTray (h : Keeps leave s t) (k : Nat) : Keeps leave s (t.settleOnTray k) := by
  unfold State.settleOnTray
  split
  · dsimp only
    refine (Keeps.putTray ?_ _ _).reportFault _ _ _ _ _
    split
    · exact h.undoSorted _
    · exact h
  · exact h

end Sys2Proof.Machine
end

