-- ==== Sys2Proof/Laws/KeepsLoop.lean ====
section
/-! SUPPORT. What the inductions, the launches and the loop keep (`Keeps`). -/

namespace Sys2Proof.Machine

variable {leave : Leave} {s t : State}

/-! Inductions -/

theorem Keeps.writeMass (h : Keeps leave s t) (m : Nat) (x : Option Nat) :
    Keeps leave s (t.writeMass m x) := by
  unfold State.writeMass
  split
  · exact h.putEntry _ _
  · exact h

theorem Keeps.inductUnlinked (h : Keeps leave s t) (x : Report) (f : Failed) :
    Keeps leave s (t.inductUnlinked x f).state := h.openStray _ _

theorem Keeps.inductOwn (h : Keeps leave s t) (x : Report) (n : Named) :
    Keeps leave s (t.inductOwn x n).state := by
  have k := h.writeMass n.index x.mass
  unfold State.inductOwn
  dsimp only
  split
  · exact k.moveStray _ _ _ _
  · split
    · exact k.setEntryState _ _
    · exact (k.openStray _ _).setEntryState _ _

theorem Keeps.inductOrdinary (h : Keeps leave s t) (x : Report) :
    Keeps leave s (t.inductOrdinary x).state := by
  unfold State.inductOrdinary
  split
  · exact h.inductUnlinked _ _
  · exact h.inductOwn _ _

theorem Keeps.inductKeyedLinked (h : Keeps leave s t) (x : Report) (m : Nat) :
    Keeps leave s (t.inductKeyedLinked x m).state := (h.writeMass _ _).moveStray _ _ _ _

theorem Keeps.inductKeyedUnlinked (h : Keeps leave s t) (x : Report) :
    Keeps leave s (t.inductKeyedUnlinked x).state := by
  unfold State.inductKeyedUnlinked
  split
  · exact h.moveStray _ _ _ _
  · exact ((h.writeMass _ _).setEntryState _ _).moveStray _ _ _ _

theorem Keeps.induct (h : Keeps leave s t) (x : Report) (r : Option Stray) :
    Keeps leave s (t.induct x r).state := by
  unfold State.induct
  split
  · exact h.inductOrdinary _
  · split
    · exact h.inductKeyedLinked _ _
    · exact h.inductKeyedUnlinked _

theorem Keeps.acceptReport (h : Keeps leave s t) (st : Station) (x : Report) (k : Bool)
    (hq : st.queue.length < Config.pendingPlaces) : Keeps leave s (t.acceptReport st x k) := by
  unfold State.acceptReport
  exact ((h.induct _ _).putStation _ _ (fun _ => by
    simp only [List.length_append, List.length_singleton]; omega)).order _ _ _

theorem Keeps.takeReport (h : Keeps leave s t) (n : Nat) (st : Station) (r1 r2 r3 r4 : Nat)
    (tags : List TagCode) (k : Bool) (ref : Nat) :
    Keeps leave s (t.takeReport n st r1 r2 r3 r4 tags k ref) := by
  unfold State.takeReport
  split
  · exact h
  · split
    · exact h.order _ _ _
    · next hq => exact h.acceptReport _ _ _ (by omega)

/-! Launches -/

theorem queuesOk_get {t : Tbl Station} (h : queuesOk t) {n : Nat} {st : Station}
    (hg : Tbl.get t n = some st) : st.queue.length ≤ Config.pendingPlaces :=
  h.2 _ (Tbl.mem_of_get _ _ _ hg)

theorem Keeps.takeLaunch (h : Keeps leave s t) (n : Nat) : Keeps leave s (t.takeLaunch n) := by
  unfold State.takeLaunch
  split
  · exact h
  · next st hst =>
    split
    · next k bag rest _ hq =>
      have a := (h.putStation n { st with queue := rest, ordered := none } (fun hs => by
        have := queuesOk_get (h.stations hs) hst
        rw [hq] at this
        exact (Nat.le_succ _).trans this)).putTray k (.loaded { bag with verified := false })
      have b : Keeps leave s
          (match bag.index with
            | some m =>
              if bag.isManifest then
                ((t.putStation n { st with queue := rest, ordered := none }).putTray k
                  (.loaded { bag with verified := false })).setEntryState m (.inFlight k)
              else
                (t.putStation n { st with queue := rest, ordered := none }).putTray k
                  (.loaded { bag with verified := false })
            | none =>
              (t.putStation n { st with queue := rest, ordered := none }).putTray k
                (.loaded { bag with verified := false })) := by
        split
        · split
          · exact a.setEntryState _ _
          · exact a
        · exact a
      dsimp only
      split
      · exact b.moveStray _ _ _ _
      · exact b
    · exact h

theorem Keeps.dropLaunch (h : Keeps leave s t) (n : Nat) : Keeps leave s (t.dropLaunch n) := by
  unfold State.dropLaunch
  split
  · exact h
  · next st hst =>
    split
    · exact h
    · exact (h.putStation n { st with ordered := none } (fun hs => queuesOk_get (st := st) (h.stations hs) hst)).putTray _ _

theorem Keeps.offerLaunch (h : Keeps leave s t) (n k : Nat) : Keeps leave s (t.offerLaunch n k) := by
  unfold State.offerLaunch
  split
  · exact h
  · next st hst =>
    split
    · split
      · exact ((h.putTray _ _).putStation n { st with ordered := some k } (fun hs => queuesOk_get (st := st) (h.stations hs) hst)).order _ _ _
      · exact h
    · exact h

theorem Keeps.launchCloses (h : Keeps leave s t) (n k : Nat) : Keeps leave s (t.launchCloses n k) := by
  unfold State.launchCloses
  split
  · exact h
  · split
    · exact h.takeLaunch _
    · exact h

theorem Keeps.removeBag (h : Keeps leave s t) (bag : Load) : Keeps leave s (t.removeBag bag) := by
  unfold State.removeBag
  split
  · exact h.moveStray _ _ _ _
  · split
    · exact h.setEntryState _ _
    · exact h
  · exact h

theorem Keeps.eraseBag (h : Keeps leave s t) (n p : Nat) :
    Keeps leave s { t with
      stations := Tbl.modify t.stations n (fun v => { v with queue := v.queue.eraseIdx p }) } :=
  { h with
    stations := fun hs => queuesOk_modify (h.stations hs) n
      (fun v => { v with queue := v.queue.eraseIdx p }) (fun _ => List.length_eraseIdx_le _ _) }

theorem Keeps.takeBagOff (h : Keeps leave s t) (n p : Nat) : Keeps leave s (t.takeBagOff n p) := by
  unfold State.takeBagOff
  split
  · exact h
  · split
    · exact h
    · exact h
    · dsimp only
      split
      · exact ((h.dropLaunch _).eraseBag _ _).removeBag _
      · exact (h.eraseBag _ _).removeBag _

/-! The loop tracker's own values -/

/-- A change of the loop tracker alone, not of its layout, that keeps its ranges and does not touch what
LOOP_RUN rules. -/
theorem Keeps.withLoop (h : Keeps leave s t) (lt : LoopTracker) (hok : t.lt.Ok → lt.Ok)
    (hr : lt.state = LoopState.stopped ↔ t.lt.state = LoopState.stopped)
    (hs : leave.home = false → lt.state = LoopState.synced → t.lt.state = LoopState.synced)
    (hy : lt.layout = t.lt.layout)
    (he : leave.eye = false → t.lt.eyeTaken = true → lt.eyeTaken = true := by first | exact fun _ h => h | simp) :
    Keeps leave s { t with lt := lt } :=
  { h with
    loop := fun hl => hok (h.loop hl)
    run := fun hl => hr.trans (h.run hl)
    sync := fun hh hl => h.sync hh (hs hh hl)
    lay := fun hl => hy.trans (h.lay hl)
    eye := fun hl => he hl ∘ h.eye hl }

theorem Keeps.rebuildPoints (h : Keeps leave s t) : Keeps leave s t.rebuildPoints :=
  h.withLoop _ (fun o => ⟨o.bare, o.ranges, o.missed⟩) Iff.rfl (fun _ => id) rfl

theorem Keeps.eyeDone (h : Keeps leave s t) : Keeps leave s t.eyeDone :=
  h.withLoop _ (fun o => ⟨o.bare, o.ranges, o.missed⟩) Iff.rfl (fun _ => id) rfl (fun _ _ => rfl)

theorem Keeps.reportLoop (h : Keeps leave s t) (a : LoopState) (c : LoopCause) (d : Option Int) :
    Keeps leave s (t.reportLoop a c d) := h.report _ _

theorem LoopTracker.Ok.lose {t : LoopTracker} (o : t.Ok) : t.lose.Ok where
  bare hl := by
    have := o.bare hl
    exact ⟨this.1, this.2.1, rfl, this.2.2.2.1, this.1, rfl⟩
  ranges y hl := by
    have := o.ranges y hl
    exact ⟨this.1, this.2.1, this.2.2.1, Nat.zero_le _, this.2.1, Nat.zero_le _⟩
  missed := o.missed

theorem LoopTracker.Ok.slipped {t : LoopTracker} (o : t.Ok) :
    LoopTracker.Ok { t.lose with state := .slipped, missed := 0 } where
  bare hl := ⟨(o.lose.bare hl).1, (o.lose.bare hl).2.1, rfl, rfl, (o.lose.bare hl).2.2.2.2.1, rfl⟩
  ranges := o.lose.ranges
  missed := Nat.zero_le 1

theorem Keeps.slip (h : Keeps leave s t) (c : LoopCause) (d : Option Int)
    (hm : t.lt.state ≠ .stopped) : Keeps leave s (t.slip c d) :=
  (h.withLoop { t.lt.lose with state := .slipped, missed := 0 } LoopTracker.Ok.slipped (by simp [hm])
    (fun _ hh => by simp at hh) rfl).reportLoop _ _ _

/-! The eye and the alignments -/

/-- A missed home counted with a layout loaded; the count comes to 2 only to be cleared by the slip. -/
theorem Keeps.homeAligned (h : Keeps leave s t) (hm : t.lt.state ≠ .stopped) (hy : t.lt.layout ≠ none) :
    Keeps leave s t.homeAligned := by
  unfold State.homeAligned
  dsimp only
  split
  · exact (h.withLoop { t.lt.lose with state := .slipped, missed := 0 } LoopTracker.Ok.slipped
      (by simp [hm]) (fun _ hh => by simp at hh) rfl).reportLoop _ _ _
  · next h2 =>
    exact h.withLoop { t.lt with missed := t.lt.missed + 1 }
      (fun o => ⟨fun hl => absurd hl hy, o.ranges, by
        show t.lt.missed + 1 ≤ 1
        have : ¬2 ≤ t.lt.missed + 1 := h2
        omega⟩) Iff.rfl (fun _ => id) rfl

theorem Keeps.untrackedBag (h : Keeps leave s t) (k : Nat) : Keeps leave s (t.untrackedBag k) :=
  (h.openStray _ _).putTray _ _

theorem Keeps.lostBag (h : Keeps leave s t) (k : Nat) (l : Load) : Keeps leave s (t.lostBag k l) := by
  unfold State.lostBag
  dsimp only
  split
  · exact (h.putTray _ _).moveStray _ _ _ _
  · exact ((h.putTray _ _).openStray _ _).setEntryState _ _
  · exact (h.putTray _ _).openStray _ _

theorem Keeps.lapLimitTest (h : Keeps leave s t) (k : Nat) : Keeps leave s (t.lapLimitTest k) := by
  unfold State.lapLimitTest
  split
  · split
    · split
      · exact h.strayBag _ _ _ _ _
      · exact h
    · exact h
  · exact h

theorem Keeps.resolveTray (h : Keeps leave s t) (k : Nat) (l : Load) :
    Keeps leave s (t.resolveTray k l) := by
  unfold State.resolveTray
  split
  · exact h.applyResolution _ _ _ _ _
  · exact h

theorem Keeps.reportRiding (h : Keeps leave s t) (k : Nat) (l : Load) :
    Keeps leave s (t.reportRiding k l) := h.report _ _

theorem Keeps.rideLap (h : Keeps leave s t) (k : Nat) (l : Load) : Keeps leave s (t.rideLap k l) := by
  unfold State.rideLap
  dsimp only
  split
  · exact ((h.putTray _ _).resolveTray _ _).lapLimitTest _
  · split
    · exact (h.putTray _ _).reportRiding _ _
    · exact h.putTray _ _

theorem Keeps.bagSeen (h : Keeps leave s t) (k : Nat) (l : Load) : Keeps leave s (t.bagSeen k l) := by
  unfold State.bagSeen
  dsimp only
  split
  · exact h.rideLap _ _
  · split
    · exact (h.putTray _ _).resolveTray _ _
    · exact h.putTray _ _

theorem Keeps.settleByEye (h : Keeps leave s t) (k : Nat) (occ : Bool) :
    Keeps leave s (t.settleByEye k occ) := by
  unfold State.settleByEye
  split
  · exact h.settleOnTray _
  · exact h.settleDropped _ _

theorem Keeps.eyePass (h : Keeps leave s t) (k : Nat) (occ : Bool) : Keeps leave s (t.eyePass k occ) := by
  unfold State.eyePass
  split
  · split
    · exact h.untrackedBag _
    · exact h
  · exact h
  · split
    · exact h.bagSeen _ _
    · exact h.lostBag _ _
  · exact (h.passIntoDoubt _).settleByEye _ _
  · exact h.settleByEye _ _

theorem Keeps.takeAlignment (h : Keeps leave s t) (pt : LoopPoint) (k : Nat) (occ : Bool)
    (hy : t.lt.layout ≠ none) : Keeps leave s (t.takeAlignment pt k occ) := by
  unfold State.takeAlignment
  split
  · next hr =>
    split
    · next hk =>
      split
      · refine h.homeAligned ?_ hy
        intro hs
        rw [hs, hk] at hr
        exact absurd hr (by decide)
      · exact h
    · exact h.eyePass _ _
    · exact h.windowCloses _ _
    · exact h.launchCloses _ _
    · exact h.arrivalPoint _ _
    · exact h.decisionPoint _ _
    · exact h.offerLaunch _ _
  · exact h

/-- The alignments of one count, with a layout loaded. -/
theorem Keeps.takeCount (hh : leave.layout = false) (h : Keeps leave s t) (y : Layout) (occ : Bool)
    (hy : t.lt.layout ≠ none) : Keeps leave s (t.takeCount y occ) := by
  have key : ∀ (l : List LoopPoint) (u : State), Keeps leave s u → u.lt.layout ≠ none →
      Keeps leave s (l.foldl (fun t' pt =>
        match y.aligns t.lt.pos pt with
        | some k => t'.takeAlignment pt k occ
        | none => t') u) := by
    intro l
    induction l with
    | nil => intro u hu _; exact hu
    | cons pt l ih =>
      intro u hu huy
      simp only [List.foldl_cons]
      split
      · next k _ =>
        refine ih _ (hu.takeAlignment pt k occ huy) ?_
        rw [((Keeps.refl (leave := leave) u).takeAlignment pt k occ huy).lay hh]
        exact huy
      · exact ih _ hu huy
  exact key _ _ h hy

theorem Layout.Ok.length_pos {y : Layout} (o : y.Ok) : 0 < y.length := by
  have := o.eye; omega

theorem Layout.nextPos_lt {y : Layout} {p : Nat} (h : 0 < y.length) : y.nextPos p < y.length := by
  unfold Layout.nextPos; split <;> omega

/-- The position set to any count of the loop. -/
theorem LoopTracker.Ok.setPos {t : LoopTracker} (o : t.Ok) {y : Layout} (hy : t.layout = some y) {p : Nat}
    {e : Bool} (hp : 0 < y.length → p < y.length) : LoopTracker.Ok { t with pos := p, eyeTaken := e } where
  bare hl := by simp [hy] at hl
  ranges z hz := by
    have hz' : t.layout = some z := hz
    have := o.ranges z hz'
    rw [hy] at hz'; cases hz'
    exact ⟨this.1, hp this.1.length_pos, this.2.2⟩
  missed := o.missed

/-- A move of the position to a count whose alignments, the eye's among them, are then taken. -/
theorem Keeps.countTaken (hh : leave.layout = false) (h : Keeps leave s t) (y : Layout) (occ : Bool)
    (lt : LoopTracker) (hok : t.lt.Ok → lt.Ok) (hm : lt.state = t.lt.state) (hl : lt.layout = t.lt.layout)
    (hy : t.lt.layout = some y) :
    Keeps leave s (({ t with lt := lt } : State).takeCount y occ).eyeDone := by
  have a : Keeps leave.moving t { t with lt := lt } :=
    (Keeps.refl t).withLoop lt hok (by rw [hm]) (fun _ => by rw [hm]; exact id) hl
      (fun hn => absurd hn (by simp [Leave.moving]))
  have b := Keeps.takeCount (leave := leave.moving) hh a y occ (by simp [hl, hy])
  exact h.trans (b.eyeDone.settle rfl)

theorem Keeps.stepCounts (hh : leave.layout = false) (y : Layout) (occ : Bool) (n : Nat) (h : Keeps leave s t)
    (hy : t.lt.layout = some y) : Keeps leave s (t.stepCounts y occ n) := by
  induction n generalizing t with
  | zero => exact h
  | succ n ih =>
    have k : ∀ u : State, Keeps leave u t → Keeps leave u
        (({ t with lt := { t.lt with pos := y.nextPos t.lt.pos, eyeTaken := false } } : State).takeCount
          y occ).eyeDone := fun u hu =>
      hu.countTaken hh y occ _ (fun o => o.setPos hy Layout.nextPos_lt) rfl rfl hy
    unfold State.stepCounts
    refine ih (k s h) ?_
    rw [(k t (.refl t)).lay hh]
    exact hy

theorem Keeps.advance (hh : leave.layout = false) (y : Layout) (occ : Bool) (h : Keeps leave s t)
    (hy : t.lt.layout = some y) : Keeps leave s (t.advance y occ) := by
  unfold State.advance
  split
  · refine h.withLoop { t.lt with absorb := t.lt.absorb - 1 } ?_ Iff.rfl (fun _ => id) rfl
    intro o
    refine ⟨fun hl => by simp [hy] at hl, fun z hz => ?_, o.missed⟩
    have := o.ranges z hz
    exact ⟨this.1, this.2.1, this.2.2.1, (Nat.sub_le _ _).trans this.2.2.2.1, this.2.2.2.2⟩
  · refine h.countTaken hh y occ _ ?_ rfl rfl hy
    intro o
    have o' := o.setPos (p := y.nextPos t.lt.pos) (e := false) hy Layout.nextPos_lt
    refine ⟨fun hl => by simp [hy] at hl, fun z hz => ?_, o.missed⟩
    have := o'.ranges z hz
    have hz' : t.lt.layout = some z := hz
    rw [hy] at hz'; cases hz'
    refine ⟨this.1, this.2.1, this.2.2.1, this.2.2.2.1, this.2.2.2.2.1, ?_⟩
    show (if t.lt.state = LoopState.synced then t.lt.advances else min (t.lt.advances + 1) y.length) ≤ _
    split
    · exact this.2.2.2.2.2
    · exact Nat.min_le_right _ _

theorem Keeps.setOcc (h : Keeps leave s t) (occ : Bool) :
    Keeps leave s { t with lu := { t.lu with occ := occ } } := { h with }

theorem Keeps.pulse (hh : leave.layout = false) (h : Keeps leave s t) (occ : Bool) : Keeps leave s (t.pulse occ) := by
  unfold State.pulse
  dsimp only
  split
  · exact h.setOcc _
  · next y hy =>
    have hy' : t.lt.layout = some y := hy
    split
    · split
      · next ha =>
        refine (h.setOcc occ).withLoop { t.lt with acc := t.lt.acc + 1 } ?_ Iff.rfl (fun _ => id) rfl
        intro o
        refine ⟨fun hl => by simp [hy'] at hl, fun z hz => ?_, o.missed⟩
        have hz' : t.lt.layout = some z := hz
        have := o.ranges z hz'
        rw [hy'] at hz'; cases hz'
        exact ⟨this.1, this.2.1, ha, this.2.2.2⟩
      · refine Keeps.advance hh y occ ?_ hy'
        refine (h.setOcc occ).withLoop { t.lt with acc := 0 } ?_ Iff.rfl (fun _ => id) rfl
        intro o
        refine ⟨fun hl => by simp [hy'] at hl, fun z hz => ?_, o.missed⟩
        have := o.ranges z hz
        exact ⟨this.1, this.2.1, by unfold Layout.effectiveDivisor; simp, this.2.2.2⟩
    · exact h.setOcc _

/-! Homes -/

theorem Keeps.withHome (h : Keeps leave s t) (d : Int) :
    Keeps leave s { t with lt := { t.lt with lastCorrection := d, missed := 0 } } :=
  h.withLoop _ (fun o => ⟨fun hl => ⟨(o.bare hl).1, (o.bare hl).2.1, (o.bare hl).2.2.1, rfl,
    (o.bare hl).2.2.2.2⟩, o.ranges, Nat.zero_le 1⟩) Iff.rfl (fun _ => id) rfl

theorem Keeps.setAbsorb (h : Keeps leave s t) {y : Layout} (hy : t.lt.layout = some y) (n : Nat)
    (hn : t.lt.Ok → n ≤ y.pitch / 2) : Keeps leave s { t with lt := { t.lt with absorb := n } } := by
  refine h.withLoop _ ?_ Iff.rfl (fun _ => id) rfl
  intro o
  refine ⟨fun hl => by simp [hy] at hl, fun z hz => ?_, o.missed⟩
  have hz' : t.lt.layout = some z := hz
  have := o.ranges z hz'
  rw [hy] at hz'; cases hz'
  exact ⟨this.1, this.2.1, this.2.2.1, hn o, this.2.2.2.2⟩

theorem Keeps.correctHome (hh : leave.layout = false) (h : Keeps leave s t) (y : Layout) (d : Int) (occ : Bool)
    (hy : t.lt.layout = some y) (hd : d.natAbs ≤ y.tolerance) : Keeps leave s (t.correctHome y d occ) := by
  unfold State.correctHome
  dsimp only
  refine Keeps.withHome (t := if d < 0 then _ else _) ?_ d
  split
  · exact (h.setAbsorb hy 0 (fun _ => Nat.zero_le _)).stepCounts hh y occ _ hy
  · exact h.setAbsorb hy _ (fun o => hd.trans (o.ranges y hy).1.tolerance)

theorem Keeps.judgeSpan (h : Keeps leave s t) (y : Layout) : Keeps leave s (t.judgeSpan y) := by
  unfold State.judgeSpan
  dsimp only
  refine Keeps.fold _ (fun u n => ?_) _ (Keeps.fold _ (fun u n => ?_) _ (Keeps.fold _ (fun u n => ?_) _ h))
  · split
    · exact (Keeps.refl u).takeLaunch _
    · exact .refl u
  · exact (Keeps.refl u).closingTest _ _
  · split
    · exact (Keeps.refl u).enterDoubt _
    · exact .refl u

theorem foldl_lt {α : Type} (f : State → α → State) (hf : ∀ u a, (f u a).lt = u.lt) (l : List α)
    (u : State) : (l.foldl f u).lt = u.lt := by
  induction l generalizing u with
  | nil => rfl
  | cons a l ih => exact (ih _).trans (hf u a)

/-- Judging a span changes nothing of the loop tracker but trays. -/
theorem judgeSpan_lt (s : State) (y : Layout) : (s.judgeSpan y).lt = s.lt := by
  unfold State.judgeSpan
  dsimp only
  rw [foldl_lt, foldl_lt, foldl_lt]
  · intro u k; split <;> simp
  · intro u id; simp
  · intro u n; split <;> simp

/-- A home that synchronises the loop. -/
theorem Keeps.resync (hh : leave.home = true) (h : Keeps leave s t) (y : Layout) (d : Int)
    (hm : t.lt.state ≠ .stopped) : Keeps leave s (t.resync y d) := by
  have e := judgeSpan_lt t y
  refine Keeps.reportLoop (t := { t.judgeSpan y with lt := _ }) ?_ _ _ _
  refine (h.judgeSpan y).withLoop _ ?_ (by simp [e, hm]) (fun hn => absurd (hh.symm.trans hn) (by simp)) rfl
  intro o
  refine ⟨fun hl => ?_, fun z hz => ?_, Nat.zero_le 1⟩
  · exact ⟨rfl, (o.bare hl).2.1, rfl, rfl, rfl, rfl⟩
  · have := o.ranges z hz
    exact ⟨this.1, this.1.length_pos, this.2.2.1, Nat.zero_le _, this.1.length_pos, Nat.zero_le _⟩

/-- A rise of HOME. -/
theorem Keeps.homeRises (hh : leave.home = true) (hl : leave.layout = false) (h : Keeps leave s t)
    (occ : Bool) : Keeps leave s (t.homeRises occ) := by
  have k := h.setOcc occ
  unfold State.homeRises
  dsimp only
  split
  · exact k
  · next y hy =>
    split
    · exact k
    · next hs =>
      split
      · next hd => exact k.correctHome hl y _ occ hy hd
      · exact k.slip _ _ (by simp [hs])
    · next hs => exact k.resync hh y _ (by simp [hs])
    · next hs => exact k.resync hh y _ (by simp [hs])

end Sys2Proof.Machine
end

