-- ==== Sys2Proof/Laws/KeepsCommands.lean ====
section
/-! SUPPORT. What the commands of the supervisor keep (`Keeps`), one lemma per command. -/

namespace Sys2Proof.Machine

variable {leave : Leave} {s t : State}

/-- What a command's body answers keeps the state it started from. -/
def CmdKeeps (leave : Leave) (s : State) (r : CmdResult) : Prop :=
  ∀ u fields, r = .ok (u, fields) → Keeps leave s u

theorem CmdKeeps.error (c : Code) : CmdKeeps leave s (.error c) := fun _ _ h => by simp at h

theorem CmdKeeps.ok (h : Keeps leave s t) (fields : List Byte) : CmdKeeps leave s (.ok (t, fields)) :=
  fun _ _ e => by cases e; exact h

/-- A change of settings, end records or the long operation. -/
theorem Keeps.withCommandUnit (h : Keeps leave s t) (cu : CommandUnit) :
    Keeps leave s { t with cu := cu } := { h with }

theorem Keeps.setFree (h : Keeps leave s t) (n : Nat) : Keeps leave s { t with freeIdx := n } := { h with }

theorem Keeps.setClock (h : Keeps leave s t) (c : Time) :
    Keeps leave s { t with lu := { t.lu with clock := c } } := { h with }

theorem Keeps.mapSailings (h : Keeps leave s t) (f : Sailing → Sailing) :
    Keeps leave s { t with sailings := Tbl.mapRows t.sailings f } :=
  { h with sailings := fun hs => Tbl.sorted_mapRows _ _ (h.sailings hs) }

theorem Keeps.filterGroups (h : Keeps leave s t) (f : Nat × Group → Bool)
    (hf : leave.fleet = true := by first | rfl | assumption) :
    Keeps leave s { t with groups := t.groups.filter f } :=
  { h with
    groups := fun hs => Tbl.sorted_filter _ _ (h.groups hs)
    fleet := fun hn => Leave.not_strict hf hn }

theorem Keeps.filterCarts (h : Keeps leave s t) (f : Nat × Cart → Bool)
    (hf : leave.fleet = true := by first | rfl | assumption) :
    Keeps leave s { t with carts := t.carts.filter f } :=
  { h with
    carts := fun hs => Tbl.sorted_filter _ _ (h.carts hs)
    fleet := fun hn => Leave.not_strict hf hn }

theorem Keeps.eraseSailing (h : Keeps leave s t) (n : Nat) :
    Keeps leave s { t with sailings := Tbl.erase t.sailings n } :=
  { h with sailings := fun hs => Tbl.sorted_erase _ _ (h.sailings hs) }

/-! Long operations -/

theorem Keeps.endLong (h : Keeps leave s t) (e : EndRecord) : Keeps leave s (t.endLong e) :=
  h.withCommandUnit _

theorem Keeps.reportEnd (h : Keeps leave s t) (e : EndRecord) (v : List Nat) :
    Keeps leave s (t.reportEnd e v) := h.report _ _

theorem Keeps.supersede (h : Keeps leave s t) : Keeps leave s t.supersede := by
  unfold State.supersede
  split
  · exact h
  · exact (h.endLong _).reportEnd _ _

theorem Keeps.startLong (h : Keeps leave s t) (k : LongKind) (n : Nat) :
    Keeps leave s (t.startLong k n) := h.supersede.withCommandUnit _

theorem Keeps.countStep (h : Keeps leave s t) (o : LongOp) : Keeps leave s (t.countStep o) :=
  h.withCommandUnit _

/-! Sailings and entries -/

theorem sailingDefine_keeps (p : List Byte) (s : State) : CmdKeeps leave s (sailingDefine p s) := by
  unfold sailingDefine
  dsimp only
  repeat' split
  all_goals first | exact .error _ | exact .ok ((Keeps.refl s).putSailing _ _) _

theorem sailingState_keeps (p : List Byte) (s : State) : CmdKeeps leave s (sailingState p s) := by
  unfold sailingState sailingOpen sailingFinal
  dsimp only
  repeat' split
  all_goals first
    | exact .error _
    | exact .ok ((Keeps.refl s).putSailing _ _) _
    | exact .ok (((Keeps.refl s).putSailing _ _).fold _ (fun u id => (Keeps.refl u).forceClose id _) _) _

theorem Keeps.issueFrom (h : Keeps leave s t) (m : Nat) (es : List NewEntry) :
    Keeps leave s (t.issueFrom m es) := by
  induction es generalizing t m with
  | nil => exact h
  | cons e es ih => exact ih (h.putEntry _ _) _

theorem entryPut_keeps (p : List Byte) (s : State) : CmdKeeps leave s (entryPut p s) := by
  unfold entryPut State.putEntries
  repeat' split
  all_goals first | exact .error _ | exact .ok ((Keeps.refl s).issueFrom _ _) _

theorem Keeps.reresolve (h : Keeps leave s t) (m slot : Nat) (v : Sailing) (b : Bool) :
    Keeps leave s (t.reresolve m slot v b) := by
  unfold State.reresolve
  split
  · exact h
  · exact h.applyResolution _ _ _ _ _

theorem cabinChange_keeps (p : List Byte) (s : State) : CmdKeeps leave s (cabinChange p s) := by
  unfold cabinChange State.changeCabin
  dsimp only
  repeat' split
  all_goals first | exact .error _ | exact .ok (((Keeps.refl s).putEntry _ _).reresolve _ _ _ _) _

theorem writeHold_keeps (s : State) (n : Nat) (v : Sailing) (m r : Nat) :
    CmdKeeps leave s (s.writeHold n v m r) := by
  unfold State.writeHold
  dsimp only
  split
  · exact .error _
  · exact .ok (((Keeps.refl s).putEntry _ _).reresolve _ _ _ _) _

theorem holdSet_keeps (p : List Byte) (s : State) : CmdKeeps leave s (holdSet p s) := by
  unfold holdSet
  repeat' split
  all_goals first | exact .error _ | exact writeHold_keeps _ _ _ _ _

theorem holdClear_keeps (p : List Byte) (s : State) : CmdKeeps leave s (holdClear p s) := by
  unfold holdClear
  repeat' split
  all_goals first | exact .error _ | exact writeHold_keeps _ _ _ _ _

theorem Keeps.withdrawBag (h : Keeps leave s t) (m slot : Nat) (loc : StrayLoc) :
    Keeps leave s (t.withdrawBag m slot loc) := ((h.openStray _ _).setEntryState _ _).mapLoads _

theorem Keeps.withdrawStray (h : Keeps leave s t) (m ref : Nat) :
    Keeps leave s (t.withdrawStray m ref) := ((h.setEntryState _ _).moveStray _ _ _ _).mapLoads _

theorem withdraw_keeps (p : List Byte) (s : State) : CmdKeeps leave s (withdraw p s) := by
  unfold withdraw State.withdrawEntry
  dsimp only
  repeat' split
  all_goals first
    | exact .error _
    | exact .ok (.refl s) _
    | exact .ok ((Keeps.refl s).withdrawBag _ _ _) _
    | exact .ok ((Keeps.refl s).withdrawStray _ _) _
    | exact .ok ((Keeps.refl s).setEntryState _ _) _

theorem entryRead_keeps (p : List Byte) (s : State) : CmdKeeps leave s (entryRead p s) := by
  unfold entryRead
  repeat' split
  all_goals first | exact .error _ | exact .ok (.refl s) _

theorem regionInit_keeps (p : List Byte) (s : State) : CmdKeeps leave s (regionInit p s) := by
  unfold regionInit
  repeat' split
  all_goals first | exact .error _ | exact .ok (((Keeps.refl s).startLong _ _).putSailing _ _) _

theorem sailingClose_keeps (p : List Byte) (s : State) : CmdKeeps leave s (sailingClose p s) := by
  unfold sailingClose
  repeat' split
  all_goals first | exact .error _ | exact .ok (((Keeps.refl s).startLong _ _).putSailing _ _) _

/-! Plans, groups, bindings -/

theorem blockPut_keeps (p : List Byte) (s : State) : CmdKeeps leave s (blockPut p s) := by
  unfold blockPut putBlock
  repeat' split
  all_goals first | exact .error _ | exact .ok ((Keeps.refl s).putSailing _ _) _

theorem blockDelete_keeps (p : List Byte) (s : State) : CmdKeeps leave s (blockDelete p s) := by
  unfold blockDelete
  dsimp only
  repeat' split
  all_goals first | exact .error _ | exact .ok ((Keeps.refl s).putSailing _ _) _

theorem planClear_keeps (p : List Byte) (s : State) : CmdKeeps leave s (planClear p s) := by
  unfold planClear
  repeat' split
  all_goals first | exact .error _ | exact .ok ((Keeps.refl s).putSailing _ _) _

theorem planCommit_keeps (p : List Byte) (s : State) : CmdKeeps leave s (planCommit p s) := by
  unfold planCommit
  repeat' split
  all_goals first | exact .error _ | exact .ok ((Keeps.refl s).startLong _ _) _

theorem groupSet_keeps (p : List Byte) (s : State) : CmdKeeps leave s (groupSet p s) := by
  unfold groupSet setGroup
  repeat' split
  all_goals first
    | exact .error _
    | (next hg =>
        exact .ok (((Keeps.refl (leave := leave.loose) s).putGroup _ _).mend
          (fun _ o => newGroup_fleet o hg rfl)) _)
    | (next hg _ _ =>
        refine .ok (((Keeps.refl (leave := leave.loose) s).putGroup _ _).mend ?_) _
        exact fun _ o => putGroup_same_fleet o hg rfl)

theorem Keeps.rehome (h : Keeps leave s t) (x : Orphan) : Keeps leave s (t.rehome x) := by
  unfold State.rehome
  split
  · exact h
  · split
    · exact (h.moveStray _ _ _ _).retarget _ _
    · exact h.applyResolution _ _ _ _ _

theorem Keeps.eraseGroup (h : Keeps leave s t) (g : Nat)
    (hk : ∀ id k, Tbl.get t.carts id = some k → k.group ≠ g)
    (hc : ∀ c x, Tbl.get t.chutes c = some x → x.bound ≠ g) :
    Keeps leave s { t with groups := Tbl.erase t.groups g } :=
  { h with
    groups := fun hs => Tbl.sorted_erase _ _ (h.groups hs)
    fleet := fun hl o k => eraseGroup_fleet (h.fleet hl o k) hk hc }

/-- A group that is not in use has no cart and no bound chute (R38). -/
theorem groupInUse_free {s : State} {n : Nat} {g : Group} (h : ¬s.groupInUse n g) :
    (∀ id k, Tbl.get s.carts id = some k → k.group ≠ n) ∧ ∀ c x, Tbl.get s.chutes c = some x → x.bound ≠ n := by
  unfold State.groupInUse State.anyCart at h
  simp only [Bool.or_eq_true, not_or] at h
  refine ⟨fun id k hk e => h.1.1.2 ?_, fun c x hx e => h.1.1.1 ?_⟩
  · exact List.any_eq_true.2 ⟨_, Tbl.mem_of_get _ _ _ hk, by simp [e]⟩
  · exact List.any_eq_true.2 ⟨_, Tbl.mem_of_get _ _ _ hx, by simp [e]⟩

theorem groupDelete_keeps (p : List Byte) (s : State) : CmdKeeps leave s (groupDelete p s) := by
  unfold groupDelete
  repeat' split
  all_goals first
    | exact .error _
    | (next hu =>
        exact .ok (((Keeps.refl s).eraseGroup _ (groupInUse_free hu).1 (groupInUse_free hu).2).fold _
          (fun u x => (Keeps.refl u).rehome x) _) _)

theorem groupRead_keeps (p : List Byte) (s : State) : CmdKeeps leave s (groupRead p s) := by
  unfold groupRead
  repeat' split
  all_goals first | exact .error _ | exact .ok (.refl s) _

theorem Keeps.bindTo (h : Keeps leave s t) (c : Nat) (x : Chute) (g : Nat)
    (hf : leave.fleet = true := by first | rfl | assumption) : Keeps leave s (t.bindTo c x g) := by
  unfold State.bindTo
  dsimp only
  split
  · split
    · exact ((h.putCart _ _).putChute _ _).reportChute _ _
    · exact (((h.closeRecord _ _).putChute _ _).reportChute _ _).reportCartClosed _ _
  · exact (h.putChute _ _).reportChute _ _
  · exact (h.putChute _ _).reportChute _ _

theorem Keeps.unbind (h : Keeps leave s t) (c : Nat) (x : Chute)
    (hf : leave.fleet = true := by first | rfl | assumption) : Keeps leave s (t.unbind c x) := by
  unfold State.unbind
  dsimp only
  split
  · split
    · exact ((h.freeCart _).putChute _ _).reportChute _ _
    · exact (((h.closeRecord _ _).putChute _ _).reportChute _ _).reportCartClosed _ _
  · exact (h.putChute _ _).reportChute _ _

theorem chuteBind_keeps (p : List Byte) (s : State) : CmdKeeps leave s (chuteBind p s) := by
  unfold chuteBind bindGroup
  repeat' split
  all_goals first
    | exact .error _
    | exact .ok (.refl s) _
    | (next hx _ hr _ hb _ =>
        exact .ok (((Keeps.refl (leave := leave.loose) s).unbind _ _).mend
          (fun _ o => unbind_fleet o hx (Decidable.not_not.1 hr) (Bool.eq_false_iff.2 hb))) _)
    | (next hx _ hr _ hb hn _ _ hg _ _ =>
        exact .ok (((Keeps.refl (leave := leave.loose) s).bindTo _ _ _).mend
          (fun _ o => bindTo_fleet o hx (Decidable.not_not.1 hr) (Bool.eq_false_iff.2 hb)
            (fun e => hn (BitVec.eq_of_toNat_eq e)) hg)) _)

/-! Stations and the loop -/

theorem Keeps.stationNotice (h : Keeps leave s t) (a : Option Station) (b : Station) :
    Keeps leave s (t.stationNotice a b) := by
  unfold State.stationNotice
  split
  · exact { h with }
  · exact h

theorem setStation_keeps (n : Nat) (f : StationFields) (s : State) :
    CmdKeeps leave s (setStation n f s) := by
  unfold setStation
  dsimp only
  repeat' split
  all_goals first | exact .error _ | skip
  refine .ok (((Keeps.refl s).putStation _ _ (fun hs => ?_)).stationNotice _ _).rebuildPoints _
  show (((Tbl.get s.stations n).map Station.queue).getD []).length ≤ Config.pendingPlaces
  cases hg : Tbl.get s.stations n with
  | none => exact Nat.zero_le _
  | some st => exact queuesOk_get hs hg

theorem stationSet_keeps (p : List Byte) (s : State) : CmdKeeps leave s (stationSet p s) := by
  unfold stationSet
  repeat' split
  all_goals first | exact .error _ | exact setStation_keeps _ _ _

theorem Keeps.setMode (h : Keeps leave s t) (m : SortMode) :
    Keeps leave s { t with lt := { t.lt with mode := m } } :=
  h.withLoop _ (fun o => ⟨o.bare, o.ranges, o.missed⟩) Iff.rfl (fun _ => id) rfl

theorem sortMode_keeps (p : List Byte) (s : State) : CmdKeeps leave s (sortMode p s) := by
  unfold sortMode
  repeat' split
  all_goals first
    | exact .error _
    | exact .ok ((Keeps.refl s).setMode _) _

theorem trayRead_keeps (p : List Byte) (s : State) : CmdKeeps leave s (trayRead p s) := by
  unfold trayRead
  dsimp only
  repeat' split
  all_goals first | exact .error _ | exact .ok (.refl s) _

theorem Layout.effectiveDivisor_pos (y : Layout) : 0 < y.effectiveDivisor :=
  Nat.lt_of_lt_of_le Nat.zero_lt_one (Nat.le_max_right _ _)

/-- The new layout replaces the old. -/
theorem loadLayout_keeps (hh : leave.layout = true) (s : State) (y : Layout) (hy : y.Ok) :
    Keeps leave s (s.loadLayout y) := by
  let lt : LoopTracker := { s.lt with
    layout := some y, pos := 0, acc := 0, absorb := 0, lastCorrection := 0, missed := 0, lossPoint := 0,
    advances := 0, state := if s.lu.loopRun then .unsynced else .stopped, eyeTaken := true }
  have k0 : Keeps leave s { s with trays := [], lt := lt } :=
    { Keeps.refl (leave := leave) s with
      trays := fun _ => ⟨Tbl.sorted_nil, fun r hr => absurd hr (by simp)⟩
      loop := fun _ => ⟨fun hl => by simp [lt] at hl, fun z hz => by
        have : y = z := Option.some.inj hz
        subst this
        exact ⟨hy, hy.length_pos, Layout.effectiveDivisor_pos y, Nat.zero_le _, hy.length_pos,
          Nat.zero_le _⟩, Nat.zero_le 1⟩
      run := fun _ => by
        show (if s.lu.loopRun = true then LoopState.unsynced else LoopState.stopped) = LoopState.stopped ↔ _
        cases s.lu.loopRun <;> simp
      sync := fun _ hl => by
        have hl' : (if s.lu.loopRun = true then LoopState.unsynced else LoopState.stopped)
          = LoopState.synced := hl
        cases hr : s.lu.loopRun <;> simp [hr] at hl'
      lay := fun hn => absurd (hh.symm.trans hn) (by simp)
      eye := fun _ _ => rfl }
  have k1 := k0.reportLoop s.lt.state .layout none
  have k2 : Keeps leave s { ({ s with trays := [], lt := lt } : State).reportLoop s.lt.state .layout none with
      stations := Tbl.mapRows s.stations (Station.clampTo y)
      chutes := Tbl.mapRows s.chutes (Chute.clampTo y) } :=
    { k1 with
      stations := fun hs => queuesOk_mapRows hs (Station.clampTo y) (fun _ => Nat.le_refl _)
      chutes := fun hs => Tbl.sorted_mapRows _ _ hs
      fleet := fun _ _ o => clampChutes_fleet o y rfl (State.report_carts _ _ _)
        (State.report_groups _ _ _) }
  exact k2.rebuildPoints

theorem layoutSet_keeps (hh : leave.layout = true) (p : List Byte) (s : State) :
    CmdKeeps leave s (layoutSet p s) := by
  unfold layoutSet
  split
  · next n1 n0 pitch divisor isDefault w z1 z0 =>
    unfold setLayout
    repeat' split
    all_goals first | exact .error _ | skip
    next h1 h2 _ h4 _ =>
    refine .ok (loadLayout_keeps hh s _ ?_) _
    refine ⟨⟨by omega, by omega⟩, ⟨by omega, by omega⟩, by omega, ?_, ?_, by omega⟩
    · have := divisor.isLt; exact Nat.le_of_lt_succ this
    · show (if flagOf isDefault = true then pitch.toNat / 4 else clampTolerance pitch.toNat w.toNat)
        ≤ pitch.toNat / 2
      split
      · omega
      · exact Nat.min_le_right _ _
  · exact .error _

/-! Chutes and carts -/

theorem setChute_keeps (n : Nat) (f : ChuteFields) (s : State) : CmdKeeps leave s (setChute n f s) := by
  unfold setChute
  split
  · exact .error _
  · split
    · exact .error _
    · next y _ =>
      dsimp only
      have put (hb : ¬((Tbl.get s.chutes n).any (fun h => h.bound != 0) ∧ f.role ≠ .sort)) :
          Keeps leave s (s.putChute n (f.chute y (Tbl.get s.chutes n))) := by
        refine ((Keeps.refl (leave := leave.loose) s).putChute _ _).mend
          (fun _ o => setChute_fleet o f y (fun x hx hn => ?_))
        exact Decidable.by_contra (fun hr => hb ⟨by simp [hx, hn], hr⟩)
      repeat' split
      all_goals first
        | exact .error _
        | exact .ok ((put ‹_›).rebuildPoints.reportChute _ _) _
        | exact .ok (put ‹_›).rebuildPoints _

theorem chuteSet_keeps (p : List Byte) (s : State) : CmdKeeps leave s (chuteSet p s) := by
  unfold chuteSet
  repeat' split
  all_goals first | exact .error _ | exact setChute_keeps _ _ _

theorem Keeps.setAvail (h : Keeps leave s t) (c : Nat) (x : Chute) (a : Avail) (y : ChuteCause)
    (hx : t.TablesOk → Tbl.get t.chutes c = some x) : Keeps leave s (t.setAvail c x a y) := by
  refine h.trans (.mend ?_ (fun k o => setAvail_fleet o (hx k) _ _))
  have h := Keeps.refl (leave := leave.loose) t
  unfold State.setAvail
  split
  · exact h
  · exact (h.putChute _ _).reportChute _ _

theorem chuteService_keeps (p : List Byte) (s : State) : CmdKeeps leave s (chuteService p s) := by
  unfold chuteService
  repeat' split
  all_goals first | exact .error _ | exact .ok ((Keeps.refl s).setAvail _ _ _ _ (fun _ => ‹_›)) _

theorem chuteRead_keeps (p : List Byte) (s : State) : CmdKeeps leave s (chuteRead p s) := by
  unfold chuteRead
  repeat' split
  all_goals first | exact .error _ | exact .ok (.refl s) _

theorem cartClose_keeps (p : List Byte) (s : State) : CmdKeeps leave s (cartClose p s) := by
  unfold cartClose
  dsimp only
  repeat' split
  all_goals first | exact .error _ | exact .ok ((Keeps.refl s).forceClose _ _) _

theorem cartRead_keeps (p : List Byte) (s : State) : CmdKeeps leave s (cartRead p s) := by
  unfold cartRead
  repeat' split
  all_goals first | exact .error _ | exact .ok (.refl s) _

/-! Step lists and sequencers -/

theorem stepPut_keeps (p : List Byte) (s : State) : CmdKeeps leave s (stepPut p s) := by
  unfold stepPut
  dsimp only
  repeat' split
  all_goals first | exact .error _ | exact .ok ((Keeps.refl s).putSailing _ _) _

theorem stepClear_keeps (p : List Byte) (s : State) : CmdKeeps leave s (stepClear p s) := by
  unfold stepClear
  dsimp only
  repeat' split
  all_goals first | exact .error _ | exact .ok (Keeps.refl s) _ | exact .ok ((Keeps.refl s).putSailing _ _) _

theorem seqStart_keeps (p : List Byte) (s : State) : CmdKeeps leave s (seqStart p s) := by
  unfold seqStart startSeq
  dsimp only
  repeat' split
  all_goals first | exact .error _ | exact .ok ((Keeps.refl s).putSailing _ _) _

theorem seqStop_keeps (p : List Byte) (s : State) : CmdKeeps leave s (seqStop p s) := by
  unfold seqStop
  repeat' split
  all_goals first | exact .error _ | exact .ok ((Keeps.refl s).putSailing _ _) _

/-! Strays -/

theorem Keeps.setClasses (h : Keeps leave s t) (c : Tbl ClassEntry) :
    Keeps leave s { t with su := { t.su with classes := c } } := { h with }

theorem classSet_keeps (p : List Byte) (s : State) : CmdKeeps leave s (classSet p s) := by
  unfold classSet
  repeat' split
  all_goals first | exact .error _ | exact .ok ((Keeps.refl s).setClasses _) _

theorem strayRead_keeps (p : List Byte) (s : State) : CmdKeeps leave s (strayRead p s) := by
  unfold strayRead
  repeat' split
  all_goals first | exact .error _ | exact .ok (.refl s) _

theorem Keeps.finishStray (h : Keeps leave s t) (ref : Nat) (r : Stray) (x : CloseReason) :
    Keeps leave s (t.finishStray ref r x) := by
  unfold State.finishStray
  dsimp only
  split
  · exact (h.closeStray _ _ _).setEntryState _ _
  · exact h.closeStray _ _ _

theorem strayClose_keeps (p : List Byte) (s : State) : CmdKeeps leave s (strayClose p s) := by
  unfold strayClose
  repeat' split
  all_goals first | exact .error _ | exact .ok ((Keeps.refl s).finishStray _ _ _) _

theorem queueRead_keeps (p : List Byte) (s : State) : CmdKeeps leave s (queueRead p s) := by
  unfold queueRead
  repeat' split
  all_goals first | exact .error _ | exact .ok (.refl s) _

/-! The part -/

theorem status_keeps (hh : leave.flags = true) (p : List Byte) (s : State) :
    CmdKeeps leave s (status p s) := by
  unfold status
  repeat' split
  all_goals first | exact .error _ | exact .ok ((Keeps.refl s).clearFlags hh) _

theorem setClock_keeps (p : List Byte) (s : State) : CmdKeeps leave s (setClock p s) := by
  unfold setClock
  dsimp only
  repeat' split
  all_goals first | exact .error _ | exact .ok (((Keeps.refl s).setClock _).swapTests.mapSailings _) _

theorem massLimits_keeps (p : List Byte) (s : State) : CmdKeeps leave s (massLimits p s) := by
  unfold massLimits
  dsimp only
  repeat' split
  all_goals first | exact .error _ | exact .ok ((Keeps.refl s).withCommandUnit _) _

theorem partSettings_keeps (p : List Byte) (s : State) : CmdKeeps leave s (partSettings p s) := by
  unfold partSettings
  dsimp only
  repeat' split
  all_goals first
    | exact .error _
    | exact .ok ((Keeps.refl s).withCommandUnit _) _
    | exact .ok ((Keeps.refl s).withCommandUnit _).swapTests _

end Sys2Proof.Machine
end

