-- ==== Sys2Proof/Laws/KeepsStep.lean ====
section
/-! SUPPORT. What the field frames, the loop lines, the internal steps and so every step keep. -/

namespace Sys2Proof.Machine

variable {leave : Leave} {s t : State}

/-! Field frames -/

theorem Keeps.stationFrame (src k : Byte) (p : List Byte) (g : Bool) (owner : Nat → Station → State → State)
    (s : State) (ho : ∀ n st, Keeps leave s (owner n st s)) :
    Keeps leave s (s.stationFrame src k p g owner) := by
  refine Keeps.takeField s src k p _ g _ ?_
  split
  · exact .refl s
  · exact ho _ _

theorem Keeps.panelFrame (src k : Byte) (p : List Byte) (n : Nat) (ok : Chute → Bool)
    (owner : Nat → Chute → State → State) (s : State)
    (ho : ∀ c h, (s.TablesOk → Tbl.get s.chutes c = some h) → Keeps leave s (owner c h s)) :
    Keeps leave s (s.panelFrame src k p n ok owner) := by
  refine Keeps.takeField s src k p _ _ _ ?_
  split
  · exact .refl s
  · next h => exact ho _ _ (fun o => chuteOfPanel_get o.chutes h)

theorem inductionFrame_keeps (src : Byte) (p : List Byte) (s : State) :
    Keeps leave s (s.inductionFrame src p) := by
  refine Keeps.stationFrame _ _ _ _ _ _ (fun n st => ?_)
  split
  · exact .refl s
  · exact (Keeps.refl s).takeReport _ _ _ _ _ _ _ _ _

theorem launchedFrame_keeps (src : Byte) (p : List Byte) (s : State) :
    Keeps leave s (s.launchedFrame src p) := by
  refine Keeps.stationFrame _ _ _ _ _ _ (fun n st => ?_)
  split
  · split
    · exact (Keeps.refl s).takeLaunch _
    · exact .refl s
  · exact .refl s

theorem launchFailedFrame_keeps (src : Byte) (p : List Byte) (s : State) :
    Keeps leave s (s.launchFailedFrame src p) := by
  refine Keeps.stationFrame _ _ _ _ _ _ (fun n st => ?_)
  split
  · split
    · exact (Keeps.refl s).dropLaunch _
    · exact .refl s
  · exact .refl s

theorem bagRemovedFrame_keeps (src : Byte) (p : List Byte) (s : State) :
    Keeps leave s (s.bagRemovedFrame src p) := by
  refine Keeps.stationFrame _ _ _ _ _ _ (fun n st => ?_)
  split
  · exact (Keeps.refl s).takeBagOff _ _
  · exact .refl s

theorem Keeps.doorFrame (src k : Byte) (p : List Byte) (n : Nat) (owner : State → State) (s : State)
    (ho : Keeps leave s (owner s)) : Keeps leave s (s.doorFrame src k p n owner) :=
  Keeps.takeField s src k p _ _ _ ho

theorem Keeps.confirmTilt (h : Keeps leave s t) (k : Nat) (b : Basis) : Keeps leave s (t.confirmTilt k b) := by
  unfold State.confirmTilt
  split
  · split
    · exact h.confirmDrop _ _
    · exact h.putTray _ _
  · exact h.roleDrop _ _ _
  · exact h

theorem Keeps.dropSeen (h : Keeps leave s t) (c : Nat) (x : Chute) (k : Nat) :
    Keeps leave s (t.dropSeen c x k) := by
  unfold State.dropSeen State.dropOrdered State.dropDoubted
  repeat' split
  all_goals first
    | exact h.reportFault _ _ _ _ _
    | exact h.confirmTilt _ _
    | exact h.settleDropped _ _
    | exact (h.passIntoDoubt _).settleDropped _ _

theorem Keeps.failTilt (h : Keeps leave s t) (c k : Nat) (l : Load) (i : Option Nat) :
    Keeps leave s (t.failTilt c k l i) := by
  unfold State.failTilt
  split
  · exact (((h.editBags _ _ _).putTray _ _).reportFault _ _ _ _ _).closingTest _ _
  · exact (h.putTray _ _).reportFault _ _ _ _ _

theorem Keeps.tiltFault (h : Keeps leave s t) (c k : Nat) : Keeps leave s (t.tiltFault c k) := by
  unfold State.tiltFault
  repeat' split
  all_goals first | exact h.reportFault _ _ _ _ _ | exact h.failTilt _ _ _ _

theorem dropSeenFrame_keeps (src : Byte) (p : List Byte) (s : State) :
    Keeps leave s (s.dropSeenFrame src p) := by
  refine Keeps.panelFrame _ _ _ _ _ _ _ (fun c h hc => ?_)
  split
  · exact (Keeps.refl s).dropSeen _ _ _
  · exact .refl s

theorem tiltFaultFrame_keeps (src : Byte) (p : List Byte) (s : State) :
    Keeps leave s (s.tiltFaultFrame src p) := by
  refine Keeps.panelFrame _ _ _ _ _ _ _ (fun c h hc => ?_)
  split
  · exact (Keeps.refl s).tiltFault _ _
  · exact .refl s

theorem chuteBlockedFrame_keeps (src : Byte) (p : List Byte) (s : State) :
    Keeps leave s (s.chuteBlockedFrame src p) := by
  refine Keeps.panelFrame _ _ _ _ _ _ _ (fun c h hc => ?_)
  split
  · exact (Keeps.refl s).setAvail _ _ _ _ hc
  · exact .refl s

theorem chuteClearFrame_keeps (src : Byte) (p : List Byte) (s : State) :
    Keeps leave s (s.chuteClearFrame src p) := by
  refine Keeps.panelFrame _ _ _ _ _ _ _ (fun c h hc => ?_)
  split
  · exact (Keeps.refl s).setAvail _ _ _ _ hc
  · exact .refl s

theorem Keeps.placeCart (h : Keeps leave s t) (c : Nat) (x : Chute)
    (hx : t.TablesOk → Tbl.get t.chutes c = some x) : Keeps leave s (t.placeCart c x) := by
  refine h.trans (.mend ?_ (fun k o => placeCart_fleet o (hx k)))
  have h := Keeps.refl (leave := leave.loose) t
  unfold State.placeCart
  split
  · split
    · exact ((h.putCart _ _).putChute _ _).reportChute _ _
    · exact h.report _ _
  · exact h

theorem cartPlacedFrame_keeps (src : Byte) (p : List Byte) (s : State) :
    Keeps leave s (s.cartPlacedFrame src p) :=
  Keeps.panelFrame _ _ _ _ _ _ _ (fun _ _ h => (Keeps.refl s).placeCart _ _ h)

theorem encodeTakenFrame_keeps (src : Byte) (p : List Byte) (s : State) :
    Keeps leave s (s.encodeTakenFrame src p) := by
  refine Keeps.takeField _ _ _ _ _ _ _ ?_
  split
  · unfold State.takeInHand
    split
    · exact .refl s
    · exact (Keeps.refl s).moveStray _ _ _ _
  · exact .refl s

/-! Batch events -/

theorem Keeps.modifySeq (h : Keeps leave s t) (n : Nat) (f : Sequencer → Sequencer) :
    Keeps leave s (t.modifySeq n f) :=
  { h with
    sailings := fun hs =>
      Tbl.sorted_modify t.sailings n (fun v => { v with seq := f v.seq }) (h.sailings hs) }

theorem Keeps.callCart (h : Keeps leave s t) (slot g : Nat) (v : Sailing) (id : Nat) (c : Cart) (x : Group)
    (rest : List Nat) (hg : Tbl.get t.groups g = some x) (hr : x.ready = id :: rest)
    (hk : Tbl.get t.carts id = some c) : Keeps leave s (t.callCart slot g v id c x rest) := by
  refine h.trans (.mend ?_ (fun _ o => callCart_fleet o hg hr hk))
  have h := Keeps.refl (leave := leave.loose) t
  unfold State.callCart
  exact (((((h.setFree _).putCart _ _).putGroup _ _).putSailing _ _).order _ _ _).report _ _

theorem Keeps.callCarts (h : Keeps leave s t) (slot g n : Nat) :
    Keeps leave s (t.callCarts slot g n).1 := by
  induction n generalizing t with
  | zero => exact h
  | succ n ih =>
    unfold State.callCarts
    repeat' split
    all_goals first | exact h | exact ih (h.callCart _ _ _ _ _ _ _ ‹_› ‹_› ‹_›)

theorem Keeps.endStep (h : Keeps leave s t) (n l : Nat) : Keeps leave s (t.endStep n l) := h.modifySeq _ _

theorem Keeps.batchFrom (h : Keeps leave s t) (slot n : Nat) : Keeps leave s (t.batchFrom slot n) := by
  induction n generalizing t with
  | zero => exact h
  | succ n ih =>
    unfold State.batchFrom
    split
    · exact h
    · split
      · exact h.modifySeq _ _
      · split
        · exact ih (h.modifySeq _ _)
        · next x _ _ =>
          have k := fun m => h.callCarts slot x.group m
          dsimp only
          repeat' split
          all_goals first
            | exact ih ((k _).endStep _ _)
            | exact ih (k _)
            | exact (k _).endStep _ _
            | exact k _

theorem Keeps.batchEvent (h : Keeps leave s t) (slot : Nat) : Keeps leave s (t.batchEvent slot) := by
  unfold State.batchEvent
  split
  · exact h
  · exact h.batchFrom _ _

theorem Keeps.liftReady (h : Keeps leave s t) (slot : Nat) : Keeps leave s (t.liftReady slot) := by
  unfold State.liftReady
  repeat' split
  all_goals first | exact h | exact h.modifySeq _ _ | exact (h.modifySeq _ _).batchEvent _

theorem Keeps.freeEvent (h : Keeps leave s t) (slot : Nat) : Keeps leave s (t.freeEvent slot) := by
  unfold State.freeEvent
  repeat' split
  all_goals first | exact h | exact (h.modifySeq _ _).batchEvent _

theorem liftReadyFrame_keeps (src : Byte) (p : List Byte) (s : State) :
    Keeps leave s (s.liftReadyFrame src p) :=
  Keeps.doorFrame _ _ _ _ _ _ ((Keeps.refl s).fold _ (fun u _ => (Keeps.refl u).liftReady _) _)

theorem Keeps.boardBags (h : Keeps leave s t) (l : List BagItem) : Keeps leave s (t.boardBags l) :=
  h.fold _ (fun u _ => (Keeps.refl u).setEntryState _ _) _

theorem Keeps.boardCart (h : Keeps leave s t) (id : Nat) (c : Cart) (g : Group) (v : Sailing)
    (hk : Tbl.get t.carts id = some c) (hs : c.state = .called) (hg : Tbl.get t.groups c.group = some g) :
    Keeps leave s (t.boardCart id c g v) := by
  refine h.trans (.mend ?_ (fun _ o => boardCart_fleet o v hk hs hg))
  have h := Keeps.refl (leave := leave.loose) t
  unfold State.boardCart
  exact ((((h.boardBags _).putSailing _ _).putGroup _ _).freeCart _).report _ _

theorem cartAboardFrame_keeps (src : Byte) (p : List Byte) (s : State) :
    Keeps leave s (s.cartAboardFrame src p) := by
  refine Keeps.doorFrame _ _ _ _ _ _ ?_
  split
  · split
    · next e =>
      have := calledAt_eq e
      exact (Keeps.refl s).boardCart _ _ _ _ this.1 this.2.1 this.2.2
    · exact .refl s
  · exact .refl s

theorem cartRefusedFrame_keeps (src : Byte) (p : List Byte) (s : State) :
    Keeps leave s (s.cartRefusedFrame src p) := by
  refine Keeps.doorFrame _ _ _ _ _ _ ?_
  split
  · split
    · next e =>
      have := calledAt_eq e
      exact ((((Keeps.refl (leave := leave.loose) s).putCart _ _).putGroup _ _).report _ _).mend
        (fun _ o => refuseCart_fleet o this.1 this.2.1 this.2.2)
    · exact .refl s
  · exact .refl s

/-! Loop lines -/

theorem runRises_keeps (s : State) : Keeps leave s s.runRises := by
  unfold State.runRises
  split
  · exact .refl s
  · refine Keeps.reportLoop
      (t := { s with lu := { s.lu with loopRun := true }, lt := { s.lt with state := .unsynced } }) ?_ _ _ _
    exact
      { Keeps.refl (leave := leave) s with
        loop := fun o => ⟨o.bare, o.ranges, o.missed⟩
        run := fun _ => by simp [State.runOk]
        sync := fun _ hl => by simp at hl
        lay := fun _ => rfl }

theorem runFalls_keeps (s : State) : Keeps leave s s.runFalls := by
  unfold State.runFalls
  split
  · refine Keeps.reportLoop
      (t := { s with
        lu := { s.lu with loopRun := false },
        lt := { (if s.lt.state = LoopState.synced then s.lt.lose else s.lt) with state := .stopped } }) ?_ _ _ _
    exact
      { Keeps.refl (leave := leave) s with
        loop := fun o => by
          show LoopTracker.Ok { (if s.lt.state = LoopState.synced then s.lt.lose else s.lt) with
            state := LoopState.stopped }
          split
          · exact ⟨o.lose.bare, o.lose.ranges, o.lose.missed⟩
          · exact ⟨o.bare, o.ranges, o.missed⟩
        run := fun _ => by simp [State.runOk]
        sync := fun _ hl => by simp at hl
        lay := fun _ => by
          show (if s.lt.state = LoopState.synced then s.lt.lose else s.lt).layout = _
          split <;> rfl
        eye := fun _ he => by
          show (if s.lt.state = LoopState.synced then s.lt.lose else s.lt).eyeTaken = true
          split <;> exact he }
  · exact .refl s

/-! Internal steps -/

theorem regionStep_keeps (s : State) : Keeps leave s s.regionStep := by
  unfold State.regionStep
  repeat' split
  all_goals first | exact .refl s | exact ((Keeps.refl s).putEntry _ _).countStep _

theorem regionDone_keeps (s : State) : Keeps leave s s.regionDone := by
  unfold State.regionDone
  repeat' split
  all_goals first | exact .refl s | exact (((Keeps.refl s).putSailing _ _).endLong _).reportEnd _ _

theorem commitStep_keeps (s : State) : Keeps leave s s.commitStep := by
  unfold State.commitStep
  repeat' split
  all_goals first | exact .refl s | exact (Keeps.refl s).countStep _ | exact ((Keeps.refl s).endLong _).reportEnd _ _

theorem commitDone_keeps (s : State) : Keeps leave s s.commitDone := by
  unfold State.commitDone
  repeat' split
  all_goals first | exact .refl s | exact (((Keeps.refl s).putSailing _ _).endLong _).reportEnd _ _

theorem sweepStep_keeps (s : State) : Keeps leave s s.sweepStep := by
  unfold State.sweepStep
  repeat' split
  all_goals first | exact .refl s | exact (Keeps.refl s).countStep _

theorem Keeps.closeLoad (h : Keeps leave s t) (loc : StrayLoc) (l : Load) :
    Keeps leave s (t.closeLoad loc l).1 := by
  unfold State.closeLoad
  dsimp only
  split
  · exact h.moveStray _ _ _ _
  · exact h.openStray _ _

theorem Keeps.closeQueue (h : Keeps leave s t) (n : Nat) (v : Sailing) (st : Nat) (q : List Load) :
    Keeps leave s (t.closeQueue n v st q).1 := by
  induction q generalizing t with
  | nil => exact h
  | cons l q ih =>
    unfold State.closeQueue
    dsimp only
    refine ih ?_
    split
    · exact h.closeLoad _ _
    · exact h

theorem closeQueue_length (t : State) (n : Nat) (v : Sailing) (st : Nat) (q : List Load) :
    (t.closeQueue n v st q).2.length = q.length := by
  induction q generalizing t with
  | nil => rfl
  | cons l q ih => unfold State.closeQueue; simp [ih]

theorem Keeps.closeStation (h : Keeps leave s t) (n : Nat) (v : Sailing) (st : Nat) :
    Keeps leave s (State.closeStation n v t st) := by
  unfold State.closeStation
  split
  · exact h
  · next x hx =>
    exact (h.closeQueue _ _ _ _).putStation _ _ (fun hs => by
      show (t.closeQueue n v st x.queue).2.length ≤ _
      rw [closeQueue_length]; exact queuesOk_get (h.stations hs) hx)

theorem Keeps.closeTray (h : Keeps leave s t) (n : Nat) (v : Sailing) (k : Nat) :
    Keeps leave s (State.closeTray n v t k) := by
  unfold State.closeTray
  split
  · exact h
  · split
    · exact (h.closeLoad _ _).putTray _ _
    · exact h

theorem Keeps.releaseCarts (h : Keeps leave s t) (n : Nat) (f : Tbl Sailing → Tbl Sailing)
    (hf : ∀ x, Tbl.Sorted x → Tbl.Sorted (f x)) :
    Keeps leave s { t.releaseCarts n with
      groups := (t.releaseCarts n).groups.filter (fun r => r.2.slot != n),
      sailings := f (t.releaseCarts n).sailings } := by
  refine h.trans (.mend ?_ (fun k o => releaseCarts_fleet o k n f))
  have k : Keeps leave.loose t (t.releaseCarts n) := by
    unfold State.releaseCarts
    dsimp only
    exact Keeps.fold _ (fun u c => ((Keeps.refl u).modifyChute _ _).reportChute _ _) _
      ((Keeps.refl t).filterCarts _)
  exact { k.filterGroups (fun r => r.2.slot != n) with sailings := fun hs => hf _ (k.sailings hs) }

theorem Keeps.releaseSailing (h : Keeps leave s t) (n : Nat) (v : Sailing) :
    Keeps leave s (t.releaseSailing n v) := by
  unfold State.releaseSailing
  dsimp only
  refine Keeps.releaseCarts ?_ n (fun x => Tbl.erase x n) (fun x hx => Tbl.sorted_erase x n hx)
  unfold State.closeStrays
  exact Keeps.fold _ (fun u r => (Keeps.refl u).closeStray _ _ _) _
    (Keeps.fold _ (fun u k => (Keeps.refl u).closeTray _ _ _) _
      (Keeps.fold _ (fun u st => (Keeps.refl u).closeStation _ _ _) _ h))

theorem closeDone_keeps (s : State) : Keeps leave s s.closeDone := by
  unfold State.closeDone
  split
  · exact .refl s
  · dsimp only
    split
    · exact .refl s
    · exact (((Keeps.refl s).endLong _).reportEnd _ _).releaseSailing _ _

theorem Keeps.setNotice (h : Keeps leave s t) (n : Option Nat) :
    Keeps leave s { t with su := { t.su with notice := n } } := { h with }

theorem Keeps.sendEncodeNext (h : Keeps leave s t) : Keeps leave s t.sendEncodeNext := by
  unfold State.sendEncodeNext
  split
  · exact h
  · split
    · next node _ _ =>
      have e : (t.order node 0x24 t.encodeNextFields).su = t.su := by simp
      rw [← e]
      exact (h.order _ _ _).setNotice _
    · exact h

theorem clockAdvances_keeps (s : State) : Keeps leave s s.clockAdvances := by
  unfold State.clockAdvances
  exact (((Keeps.refl s).setClock _).swapTests.fold _ (fun u _ => (Keeps.refl u).freeEvent _) _).sendEncodeNext

/-! The line -/

theorem frameSent_keeps (port : Port) (s : State) : Keeps leave s (s.frameSent port) := by
  have hl : ∀ x : Transmitter, x.sent.queue.length ≤ x.queue.length := by
    intro x
    unfold Transmitter.sent
    split
    · exact Nat.le_refl _
    · simp
  cases port
  · exact { Keeps.refl (leave := leave) s with
      sup := fun h => (hl _).trans h
      place := fun _ h => Nat.lt_of_le_of_lt (hl _) h }
  · exact { Keeps.refl (leave := leave) s with fld := fun h => (hl _).trans h }

theorem forward_keeps (port : Port) (f : Frame) (s : State) : Keeps leave s (s.forward port f) := by
  unfold State.forward
  split
  · exact .refl s
  · cases port
    · show Keeps leave s (s.forwardDown f)
      unfold State.forwardDown
      split
      · next h =>
        exact { Keeps.refl (leave := leave) s with
          fld := fun _ => by
            show (s.lu.fldTx.queue ++ [f]).length ≤ 32
            simp only [List.length_append, List.length_singleton, Config.fldForwardPlaces] at h ⊢; omega }
      · exact (Keeps.refl s).setOverrun
    · show Keeps leave s (s.forwardUp f)
      unfold State.forwardUp
      split
      · next h =>
        exact { Keeps.refl (leave := leave) s with
          sup := fun _ => by
            show (s.lu.supTx.queue ++ [f]).length ≤ 64
            simp only [List.length_append, List.length_singleton, Config.supReportPlaces] at h ⊢; omega
          place := fun _ _ => by
            show (s.lu.supTx.queue ++ [f]).length < 64
            simp only [List.length_append, List.length_singleton, Config.supReportPlaces] at h ⊢; omega }
      · exact (Keeps.refl s).setOverrun

/-! RESTART -/

theorem Keeps.restartDoubt (h : Keeps leave s t) (k : Nat) : Keeps leave s (t.restartDoubt k) := by
  unfold State.restartDoubt
  repeat' split
  all_goals first
    | exact h
    | exact (h.setEntryState _ _).removeStray _
    | exact h.removeStray _

theorem manifestOk_restart {m : Tbl Entry} (h : manifestOk m) :
    manifestOk ((Tbl.mapRows m Entry.restart).filter (fun r => decide (r.2 ≠ Entry.unissued))) :=
  ⟨Tbl.sorted_filter _ _ (Tbl.sorted_mapRows _ _ h.1), fun _ hr => of_decide_eq_true (List.mem_filter.1 hr).2⟩

theorem Keeps.restartManifest (h : Keeps leave s t) : Keeps leave s t.restartManifest :=
  { h with manifest := fun hs => manifestOk_restart (h.manifest hs) }

theorem Keeps.restartCarts (h : Keeps leave s t) : Keeps leave s t.restartCarts := by
  refine h.trans (.mend ?_ (fun k o => restartCarts_fleet o k.carts))
  unfold State.restartCarts
  dsimp only
  refine Keeps.fold _ (fun u id => (Keeps.refl u).closeCart id) _ ?_
  exact { Keeps.refl (leave := leave.loose) t with
    carts := fun hs => Tbl.sorted_mapRows t.carts (fun c => { c with bags := restartBags c.bags }) hs
    fleet := fun hn => Leave.not_strict rfl hn }

theorem Keeps.restartStrays (h : Keeps leave s t) : Keeps leave s t.restartStrays :=
  { h with
    strays := fun hs => ⟨Tbl.sorted_mapRows _ _ (h.strays hs).1, by
      show (Tbl.mapRows t.su.strays Stray.restart).length ≤ _
      rw [Tbl.length_mapRows]; exact (h.strays hs).2⟩ }

theorem Keeps.restartLong (h : Keeps leave s t) : Keeps leave s t.restartLong := by
  unfold State.restartLong
  split
  · exact h
  · exact h.endLong _

theorem Keeps.restartLine (h : Keeps leave s t) : Keeps leave s t.restartLine :=
  { h with
    sup := fun _ => Nat.zero_le _
    fld := fun _ => Nat.zero_le _
    place := fun _ _ => Nat.succ_pos _ }

theorem Keeps.restartLoop (h : Keeps leave s t) (hr : t.lu.loopRun = s.lu.loopRun) :
    Keeps leave s
      { t with
        stations := Tbl.mapRows t.stations Station.restart, trays := [], lt := t.lt.restart s.lu.loopRun,
        sailings := Tbl.mapRows t.sailings Sailing.restart } :=
  { h with
    stations := fun hs => queuesOk_mapRows (h.stations hs) Station.restart (fun _ => Nat.zero_le _)
    trays := fun _ => ⟨Tbl.sorted_nil, fun r hr => absurd hr (by simp)⟩
    sailings := fun hs => Tbl.sorted_mapRows _ _ (h.sailings hs)
    loop := fun o => ⟨fun hl => ⟨rfl, rfl, rfl, rfl, rfl, rfl⟩, fun z hz => by
      have := (h.loop o).ranges z hz
      exact ⟨this.1, this.1.length_pos, Layout.effectiveDivisor_pos z, Nat.zero_le _, this.1.length_pos,
        Nat.zero_le _⟩, Nat.zero_le 1⟩
    run := fun _ => by
      show (if s.lu.loopRun = true then LoopState.unsynced else LoopState.stopped) = LoopState.stopped
        ↔ t.lu.loopRun = false
      rw [hr]
      cases s.lu.loopRun <;> simp
    sync := fun _ hl => by
      have hl' : (if s.lu.loopRun = true then LoopState.unsynced else LoopState.stopped) = LoopState.synced :=
        hl
      cases hr : s.lu.loopRun <;> simp [hr] at hl'
    eye := fun _ _ => rfl }

theorem restartDoubt_loopRun (s : State) (k : Nat) : (s.restartDoubt k).lu.loopRun = s.lu.loopRun := by
  unfold State.restartDoubt
  repeat' split
  all_goals simp

theorem foldl_keep {α β : Type} (f : State → α → State) (g : State → β) (hf : ∀ u a, g (f u a) = g u)
    (l : List α) (u : State) : g (l.foldl f u) = g u := by
  induction l generalizing u with
  | nil => rfl
  | cons a l ih => exact (ih _).trans (hf u a)

theorem restarted_keeps (s : State) : Keeps leave s s.restarted := by
  unfold State.restarted
  dsimp only
  refine (Keeps.restartLoop (((Keeps.fold _ (fun u k => (Keeps.refl u).restartDoubt k) _
    (Keeps.refl s)).restartManifest.restartCarts).restartStrays) ?_).restartLong.restartLine
  show (State.restartCarts _).lu.loopRun = _
  unfold State.restartCarts
  dsimp only
  rw [foldl_keep State.closeCart (fun u => u.lu.loopRun) (fun u id => by simp)]
  exact foldl_keep State.restartDoubt (fun u => u.lu.loopRun) restartDoubt_loopRun _ s

theorem restartFrame_keeps (hl : leave.answers = true) (src : Byte) (p : List Byte) (s : State) : Keeps leave s (s.restartFrame src p) := by
  unfold State.restartFrame
  split
  · split
    · exact .refl s
    · exact (restarted_keeps s).reply hl _ _ _ _
  · exact Keeps.takeCommand hl _ _ _ _ (fun _ _ h => by simp at h)

/-! Every command -/

/-- What a command has leave to do. -/
def leaveOf : Instr → Leave
  | .homeRise _ => { home := true, layout := false, answers := true, flags := false, fleet := false, eye := false }
  | .layoutSet .. => { home := false, layout := true, answers := true, flags := false, fleet := false, eye := false }
  | .status .. => { home := false, layout := false, answers := true, flags := true, fleet := false, eye := false }
  | _ => { home := false, layout := false, answers := true, flags := false, fleet := false, eye := false }

/-- Every command but a power-on reset keeps what `Keeps` lists. -/
theorem exec_keeps (c : Instr) (s t : State) (hp : ∀ a b, c ≠ .powerOnReset a b)
    (h : exec c s = .next t) : Keeps (leaveOf c) s t := by
  cases c
  case powerOnReset a b => exact absurd rfl (hp a b)
  case status src p => cases h; exact Keeps.takeCommand rfl _ _ _ _ (status_keeps rfl p s)
  case setClock src p => cases h; exact Keeps.takeCommand rfl _ _ _ _ (setClock_keeps p s)
  case sortMode src p => cases h; exact Keeps.takeCommand rfl _ _ _ _ (sortMode_keeps p s)
  case massLimits src p => cases h; exact Keeps.takeCommand rfl _ _ _ _ (massLimits_keeps p s)
  case partSettings src p => cases h; exact Keeps.takeCommand rfl _ _ _ _ (partSettings_keeps p s)
  case layoutSet src p => cases h; exact Keeps.takeCommand rfl _ _ _ _ (layoutSet_keeps rfl p s)
  case trayRead src p => cases h; exact Keeps.takeCommand rfl _ _ _ _ (trayRead_keeps p s)
  case stationSet src p => cases h; exact Keeps.takeCommand rfl _ _ _ _ (stationSet_keeps p s)
  case chuteSet src p => cases h; exact Keeps.takeCommand rfl _ _ _ _ (chuteSet_keeps p s)
  case chuteService src p => cases h; exact Keeps.takeCommand rfl _ _ _ _ (chuteService_keeps p s)
  case chuteBind src p => cases h; exact Keeps.takeCommand rfl _ _ _ _ (chuteBind_keeps p s)
  case chuteRead src p => cases h; exact Keeps.takeCommand rfl _ _ _ _ (chuteRead_keeps p s)
  case groupSet src p => cases h; exact Keeps.takeCommand rfl _ _ _ _ (groupSet_keeps p s)
  case groupDelete src p => cases h; exact Keeps.takeCommand rfl _ _ _ _ (groupDelete_keeps p s)
  case groupRead src p => cases h; exact Keeps.takeCommand rfl _ _ _ _ (groupRead_keeps p s)
  case sailingDefine src p => cases h; exact Keeps.takeCommand rfl _ _ _ _ (sailingDefine_keeps p s)
  case regionInit src p => cases h; exact Keeps.takeCommand rfl _ _ _ _ (regionInit_keeps p s)
  case sailingClose src p => cases h; exact Keeps.takeCommand rfl _ _ _ _ (sailingClose_keeps p s)
  case blockPut src p => cases h; exact Keeps.takeCommand rfl _ _ _ _ (blockPut_keeps p s)
  case blockDelete src p => cases h; exact Keeps.takeCommand rfl _ _ _ _ (blockDelete_keeps p s)
  case planClear src p => cases h; exact Keeps.takeCommand rfl _ _ _ _ (planClear_keeps p s)
  case planCommit src p => cases h; exact Keeps.takeCommand rfl _ _ _ _ (planCommit_keeps p s)
  case entryPut src p => cases h; exact Keeps.takeCommand rfl _ _ _ _ (entryPut_keeps p s)
  case cabinChange src p => cases h; exact Keeps.takeCommand rfl _ _ _ _ (cabinChange_keeps p s)
  case holdSet src p => cases h; exact Keeps.takeCommand rfl _ _ _ _ (holdSet_keeps p s)
  case holdClear src p => cases h; exact Keeps.takeCommand rfl _ _ _ _ (holdClear_keeps p s)
  case withdraw src p => cases h; exact Keeps.takeCommand rfl _ _ _ _ (withdraw_keeps p s)
  case entryRead src p => cases h; exact Keeps.takeCommand rfl _ _ _ _ (entryRead_keeps p s)
  case classSet src p => cases h; exact Keeps.takeCommand rfl _ _ _ _ (classSet_keeps p s)
  case strayRead src p => cases h; exact Keeps.takeCommand rfl _ _ _ _ (strayRead_keeps p s)
  case strayClose src p => cases h; exact Keeps.takeCommand rfl _ _ _ _ (strayClose_keeps p s)
  case queueRead src p => cases h; exact Keeps.takeCommand rfl _ _ _ _ (queueRead_keeps p s)
  case cartClose src p => cases h; exact Keeps.takeCommand rfl _ _ _ _ (cartClose_keeps p s)
  case cartRead src p => cases h; exact Keeps.takeCommand rfl _ _ _ _ (cartRead_keeps p s)
  case stepPut src p => cases h; exact Keeps.takeCommand rfl _ _ _ _ (stepPut_keeps p s)
  case stepClear src p => cases h; exact Keeps.takeCommand rfl _ _ _ _ (stepClear_keeps p s)
  case seqStart src p => cases h; exact Keeps.takeCommand rfl _ _ _ _ (seqStart_keeps p s)
  case seqStop src p => cases h; exact Keeps.takeCommand rfl _ _ _ _ (seqStop_keeps p s)
  case chuteUnbind src p => cases h; exact Keeps.takeCommand rfl _ _ _ _ (chuteBind_keeps p s)
  case sailingStateOpen src p => cases h; exact Keeps.takeCommand rfl _ _ _ _ (sailingState_keeps p s)
  case sailingStateFinal src p => cases h; exact Keeps.takeCommand rfl _ _ _ _ (sailingState_keeps p s)
  case restart src p => cases h; exact restartFrame_keeps rfl _ _ _
  case inductionReport src p => cases h; exact inductionFrame_keeps _ _ _
  case launched src p => cases h; exact launchedFrame_keeps _ _ _
  case launchFailed src p => cases h; exact launchFailedFrame_keeps _ _ _
  case bagRemoved src p => cases h; exact bagRemovedFrame_keeps _ _ _
  case encodeTaken src p => cases h; exact encodeTakenFrame_keeps _ _ _
  case dropSeen src p => cases h; exact dropSeenFrame_keeps _ _ _
  case tiltFault src p => cases h; exact tiltFaultFrame_keeps _ _ _
  case chuteBlocked src p => cases h; exact chuteBlockedFrame_keeps _ _ _
  case chuteClear src p => cases h; exact chuteClearFrame_keeps _ _ _
  case cartPlaced src p => cases h; exact cartPlacedFrame_keeps _ _ _
  case liftReady src p => cases h; exact liftReadyFrame_keeps _ _ _
  case cartAboard src p => cases h; exact cartAboardFrame_keeps _ _ _
  case cartRefused src p => cases h; exact cartRefusedFrame_keeps _ _ _
  case regionInitStep => cases h; exact regionStep_keeps s
  case regionInitComplete => cases h; exact regionDone_keeps s
  case planCommitStep => cases h; exact commitStep_keeps s
  case planCommitComplete => cases h; exact commitDone_keeps s
  case sailingCloseStep => cases h; exact sweepStep_keeps s
  case sailingCloseComplete => cases h; exact closeDone_keeps s
  case hallClockAdvance => cases h; exact clockAdvances_keeps s
  case loopRunRise => cases h; exact runRises_keeps s
  case loopRunFall => cases h; exact runFalls_keeps s
  case frameForward port f => cases h; exact forward_keeps _ _ _
  case frameSent port => cases h; exact frameSent_keeps _ _
  case firstIdle port => cases h; exact (Keeps.refl s).setRx _ _ id
  case encodeNext => cases h; exact (Keeps.refl s).sendEncodeNext
  case swapOverdue c => cases h; exact (Keeps.refl s).swapTest _
  case lapLimit k => cases h; exact (Keeps.refl s).lapLimitTest _
  case encoderPulse occ => cases h; exact (Keeps.refl s).pulse rfl _
  case homeRise occ => cases h; exact (Keeps.refl s).homeRises rfl rfl _
  case frameCheckFailed port rx =>
    cases h
    unfold State.frameCheck
    split
    · exact (Keeps.refl s).setRx _ _ (fun _ => rfl)
    · exact .refl s
  case badKind src k p =>
    cases h
    unfold State.badKind
    split
    · exact .refl s
    · exact Keeps.takeCommand rfl _ _ _ _ (CmdKeeps.error _)
  case unknownKind src k p =>
    cases h
    unfold State.unknownKind
    split
    · exact .refl s
    · exact (Keeps.refl s).fieldMismatch _ _ _ _
  case loopAdvance occ =>
    simp only [exec, execLoopAdvance] at h
    split at h
    · cases h; exact (Keeps.refl s).pulse rfl _
    · cases h; exact .refl s
  case homeMissed =>
    simp only [exec, execHomeMissed] at h
    split at h
    · next hs => cases h; exact (Keeps.refl s).slip _ _ (by simp [hs.1])
    · cases h; exact .refl s
  case strayRiding k =>
    simp only [exec, execStrayRiding] at h
    split at h
    · cases h; exact ((Keeps.refl s).eyePass _ _).eyeDone
    · cases h; exact .refl s
  case windowClose c k =>
    simp only [exec, execWindowClose] at h
    split at h
    · next hy _ =>
      split at h
      · cases h; exact (Keeps.refl s).takeAlignment _ _ _ (by simp [hy])
      · cases h; exact .refl s
    · cases h; exact .refl s
  case launchClose n k =>
    simp only [exec, execLaunchClose] at h
    split at h
    · next hy _ =>
      split at h
      · cases h; exact (Keeps.refl s).takeAlignment _ _ _ (by simp [hy])
      · cases h; exact .refl s
    · cases h; exact .refl s
  case batchEvent n =>
    simp only [exec, execBatchEvent] at h
    split at h
    · cases h; exact .refl s
    · split at h
      · cases h; exact ((Keeps.refl s).modifySeq _ _).batchEvent _
      · cases h; exact (Keeps.refl s).freeEvent _

end Sys2Proof.Machine
end

