-- ==== Sys2Proof/Laws/Ops.lean ====
section
/-! SUPPORT. What each shared operation does, said once: the rows it writes read back, every other row
as before, and the cases of the operations that queue a frame or take one. -/

namespace Sys2Proof.Machine

/-! Entries and trays -/

theorem State.entry_putEntry_same (s : State) (m : Nat) (e : Entry) : (s.putEntry m e).entry m = e := by
  by_cases h : e = Entry.unissued
  · simp [State.entry, State.putEntry, h, Tbl.get_erase_same]
  · simp [State.entry, State.putEntry, h, Tbl.get_set_same]

theorem State.entry_putEntry_other (s : State) (m j : Nat) (e : Entry) (h : j ≠ m) :
    (s.putEntry m e).entry j = s.entry j := by
  by_cases he : e = Entry.unissued
  · simp [State.entry, State.putEntry, he, Tbl.get_erase_other _ _ _ h]
  · simp [State.entry, State.putEntry, he, Tbl.get_set_other _ _ _ _ h]

theorem State.entry_setEntryState_same (s : State) (m : Nat) (st : EntryState) :
    (s.setEntryState m st).entry m = { s.entry m with state := st } :=
  s.entry_putEntry_same m _

theorem State.entry_setEntryState_other (s : State) (m j : Nat) (st : EntryState) (h : j ≠ m) :
    (s.setEntryState m st).entry j = s.entry j :=
  s.entry_putEntry_other m j _ h

theorem State.tray_putTray_same (s : State) (k : Nat) (t : Tray) : (s.putTray k t).tray k = t := by
  by_cases h : t = .empty
  · simp [State.tray, State.putTray, h, Tbl.get_erase_same]
  · simp [State.tray, State.putTray, h, Tbl.get_set_same]

theorem State.tray_putTray_other (s : State) (k j : Nat) (t : Tray) (h : j ≠ k) :
    (s.putTray k t).tray j = s.tray j := by
  by_cases ht : t = .empty
  · simp [State.tray, State.putTray, ht, Tbl.get_erase_other _ _ _ h]
  · simp [State.tray, State.putTray, ht, Tbl.get_set_other _ _ _ _ h]

/-- Two puts of one row leave the second. -/
theorem Tbl.set_set {α : Type} (t : Tbl α) (k : Nat) (v w : α) :
    Tbl.set (Tbl.set t k v) k w = Tbl.set t k w := by
  induction t with
  | nil => simp [Tbl.set]
  | cons r t ih =>
    obtain ⟨j, u⟩ := r
    by_cases h : k < j
    · simp [Tbl.set, h]
    · by_cases hj : j = k
      · simp [Tbl.set, hj]
      · simp [Tbl.set, h, hj, ih]

/-- Putting back the row that stands changes nothing. -/
theorem Tbl.set_get {α : Type} (t : Tbl α) (k : Nat) (v : α) (hs : Tbl.Sorted t)
    (h : Tbl.get t k = some v) : Tbl.set t k v = t := by
  induction t with
  | nil => simp [Tbl.get] at h
  | cons r t ih =>
    obtain ⟨j, u⟩ := r
    by_cases hj : j = k
    · simp only [Tbl.get, hj, if_true, Option.some.injEq] at h
      simp [Tbl.set, hj, h]
    · simp only [Tbl.get, hj, if_false] at h
      have hlt : ¬k < j := by
        have := List.rel_of_pairwise_cons hs
          (List.mem_map.2 ⟨(k, v), Tbl.mem_of_get t k v h, rfl⟩)
        simp only at this
        omega
      simp [Tbl.set, hlt, hj, ih (List.Pairwise.of_cons hs) h]

/-! The transmit queues -/

theorem State.report_room (s : State) (kind : Nat) (p : List Byte)
    (h : s.lu.supTx.queue.length < Config.supReportPlaces) :
    s.report kind p = s.tell (BitVec.ofNat 8 kind) p := by
  simp [State.report, State.tell, State.supSend, h, Config.supervisorNode]

theorem State.report_full (s : State) (kind : Nat) (p : List Byte)
    (h : Config.supReportPlaces ≤ s.lu.supTx.queue.length) : s.report kind p = s.setOverrun := by
  simp [State.report, Nat.not_lt.2 h]

theorem State.reply_room (s : State) (dst kind : Byte) (code : Code) (fields : List Byte)
    (h : s.lu.supTx.queue.length < Config.supPlaces) :
    s.reply dst kind code fields
      = s.answer dst (kind ||| 0x80) (BitVec.ofNat 8 code.ctorIdx) fields := by
  simp [State.reply, State.replyPlace, State.answer, State.supSend, h, b1]

theorem State.order_room (s : State) (dst : Byte) (kind : Nat) (p : List Byte)
    (h : s.lu.fldTx.queue.length < Config.fldPlaces) :
    s.order dst kind p = s.tellField dst (BitVec.ofNat 8 kind) p := by
  simp [State.order, State.orderPlace, State.tellField, State.fldSend, h]

theorem State.order_full (s : State) (dst : Byte) (kind : Nat) (p : List Byte)
    (h : Config.fldPlaces ≤ s.lu.fldTx.queue.length) : s.order dst kind p = s := by
  simp [State.order, State.orderPlace, Nat.not_lt.2 h]

/-! Frames taken -/

theorem State.takeCommand_waiting (s : State) (src kind : Byte) (body : State → CmdResult)
    (h : s.lu.supRx.awaitIdle = true) : s.takeCommand src kind body = s := by
  simp [State.takeCommand, h]

theorem State.takeCommand_full (s : State) (src kind : Byte) (body : State → CmdResult)
    (h : s.lu.supRx.awaitIdle = false) (hq : Config.supPlaces ≤ s.lu.supTx.queue.length) :
    s.takeCommand src kind body = s.setOverrun := by
  simp [State.takeCommand, h, State.replyPlace, Nat.not_lt.2 hq]

theorem State.takeCommand_ok (s t : State) (src kind : Byte) (body : State → CmdResult)
    (fields : List Byte) (h : s.supReady) (hb : body s = .ok (t, fields)) :
    s.takeCommand src kind body = t.reply src kind .ok fields := by
  simp [State.takeCommand, h.1, State.replyPlace, h.2, hb]

theorem State.takeCommand_error (s : State) (src kind : Byte) (body : State → CmdResult) (code : Code)
    (h : s.supReady) (hb : body s = .error code) :
    s.takeCommand src kind body
      = s.answer src (kind ||| 0x80) (BitVec.ofNat 8 code.ctorIdx) [] := by
  simp only [State.takeCommand, h.1, State.replyPlace, h.2, hb, decide_true, if_true]
  exact s.reply_room src kind code [] h.2

theorem State.takeField_owner (s : State) (src kind : Byte) (p : List Byte) (owner : State → State)
    (h : s.fldReady src) : s.takeField src kind p true true owner = owner s := by
  simp [State.takeField, h.1, h.2]

theorem State.takeField_stranger (s : State) (src kind : Byte) (p : List Byte) (good : Bool)
    (owner : State → State) (h : s.fldReady src) :
    s.takeField src kind p false good owner = s.fieldMismatch src kind .notConfigured p.length := by
  simp [State.takeField, h.1, h.2]

theorem State.takeField_badForm (s : State) (src kind : Byte) (p : List Byte) (owner : State → State)
    (h : s.fldReady src) :
    s.takeField src kind p true false owner = s.fieldMismatch src kind .badForm p.length := by
  simp [State.takeField, h.1, h.2]

/-! Stray records -/

theorem State.openStray_full (s : State) (r : Stray) (cause : OpenCause)
    (h : Config.strayPlaces ≤ s.su.strays.length) :
    s.openStray r cause
      = ({ s with su := { s.su with unrecorded := bumpStop s.su.unrecorded } }, none) := by
  simp [State.openStray, h]

/-- Opening a record with room: the ref is the fresh one, its record the given one stamped with the
clock, every other record, the classes and the encode queue as before. -/
theorem State.openStray_room (s : State) (r : Stray) (cause : OpenCause)
    (h : s.su.strays.length < Config.strayPlaces) :
    (s.openStray r cause).2 = some s.freshRef
      ∧ (s.openStray r cause).1.su.strays
        = Tbl.set s.su.strays s.freshRef { r with opened := s.lu.clock }
      ∧ (s.openStray r cause).1.su.classes = s.su.classes
      ∧ (s.openStray r cause).1.su.encode = s.su.encode := by
  simp only [State.openStray, Nat.not_le.2 h, if_false, true_and]
  split <;> simp [State.reportTableFull, State.reportOpened]

theorem State.moveStray_none (s : State) (ref : Nat) (f : Stray → Stray) (cause : MoveCause) (always : Bool)
    (h : Tbl.get s.su.strays ref = none) : s.moveStray ref f cause always = s := by
  simp [State.moveStray, h]

/-- Moving an open record writes it and the encode queue, and changes no other record. -/
theorem State.moveStray_some (s : State) (ref : Nat) (r : Stray) (f : Stray → Stray) (cause : MoveCause)
    (always : Bool) (h : Tbl.get s.su.strays ref = some r) :
    (s.moveStray ref f cause always).su.strays = Tbl.set s.su.strays ref (f r)
      ∧ (s.moveStray ref f cause always).su.encode
        = encodeAfter s.su.encode ref (s.classEntry (f r).cls).priority r.loc (f r).loc := by
  simp only [State.moveStray, h]
  split <;> simp [State.rewriteStray, State.reportMoved]

theorem State.closeStray_none (s : State) (ref : Nat) (o : StrayOutcome) (cart : Option Nat)
    (h : Tbl.get s.su.strays ref = none) : s.closeStray ref o cart = s := by
  simp [State.closeStray, h]

/-- Closing a record leaves no record at its ref. -/
theorem State.closeStray_get (s : State) (ref : Nat) (o : StrayOutcome) (cart : Option Nat) :
    Tbl.get (s.closeStray ref o cart).su.strays ref = none := by
  cases h : Tbl.get s.su.strays ref with
  | none => simp [State.closeStray, h]
  | some r => simp [State.closeStray, h, State.removeStray, Tbl.get_erase_same]

end Sys2Proof.Machine
end

