-- ==== Sys2Proof/Tests/Slice0.lean ====
section
/-! SUPPORT. Tests: the well-formedness checks, the worked examples of the spec, and for each statement
with hypotheses a witness, one state and operands that meet them. -/

namespace Sys2Proof.Tests

open Sys2Proof Sys2Proof.Machine

/-! Well-formedness: one ill-formed command per check -/

theorem test_refuses_long_payload : (Instr.status 126 (List.replicate 57 0)).wellFormed = false := by decide
theorem test_takes_longest_payload : (Instr.status 126 (List.replicate 56 0)).wellFormed = true := by decide
theorem test_refuses_source_127 : (Instr.liftReady 127 []).wellFormed = false := by decide
theorem test_refuses_destination_128 :
    (Instr.frameForward .field { dst := 128, src := 1, kind := 0, payload := [] }).wellFormed = false := by
  decide
theorem test_refuses_empty_run : (Instr.frameCheckFailed .field ⟨[], true⟩).wellFormed = false := by decide
theorem test_refuses_good_run :
    (Instr.frameCheckFailed .field ⟨frameBytes { dst := 1, src := 126, kind := 0x40, payload := [0] },
      true⟩).wellFormed = false := by decide +kernel
theorem test_refuses_bad_kind_of_command : (Instr.badKind 126 0x40 []).wellFormed = false := by decide
theorem test_refuses_unknown_kind_of_field : (Instr.unknownKind 12 0x10 []).wellFormed = false := by decide
theorem test_refuses_bind_to_none : (Instr.chuteBind 126 [17, 0]).wellFormed = false := by decide
theorem test_refuses_unbind_to_group : (Instr.chuteUnbind 126 [17, 3]).wellFormed = false := by decide
theorem test_refuses_open_to_final : (Instr.sailingStateOpen 126 [1, 3]).wellFormed = false := by decide
theorem test_refuses_final_to_open : (Instr.sailingStateFinal 126 [1, 2]).wellFormed = false := by decide
theorem test_refuses_chute_49 : (Instr.windowClose 49 0).wellFormed = false := by decide
theorem test_refuses_tray_1024 : (Instr.lapLimit 1024).wellFormed = false := by decide
theorem test_refuses_station_7 : (Instr.launchClose 7 0).wellFormed = false := by decide
theorem test_refuses_swap_of_chute_0 : (Instr.swapOverdue 0).wellFormed = false := by decide
theorem test_refuses_slot_5 : (Instr.batchEvent 5).wellFormed = false := by decide

/-! Worked examples of the spec -/

/-- The CRC of 9.1.1 (polynomial 0x1021, initial value 0xFFFF) over the ASCII digits 1 to 9. -/
theorem test_crc_of_digits :
    crc16 [0x31, 0x32, 0x33, 0x34, 0x35, 0x36, 0x37, 0x38, 0x39] = 0x29B1 := by
  decide +kernel

def evenCell : Cell := { tare := 10000, gain := 2560 }

/-- Station 2 of 3.3.1 and 3.6.1, its queue empty. -/
def station2 : Station :=
  { node := 12, kind := .normal, coord := 1200, lead := 72, window := 48, cell1 := evenCell,
    cell2 := evenCell, cell3 := evenCell, cell4 := evenCell, queue := [], ordered := none }

/-- Bags a, b and c of 3.3.1. -/
theorem test_worked_weighing : station2.weigh 12000 11800 12300 11950 = some 201
    ∧ station2.weigh 12000 65535 12300 11950 = none ∧ station2.weigh 9990 10004 9998 10010 = some 0 := by
  decide

/-- The clamped bag of 3.3.1. -/
theorem test_clamped_weighing :
    ({ station2 with
      cell1 := { tare := 0, gain := 4095 }, cell2 := { tare := 0, gain := 4095 },
      cell3 := { tare := 0, gain := 4095 }, cell4 := { tare := 0, gain := 4095 } } : Station).weigh 60000 60000
        60000 60000 = some 1023 := by decide

/-- The layout of 4.6.1. -/
def layout400 : Layout := { trays := 400, pitch := 24, divisor := 4, tolerance := 6, eye := 9000 }

/-- Chute 17 of 4.6.1, FILLING with cart 1 of group 3. -/
def chute17 : Chute :=
  { node := 57, role := .sort, coord := 4310, lead := 180, window := 60, side := .left, inverted := false,
    avail := .inService, cycle := some .filling, bound := 3, cart := some 1, swapTime := 0,
    overdueSent := false }

/-- Tray 123 at its three points, and the arrival point at its decision (4.6.1). -/
theorem test_worked_geometry :
    layout400.aligns 7082 { kind := .decision, coord := 4130, owner := 17 } = some 123
    ∧ layout400.aligns 7262 { kind := .arrival, coord := 4310, owner := 17 } = some 123
    ∧ layout400.aligns 7322 { kind := .windowClose, coord := 4370, owner := 17 } = some 123
    ∧ layout400.aligns 7082 { kind := .arrival, coord := 4310, owner := 17 } = none
    ∧ layout400.aligns 9500 { kind := .decision, coord := 9500, owner := 17 } = some 0 := by decide

/-! A hall -/

def mbag (m : Nat) : Load :=
  { index := some m, ref := none, target := .group 3, charge := 200, estimated := false, laps := 1,
    verified := true, station := some 2, rideSent := false }

def sbag (ref : Nat) : Load :=
  { index := none, ref := some ref, target := .role .manual, charge := 230, estimated := true, laps := 4,
    verified := true, station := none, rideSent := false }

def chute18 : Chute := { chute17 with node := 58, coord := 4500, cycle := some .noCart, bound := 0, cart := none }
def chute19 : Chute := { chute17 with node := 59, coord := 4700, cycle := some .swapping, cart := none }
def chute20 : Chute := { chute17 with node := 60, coord := 4900, cart := some 4 }
def chute40 : Chute :=
  { chute17 with node := 80, role := .manual, coord := 6000, window := 50, cycle := none, bound := 0, cart := none }

def group3 : Group :=
  { slot := 1, deck := 7, zone := 2, countLimit := 40, massLimit := 4000, ready := [2], bagsInCarts := 2,
    bagsAboard := 0, cartsClosed := 1, cartsAboard := 0 }

def group5 : Group := { group3 with deck := 8, ready := [], bagsInCarts := 0, cartsClosed := 0 }

/-- A cart under chute 17 with a bag on its way and a bag dropped. -/
def cart1 : Cart :=
  { group := 3, state := .filling, chute := some 17, bags := [⟨20, 200, .ordered⟩, ⟨21, 150, .dropped⟩],
    closedTime := none, cause := none }

def cart2 : Cart :=
  { group := 3, state := .closed, chute := none, bags := [⟨22, 100, .dropped⟩], closedTime := some 5,
    cause := some .limit }

def cart3 : Cart := { cart2 with state := .called }
def cart4 : Cart := { cart1 with chute := some 20, bags := [] }

def block3 : Block := { first := 1, last := 200, group := 3 }

def sailing1 : Sailing :=
  { key := 12, state := .opened, base := 0, length := 50, ready := true, committed := true, door := 90,
    lapLimit := 3, tally := 0, live := [block3], staged := [block3],
    steps := [{ group := 3, batch := 2, quota := 4 }],
    seq := { mode := .locked, divisor := 2, period := 60, current := 1, released := 0, lifts := 2, due := 0 } }

def issued (st : EntryState) : Entry := { issue := 1, cabin := 150, hold := 0, mass := none, state := st }

def stray1 : Stray :=
  { cls := 0, index := some 25, linked := true, slot := some 1, tags := [], mass := none, loc := .atEncode,
    opened := 3 }

def stray2 : Stray := { stray1 with index := none, linked := false, slot := none, loc := .onTray 8 }

/-- A hall with one OPEN sailing, SYNCED at position 0 and in RUN: a tilt on its way on tray 5, manifest
and stray bags riding on trays 7 and 8, a bag waiting at station 2. -/
def hall : State :=
  { State.reset with
    lu := { State.reset.lu with
      supRx := { awaitIdle := false, errors := 0, errorFlag := false },
      fldRx := { awaitIdle := false, errors := 0, errorFlag := false }, loopRun := true },
    sailings := [(1, sailing1)],
    manifest := [(20, issued (.inFlight 5)), (21, issued (.inCart 1)), (22, issued (.inCart 2)),
      (23, issued .notSeen), (24, issued (.pending 2)), (25, issued (.stray 1)), (26, issued (.inFlight 7)),
      (27, issued .withdrawn)],
    groups := [(3, group3), (5, group5)],
    stations := [(2, { station2 with queue := [{ mbag 24 with laps := 0, verified := false }] }),
      (6, { station2 with node := 16, kind := .encode, coord := 3000 })],
    lt := { State.reset.lt with layout := some layout400, state := .synced, mode := .run },
    trays := [(5, .tiltOrdered (mbag 20) 17 (some 1)), (7, .loaded (mbag 26)), (8, .loaded (sbag 2))],
    chutes := [(17, chute17), (18, chute18), (19, chute19), (20, chute20), (40, chute40)],
    carts := [(1, cart1), (2, cart2), (3, cart3), (4, cart4)],
    su := { State.reset.su with strays := [(1, stray1), (2, stray2)], encode := [⟨1, 3⟩], nextRef := 3 } }

theorem hall_tables : hall.TablesOk :=
  ⟨by decide, ⟨by decide, by decide⟩, by decide, ⟨by decide, by decide⟩, ⟨by decide, by decide⟩, by decide,
    by decide, ⟨by decide, by decide⟩⟩

theorem hall_ready : hall.supReady := ⟨rfl, by decide⟩
theorem hall_room : hall.supRoom 2 := ⟨rfl, by decide⟩
theorem hall_field (src : Byte) (h : hall.panelOut src = false) : hall.fldReady src := ⟨rfl, h⟩

/-- A tray with a load is listed. -/
theorem tray_mem {s : State} {k : Nat} {l : Load} (h : (s.tray k).load? = some l) : (k, s.tray k) ∈ s.trays := by
  cases hg : Tbl.get s.trays k with
  | none => simp [State.tray, hg, Tray.load?] at h
  | some x => simpa [State.tray, hg] using Tbl.mem_of_get _ _ _ hg

/-- The state a command leaves. -/
def after (c : Instr) (s : State) : State :=
  match exec c s with
  | .next t => t
  | _ => s

/-! Commands on the hall -/

/-- Bag a of 3.6.1 at a station with an empty queue: place 1, charged 201, deck 7, zone 2 (R59). -/
theorem test_induction_of_bag_a :
    (after (.inductionReport 12 (b2 12000 ++ b2 11800 ++ b2 12300 ++ b2 11950 ++ [1] ++ b4 0x0C100017
        ++ [0, 0, 0])) (hall.putStation 2 station2)).lu.fldTx.queue
      = [{ dst := 12, src := 1, kind := 0x20, payload := [0, 1, 0, 201, 0, 0, 7, 2, 0, 0, 0] }] := by decide +kernel

/-- A batch event calls the one ready cart and counts it (R139, R140). -/
theorem test_batch_event_calls : (after (.batchEvent 1) hall).lu.fldTx.queue
    = [{ dst := 90, src := 1, kind := 0x23, payload := [2, 3, 7, 2] }] := by decide

/-- A drop at count 38 past the arrival confirms the bag (5.4.1, R103). -/
theorem test_drop_on_time :
    (after (.dropSeen 57 (b2 5)) { hall with lt := { hall.lt with pos := 4310 + 120 + 38 } }).entry 20
      = issued (.inCart 1) := by decide +kernel

/-- The aboard tally rises by the bags of the cart (R141). -/
theorem test_cart_aboard_counts :
    (after (.cartAboard 90 [3]) hall).sailings = [(1, { sailing1 with tally := 1 })] := by decide

/-- The eye settles nothing at a stopped loop: LOOP_RUN falling loses synchronism (R72). -/
theorem test_loop_run_falls : (after .loopRunFall hall).lt.state = LoopState.stopped := by decide

/-- A command of another length changes nothing and is answered BAD_FORM (R175). -/
theorem test_bad_form : (after (.groupRead 126 []) hall).lu.supTx.queue
    = [{ dst := 126, src := 1, kind := 0xD2, payload := [1] }] := by decide

/-! Witnesses: hypotheses met together -/

theorem witness_StepRunsFrontCommand :
    (hall.withPending [.encodeNext, .homeMissed]).pending = .encodeNext :: [.homeMissed]
      ∧ hall.pending = [] := by decide

theorem witness_PowerOnLeavesResetValues :
    hall.lu.occ = false ∧ hall.freeIdx = 0 ∧ hall.pending = [] := by decide

/-- The premises of the three properties that every step keeps, met at a state with a step. -/
theorem witness_TransmitQueuesStayInBounds :
    (hall.lu.supTx.queue.length ≤ 64 ∧ hall.lu.fldTx.queue.length ≤ 32) ∧ step hall = .next hall :=
  ⟨by decide, rfl⟩

theorem witness_TablesStayCanonical : hall.TablesOk ∧ step hall = .next hall := ⟨hall_tables, rfl⟩

/-- Chutes, carts and ready queues of the hall agree. -/
theorem hall_fleet : hall.fleetOk := by
  have hc : ∀ c h, Tbl.get hall.chutes c = some h → (c, h) ∈ hall.chutes := fun c h => Tbl.mem_of_get _ c h
  have hk : ∀ c h, Tbl.get hall.carts c = some h → (c, h) ∈ hall.carts := fun c h => Tbl.mem_of_get _ c h
  have hg : ∀ c h, Tbl.get hall.groups c = some h → (c, h) ∈ hall.groups := fun c h => Tbl.mem_of_get _ c h
  simp only [hall, List.mem_cons, Prod.mk.injEq, List.not_mem_nil, or_false] at hc hk hg
  constructor
  · intro c h e; rcases hc c h e with ⟨rfl, rfl⟩ | ⟨rfl, rfl⟩ | ⟨rfl, rfl⟩ | ⟨rfl, rfl⟩ | ⟨rfl, rfl⟩ <;> decide
  · intro c h e; rcases hc c h e with ⟨rfl, rfl⟩ | ⟨rfl, rfl⟩ | ⟨rfl, rfl⟩ | ⟨rfl, rfl⟩ | ⟨rfl, rfl⟩ <;> decide
  · intro c h e hb
    rcases hc c h e with ⟨rfl, rfl⟩ | ⟨rfl, rfl⟩ | ⟨rfl, rfl⟩ | ⟨rfl, rfl⟩ | ⟨rfl, rfl⟩ <;>
      first | exact ⟨group3, rfl⟩ | exact absurd rfl hb
  · intro c h id e hid
    rcases hc c h e with ⟨rfl, rfl⟩ | ⟨rfl, rfl⟩ | ⟨rfl, rfl⟩ | ⟨rfl, rfl⟩ | ⟨rfl, rfl⟩ <;> cases hid
    · exact ⟨cart1, rfl, by decide⟩
    · exact ⟨cart4, rfl, by decide⟩
  · intro c h e
    rcases hc c h e with ⟨rfl, rfl⟩ | ⟨rfl, rfl⟩ | ⟨rfl, rfl⟩ | ⟨rfl, rfl⟩ | ⟨rfl, rfl⟩ <;> decide
  · intro id k e hs
    rcases hk id k e with ⟨rfl, rfl⟩ | ⟨rfl, rfl⟩ | ⟨rfl, rfl⟩ | ⟨rfl, rfl⟩
    · exact ⟨17, chute17, rfl, rfl, rfl⟩
    · simp [cart2] at hs
    · simp [cart3] at hs
    · exact ⟨20, chute20, rfl, rfl, rfl⟩
  · intro id k e
    rcases hk id k e with ⟨rfl, rfl⟩ | ⟨rfl, rfl⟩ | ⟨rfl, rfl⟩ | ⟨rfl, rfl⟩ <;> decide
  · intro id k e
    rcases hk id k e with ⟨rfl, rfl⟩ | ⟨rfl, rfl⟩ | ⟨rfl, rfl⟩ | ⟨rfl, rfl⟩ <;>
      exact ⟨group3, rfl, by decide⟩
  · intro n g e
    rcases hg n g e with ⟨rfl, rfl⟩ | ⟨rfl, rfl⟩
    · exact ⟨by decide, fun id hid => by simp [group3] at hid; subst hid; exact ⟨cart2, rfl, rfl⟩⟩
    · exact ⟨by decide, fun id hid => by simp [group5] at hid⟩

theorem witness_FleetStaysInAgreement :
    let s : State := { hall with pending := [.cartClose 126 [1]] }
    (s.TablesOk ∧ s.fleetOk) ∧ ∃ t, step s = .next t :=
  ⟨⟨⟨hall_tables.sailings, hall_tables.manifest, hall_tables.groups, hall_tables.stations, hall_tables.trays,
    hall_tables.chutes, hall_tables.carts, hall_tables.strays⟩, hall_fleet⟩, _, rfl⟩

theorem witness_NextRefStaysInRange :
    (1 ≤ hall.su.nextRef ∧ hall.su.nextRef ≤ 65535) ∧ step hall = .next hall
      ∧ (let s : State := { hall with su := { hall.su with nextRef := 65535 } };
        (1 ≤ s.su.nextRef ∧ s.su.nextRef ≤ 65535) ∧ step s = .next s) := ⟨by decide, rfl, by decide, rfl⟩

theorem witness_eyeTaken : hall.lt.eyeTaken = true ∧ step hall = .next hall := ⟨by decide, by rfl⟩

theorem witness_LoopValuesStayInRange : (hall.lt.Ok ∧ hall.runOk) ∧ step hall = .next hall := by
  refine ⟨⟨⟨fun h => absurd h (by decide), fun y h => ?_, by decide⟩, ?_⟩, rfl⟩
  · cases h
    exact ⟨⟨by decide, by decide, by decide, by decide, by decide, by decide⟩, by decide, by decide,
      by decide, by decide, by decide⟩
  · unfold State.runOk
    decide

theorem witness_SyncLayoutAndAddressHaveOneSource :
    exec .homeMissed hall = .next hall ∧ hall.lt.state = LoopState.synced := ⟨rfl, rfl⟩

/-- A state with every flag of the line set. -/
def flagged : State :=
  { hall with lu := { hall.lu with
      supRx := { hall.lu.supRx with errorFlag := true },
      fldRx := { hall.lu.fldRx with errorFlag := true }, overrun := true } }

theorem witness_OnlyStatusClearsLineFlags :
    exec .homeMissed flagged = .next flagged ∧ flagged.lu.supRx.errorFlag = true
      ∧ flagged.lu.fldRx.errorFlag = true ∧ flagged.lu.overrun = true ∧ (4 : Byte).toNat ≤ 4 :=
  ⟨rfl, rfl, rfl, rfl, by decide⟩

def badRun : RxRun := { bytes := [0xA5], stopBits := true }
def slipped : State := { hall with lt := { hall.lt with state := .slipped, lossPoint := 9, advances := 40 } }
def at7 (s : State) : State := { s with lt := { s.lt with pos := 7 } }

theorem witness_FaultFollowsItsConditions :
    (hall.lt.layout = some layout400 ∧ layout400.tolerance < (layout400.deviation (at7 hall).lt.pos).natAbs)
      ∧ ((hall.rx .supervisor).awaitIdle = false ∧ (hall.rx .field).awaitIdle = false ∧ badRun.bytes ≠ []
        ∧ goodRun badRun = false)
      ∧ slipped.lt.state = LoopState.slipped ∧ hall.lu.loopRun = true := by decide

theorem witness_NothingIsTakenBeforeFirstIdle :
    portOf (.status 126 [0]) = some .supervisor ∧ (State.reset.rx .supervisor).awaitIdle = true
      ∧ portOf (.liftReady 90 []) = some .field ∧ (State.reset.rx .field).awaitIdle = true := by decide

def aFrame : Frame := { dst := 126, src := 1, kind := 0x3B, payload := [] }
def crowded (n : Nat) (s : State) : State :=
  { s with lu := { s.lu with supTx := { s.lu.supTx with queue := List.replicate n aFrame } } }
def crowdedField (n : Nat) (s : State) : State :=
  { s with lu := { s.lu with fldTx := { s.lu.fldTx with queue := List.replicate n aFrame } } }

theorem witness_CommandWithoutReplyPlaceIsNotTaken :
    (Instr.restart 126 [0]).wellFormed = true ∧ commandOf (.restart 126 [0]) = some ⟨126, 0x42, [0]⟩
      ∧ ¬((0x42 : Byte) = 0x42 ∧ ([0] : List Byte) = []) ∧ (crowded 64 hall).lu.supRx.awaitIdle = false
      ∧ 64 ≤ (crowded 64 hall).lu.supTx.queue.length := by decide

theorem witness_EveryCommandTakenIsAnsweredOnce :
    ((Instr.chuteUnbind 126 [17, 0]).wellFormed = true
      ∧ commandOf (.chuteUnbind 126 [17, 0]) = some ⟨126, 0x4E, [17, 0]⟩)
      ∧ (crowded 63 hall).supReady := ⟨by decide, rfl, by decide⟩

theorem witness_WrongPayloadLengthIsBadForm :
    (commandOf (.entryPut 126 [1, 0, 20, 1]) = some ⟨126, 0x5C, [1, 0, 20, 1]⟩
      ∧ isCommandKind 0x5C = true ∧ (∀ src k p, Instr.entryPut 126 [1, 0, 20, 1] ≠ .badKind src k p)
      ∧ ([1, 0, 20, 1] : List Byte).length ≠ commandLength 0x5C [1, 0, 20, 1])
      ∧ isCommandKind 0x46 = false :=
  ⟨⟨by decide, by decide, (by intro _ _ _ h; cases h), by decide⟩, by decide⟩

theorem witness_AlignmentIsTrayAtPoint :
    0 < layout400.pitch ∧ 9599 < layout400.length ∧ 4310 < layout400.length ∧ 9600 ≤ layout400.length
      ∧ 4130 = (4310 + layout400.length - 180) % layout400.length
      ∧ layout400.aligns 7262 { kind := .arrival, coord := 4310, owner := 17 } = some 123 := by decide

/-- The hall with its points listed, at a position. -/
def listed (pos : Nat) : State :=
  let s := hall.rebuildPoints
  { s with lt := { s.lt with pos := pos } }

theorem witness_AlignmentKindsFollowLoopState :
    (after .loopRunFall hall).lt.state = LoopState.stopped ∧ slipped.lt.state = LoopState.slipped
      ∧ (let s := listed 1; ∀ pt ∈ s.lt.points, layout400.aligns s.lt.pos pt = none)
      ∧ (let s := listed 14; (∀ pt ∈ s.lt.points, pt.kind = .launchClose → layout400.aligns s.lt.pos pt = none)
        ∧ ∃ pt ∈ s.lt.points, layout400.aligns s.lt.pos pt ≠ none) := by decide +kernel

theorem witness_LoopPointsAreAllPointsInOrder : hall.lt.layout = some layout400 := rfl

theorem witness_OrdersFollowSortModeAndLoopState :
    exec (.homeRise false) hall = .next (after (.homeRise false) hall)
      ∧ slipped.lt.state ≠ LoopState.synced
      ∧ ({ hall with lt := { hall.lt with mode := .drain } } : State).lt.mode ≠ .run :=
  ⟨rfl, by decide⟩

/-- A tilt at a decision: a stray load at the MANUAL chute 40 and at the SORT chute 17; a manifest load at
chute 17, whose cart stays open, and whose group's count limit of 3 it fills. -/
theorem witness_decision_takes_a_tilt :
    (hall.lt.state = LoopState.synced ∧ hall.lt.mode ≠ .off ∧ hall.lu.fldTx.queue.length < 32)
      ∧ (hall.tray 8 = .loaded (sbag 2) ∧ Tbl.get hall.chutes 40 = some chute40 ∧ (sbag 2).target = .role .manual
        ∧ chute40.role = .manual ∧ chute40.avail = .inService
        ∧ hall.su.encode.length + hall.manualTilts < 32)
      ∧ chute17.role ≠ .manual ∧ ¬(crowdedField 32 hall).lu.fldTx.queue.length < 32
      ∧ (hall.tray 7 = .loaded (mbag 26) ∧ Tbl.get hall.chutes 17 = some chute17 ∧ (mbag 26).target = .group 3
        ∧ (mbag 26).index = some 26 ∧ chute17.role = .sort ∧ chute17.avail = .inService ∧ chute17.bound = 3
        ∧ chute17.cycle = some .filling ∧ hall.ownerOf 26 = some (1, sailing1) ∧ sailing1.state ≠ .closing
        ∧ Tbl.get hall.groups 3 = some group3 ∧ group3.slot = 1)
      ∧ (chute17.cart = some 1 ∧ Tbl.get hall.carts 1 = some cart1 ∧ Tbl.get hall.groups cart1.group = some group3
        ∧ cart1.bags.length + 1 ≤ group3.countLimit
        ∧ (cart1.bags.map BagItem.charge).sum + (mbag 26).charge ≤ group3.massLimit ∧ cart1.chute = some 17
        ∧ hall.lu.supTx.queue.length < 60)
      ∧ (let full : Group := { group3 with countLimit := 3 };
        cart1.bags.length + 1 ≤ full.countLimit ∧ cart1.bags.length + 1 = full.countLimit)
      ∧ chute18.bound ≠ 3 := by decide

theorem witness_launch_point_offers_a_launch :
    (Tbl.get hall.stations 2 = some { station2 with queue := [{ mbag 24 with laps := 0, verified := false }] }
      ∧ hall.lt.state = LoopState.synced ∧ hall.lt.mode = .run ∧ station2.ordered = none ∧ hall.tray 9 = .empty
      ∧ hall.lu.fldTx.queue.length < 32)
      ∧ hall.tray 8 ≠ .empty
      ∧ Tbl.get hall.stations 6 = some { station2 with node := 16, kind := .encode, coord := 3000 } := by decide

theorem witness_LoopRunLineMovesLoopState :
    hall.lu.loopRun = true ∧ (crowded 59 hall).lu.supTx.queue.length < 60
      ∧ 60 ≤ (crowded 60 hall).lu.supTx.queue.length ∧ (after .loopRunFall hall).lu.loopRun = false := by
  decide

theorem witness_PulsesMoveTheLoop :
    (hall.lt.layout = some layout400 ∧ hall.lu.loopRun = true ∧ hall.lt.acc + 1 < max layout400.divisor 1)
      ∧ (let s : State := { hall with lt := { hall.lt with acc := 3, absorb := 1 } };
        max layout400.divisor 1 ≤ s.lt.acc + 1 ∧ 0 < s.lt.absorb)
      ∧ hall.lt.absorb = 0 ∧ State.reset.lt.layout = none := by decide

theorem witness_HomeCorrectsOrSlipsSyncedLoop :
    (let s : State := { hall with lt := { hall.lt with pos := 6 } };
      2 * s.lt.pos ≤ layout400.length ∧ s.lt.pos ≤ layout400.tolerance)
      ∧ (let s : State := { hall with lt := { hall.lt with pos := 9594 } };
        layout400.length < 2 * s.lt.pos ∧ s.lt.pos < layout400.length
          ∧ layout400.length - s.lt.pos ≤ layout400.tolerance)
      ∧ layout400.tolerance < (layout400.deviation (at7 hall).lt.pos).natAbs
      ∧ (let s : State := { hall with lt := { hall.lt with missed := 2 } };
        s.lt.state = LoopState.synced ∧ 2 ≤ s.lt.missed)
      ∧ hall.lt.missed < 2 ∧ State.reset.lt.layout = none := by decide

/-- The advance that aligns tray 0 at HOME, after no missed home and after one. -/
theorem witness_home_point_counts_a_missed_home : ∀ missed ∈ [0, 1],
    let s : State := { listed 9599 with lt := { (listed 9599).lt with acc := 3, missed := missed } }
    s.lt.layout = some layout400 ∧ s.lu.loopRun = true ∧ s.lt.state = LoopState.synced
      ∧ max layout400.divisor 1 ≤ s.lt.acc + 1 ∧ s.lt.absorb = 0 ∧ s.lt.pos + 1 = layout400.length
      ∧ s.lt.points = { kind := .home, coord := 0, owner := 0 } :: s.lt.points.tail
      ∧ ∀ q ∈ s.lt.points.tail, q.kind ≠ .home := by decide +kernel

/-- A slipped hall with nothing in flight. -/
def calm : State := { slipped with trays := [(7, .loaded (mbag 26))] }

theorem witness_HomeSynchronisesLostLoop :
    calm.lt.layout = some layout400 ∧ calm.lt.state = LoopState.slipped
      ∧ (∀ r ∈ calm.trays, r.2.isTiltOrdered = false) ∧ (∀ r ∈ calm.stations, r.2.ordered = none)
      ∧ (∀ r ∈ calm.carts, r.2.state ≠ .closing) ∧ calm.lu.supTx.queue.length < 60 := by decide

/-- A launch of the waiting bag onto tray 9 is in flight. -/
def launching : State :=
  (hall.putStation 2 { station2 with queue := [mbag 24], ordered := some 9 }).putTray 9 .reserved

/-- The same, synchronism lost at a position: the tilt of tray 5 closes at count 4490, in the span from 1464,
the launch at 1464, out of it and in the span from 1463. -/
def lostAt (loss : Nat) : State :=
  { launching with lt := { launching.lt with state := .slipped, lossPoint := loss, advances := 40 } }

theorem launching_tables : launching.TablesOk :=
  ⟨hall_tables.sailings, hall_tables.manifest, hall_tables.groups, ⟨by decide, by decide⟩,
    ⟨by decide, by decide⟩, hall_tables.chutes, hall_tables.carts, hall_tables.strays⟩

theorem lostAt_tables (loss : Nat) : (lostAt loss).TablesOk :=
  ⟨launching_tables.sailings, launching_tables.manifest, launching_tables.groups, launching_tables.stations,
    launching_tables.trays, launching_tables.chutes, launching_tables.carts, launching_tables.strays⟩

theorem witness_ResynchronisationJudgesSpan :
    (lostAt 1464).TablesOk ∧ (lostAt 1464).lt.layout = some layout400
      ∧ (lostAt 1464).lt.state = LoopState.slipped
      ∧ ((lostAt 1464).tray 5 = .tiltOrdered (mbag 20) 17 (some 1)
        ∧ Tbl.get (lostAt 1464).chutes 17 = some chute17
        ∧ (∀ r ∈ (lostAt 1464).stations, r.2.ordered ≠ some 5)
        ∧ (chute17.coord + chute17.window + 5 * layout400.pitch) % layout400.length = 4490
        ∧ (mbag 20).index = some 20 ∧ (lostAt 1464).cartHolds 1 20 .ordered = true
        ∧ (∀ k' l', k' ≠ 5 → ((lostAt 1464).tray k').load? = some l' → l'.index ≠ some 20)
        ∧ (∀ r ∈ (lostAt 1464).stations, ∀ b ∈ r.2.queue, b.index ≠ some 20))
      ∧ Tbl.get (lostAt 1464).stations 2 = some { station2 with queue := [mbag 24], ordered := some 9 }
      ∧ (station2.coord + station2.window + 9 * layout400.pitch) % layout400.length = 1464
      ∧ (∀ r ∈ (lostAt 1464).stations, r.1 ≠ 2 → r.2.ordered ≠ some 9)
      ∧ ((lostAt 1463).TablesOk ∧ (lostAt 1463).lt.state = LoopState.slipped
        ∧ Tbl.get (lostAt 1463).stations 2 = some { station2 with queue := [mbag 24], ordered := some 9 }) := by
  refine ⟨lostAt_tables _, rfl, rfl, ⟨rfl, rfl, by decide, by decide, rfl, by decide, ?_, by decide⟩, rfl,
    by decide, by decide, lostAt_tables _, rfl, rfl⟩
  intro k l hk hl
  have others : ∀ r ∈ (lostAt 1464).trays, r.1 ≠ 5 → ∀ x ∈ r.2.load?, x.index ≠ some 20 := by decide
  exact others _ (tray_mem hl) hk l hl

/-- Ref 3 with a plain record, for a table of any number of records. -/
def fullTable (s : State) : State :=
  { s with su := { s.su with strays := (List.range 192).map (fun i => (i + 1, stray2)) } }

theorem witness_EyeReadsEmptyAndLostTrays :
    (hall.lt.state ≠ LoopState.stopped ∧ hall.tray 9 = .empty ∧ (hall.putTray 9 .reserved).tray 9 = .reserved)
      ∧ hall.su.strays.length < 192 ∧ 192 ≤ (fullTable hall).su.strays.length
      ∧ (hall.tray 8 = .loaded (sbag 2) ∧ (sbag 2).ref = some 2 ∧ Tbl.get hall.su.strays 2 = some stray2)
      ∧ hall.tray 7 = .loaded (mbag 26) ∧ (mbag 26).ref = none ∧ (mbag 26).index = some 26 := by
  decide +kernel

/-- A hall with tray 6 in doubt, at a cart or at a chute of a handling role. -/
def doubtful (l : Load) (chute : Nat) (cart : Option Nat) : State := hall.putTray 6 (.dropDoubt l chute cart)

/-- The linked stray of entry 25, keyed and sent on to group 3. -/
def linkedBag : Load := { mbag 25 with ref := some 1 }

theorem witness_eye_settles_doubt :
    (hall.tray 5 = .tiltOrdered (mbag 20) 17 (some 1) ∧ hall.lt.state ≠ LoopState.stopped)
      ∧ ((doubtful (sbag 2) 40 none).tray 6 = .dropDoubt (sbag 2) 40 none
        ∧ Tbl.get hall.su.strays 2 = some stray2 ∧ Tbl.get hall.chutes 40 = some chute40 ∧ chute40.role = .manual
        ∧ stray2.loc ≠ .atEncode ∧ hall.lu.supTx.queue.length < 58)
      ∧ (doubtful { sbag 2 with ref := none } 40 none).tray 6 = .dropDoubt { sbag 2 with ref := none } 40 none
      ∧ (∀ l ∈ [mbag 20, linkedBag], (doubtful l 17 (some 1)).tray 6 = .dropDoubt l 17 (some 1)
        ∧ l.index.isSome ∧ l.target = .group 3)
      ∧ (doubtful (mbag 20) 17 (some 1)).cartHolds 1 20 .doubt = false
      ∧ ((doubtful (mbag 20) 17 (some 1)).putCart 1 { cart1 with bags := [⟨20, 200, .doubt⟩] }).cartHolds 1 20 .doubt
        = true := by
  decide

theorem witness_EyeCountsLapsAndConfirmsLaunches :
    (hall.tray 8 = .loaded (sbag 2) ∧ (sbag 2).isManifest = false ∧ (sbag 2).verified = true
      ∧ (sbag 2).rideSent = false ∧ (sbag 2).laps < 15
      ∧ (sbag 2).laps + 1 = hall.cu.settings.strayLapLimit ∧ hall.lu.supTx.queue.length < 60)
      ∧ (let l := { sbag 2 with rideSent := true };
        l.isManifest = false ∧ l.verified = true ∧ l.rideSent = true
          ∧ l.laps + 1 = hall.cu.settings.strayLapLimit)
      ∧ (let l := { sbag 2 with laps := 15 };
        min (l.laps + 1) 15 ≠ hall.cu.settings.strayLapLimit ∨ 15 ≤ l.laps)
      ∧ (hall.tray 7 = .loaded (mbag 26) ∧ (mbag 26).isManifest = true ∧ (mbag 26).index = some 26
        ∧ hall.ownerOf 26 = some (1, sailing1) ∧ (hall.entry 26).hold = 0
        ∧ sailing1.cover (hall.entry 26).cabin = some 3 ∧ (mbag 26).verified = true
        ∧ min ((mbag 26).laps + 1) 15 ≤ sailing1.lapLimit) := by decide

/-- The manifest load of tray 7 at the eye: held, uncovered, or at its fourth lap of three. -/
theorem witness_eye_makes_a_stray :
    (let s := hall.putEntry 26 { issued (.inFlight 7) with hold := 31 };
      s.tray 7 = .loaded (mbag 26) ∧ s.ownerOf 26 = some (1, sailing1) ∧ (s.entry 26).hold ≠ 0
        ∧ s.holdClass (s.entry 26).hold = 12)
      ∧ (let s := hall.putEntry 26 { issued (.inFlight 7) with cabin := 201 };
        s.ownerOf 26 = some (1, sailing1) ∧ (s.entry 26).hold = 0
          ∧ sailing1.cover (s.entry 26).cabin = none)
      ∧ (let l := { mbag 26 with laps := 3 }; let s := hall.putTray 7 (.loaded l);
        s.tray 7 = .loaded l ∧ l.isManifest = true ∧ s.ownerOf 26 = some (1, sailing1)
          ∧ (sailing1.cover (s.entry 26).cabin).isSome = true ∧ l.verified = true
          ∧ sailing1.lapLimit < min (l.laps + 1) 15)
      ∧ hall.su.strays.length < 192 ∧ 192 ≤ (fullTable hall).su.strays.length := by decide +kernel

/-- The eye at tray 8, its alignment not yet taken. -/
def eyeAt8 : State :=
  { hall with lt := { hall.lt with pos := 9192, eyeTaken := false }, lu := { hall.lu with occ := true } }

theorem witness_LapAndRidingRowsComplete :
    (let l := { mbag 26 with laps := 4 };
      (hall.putTray 7 (.loaded l)).tray 7 = .loaded l ∧ l.isManifest = true ∧ l.index = some 26
        ∧ (hall.putTray 7 (.loaded l)).ownerOf 26 = some (1, sailing1) ∧ sailing1.lapLimit < l.laps
        ∧ hall.su.strays.length < 192)
      ∧ (mbag 26).laps ≤ sailing1.lapLimit
      ∧ (eyeAt8.lu.occ = true ∧ eyeAt8.lt.state ≠ LoopState.stopped
        ∧ layout400.aligns eyeAt8.lt.pos { kind := .occupancy, coord := layout400.eye, owner := 0 } = some 8
        ∧ eyeAt8.tray 8 = .loaded (sbag 2) ∧ eyeAt8.lt.eyeTaken = false ∧ (sbag 2).rideSent = false
        ∧ (sbag 2).laps + 1 = eyeAt8.cu.settings.strayLapLimit)
      ∧ hall.lu.occ = false := by decide

/-- States in which LAP_LIMIT and STRAY_RIDING change nothing: a stray load, a manifest load within its limit;
OCC low, an alignment already taken, a load not verified, a manifest load, a load reported before, a count that
stands at 15 at the eye. -/
theorem witness_lap_rows_that_change_nothing :
    (∀ m slot l v, hall.tray 8 = .loaded l → l.isManifest = true → l.index = some m →
      hall.ownerOf m = some (slot, v) → l.laps ≤ v.lapLimit)
    ∧ (hall.tray 7 = .loaded (mbag 26) ∧ (mbag 26).isManifest = true ∧ hall.ownerOf 26 = some (1, sailing1)
      ∧ (mbag 26).laps ≤ sailing1.lapLimit)
    ∧ (hall.lu.occ = false ∧ hall.tray 5 = .tiltOrdered (mbag 20) 17 (some 1))
    ∧ eyeAt8.eyeDone.lt.eyeTaken ≠ false ∧ ({ sbag 2 with rideSent := true } : Load).rideSent ≠ false
    ∧ ({ sbag 2 with verified := false } : Load).verified = false ∧ (mbag 26).isManifest = true
    ∧ ¬({ sbag 2 with laps := 15 } : Load).laps < 15 := by
  refine ⟨fun m slot l v hl hm => ?_, by decide⟩
  have e : hall.tray 8 = .loaded (sbag 2) := by decide
  rw [e] at hl
  cases hl
  exact absurd hm (by decide)

/-- R85: one report for the load, and its pass at a count taken once. -/
theorem test_riding_is_reported_once :
    (after (.strayRiding 8) eyeAt8).lu.supTx.queue.length = 1
    ∧ (after (.strayRiding 8) eyeAt8).tray 8 = .loaded { sbag 2 with laps := 5, rideSent := true }
    ∧ after (.strayRiding 8) (after (.strayRiding 8) eyeAt8) = after (.strayRiding 8) eyeAt8 := by
  decide +kernel

def closingAt (n k : Nat) : State := { hall with lt := { hall.lt with pos := (n + 24 * k) % 9600 } }

theorem witness_WindowCloseEntersDoubt :
    (hall.lt.layout = some layout400 ∧ Tbl.get hall.chutes 17 = some chute17
      ∧ hall.lt.state ≠ LoopState.stopped)
      ∧ layout400.aligns hall.lt.pos
          { kind := .windowClose, coord := (chute17.coord + chute17.window) % layout400.length, owner := 17 }
        ≠ some 5
      ∧ layout400.aligns (closingAt 4370 5).lt.pos
          { kind := .windowClose, coord := (chute17.coord + chute17.window) % layout400.length, owner := 17 }
        = some 5
      ∧ ((closingAt 4370 5).tray 5 = .tiltOrdered (mbag 20) 17 (some 1) ∧ (mbag 20).index = some 20
        ∧ (mbag 20).isManifest = true ∧ Tbl.get hall.carts 1 = some cart1 ∧ cart1.state = .filling)
      ∧ (hall.putTray 6 (.tiltOrdered (sbag 2) 40 none)).tray 6 = .tiltOrdered (sbag 2) 40 none := by decide

/-- The last order of a CLOSING cart, and an order of a stray load with a group target. -/
theorem witness_window_close_of_a_closing_cart :
    (let cart : Cart := { cart1 with state := .closing, bags := [⟨20, 200, .ordered⟩] };
      let s := (closingAt 4370 5).putCart 1 cart
      s.tray 5 = .tiltOrdered (mbag 20) 17 (some 1) ∧ Tbl.get s.carts 1 = some cart ∧ cart.state = .closing
        ∧ (remark 20 .ordered .doubt cart.bags).filter (fun b => decide (b.mark = .ordered)) = []
        ∧ cart.chute = some 17)
      ∧ (let s := (closingAt 4370 6).putTray 6 (.tiltOrdered linkedBag 17 (some 1));
        s.tray 6 = .tiltOrdered linkedBag 17 (some 1) ∧ linkedBag.index = some 25 ∧ linkedBag.isManifest = false
          ∧ layout400.aligns s.lt.pos
              { kind := .windowClose, coord := (chute17.coord + chute17.window) % layout400.length, owner := 17 }
            = some 6) := by decide

theorem witness_LaunchEndsByAnswerOrClose :
    (launching.panelOut 12 = false ∧ launching.lu.fldRx.awaitIdle = false
      ∧ launching.stationOfNode 12 = some (2, { station2 with queue := [mbag 24], ordered := some 9 })
      ∧ Tbl.get launching.stations 2 = some { station2 with queue := [mbag 24], ordered := some 9 })
      ∧ u16 0 9 = 9 ∧ u16 0 8 ≠ 9 ∧ (mbag 24).isManifest = true
      ∧ (sbag 2).ref = some 2 ∧ Tbl.get launching.su.strays 2 = some stray2
      ∧ layout400.aligns ((1248 + 24 * 9) % 9600)
          { kind := .launchClose, coord := (station2.coord + station2.window) % layout400.length, owner := 2 }
        = some 9 := by decide

theorem witness_StatusAnswersPageAndClearsFlags :
    (crowded 63 flagged).supReady ∧ (1 ≤ (4 : Byte).toNat ∧ (4 : Byte).toNat ≤ 4 ∧ 4 < (5 : Byte).toNat) :=
  ⟨⟨rfl, by decide⟩, by decide⟩

theorem witness_PartCommandsTakeTheirValues :
    hall.supReady ∧ hall.lt.layout = some layout400 ∧ State.reset.lt.layout = none ∧ 3 ≤ (3 : Byte).toNat :=
  ⟨hall_ready, rfl, rfl, by decide⟩

theorem witness_RestartClearsMotion : hall.lu.supRx.awaitIdle = false := rfl

/-- Tray 6 in doubt at cart 1 with the linked stray of entry 25. -/
def strayInDoubt : State :=
  (doubtful linkedBag 17 (some 1)).putCart 1 { cart1 with state := .closing, bags := [⟨25, 200, .doubt⟩] }

theorem strayInDoubt_only {k : Nat} {l : Load} {c id : Nat}
    (h : strayInDoubt.tray k = .dropDoubt l c (some id)) : k = 6 ∧ l = linkedBag := by
  have only : ∀ r ∈ strayInDoubt.trays, r.2.isDropDoubt = true → r = (6, .dropDoubt linkedBag 17 (some 1)) := by
    decide
  have hm : (k, strayInDoubt.tray k) ∈ strayInDoubt.trays := tray_mem (l := l) (by rw [h]; rfl)
  have e := only _ hm (by rw [h]; rfl)
  rw [h] at e
  cases e
  exact ⟨rfl, rfl⟩

theorem witness_RestartKeepsBagsInTheirPlaces :
    strayInDoubt.TablesOk ∧ strayInDoubt.lu.supRx.awaitIdle = false
      ∧ (∀ k l c id, strayInDoubt.tray k = .dropDoubt l c (some id) → l.ref ≠ none → l.index ≠ some 20)
      ∧ (∀ k l c id, strayInDoubt.tray k = .dropDoubt l c (some id) → l.ref ≠ some 2)
      ∧ (strayInDoubt.tray 6 = .dropDoubt linkedBag 17 (some 1) ∧ linkedBag.ref = some 1
        ∧ linkedBag.index = some 25 ∧ linkedBag.target = .group 3 ∧ strayInDoubt.cartHolds 1 25 .doubt = true
        ∧ (doubtful linkedBag 17 (some 1)).cartHolds 1 25 .doubt = false)
      ∧ (∀ k l c id, k ≠ 6 → strayInDoubt.tray k = .dropDoubt l c (some id) → l.index ≠ some 25)
      ∧ (Tbl.get strayInDoubt.carts 1 = some { cart1 with state := .closing, bags := [⟨25, 200, .doubt⟩] }
        ∧ cart1.chute = some 17 ∧ Tbl.get strayInDoubt.chutes 17 = some chute17) := by
  refine ⟨⟨hall_tables.sailings, hall_tables.manifest, hall_tables.groups, hall_tables.stations,
    ⟨by decide, by decide⟩, hall_tables.chutes, by decide, hall_tables.strays⟩, rfl, ?_, ?_, by decide, ?_,
    by decide⟩
  · intro k l c id h
    rw [(strayInDoubt_only h).2]
    decide
  · intro k l c id h
    rw [(strayInDoubt_only h).2]
    decide
  · intro k l c id hk h
    exact absurd (strayInDoubt_only h).1 hk

theorem witness_LayoutSetReplacesTheLayout :
    Layout.length layout400 = 9600
      ∧ (let s : State := { hall with trays := [], lt := { hall.lt with mode := .off } };
        s.supRoom 1 ∧ 16 ≤ u16 1 144 ∧ u16 1 144 ≤ 1024 ∧ 8 ≤ (24 : Byte).toNat
          ∧ u16 1 144 * (24 : Byte).toNat ≤ 65535 ∧ (s.lt.mode = .off ∧ s.trays = [])
          ∧ u16 37 127 < u16 1 144 * (24 : Byte).toNat
          ∧ (∀ r ∈ s.stations, r.2.coord < u16 1 144 * (24 : Byte).toNat)
          ∧ (∀ r ∈ s.chutes, r.2.coord < u16 1 144 * (24 : Byte).toNat)) :=
  ⟨rfl, ⟨rfl, by decide⟩, by decide⟩

def fields3 : StationFields :=
  { node := 13, kind := .normal, coord := 9599, lead := 65535, window := 0, cell1 := evenCell,
    cell2 := evenCell, cell3 := evenCell, cell4 := evenCell }

theorem witness_StationSetTakesItsFields :
    hall.supReady ∧ fields3.node.toNat ≤ 125 ∧ fields3.node ≠ hall.lu.node ∧ fields3.coord < 65536
      ∧ fields3.lead < 65536 ∧ fields3.cell1.gain ≤ 4095 ∧ hall.lt.layout = some layout400
      ∧ fields3.coord < layout400.length
      ∧ (∀ r ∈ hall.stations, r.1 ≠ 3 → r.2.node ≠ fields3.node
        ∧ (fields3.kind = .encode → r.2.kind ≠ .encode))
      ∧ (∀ r ∈ hall.chutes, r.2.node ≠ fields3.node) ∧ Tbl.get hall.stations 3 = none :=
  ⟨hall_ready, by decide⟩

def fields18 : ChuteFields :=
  { node := 58, role := .hold, coord := 9599, lead := 65535, window := 0, side := .right, inverted := true }

theorem witness_ChuteSetAndServiceTakeTheirFields :
    hall.supRoom 1 ∧ fields18.node.toNat ≤ 125 ∧ fields18.node ≠ hall.lu.node
      ∧ hall.lt.layout = some layout400 ∧ fields18.coord < layout400.length
      ∧ (∀ r ∈ hall.stations, r.2.node ≠ fields18.node)
      ∧ (∀ r ∈ hall.chutes, r.1 ≠ 18 → r.2.node ≠ fields18.node)
      ∧ Tbl.get hall.chutes 18 = some chute18 ∧ chute18.bound = 0
      ∧ (∀ r ∈ hall.trays, r.2.chute? ≠ some 18) ∧ chute18.cycle ≠ none ∧ Tbl.get hall.chutes 48 = none
      ∧ chute18.avail = .inService
      ∧ ({ chute18 with avail := .outOfService } : Chute).avail ≠ .inService :=
  ⟨⟨rfl, by decide⟩, by decide⟩

theorem witness_ChuteBindFollowsCartCycle :
    hall.supRoom 2 ∧ Tbl.get hall.groups 5 = some group5 ∧ Tbl.get hall.chutes 17 = some chute17
      ∧ chute17.role = .sort ∧ chute17.bound = 3
      ∧ (Tbl.get hall.carts 1 = some cart1 ∧ cart1.marked .ordered ≠ 0)
      ∧ (∀ v, Tbl.get hall.sailings group5.slot = some v → v.state ≠ .closing)
      ∧ (hall.chutes.filter (fun r => r.2.bound == 5)).length < 4
      ∧ chute18.cycle = some .noCart ∧ chute19.cycle = some .swapping
      ∧ (Tbl.get hall.chutes 20 = some chute20 ∧ chute20.cart = some 4 ∧ Tbl.get hall.carts 4 = some cart4
        ∧ cart4.bags = [] ∧ cart4.marked .ordered = 0)
      ∧ ({ cart4 with bags := [⟨21, 150, .dropped⟩] } : Cart).marked .ordered = 0 := by
  refine ⟨hall_room, rfl, rfl, rfl, rfl, ⟨rfl, by decide⟩, ?_, by decide⟩
  intro v h
  cases h
  decide

theorem witness_ChuteUnbindFreesTheChute :
    hall.supRoom 2 ∧ Tbl.get hall.chutes 48 = none ∧ chute40.role ≠ .sort ∧ chute18.bound = 0
      ∧ (chute19.bound ≠ 0 ∧ chute19.cycle = some .swapping ∧ chute19.cart = none)
      ∧ (chute20.bound ≠ 0 ∧ chute20.cycle = some .filling ∧ chute20.cart = some 4
        ∧ Tbl.get hall.carts 4 = some cart4 ∧ cart4.marked .ordered = 0 ∧ cart4.bags = []) :=
  ⟨hall_room, by decide⟩

theorem witness_GroupCommandsMakeAndRemoveGroups :
    hall.supReady ∧ groupInRange 127 4 20 8 60 9999 = true ∧ groupInRange 1 1 1 1 1 100 = true
      ∧ Tbl.get hall.sailings 4 = none ∧ Tbl.get hall.sailings 1 = some sailing1 ∧ sailing1.state ≠ .closing
      ∧ Tbl.get hall.groups 127 = none
      ∧ (Tbl.get hall.groups 5 = some group5 ∧ group5.slot = 1
        ∧ (∀ r ∈ hall.carts, r.2.group = 5 → r.2.bags = []) ∧ (∀ r ∈ hall.chutes, r.2.bound ≠ 5)
        ∧ (∀ r ∈ hall.carts, r.2.group ≠ 5) ∧ (∀ b ∈ sailing1.live, b.group ≠ 5)
        ∧ (∀ x ∈ sailing1.steps, x.group ≠ 5) ∧ hall.longRuns .planCommit 1 = false
        ∧ (∀ r ∈ hall.stations, ∀ l ∈ r.2.queue, l.target ≠ .group 5)) :=
  ⟨hall_ready, by decide⟩

def runningOp (k : LongKind) (steps : Nat) : State :=
  { hall with cu := { hall.cu with
      longOp := some { kind := k, slot := 1, steps := steps,
                       tallies := { aboard := 0, inCart := 0, ashore := 0, withdrawn := 0 } } } }

/-- A group in use each way; and a deleted group's bag riding, its entry covered, held, or a stray's. -/
theorem witness_group_delete_is_refused_or_resolves :
    ((∃ r ∈ hall.chutes, r.2.bound = 3) ∧ (∃ r ∈ hall.carts, r.2.group = 3)
      ∧ (∃ b ∈ sailing1.live, b.group = 3) ∧ (∃ x ∈ sailing1.steps, x.group = 3))
      ∧ (let s := (runningOp .planCommit 0).putSailing 1 { sailing1 with staged := [{ block3 with group := 5 }] };
        ∃ r ∈ s.sailings, s.longRuns .planCommit r.1 = true ∧ ∃ b ∈ r.2.staged, b.group = 5)
      ∧ (∀ l ∈ [mbag 26, { linkedBag with laps := 0 }],
        let l : Load := { l with target := .group 5 };
        let s := hall.putTray 7 (.loaded l);
        let held := s.stations.flatMap (fun r => r.2.queue) ++ s.trays.filterMap (fun r => r.2.load?);
        (∀ x ∈ held, ∀ ref, x.ref = some ref → (Tbl.get s.su.strays ref).isSome = true
          ∧ (held.filter (fun x' => x'.ref == some ref)).length = 1)
          ∧ l.index.isSome ∧ (held.filter (fun x => x.index == l.index)).length = 1
          ∧ s.tray 7 = .loaded l ∧ ∀ m, l.index = some m → s.ownerOf m = some (1, sailing1))
      ∧ ((hall.entry 26).hold = 0 ∧ sailing1.cover (hall.entry 26).cabin = some 3)
      ∧ (issued .notSeen).hold = 0 ∧ sailing1.cover 201 = none ∧ linkedBag.ref = some 1
      ∧ Tbl.get hall.su.strays 1 = some stray1 := by decide

theorem witness_SailingsAreDefinedOpenedAndFinal :
    (hall.supReady ∧ hall.TablesOk)
      ∧ (Tbl.get hall.sailings 4 = none ∧ (255 : Byte) ≠ 0 ∧ 1 ≤ u16 0 1 ∧ u16 255 255 + u16 0 1 ≤ 65536
        ∧ (125 : Byte).toNat ≤ 125 ∧ (∀ r ∈ hall.sailings, r.2.key ≠ (255 : Byte).toNat
          ∧ (u16 255 255 + u16 0 1 ≤ r.2.base ∨ r.2.base + r.2.length ≤ u16 255 255)))
      ∧ (let v := { sailing1 with state := .staged };
        v.state = .staged ∧ v.ready = true ∧ v.committed = true)
      ∧ (sailing1.state = .opened ∧ Tbl.get hall.carts 1 = some cart1 ∧ Tbl.get hall.groups 3 = some group3
        ∧ group3.slot = 1 ∧ cart1.state = .filling ∧ cart1.bags ≠ [])
      ∧ (let s : State := { hall with carts := [(2, cart2), (4, cart4)] };
        ∀ r ∈ s.carts, r.2.state ≠ .filling ∨ r.2.bags = []) :=
  ⟨⟨hall_ready, hall_tables⟩, by decide⟩

theorem witness_LongCommandsStartTheirOperation :
    (runningOp .planCommit 1).supRoom 1 ∧ Tbl.get hall.sailings 4 = none
      ∧ Tbl.get hall.sailings 1 = some sailing1 ∧ sailing1.state ≠ .staged ∧ sailing1.state = .opened
      ∧ ({ sailing1 with state := .staged } : Sailing).state = .staged
      ∧ ({ sailing1 with state := .closing } : Sailing).state = .closing :=
  ⟨⟨rfl, by decide⟩, by decide⟩

theorem witness_BlockPutKeepsPlanOrder :
    hall.supReady ∧ Tbl.get hall.sailings 1 = some sailing1 ∧ sailing1.state ≠ .closing
      ∧ hall.longRuns .planCommit 1 = false ∧ (runningOp .planCommit 0).longRuns .planCommit 1 = true
      ∧ (∃ b ∈ sailing1.staged, b.first = u16 0 1 ∧ b.last = u16 0 200)
      ∧ ((∀ b ∈ sailing1.staged, b.first ≠ u16 0 200 ∨ b.last ≠ u16 0 201)
        ∧ ∃ b ∈ sailing1.staged, b.first ≤ u16 0 201 ∧ u16 0 200 ≤ b.last)
      ∧ ((∀ b ∈ sailing1.staged, u16 0 201 < b.first ∨ b.last < u16 0 201)
        ∧ sailing1.staged.length < 64 ∧ (∀ b ∈ sailing1.staged, b.first ≤ b.last)
        ∧ sailing1.staged.Pairwise (fun a b => a.last < b.first)) :=
  ⟨hall_ready, by decide⟩

theorem witness_BlockDeleteUncoversStagedCabins :
    hall.supReady ∧ Tbl.get hall.sailings 4 = none ∧ Tbl.get hall.sailings 1 = some sailing1
      ∧ sailing1.state ≠ .closing ∧ hall.longRuns .planCommit 1 = false
      ∧ (∀ b ∈ sailing1.staged, b.first ≠ u16 0 2)
      ∧ (sailing1.staged = [] ++ block3 :: [] ∧ block3.first = u16 0 1 ∧ block3.first ≤ block3.last
        ∧ sailing1.staged.Pairwise (fun a b => a.first ≤ a.last ∧ a.last < b.first)) :=
  ⟨hall_ready, by decide⟩

theorem witness_EntryPutIssuesAllOrNothing :
    hall.supReady ∧ Tbl.get hall.sailings 1 = some sailing1
      ∧ (let es : List NewEntry := [⟨15, 65535, 31⟩, ⟨1, 1, 0⟩];
        1 ≤ es.length ∧ es.length ≤ 8 ∧ (∀ e ∈ es, 1 ≤ e.issue ∧ e.issue ≤ 15 ∧ 1 ≤ e.cabin ∧ e.cabin ≤ 65535
          ∧ (e.hold = 0 ∨ e.hold = 1 ∨ (16 ≤ e.hold ∧ e.hold ≤ 31)))
        ∧ 48 + es.length ≤ sailing1.length ∧ sailing1.length ≤ 65535
        ∧ (∀ i, i < es.length → (hall.entry (sailing1.base + 48 + i)).issue = 0)
        ∧ ∃ i, i < es.length ∧ (hall.entry (sailing1.base + 19 + i)).issue ≠ 0)
      ∧ sailing1.state ≠ .closing ∧ hall.longRuns .regionInit 1 = false ∧ sailing1.ready = true := by
  refine ⟨hall_ready, rfl, ⟨by decide, by decide, by decide, by decide, by decide, by decide, 1, by decide⟩,
    by decide⟩

/-- The shared premises of an edit of the hall's first sailing. -/
theorem witness_edit (s : State) (h : s = hall ∨ s = fullTable hall) :
    s.supRoom 2 ∧ Tbl.get s.sailings 1 = some sailing1 ∧ s.longRuns .regionInit 1 = false
      ∧ sailing1.state ≠ .closing ∧ sailing1.ready = true := by
  obtain rfl | rfl := h <;> exact ⟨⟨rfl, by decide⟩, rfl, rfl, by decide, rfl⟩

theorem witness_EditsWriteTheEntryAndResolveTheBag :
    (hall.supRoom 2 ∧ u16 0 49 < sailing1.length)
      ∧ ((hall.entry 23).state = .notSeen ∧ (hall.entry 23).issue ≠ 0 ∧ (hall.entry 23).issue ≠ 15)
      ∧ (hall.entry 27).state = .withdrawn
      ∧ ((hall.entry 20).state = .inFlight 5 ∧ (hall.tray 5).isTiltOrdered = true)
      ∧ ((hall.entry 24).state = .pending 2
        ∧ sailing1.cover ({ hall.entry 24 with cabin := u16 0 200 } : Entry).cabin = some 3)
      ∧ ((hall.entry 26).state = .inFlight 7 ∧ (hall.tray 7).isTiltOrdered = false
        ∧ sailing1.cover ({ hall.entry 26 with cabin := u16 0 201 } : Entry).cabin = none)
      ∧ (16 ≤ (31 : Byte).toNat ∧ (31 : Byte).toNat ≤ 31)
      ∧ hall.su.strays.length < 192 ∧ 192 ≤ (fullTable hall).su.strays.length :=
  ⟨⟨hall_room, by decide +kernel⟩, by decide +kernel⟩

theorem witness_WithdrawStrikesTheEntry :
    (hall.supRoom 2 ∧ u16 0 49 < sailing1.length)
      ∧ ((hall.entry 21).state = .inCart 1 ∧ (hall.entry 21).issue ≠ 0)
      ∧ (hall.entry 27).state = .withdrawn ∧ (hall.entry 23).state = .notSeen
      ∧ (hall.entry 24).state = .pending 2
      ∧ ((hall.entry 26).state = .inFlight 7 ∧ (hall.tray 7).isTiltOrdered = false)
      ∧ ((hall.entry 25).state = .stray 1 ∧ hall.strayTilting 25 1 = false)
      ∧ (hall.putTray 6 (.dropDoubt { sbag 1 with index := some 25 } 40 none)).strayTilting 25 1 = true
      ∧ hall.su.strays.length < 192 ∧ 192 ≤ (fullTable hall).su.strays.length :=
  ⟨⟨hall_room, by decide +kernel⟩, by decide +kernel⟩

theorem witness_StrayCommandsSetClassesAndCloseRecords :
    (hall.supRoom 1 ∧ CloseReason.ofByte 1 = some .withdrawn)
      ∧ u16 0 0 = 0 ∧ (u16 0 9 ≠ 0 ∧ Tbl.get hall.su.strays 9 = none)
      ∧ (Tbl.get hall.su.strays 2 = some stray2 ∧ hall.refHeld 2 = true)
      ∧ (Tbl.get hall.su.strays 1 = some stray1 ∧ hall.refHeld 1 = false ∧ stray1.linked = true
        ∧ stray1.index = some 25 ∧ stray1.slot = some 1 ∧ sailing1.state ≠ .closing)
      ∧ (stray2.linked = false
        ∧ ({ hall with trays := [] } : State).refHeld 2 = false)
      ∧ hall.su.strays.length < 192 ∧ 1 ≤ hall.su.nextRef ∧ hall.su.nextRef ≤ 65535 :=
  ⟨⟨⟨rfl, by decide⟩, rfl⟩, by decide⟩

theorem witness_ReadsAnswerTheRecordAndChangeNothing :
    (hall.supReady ∧ hall.TablesOk)
      ∧ (isRead (.queueRead 126 []) = true ∧ commandOf (.queueRead 126 []) = some ⟨126, 0x67, []⟩)
      ∧ (Tbl.get hall.sailings 1 = some sailing1 ∧ u16 0 49 < sailing1.length)
      ∧ (Tbl.get hall.su.strays 2 = some stray2 ∧ u16 0 1 < 2)
      ∧ (hall.lt.layout = some layout400 ∧ u16 1 143 < layout400.trays ∧ layout400.trays ≤ u16 1 144)
      ∧ State.reset.lt.layout = none :=
  ⟨⟨hall_ready, hall_tables⟩, by decide⟩

/-- The third read clause: between refs 1 and 2 there is no record; above ref 2 there is none. -/
theorem witness_reads_gap : (∀ ref', u16 0 1 < ref' → ref' < 2 → Tbl.get hall.su.strays ref' = none)
    ∧ ∀ ref, u16 0 2 < ref → Tbl.get hall.su.strays ref = none := by
  have h1 : u16 0 1 = 1 := by decide
  have h2 : u16 0 2 = 2 := by decide
  refine ⟨fun r h1' h2' => by omega, fun r h => ?_⟩
  have : hall.su.strays = [(1, stray1), (2, stray2)] := rfl
  rw [this]
  simp only [Tbl.get]
  split
  · omega
  · split
    · omega
    · rfl

theorem witness_CartCloseForcesAFillingCart :
    hall.supRoom 2 ∧ Tbl.get hall.carts 255 = none ∧ (Tbl.get hall.carts 2 = some cart2 ∧ cart2.state = .closed)
      ∧ (Tbl.get hall.carts 4 = some cart4 ∧ cart4.state = .filling ∧ cart4.bags = [])
      ∧ (Tbl.get hall.carts 1 = some cart1 ∧ cart1.state = .filling ∧ cart1.bags ≠ [] ∧ cart1.chute = some 17
        ∧ Tbl.get hall.chutes 17 = some chute17 ∧ cart1.marked .ordered ≠ 0)
      ∧ ({ cart4 with bags := [⟨21, 150, .doubt⟩] } : Cart).marked .ordered = 0 :=
  ⟨hall_room, by decide⟩

theorem witness_StepAndSequencerCommands :
    hall.supReady ∧ Tbl.get hall.sailings 1 = some sailing1
      ∧ (sailing1.steps.length + 1 < (32 : Byte).toNat ∧ (2 : Byte).toNat ≤ sailing1.steps.length + 1)
      ∧ sailing1.state ≠ .closing ∧ Tbl.get hall.groups 127 = none
      ∧ (Tbl.get hall.groups 3 = some group3 ∧ group3.slot = (1 : Byte).toNat)
      ∧ ((sailing1.seq.mode = .locked ∨ sailing1.seq.mode = .free) ∧ (1 : Byte).toNat ≤ sailing1.seq.current)
      ∧ ¬(sailing1.state = .closing
        ∨ ((sailing1.seq.mode = .locked ∨ sailing1.seq.mode = .free) ∧ (2 : Byte).toNat ≤ sailing1.seq.current))
      ∧ ¬(sailing1.state = .staged ∨ sailing1.state = .closing ∨ sailing1.steps.length < 1)
      ∧ sailing1.steps.length < (32 : Byte).toNat
      ∧ ({ sailing1.seq with mode := .off } : Sequencer).mode ≠ .locked ∧ (1 : Byte).toNat ≤ sailing1.steps.length :=
  ⟨hall_ready, by decide⟩

theorem witness_WeighingRoundsTheCalibratedSum :
    (65535 ≤ 65535 ∧ station2.cell1.gain ≤ 4095 ∧ station2.cell2.gain ≤ 4095 ∧ station2.cell3.gain ≤ 4095
      ∧ station2.cell4.gain ≤ 4095) ∧ 65534 ≠ 65535
      ∧ (let c : Cell := { tare := 7, gain := 0 };
        ({ station2 with cell4 := c } : Station).cell4.gain = 0 ∧ ({ station2 with cell1 := c } : Station).cell1.gain = 0
          ∧ ({ station2 with cell2 := c } : Station).cell2.gain = 0
          ∧ ({ station2 with cell3 := c } : Station).cell3.gain = 0)
      ∧ hall.cu.settings.upperMass ≤ 1000 := by decide

def reportA : List Byte :=
  b2 12000 ++ b2 11800 ++ b2 12300 ++ b2 11950 ++ [1] ++ b4 0x0C100017 ++ [0, 0, 0]

theorem witness_InductionReportQueuesTheBag :
    (hall.fldReady 12 ∧ (hall.stationOfNode 12).isSome = true)
      ∧ readCountAbove2 (List.replicate 8 0 ++ [3]) = true
      ∧ InductionFields.parse reportA = some
        { raw1 := 12000, raw2 := 11800, raw3 := 12300, raw4 := 11950, tags := [0x0C100017], keyed := false,
          ref := 0 }
      ∧ 32 ≤ (crowdedField 32 hall).lu.fldTx.queue.length ∧ (crowdedField 31 hall).lu.fldTx.queue.length < 32
      ∧ 4 ≤ (List.replicate 4 (mbag 24)).length ∧ station2.queue.length < 4
      ∧ (hall.sailingOfKey (tagKey 0x0C100017) = some (1, sailing1)
        ∧ tagIndex 0x0C100017 < sailing1.length ∧ (hall.entry 23).issue = tagIssue 0x0C100017
        ∧ (hall.entry 23).issue ≠ 0 ∧ (hall.entry 23).state = .notSeen ∧ (hall.entry 23).hold = 0
        ∧ hall.cu.settings.lowerMass ≤ 201 ∧ 201 ≤ hall.cu.settings.upperMass
        ∧ sailing1.cover (hall.entry 23).cabin = some 3 ∧ Tbl.get hall.groups 3 = some group3) :=
  ⟨⟨hall_field 12 (by decide), by decide⟩, by decide⟩

/-- The bag of entry 23 with no read, held, uncovered, or over the upper limit. -/
theorem witness_induction_opens_a_stray :
    (InductionFields.parse (List.replicate 8 0 ++ [0, 0, 0, 0])).isSome
      ∧ hall.su.strays.length < 192 ∧ 192 ≤ (fullTable hall).su.strays.length
      ∧ (hall.sailingOfKey (tagKey 0x0C100017) = some (1, sailing1) ∧ sailing1.state = .opened
        ∧ tagIndex 0x0C100017 = 23 ∧ (hall.entry 23).issue = tagIssue 0x0C100017 ∧ (hall.entry 23).issue ≠ 0
        ∧ (hall.entry 23).state = .notSeen ∧ hall.indexHeld 23 = false ∧ Tbl.get hall.su.strays 0 = none)
      ∧ ({ issued .notSeen with hold := 31 } : Entry).hold ≠ 0
      ∧ ((hall.entry 23).hold = 0 ∧ 4 < hall.cu.settings.lowerMass ∧ hall.cu.settings.lowerMass ≤ 321
        ∧ hall.cu.settings.upperMass < 321)
      ∧ sailing1.cover 201 = none := by decide +kernel

/-- The bag of entry 25, whose record 1 is open and free, read at station 2 or keyed at station 6. -/
theorem witness_induction_moves_the_linked_record :
    (tagIndex 0x0C100019 = 25 ∧ (hall.entry 25).issue = tagIssue 0x0C100019 ∧ (hall.entry 25).state = .stray 1
      ∧ Tbl.get hall.su.strays 1 = some stray1 ∧ hall.indexHeld 25 = false ∧ hall.refHeld 1 = false)
      ∧ (stray1.linked = true ∧ stray1.index = some 25)
      ∧ (∃ st, Tbl.get hall.stations 6 = some st ∧ st.kind = .encode ∧ st.queue.length < 4) ∧ station2.kind ≠ .encode
      ∧ (hall.sailingOfKey (tagKey 0x0C100017) = some (1, sailing1) ∧ sailing1.base + tagIndex 0x0C100017 ≠ 25)
      ∧ (tagKey 0x0C1FFFFF = 12 ∧ sailing1.length ≤ tagIndex 0x0C1FFFFF) := by decide +kernel

/-- Record 2, not linked and held by nothing, keyed at station 6 with no code or with that of entry 23. -/
theorem witness_induction_keys_an_unlinked_record :
    let s : State := { hall with trays := [] }
    Tbl.get s.su.strays 2 = some stray2 ∧ s.refHeld 2 = false ∧ stray2.linked = false
      ∧ (s.entry 23).state = .notSeen ∧ (s.entry 23).issue = tagIssue 0x0C100017 := by decide +kernel

theorem witness_BagsTakenByHandLeaveTheirPlace :
    (hall.TablesOk ∧ hall.fldReady 12 ∧ hall.fldReady 16)
      ∧ (launching.stationOfNode 12 = some (2, { station2 with queue := [mbag 24], ordered := some 9 })
        ∧ (1 : Byte).toNat = 0 + 1 ∧ [mbag 24][0]? = some (mbag 24) ∧ 1 < (2 : Byte).toNat)
      ∧ (∃ row ∈ hall.stations, row.2.node = 16 ∧ row.2.kind = .encode)
      ∧ (hall.refHeld 2 = true ∧ Tbl.get hall.su.strays 9 = none)
      ∧ (hall.refHeld 1 = false ∧ Tbl.get hall.su.strays 1 = some stray1 ∧ stray1.loc ≠ .withOperator
        ∧ hall.lu.supTx.queue.length < 60) :=
  ⟨⟨hall_tables, hall_field 12 (by decide), hall_field 16 (by decide)⟩, by decide⟩

theorem witness_ClockAdvanceTimesSwapsAndNotices :
    hall.TablesOk
      ∧ (∀ r ∈ hall.sailings, r.2.seq.mode = .free → 2 ^ 31 ≤ (hall.lu.clock + 1 - r.2.seq.due).toNat)
      ∧ hall.encodeNode = some 16
      ∧ (∀ q ∈ [{ sailing1.seq with lifts := 1 }, { sailing1.seq with mode := .free }],
        ∀ r ∈ (hall.putSailing 1 { sailing1 with seq := q }).sailings,
          r.2.seq.mode = .locked → r.2.seq.lifts < r.2.seq.divisor)
      ∧ (let s : State := { hall with lu := { hall.lu with clock := 300 } };
        Tbl.get s.chutes 19 = some chute19 ∧ chute19.cycle = some .swapping ∧ chute19.overdueSent = false
          ∧ chute19.swapTime.toNat ≤ s.lu.clock.toNat
          ∧ s.cu.settings.swapLimit ≤ s.lu.clock.toNat - chute19.swapTime.toNat)
      ∧ hall.lu.clock.toNat - chute19.swapTime.toNat < hall.cu.settings.swapLimit
      ∧ chute17.cycle ≠ some .swapping ∧ State.reset.encodeNode = none
      ∧ 32 ≤ (crowdedField 32 hall).lu.fldTx.queue.length
      ∧ (hall.su.encode = ⟨1, 3⟩ :: [] ∧ hall.su.notice ≠ some 1 ∧ Tbl.get hall.su.strays 1 = some stray1)
      ∧ Tbl.get hall.su.strays 0 = none :=
  ⟨hall_tables, by decide⟩

theorem witness_DropSeenAndTiltFaultEndATilt :
    (hall.fldReady 57 ∧ hall.TablesOk ∧ hall.chuteOfPanel 57 = some (17, chute17))
      ∧ hall.lt.layout = some layout400
      ∧ layout400.trays ≤ u16 1 144 ∧ u16 0 5 < layout400.trays ∧ hall.tray (u16 0 6) = .empty
      ∧ hall.tray (u16 0 5) = .tiltOrdered (mbag 20) 17 (some 1) ∧ (mbag 20).index = some 20
      ∧ Tbl.get hall.carts 1 = some cart1 ∧ holdsMark cart1.bags 20 .ordered = true
      ∧ (hall.chuteOfPanel 58 = some (18, chute18) ∧ (17 : Nat) ≠ 18)
      ∧ ((4430 + 60 + layout400.length - (chute17.coord + 5 * layout400.pitch) % layout400.length)
          % layout400.length ≤ chute17.window)
      ∧ (let e := (4430 + 4801 + layout400.length - (chute17.coord + 5 * layout400.pitch) % layout400.length)
          % layout400.length;
        chute17.window < e ∧ layout400.length < 2 * e)
      ∧ (let e := (4430 + 61 + layout400.length - (chute17.coord + 5 * layout400.pitch) % layout400.length)
          % layout400.length;
        chute17.window < e ∧ 2 * e ≤ layout400.length)
      ∧ ((sbag 2).ref = some 2 ∧ Tbl.get hall.su.strays 2 = some stray2 ∧ chute40.role = .manual
        ∧ stray2.loc ≠ .atEncode)
      ∧ hall.cartHolds 1 20 .doubt = false
      ∧ (hall.putCart 1 { cart1 with bags := [⟨20, 200, .doubt⟩] }).cartHolds 1 20 .doubt = true :=
  ⟨⟨hall_field 57 (by decide), hall_tables, by decide⟩, by decide⟩

theorem witness_arrival_at_a_chute_out_of_use :
    (let s := hall.putChute 17 { chute17 with avail := .blocked };
      s.lt.state = LoopState.synced ∧ s.tray 5 = .tiltOrdered (mbag 20) 17 (some 1)
        ∧ Tbl.get s.chutes 17 = some { chute17 with avail := .blocked } ∧ s.lu.supTx.queue.length < 60)
      ∧ (Tbl.get hall.chutes 17 = some chute17 ∧ chute17.avail = .inService)
      ∧ slipped.lt.state ≠ LoopState.synced := by decide

theorem witness_PanelFramesMoveTheChute :
    (hall.fldReady 57 ∧ hall.chuteOfPanel 57 = some (17, chute17))
      ∧ hall.chuteOfPanel 80 = some (40, chute40) ∧ chute40.role ≠ .sort
      ∧ (hall.chuteOfPanel 59 = some (19, chute19) ∧ chute19.role = .sort ∧ chute19.cycle = some .swapping)
      ∧ chute17.cycle ≠ some .swapping
      ∧ (Tbl.get hall.carts 5 = none ∧ ∀ id', id' < 5 → 1 ≤ id' → (Tbl.get hall.carts id').isSome = true)
      ∧ (let s := hall.putChute 17 { chute17 with avail := .outOfService };
        ∃ r ∈ s.chutes, r.2.node = 57 ∧ r.2.avail = .outOfService) :=
  ⟨⟨hall_field 57 (by decide), by decide⟩, by decide⟩

/-- A hall whose cart pool has no FREE record. -/
def fullPool : State := { hall with carts := (List.range 255).map (fun i => (i + 1, cart2)) }

theorem witness_full_cart_pool : ∀ id, id < 256 → 1 ≤ id → (Tbl.get fullPool.carts id).isSome = true := by
  decide +kernel

theorem witness_DoorTakesACalledCartAboardOrRefusesIt :
    hall.fldReady 90 ∧ (Tbl.get hall.carts 3 = some cart3 ∧ cart3.state = .called
      ∧ Tbl.get hall.groups cart3.group = some group3 ∧ Tbl.get hall.sailings group3.slot = some sailing1
      ∧ sailing1.state ≠ .staged ∧ sailing1.door = 90 ∧ hall.lu.supTx.queue.length < 60)
      ∧ (∃ r ∈ hall.sailings, r.2.state ≠ .staged ∧ r.2.door = 90)
      ∧ Tbl.get hall.carts 255 = none ∧ (Tbl.get hall.carts 2 = some cart2 ∧ cart2.state ≠ .called) :=
  ⟨hall_field 90 (by decide), by decide⟩

def step1 : DStep := { group := 3, batch := 2, quota := 4 }

theorem witness_BatchEventCallsFromTheCurrentStep :
    (hall.TablesOk ∧ hall.fldReady 90)
      ∧ (Tbl.get hall.sailings 1 = some sailing1 ∧ sailing1.seq.mode = .locked
        ∧ sailing1.seq.divisor ≤ sailing1.seq.lifts ∧ 1 ≤ sailing1.seq.current
        ∧ sailing1.steps[sailing1.seq.current - 1]? = some step1 ∧ Tbl.get hall.groups 3 = some group3
        ∧ sailing1.seq.released < step1.quota)
      ∧ (1 ≤ min (min (min step1.batch (step1.quota - sailing1.seq.released)) group3.ready.length)
          (32 - (crowdedField 31 hall).lu.fldTx.queue.length) ∧ group3.ready.Nodup
        ∧ hall.lu.supTx.queue.length + 1 ≤ 60 ∧ group3.ready[0]? = some 2 ∧ Tbl.get hall.carts 2 = some cart2
        ∧ sailing1.seq.released + 1 ≤ 255 ∧ (∀ id ∈ group3.ready, (Tbl.get hall.carts id).isSome = true))
      ∧ group5.ready = [] ∧ step1.quota ≠ 0
      ∧ (sailing1.state ≠ .staged ∧ sailing1.door = 90
        ∧ (∀ r ∈ hall.sailings, r.2.door = 90 → r.2.state ≠ .staged → r.1 = 1)
        ∧ sailing1.seq.divisor ≤ sailing1.seq.lifts + 1)
      ∧ (let q := { sailing1.seq with lifts := 0 };
        q.lifts + 1 < q.divisor ∧ { q with mode := .free }.mode ≠ .locked) :=
  ⟨⟨hall_tables, hall_field 90 (by decide)⟩, by decide⟩

/-- One order place for two carts to call. -/
theorem witness_batch_with_one_order_place :
    let g := { group3 with ready := [2, 3] }
    min (min step1.batch (step1.quota - sailing1.seq.released)) g.ready.length = 2
      ∧ 32 - (crowdedField 31 hall).lu.fldTx.queue.length = 1 ∧ g.ready.Nodup
      ∧ ∀ id ∈ g.ready, (Tbl.get hall.carts id).isSome = true := by decide

/-- The stages that call nothing: the end of the list, a quota met, a step run dry in FINAL with and without
a cart on its way, no order place. -/
theorem witness_batch_stages_without_a_call :
    (let q := { sailing1.seq with current := 2 }; q.mode = .locked ∧ q.divisor ≤ q.lifts ∧ 1 ≤ q.current
        ∧ sailing1.steps.length < q.current)
      ∧ (let q := { sailing1.seq with released := 4 }; step1.quota ≠ 0 ∧ step1.quota ≤ q.released)
      ∧ (let x : DStep := { step1 with quota := 0 };
        let v := { sailing1 with state := .finalCall, steps := [x, x] };
        v.steps[v.seq.current - 1]? = some x ∧ x.quota = 0 ∧ v.state = .finalCall
          ∧ v.seq.current < v.steps.length ∧ sailing1.steps.length ≤ sailing1.seq.current)
      ∧ (∃ r ∈ hall.carts, r.2.group = 3 ∧ (r.2.state = .filling ∨ r.2.state = .closing) ∧ r.2.bags ≠ [])
      ∧ ¬(∃ r ∈ hall.carts, r.2.group = 5 ∧ (r.2.state = .filling ∨ r.2.state = .closing) ∧ r.2.bags ≠ [])
      ∧ group3.ready ≠ [] ∧ 32 ≤ (crowdedField 32 hall).lu.fldTx.queue.length := by decide

theorem witness_LineDropsForwardsAndSends :
    hall.fldReady 100 ∧ (badRun.bytes ≠ [] ∧ goodRun badRun = false ∧ hall.lu.supRx.awaitIdle = false
      ∧ hall.lu.fldRx.awaitIdle = false)
      ∧ (aFrame.payload.length ≤ 56 ∧ aFrame.dst ≠ hall.lu.node
        ∧ ({ aFrame with dst := 1 } : Frame).dst = hall.lu.node)
      ∧ isFieldKind 0x40 = false ∧ (∀ r ∈ hall.stations, r.2.node ≠ 100) ∧ (∀ r ∈ hall.chutes, r.2.node ≠ 100)
      ∧ (∀ r ∈ hall.sailings, r.2.state ≠ .staged → r.2.door ≠ 100) :=
  ⟨hall_field 100 (by decide), by decide⟩

/-- Sources that are not configured for a kind, and ones that are, of each family: a station (no ENCODE
station, no panel, no door), the ENCODE station, the panel of a SORT chute and of another, a door. -/
theorem witness_field_mismatches :
    (hall.fldReady 12 ∧ hall.fldReady 16 ∧ hall.fldReady 57 ∧ hall.fldReady 80 ∧ hall.fldReady 90)
      ∧ ((∃ r ∈ hall.stations, r.2.node = 12) ∧ ¬(∃ r ∈ hall.stations, r.2.node = 12 ∧ r.2.kind = .encode)
        ∧ ¬(∃ r ∈ hall.chutes, r.2.node = 12) ∧ ¬(∃ r ∈ hall.sailings, r.2.door = 12 ∧ r.2.state ≠ .staged))
      ∧ (∃ r ∈ hall.stations, r.2.node = 16 ∧ r.2.kind = .encode)
      ∧ ((∃ r ∈ hall.chutes, r.2.node = 57) ∧ (∀ r ∈ hall.chutes, r.2.node = 57 → r.2.role = .sort)
        ∧ ¬(∃ r ∈ hall.stations, r.2.node = 57))
      ∧ (∀ r ∈ hall.chutes, r.2.node = 80 → r.2.role ≠ .sort)
      ∧ (∃ r ∈ hall.sailings, r.2.door = 90 ∧ r.2.state ≠ .staged)
      ∧ (∃ n, ([0, 0, 0, 0, 0, 0, 0, 0, 1] : List Byte)[8]? = some n ∧ n.toNat ≤ 2 ∧ 9 ≠ 12 + 4 * n.toNat) :=
  ⟨⟨hall_field 12 (by decide), hall_field 16 (by decide), hall_field 57 (by decide), hall_field 80 (by decide),
    hall_field 90 (by decide)⟩, by decide, by decide, by decide, by decide, by decide, ⟨1, rfl, by decide⟩⟩

theorem witness_LongStepsVisitOnePlaceEach :
    (∀ o, (runningOp .regionInit 49).cu.longOp = some o → o.kind ≠ .planCommit)
      ∧ hall.cu.longOp = none ∧ (runningOp .regionInit 49).cu.longOp.isSome = true
      ∧ Tbl.get hall.sailings 1 = some sailing1 ∧ 49 < sailing1.length ∧ sailing1.length ≤ 50
      ∧ sailing1.staged[0]? = some block3 ∧ sailing1.staged.length ≤ 1
      ∧ (Tbl.get hall.groups 3 = some group3 ∧ group3.slot = 1) ∧ Tbl.get hall.groups 7 = none :=
  ⟨fun o h => by cases h; decide, by decide⟩

theorem witness_SailingCloseReleasesTheSailing :
    (runningOp .sailingClose 50).TablesOk ∧ (runningOp .sailingClose 50).cu.longOp.isSome = true
      ∧ Tbl.get (runningOp .sailingClose 50).sailings 1 = some sailing1 ∧ sailing1.length ≤ 50
      ∧ (runningOp .sailingClose 50).lu.supTx.queue.length < 60 :=
  ⟨⟨hall_tables.sailings, hall_tables.manifest, hall_tables.groups, hall_tables.stations, hall_tables.trays,
    hall_tables.chutes, hall_tables.carts, hall_tables.strays⟩, by decide⟩

end Sys2Proof.Tests
end

section
/-! SUPPORT. What a command answers once its body is known, and the checks that the plan commands share. -/

namespace Sys2Proof.Machine.PlansAndBindings

variable {s t : State} {src kind : Byte} {c : Instr} {body : State → CmdResult} {fields : List Byte}

/-! The answer of a command -/

theorem supReady_of_supRoom {n : Nat} (h : s.supRoom n) : s.supReady := by
  obtain ⟨hidle, hroom⟩ := h
  simp only [Config.supReportPlaces] at hroom
  exact ⟨hidle, by simp only [Config.supPlaces]; omega⟩

/-- A command whose body gives a state and fields answers OK from that state. -/
theorem exec_accepted (hc : exec c s = .next (s.takeCommand src kind body)) (h : s.supReady)
    (hb : body s = .ok (t, fields)) (hq : t.lu.supTx.queue.length < Config.supPlaces) :
    exec c s = .next (t.answer src (kind ||| 0x80) 0 fields) := by
  rw [hc, State.takeCommand_ok s t src kind body fields h hb, State.reply_room t src kind .ok fields hq]
  rfl

/-- A command whose body refuses answers the code and changes nothing else. -/
theorem exec_refused {code : Code} (hc : exec c s = .next (s.takeCommand src kind body)) (h : s.supReady)
    (hb : body s = .error code) :
    exec c s = .next (s.answer src (kind ||| 0x80) (BitVec.ofNat 8 code.ctorIdx) []) := by
  rw [hc, State.takeCommand_error s src kind body code h hb]

/-! The checks that the plan commands share (R26, R27, R28) -/

theorem namedSlot_absent {n : Nat} (h1 : 1 ≤ n) (h4 : n ≤ 4) (h : Tbl.get s.sailings n = none) :
    s.namedSlot n = .error .absent := by
  simp [State.namedSlot, h, Nat.not_lt.2 h1, Nat.not_lt.2 h4]

theorem namedSlot_present {n : Nat} {v : Sailing} (h1 : 1 ≤ n) (h4 : n ≤ 4)
    (h : Tbl.get s.sailings n = some v) : s.namedSlot n = .ok v := by
  simp [State.namedSlot, h, Nat.not_lt.2 h1, Nat.not_lt.2 h4]

theorem planLocked_eq_true {n : Nat} {v : Sailing}
    (h : v.state = .closing ∨ s.longRuns .planCommit n = true) : s.planLocked n v = true := by
  simpa [State.planLocked] using h

theorem planLocked_eq_false {n : Nat} {v : Sailing} (hv : v.state ≠ .closing)
    (hl : s.longRuns .planCommit n = false) : s.planLocked n v = false := by
  simp [State.planLocked, hv, hl]

end Sys2Proof.Machine.PlansAndBindings
end

section
/-! SUPPORT and the statements on cabin plans: BLOCK PUT, BLOCK DELETE and PLAN CLEAR. -/

namespace Sys2Proof.Machine.PlansAndBindings

variable {s : State} {src n f1 f0 l1 l0 g : Byte} {v : Sailing} {p : List Byte}

theorem exec_blockPut : exec (.blockPut src p) s = .next (s.takeCommand src 0x58 (blockPut p)) := rfl

theorem exec_blockDelete : exec (.blockDelete src p) s = .next (s.takeCommand src 0x59 (blockDelete p)) := rfl

theorem exec_planClear : exec (.planClear src p) s = .next (s.takeCommand src 0x5A (planClear p)) := rfl

/-! BLOCK PUT (R26) -/

/-- In a plan in first-cabin order, a new block that begins at no block's first cabin stands between the
blocks that begin below it and those that begin above it. -/
theorem insertBlock_eq_filter (b : Block) (l : List Block) (hs : l.Pairwise (fun x y => x.first < y.first))
    (hne : ∀ x ∈ l, x.first ≠ b.first) :
    insertBlock b l = l.filter (fun x => decide (x.first < b.first)) ++ [b]
      ++ l.filter (fun x => decide (b.first < x.first)) := by
  induction l with
  | nil => rfl
  | cons x t ih =>
    obtain ⟨hx, ht⟩ := List.pairwise_cons.1 hs
    by_cases hb : b.first < x.first
    · have habove : ∀ y ∈ x :: t, b.first < y.first :=
        List.forall_mem_cons.2 ⟨hb, fun y hy => hb.trans (hx y hy)⟩
      have hlow : (x :: t).filter (fun y => decide (y.first < b.first)) = [] :=
        List.filter_eq_nil_iff.2 fun y hy => by simpa using (habove y hy).le
      have hhigh : (x :: t).filter (fun y => decide (b.first < y.first)) = x :: t :=
        List.filter_eq_self.2 fun y hy => by simpa using habove y hy
      rw [hlow, hhigh, insertBlock, if_pos hb]
      rfl
    · have hlt : x.first < b.first := by
        have := hne x List.mem_cons_self
        omega
      simp [insertBlock, hb, hlt, ih ht (fun y hy => hne y (List.mem_cons_of_mem x hy))]

theorem shares_iff (b : Block) (first last : Nat) :
    b.shares first last = true ↔ b.first ≤ last ∧ first ≤ b.last := by
  simp [Block.shares]

/-- A block of the same cabins takes the group. -/
theorem putBlock_same {slot : Nat} {b : Block} (h : ∃ x ∈ v.staged, x.first = b.first ∧ x.last = b.last) :
    putBlock slot v b s = .ok (s.putSailing slot
      { v with staged := v.staged.map (fun x =>
          if x.first = b.first ∧ x.last = b.last then { x with group := b.group } else x) }, []) := by
  have hany : v.staged.any (fun x => x.first == b.first && x.last == b.last) = true := by simpa using h
  simp [putBlock, hany]

theorem any_same_eq_false {b : Block} (h : ∀ x ∈ v.staged, x.first ≠ b.first ∨ x.last ≠ b.last) :
    v.staged.any (fun x => x.first == b.first && x.last == b.last) = false := by
  simpa [imp_iff_not_or] using h

theorem putBlock_conflict {slot : Nat} {b : Block}
    (h : ∀ x ∈ v.staged, x.first ≠ b.first ∨ x.last ≠ b.last)
    (hshare : ∃ x ∈ v.staged, x.first ≤ b.last ∧ b.first ≤ x.last) :
    putBlock slot v b s = .error .conflict := by
  have hany : v.staged.any (fun x => x.shares b.first b.last) = true := by
    simpa [List.any_eq_true, shares_iff] using hshare
  simp only [putBlock, any_same_eq_false h, hany, Bool.false_eq_true, if_true, if_false]

/-- A block apart from every block of the plan is neither one of them nor in conflict with one. -/
theorem putBlock_apart {slot : Nat} {b : Block} (hb : b.first ≤ b.last)
    (h : ∀ x ∈ v.staged, b.last < x.first ∨ x.last < b.first) :
    putBlock slot v b s
      = if Config.planPlaces ≤ v.staged.length then .error .full
        else .ok (s.putSailing slot { v with staged := insertBlock b v.staged }, b1 (v.staged.length + 1)) := by
  have hsame : ∀ x ∈ v.staged, x.first ≠ b.first ∨ x.last ≠ b.last := fun x hx => by
    have := h x hx
    omega
  have hshare : v.staged.any (fun x => x.shares b.first b.last) = false := by
    rw [List.any_eq_false]
    intro x hx
    rw [shares_iff]
    have := h x hx
    omega
  simp only [putBlock, any_same_eq_false hsame, hshare, Bool.false_eq_true, if_false]

theorem putBlock_full {slot : Nat} {b : Block} (hb : b.first ≤ b.last)
    (h : ∀ x ∈ v.staged, b.last < x.first ∨ x.last < b.first) (hfull : Config.planPlaces ≤ v.staged.length) :
    putBlock slot v b s = .error .full := by
  rw [putBlock_apart hb h, if_pos hfull]

/-- With room, a block apart from the others of a plan in order joins it at its place. -/
theorem putBlock_joins {slot : Nat} {b : Block} (hb : b.first ≤ b.last)
    (h : ∀ x ∈ v.staged, b.last < x.first ∨ x.last < b.first) (hroom : v.staged.length < Config.planPlaces)
    (hwf : ∀ x ∈ v.staged, x.first ≤ x.last) (hs : v.staged.Pairwise (fun x y => x.last < y.first)) :
    putBlock slot v b s = .ok (s.putSailing slot
      { v with staged := v.staged.filter (fun x => decide (x.first < b.first)) ++ [b]
          ++ v.staged.filter (fun x => decide (b.first < x.first)) }, b1 (v.staged.length + 1)) := by
  have hfirsts : v.staged.Pairwise (fun x y => x.first < y.first) :=
    hs.imp_of_mem (fun hx _ hxy => (hwf _ hx).trans_lt hxy)
  have hne : ∀ x ∈ v.staged, x.first ≠ b.first := fun x hx => by
    have := h x hx
    have := hwf x hx
    omega
  rw [putBlock_apart hb h, if_neg (Nat.not_le.2 hroom), insertBlock_eq_filter b v.staged hfirsts hne]

/-- BLOCK PUT of a slot, cabins and a group in range. -/
theorem blockPut_inRange (h1 : 1 ≤ n.toNat) (h4 : n.toNat ≤ 4) (hv : Tbl.get s.sailings n.toNat = some v)
    (hf : 1 ≤ u16 f1 f0) (hl : u16 f1 f0 ≤ u16 l1 l0) (hg1 : 1 ≤ g.toNat) (hg : g.toNat ≤ 127) :
    blockPut [n, f1, f0, l1, l0, g] s
      = if s.planLocked n.toNat v then .error .state
        else putBlock n.toNat v { first := u16 f1 f0, last := u16 l1 l0, group := g.toNat } s := by
  have hrange : ¬(u16 f1 f0 = 0 ∨ u16 l1 l0 < u16 f1 f0 ∨ g.toNat < 1 ∨ 127 < g.toNat) := by omega
  simp only [blockPut, namedSlot_present h1 h4 hv, hrange, if_false]

/-! BLOCK DELETE and PLAN CLEAR (R27, R28) -/

theorem blockDelete_absentSlot (h1 : 1 ≤ n.toNat) (h4 : n.toNat ≤ 4)
    (hv : Tbl.get s.sailings n.toNat = none) : blockDelete [n, f1, f0] s = .error .absent := by
  simp only [blockDelete, namedSlot_absent h1 h4 hv]

/-- BLOCK DELETE of a sailing that stands, check by check. -/
theorem blockDelete_present (h1 : 1 ≤ n.toNat) (h4 : n.toNat ≤ 4)
    (hv : Tbl.get s.sailings n.toNat = some v) :
    blockDelete [n, f1, f0] s
      = if u16 f1 f0 = 0 then .error .range
        else if s.planLocked n.toNat v then .error .state
        else if v.staged.any (fun x => x.first == u16 f1 f0) then
          .ok (s.putSailing n.toNat { v with staged := v.staged.filter (fun x => x.first != u16 f1 f0) },
            b1 (v.staged.filter (fun x => x.first != u16 f1 f0)).length)
        else .error .absent := by
  simp only [blockDelete, namedSlot_present h1 h4 hv]

theorem planClear_absentSlot (h1 : 1 ≤ n.toNat) (h4 : n.toNat ≤ 4)
    (hv : Tbl.get s.sailings n.toNat = none) : planClear [n] s = .error .absent := by
  simp only [planClear, namedSlot_absent h1 h4 hv]

theorem planClear_present (h1 : 1 ≤ n.toNat) (h4 : n.toNat ≤ 4)
    (hv : Tbl.get s.sailings n.toNat = some v) :
    planClear [n] s = if s.planLocked n.toNat v then .error .state
      else .ok (s.putSailing n.toNat { v with staged := [] }, []) := by
  simp only [planClear, namedSlot_present h1 h4 hv]

/-- The blocks of a plan in order, but for one of them: each lies wholly below it or wholly above it. -/
theorem apart_of_planOrder {before after : List Block} {b : Block}
    (h : (before ++ b :: after).Pairwise (fun x y => x.first ≤ x.last ∧ x.last < y.first)) :
    ∀ x ∈ before ++ after, (x.first ≤ x.last ∧ x.last < b.first) ∨ b.last < x.first := by
  obtain ⟨-, hafter, hbefore⟩ := List.pairwise_append.1 h
  obtain ⟨habove, -⟩ := List.pairwise_cons.1 hafter
  intro x hx
  rcases List.mem_append.1 hx with hx | hx
  · exact .inl (hbefore x hx b List.mem_cons_self)
  · exact .inr (habove x hx).2

/-- Removing what begins at a block's first cabin from a plan in order removes that block alone. -/
theorem filter_first_ne {before after : List Block} {b : Block} (hb : b.first ≤ b.last)
    (h : (before ++ b :: after).Pairwise (fun x y => x.first ≤ x.last ∧ x.last < y.first)) :
    (before ++ b :: after).filter (fun x => x.first != b.first) = before ++ after := by
  have hkeep : (before ++ after).filter (fun x => x.first != b.first) = before ++ after := by
    rw [List.filter_eq_self]
    intro x hx
    have := apart_of_planOrder h x hx
    simp only [bne_iff_ne, ne_eq]
    omega
  rw [List.filter_append, List.filter_cons_of_neg (by simp), ← List.filter_append, hkeep]

/-! The statements -/

/-- Settles O41, check by check of R26: the lock, the same cabins, shared cabins, room; the order of the
plan gives the place of a new block. -/
theorem blockPutKeepsPlanOrder : Obligations.BlockPutKeepsPlanOrder := by
  intro s src n f1 f0 l1 l0 g v h h1 h4 hv hf hl hg1 hg
  have hc := exec_blockPut (s := s) (src := src) (p := [n, f1, f0, l1, l0, g])
  have hbody := blockPut_inRange h1 h4 hv hf hl hg1 hg
  refine ⟨fun hlock => ?_, fun hstate hlong => ?_⟩
  · rw [planLocked_eq_true hlock, if_pos rfl] at hbody
    exact exec_refused hc h hbody
  rw [planLocked_eq_false hstate hlong, if_neg Bool.false_ne_true] at hbody
  refine ⟨fun hsame => ?_, fun hsame hshare => ?_, fun hapart => ⟨fun hfull => ?_, fun hroom hwf hs => ?_⟩⟩
  · exact exec_accepted hc h (hbody.trans (putBlock_same hsame)) h.2
  · exact exec_refused hc h (hbody.trans (putBlock_conflict hsame hshare))
  · exact exec_refused hc h (hbody.trans (putBlock_full hl hapart hfull))
  · exact exec_accepted hc h (hbody.trans (putBlock_joins hl hapart hroom hwf hs)) h.2

/-- Settles O42: R27 and R28 check by check; the order of the plan leaves one block that begins at the
cabin, and apart from every other. -/
theorem blockDeleteUncoversStagedCabins : Obligations.BlockDeleteUncoversStagedCabins := by
  intro s src n f1 f0 h h1 h4
  have hcd := exec_blockDelete (s := s) (src := src) (p := [n, f1, f0])
  have hcc := exec_planClear (s := s) (src := src) (p := [n])
  refine ⟨fun hv => ⟨?_, ?_⟩, fun v hv => ?_⟩
  · exact exec_refused hcd h (blockDelete_absentSlot h1 h4 hv)
  · exact exec_refused hcc h (planClear_absentSlot h1 h4 hv)
  have hdel := blockDelete_present (f1 := f1) (f0 := f0) h1 h4 hv
  have hclear := planClear_present h1 h4 hv
  refine ⟨fun hf => ?_, fun hf hlock => ?_, fun hf hstate hlong => ?_, fun hlock => ?_, fun hstate hlong => ?_⟩
  · rw [if_pos hf] at hdel
    exact exec_refused hcd h hdel
  · rw [if_neg (Nat.one_le_iff_ne_zero.1 hf), if_pos (planLocked_eq_true hlock)] at hdel
    exact exec_refused hcd h hdel
  · rw [if_neg (Nat.one_le_iff_ne_zero.1 hf), planLocked_eq_false hstate hlong,
      if_neg Bool.false_ne_true] at hdel
    refine ⟨fun hnone => ?_, fun before b after hsplit hb hs hwf => ?_⟩
    · rw [if_neg (by simpa using hnone)] at hdel
      exact exec_refused hcd h hdel
    · rw [← hb] at hdel
      rw [hsplit] at hdel hs
      rw [if_pos (by simp), filter_first_ne hwf hs] at hdel
      refine ⟨exec_accepted hcd h hdel h.2, fun x hx cabin _ _ => ?_, fun cabin => rfl⟩
      have := apart_of_planOrder hs x hx
      omega
  · rw [if_pos (planLocked_eq_true hlock)] at hclear
    exact exec_refused hcc h hclear
  · rw [planLocked_eq_false hstate hlong, if_neg Bool.false_ne_true] at hclear
    exact exec_accepted hcc h hclear h.2

end Sys2Proof.Machine.PlansAndBindings
end

section
/-! SUPPORT and the statements on chute bindings: CHUTE BIND to a group and with group 0. -/

namespace Sys2Proof.Machine.PlansAndBindings

variable {s : State} {src c g : Byte} {h : Chute} {id : Nat} {cart : Cart} {p : List Byte}

theorem exec_chuteBind : exec (.chuteBind src p) s = .next (s.takeCommand src 0x4E (chuteBind p)) := rfl

theorem exec_chuteUnbind : exec (.chuteUnbind src p) s = .next (s.takeCommand src 0x4E (chuteBind p)) := rfl

/-! The checks of R41 -/

theorem byte_ne_zero_of_pos {b : Byte} (hb : 1 ≤ b.toNat) : b ≠ 0 := by
  rintro rfl
  exact absurd hb (by decide)

theorem currentCart_eq_some (hc : h.cart = some id) (hk : Tbl.get s.carts id = some cart) :
    s.currentCart h = some (id, cart) := by
  simp [State.currentCart, hc, hk]

theorem bindBusy_iff : s.bindBusy h = true ↔ h.cycle = some .closing
    ∨ ∃ id cart, h.cart = some id ∧ Tbl.get s.carts id = some cart ∧ cart.marked .ordered ≠ 0 := by
  rw [State.bindBusy, Bool.or_eq_true, decide_eq_true_iff, Option.any_eq_true]
  refine or_congr_right ⟨?_, ?_⟩
  · rintro ⟨⟨id, cart⟩, hcur, hmark⟩
    obtain ⟨hid, hcart⟩ := currentCart_eq hcur
    exact ⟨id, cart, hid, hcart, by simpa using hmark⟩
  · rintro ⟨id, cart, hid, hcart, hmark⟩
    exact ⟨(id, cart), currentCart_eq_some hid hcart, by simpa using hmark⟩

theorem bindBusy_eq_false (hcy : h.cycle ≠ some .closing)
    (hm : ∀ id cart, h.cart = some id → Tbl.get s.carts id = some cart → cart.marked .ordered = 0) :
    s.bindBusy h = false := by
  rw [← Bool.not_eq_true, bindBusy_iff]
  rintro (hclosing | ⟨id, cart, hid, hcart, hmark⟩)
  · exact hcy hclosing
  · exact hmark (hm id cart hid hcart)

theorem chuteBind_inRange (h1 : 1 ≤ c.toNat) (h48 : c.toNat ≤ 48) (hg : g.toNat ≤ 127) :
    ¬(c = 0 ∨ 48 < c.toNat ∨ 127 < g.toNat) := by
  rintro (h0 | hchute | hgroup)
  · exact byte_ne_zero_of_pos h1 h0
  · omega
  · omega

theorem chuteBind_absent (h1 : 1 ≤ c.toNat) (h48 : c.toNat ≤ 48) (hg : g.toNat ≤ 127)
    (hc : Tbl.get s.chutes c.toNat = none) : chuteBind [c, g] s = .error .absent := by
  simp only [chuteBind, chuteBind_inRange h1 h48 hg, hc, if_false]

/-- CHUTE BIND of a configured chute with group 0, check by check. -/
theorem chuteBind_zero (h1 : 1 ≤ c.toNat) (h48 : c.toNat ≤ 48) (hc : Tbl.get s.chutes c.toNat = some h) :
    chuteBind [c, 0] s
      = if h.role ≠ .sort then .error .state
        else if h.bound = 0 then .ok (s, [])
        else if s.bindBusy h then .error .state
        else .ok (s.unbind c.toNat h, []) := by
  have hrange := chuteBind_inRange (g := 0) h1 h48 (by decide)
  simp only [chuteBind, hrange, hc, if_false, ne_eq, not_true_eq_false, false_and, if_true]
  rfl

/-- CHUTE BIND of a configured chute to an existing group, check by check. -/
theorem chuteBind_group {grp : Group} (h1 : 1 ≤ c.toNat) (h48 : c.toNat ≤ 48) (hg1 : 1 ≤ g.toNat)
    (hg : g.toNat ≤ 127) (hc : Tbl.get s.chutes c.toNat = some h) (hgrp : Tbl.get s.groups g.toNat = some grp) :
    chuteBind [c, g] s
      = if h.role ≠ .sort then .error .state
        else if h.bound = g.toNat then .ok (s, [])
        else if s.bindBusy h then .error .state
        else if (Tbl.get s.sailings grp.slot).any (fun v => decide (v.state = .closing)) then .error .state
        else if Config.chuteSetPlaces ≤ (s.chuteSet g.toNat).length then .error .full
        else .ok (s.bindTo c.toNat h g.toNat, []) := by
  simp only [chuteBind, chuteBind_inRange h1 h48 hg, hc, hgrp, byte_ne_zero_of_pos hg1, bindGroup, if_false,
    Option.isNone_some, Bool.false_eq_true, and_false]

/-- CHUTE BIND past the checks of the chute and of the group's sailing: only the chute set's room is left. -/
theorem chuteBind_free {grp : Group} (h1 : 1 ≤ c.toNat) (h48 : c.toNat ≤ 48) (hg1 : 1 ≤ g.toNat)
    (hg : g.toNat ≤ 127) (hc : Tbl.get s.chutes c.toNat = some h) (hgrp : Tbl.get s.groups g.toNat = some grp)
    (hrole : h.role = .sort) (hb : h.bound ≠ g.toNat) (hbusy : s.bindBusy h = false)
    (hv : ∀ v, Tbl.get s.sailings grp.slot = some v → v.state ≠ .closing) :
    chuteBind [c, g] s
      = if Config.chuteSetPlaces ≤ (s.chutes.filter (fun r => r.2.bound == g.toNat)).length then .error .full
        else .ok (s.bindTo c.toNat h g.toNat, []) := by
  have hsailing : (Tbl.get s.sailings grp.slot).any (fun v => decide (v.state = .closing)) = false := by
    cases hs : Tbl.get s.sailings grp.slot with
    | none => rfl
    | some v => simpa using hv v hs
  rw [chuteBind_group h1 h48 hg1 hg hc hgrp, if_neg (not_not.2 hrole), if_neg hb, hbusy, hsailing,
    State.chuteSet, List.length_map]
  rfl

/-! The reports of a change of binding -/

theorem b1_toNat (b : Byte) : b1 b.toNat = [b] := by
  simp [b1]

theorem tell_queue_length (s : State) (kind : Byte) (bytes : List Byte) :
    (s.tell kind bytes).lu.supTx.queue.length = s.lu.supTx.queue.length + 1 :=
  List.length_append

/-- CHUTE STATE with cause BIND of a SORT chute just written (R113). -/
theorem reportChute_putChute (hrole : h.role = .sort)
    (hroom : s.lu.supTx.queue.length < Config.supReportPlaces) :
    (s.putChute c.toNat h).reportChute c.toNat .bind
      = (s.putChute c.toNat h).tell 0x39 ([c, 0] ++ b1 h.avail.ctorIdx
          ++ b1 ((h.cycle.map CartCycle.ctorIdx).getD 0) ++ b1 h.bound ++ bOpt 1 b1 h.cart ++ [6]) := by
  simp only [State.reportChute, State.putChute_chutes, Tbl.get_set_same]
  rw [State.report_room (s.putChute c.toNat h) _ _ hroom, hrole, b1_toNat]
  rfl

/-- CART CLOSED of a cart that stands is one frame (R122). -/
theorem reportCartClosed_tells (hk : Tbl.get s.carts id = some cart)
    (hroom : s.lu.supTx.queue.length < Config.supReportPlaces) (chute : Nat) :
    ∃ bytes, s.reportCartClosed id chute = s.tell 0x34 bytes := by
  simp only [State.reportCartClosed, hk]
  exact ⟨_, State.report_room _ _ _ hroom⟩

/-! A cart with bags closed by force (R42, R43) -/

theorem forceRecord_carts (s : State) (id : Nat) (cart : Cart) :
    (s.forceRecord id cart).carts = Tbl.set s.carts id { cart with
      cause := some .forced, state := .closed, closedTime := some s.lu.clock, chute := none } := rfl

theorem forceRecord_groups (s : State) (id : Nat) (cart : Cart) :
    (s.forceRecord id cart).groups = Tbl.modify s.groups cart.group (fun x =>
      { x with ready := x.ready ++ [id], cartsClosed := min (x.cartsClosed + 1) 65535 }) := rfl

/-- A chute is written anew and its old cart closed by force, with both reports: what a bind and an unbind
of a chute with bags in its cart have in common. -/
def forcedChange (s : State) (c : Nat) (h : Chute) (id : Nat) (cart : Cart) : State :=
  (((s.forceRecord id cart).putChute c h).reportChute c .bind).reportCartClosed id c

/-- With room for both, its reports are a CHUTE STATE and a CART CLOSED. -/
theorem forcedChange_tells (hroom : s.supRoom 2) (hrole : h.role = .sort) :
    ∃ p1 p2, forcedChange s c.toNat h id cart
      = (((s.forceRecord id cart).putChute c.toNat h).tell 0x39 p1).tell 0x34 p2 := by
  obtain ⟨-, hlen⟩ := hroom
  have hfirst : (s.forceRecord id cart).lu.supTx.queue.length < Config.supReportPlaces := by
    rw [State.forceRecord, State.closeRecord_lu]
    omega
  rw [forcedChange, reportChute_putChute hrole hfirst]
  refine ⟨_, reportCartClosed_tells (Tbl.get_set_same _ _ _) ?_ c.toNat⟩
  rw [tell_queue_length, State.putChute_lu, State.forceRecord, State.closeRecord_lu]
  omega

/-- All that a command writes and sends that makes such a change. -/
theorem exec_forcedChange {i : Instr} {body : State → CmdResult}
    (hi : exec i s = .next (s.takeCommand src 0x4E body)) (hroom : s.supRoom 2)
    (hb : body s = .ok (forcedChange s c.toNat h id cart, [])) (hrole : h.role = .sort) :
    ∃ t f1 f2, exec i s = .next t
      ∧ t.chutes = Tbl.set s.chutes c.toNat h
      ∧ t.carts = Tbl.set s.carts id { cart with
          cause := some .forced, state := .closed, closedTime := some s.lu.clock, chute := none }
      ∧ t.groups = Tbl.modify s.groups cart.group (fun x =>
          { x with ready := x.ready ++ [id], cartsClosed := min (x.cartsClosed + 1) 65535 })
      ∧ t.manifest = s.manifest ∧ t.trays = s.trays ∧ t.su = s.su ∧ t.sailings = s.sailings
      ∧ t.lu.supTx.queue = s.lu.supTx.queue
          ++ [f1, f2, { dst := src, src := s.lu.node, kind := 0xCE, payload := [0] }]
      ∧ f1.kind = 0x39 ∧ f2.kind = 0x34 := by
  obtain ⟨p1, p2, htells⟩ := forcedChange_tells (c := c) (id := id) (cart := cart) hroom hrole
  rw [htells] at hb
  have hlen : s.lu.supTx.queue.length + 2 ≤ 60 := hroom.2
  have hq : ((((s.forceRecord id cart).putChute c.toNat h).tell 0x39 p1).tell 0x34 p2).lu.supTx.queue.length
      < Config.supPlaces := by
    rw [tell_queue_length, tell_queue_length, State.putChute_lu, State.forceRecord, State.closeRecord_lu]
    simp only [Config.supPlaces]
    omega
  refine ⟨_, { dst := 126, src := s.lu.node, kind := 0x39, payload := p1 },
    { dst := 126, src := s.lu.node, kind := 0x34, payload := p2 },
    exec_accepted hi (supReady_of_supRoom hroom) hb hq, rfl, forceRecord_carts s id cart,
    forceRecord_groups s id cart, rfl, rfl, rfl, rfl, ?_, rfl, rfl⟩
  simp only [State.answer, State.tell, State.supSend, List.append_assoc]
  rfl

/-! Binding and unbinding by cart cycle (R42, R43) -/

theorem bindTo_noCart (c g : Nat) (hcy : h.cycle = some .noCart) :
    s.bindTo c h g
      = (s.putChute c (({ h with bound := g } : Chute).startSwap s.lu.clock)).reportChute c .bind := by
  simp only [State.bindTo, hcy]

theorem bindTo_swapping (c g : Nat) (hcy : h.cycle = some .swapping) :
    s.bindTo c h g = (s.putChute c { h with bound := g }).reportChute c .bind := by
  simp only [State.bindTo, hcy]

theorem bindTo_emptyCart (c g : Nat) (hcy : h.cycle = some .filling) (hid : h.cart = some id)
    (hk : Tbl.get s.carts id = some cart) (hbags : cart.bags = []) :
    s.bindTo c h g
      = ((s.putCart id { cart with group := g }).putChute c { h with bound := g }).reportChute c .bind := by
  simp only [State.bindTo, hcy, currentCart_eq_some hid hk, hbags, List.isEmpty_nil, if_true]

theorem bindTo_withBags (c g : Nat) (hcy : h.cycle = some .filling) (hid : h.cart = some id)
    (hk : Tbl.get s.carts id = some cart) (hbags : cart.bags ≠ []) :
    s.bindTo c h g = forcedChange s c (({ h with bound := g } : Chute).startSwap s.lu.clock) id cart := by
  simp only [State.bindTo, hcy, currentCart_eq_some hid hk, List.isEmpty_iff, hbags, if_false, forcedChange]

/-- A chute as an unbind leaves it (R43). -/
def freedChute (h : Chute) : Chute := { h with bound := 0, cycle := some .noCart, cart := none }

theorem unbind_idle (c : Nat) (hcy : h.cycle = some .swapping ∨ h.cycle = some .noCart) :
    s.unbind c h = (s.putChute c (freedChute h)).reportChute c .bind := by
  rcases hcy with hcy | hcy <;> simp only [State.unbind, hcy, freedChute]

theorem unbind_emptyCart (c : Nat) (hcy : h.cycle = some .filling) (hid : h.cart = some id)
    (hk : Tbl.get s.carts id = some cart) (hbags : cart.bags = []) :
    s.unbind c h = ((s.freeCart id).putChute c (freedChute h)).reportChute c .bind := by
  simp only [State.unbind, hcy, currentCart_eq_some hid hk, hbags, List.isEmpty_nil, if_true, freedChute]

theorem unbind_withBags (c : Nat) (hcy : h.cycle = some .filling) (hid : h.cart = some id)
    (hk : Tbl.get s.carts id = some cart) (hbags : cart.bags ≠ []) :
    s.unbind c h = forcedChange s c (freedChute h) id cart := by
  simp only [State.unbind, hcy, currentCart_eq_some hid hk, List.isEmpty_iff, hbags, if_false, forcedChange,
    freedChute]

/-- A command that writes a SORT chute and reports it answers OK behind its CHUTE STATE. -/
theorem exec_chuteWritten {i : Instr} {body : State → CmdResult} {u : State} {cycle : CartCycle}
    {current : Option Nat} (hi : exec i s = .next (s.takeCommand src 0x4E body)) (hroom : s.supRoom 2)
    (hb : body s = .ok ((u.putChute c.toNat h).reportChute c.toNat .bind, [])) (hu : u.lu = s.lu)
    (hrole : h.role = .sort) (hcycle : h.cycle = some cycle) (hbound : h.bound = g.toNat)
    (hcart : h.cart = current) :
    exec i s = .next (((u.putChute c.toNat h).tell 0x39 ([c, 0] ++ b1 h.avail.ctorIdx
      ++ [BitVec.ofNat 8 cycle.ctorIdx, g] ++ bOpt 1 b1 current ++ [6])).answer src 0xCE 0 []) := by
  have hlen : s.lu.supTx.queue.length + 2 ≤ 60 := hroom.2
  rw [reportChute_putChute hrole (by rw [hu, Config.supReportPlaces]; omega), hcycle, hbound, hcart,
    b1_toNat] at hb
  refine exec_accepted hi (supReady_of_supRoom hroom) hb ?_
  rw [tell_queue_length, State.putChute_lu, hu, Config.supPlaces]
  omega

/-! The statements -/

/-- Settles O36: the checks of R41 in turn, then R42 by the chute's cart cycle. -/
theorem chuteBindFollowsCartCycle : Obligations.ChuteBindFollowsCartCycle := by
  intro s src c g h grp hroom h1 h48 hg1 hg hc hgrp hrole
  have hi := exec_chuteBind (s := s) (src := src) (p := [c, g])
  have hready := supReady_of_supRoom hroom
  have hbody := chuteBind_group h1 h48 hg1 hg hc hgrp
  rw [if_neg (not_not.2 hrole)] at hbody
  refine ⟨fun hb => ?_, fun hb => ⟨fun hbusy => ?_, fun hcy hmark hv => ?_⟩⟩
  · rw [if_pos hb] at hbody
    exact exec_accepted hi hready hbody hready.2
  · rw [if_neg hb, if_pos (bindBusy_iff.2 hbusy)] at hbody
    exact exec_refused hi hready hbody
  have hfree := chuteBind_free h1 h48 hg1 hg hc hgrp hrole hb (bindBusy_eq_false hcy hmark) hv
  refine ⟨fun hfull => exec_refused hi hready (hfree.trans (if_pos hfull)), fun hplace => ?_⟩
  replace hfree := hfree.trans (if_neg (Nat.not_le.2 hplace))
  refine ⟨fun hno => ?_, fun hswap => ?_, fun id cart hfill hid hk => ⟨fun hbags => ?_, fun hbags => ?_⟩⟩
  · rw [bindTo_noCart _ _ hno] at hfree
    exact (exec_chuteWritten hi hroom hfree rfl hrole rfl rfl rfl :)
  · rw [bindTo_swapping _ _ hswap] at hfree
    exact (exec_chuteWritten hi hroom hfree rfl hrole hswap rfl rfl :)
  · rw [bindTo_emptyCart _ _ hfill hid hk hbags] at hfree
    exact (exec_chuteWritten hi hroom hfree rfl hrole hfill rfl hid :)
  · rw [bindTo_withBags _ _ hfill hid hk hbags] at hfree
    exact exec_forcedChange hi hroom hfree hrole

/-- Settles O37: the checks of R41 in turn, then R43 by the chute's cart cycle. -/
theorem chuteUnbindFreesTheChute : Obligations.ChuteUnbindFreesTheChute := by
  intro s src c hroom h1 h48
  have hi := exec_chuteUnbind (s := s) (src := src) (p := [c, 0])
  have hready := supReady_of_supRoom hroom
  refine ⟨fun hc => exec_refused hi hready (chuteBind_absent h1 h48 (by decide) hc), fun h hc => ?_⟩
  have hbody := chuteBind_zero h1 h48 hc
  refine ⟨fun hrole => ?_, fun hrole hb => ?_, fun hrole hb hcy => ?_⟩
  · rw [if_pos hrole] at hbody
    exact exec_refused hi hready hbody
  · rw [if_neg (not_not.2 hrole), if_pos hb] at hbody
    exact exec_accepted hi hready hbody hready.2
  rw [if_neg (not_not.2 hrole), if_neg hb] at hbody
  refine ⟨fun hidle hnone => ?_, fun id cart hfill hid hk hmark => ?_⟩
  · have hbusy := bindBusy_eq_false (s := s) hcy (by simp [hnone])
    rw [hbusy, if_neg Bool.false_ne_true, unbind_idle _ hidle] at hbody
    exact (exec_chuteWritten (g := 0) hi hroom hbody rfl hrole rfl rfl rfl :)
  · have hbusy := bindBusy_eq_false (s := s) hcy fun id' cart' hid' hk' => by
      rw [Option.some.inj (hid'.symm.trans hid), hk] at hk'
      rwa [← Option.some.inj hk']
    rw [hbusy, if_neg Bool.false_ne_true] at hbody
    refine ⟨fun hbags => ?_, fun hbags => ?_⟩
    · rw [unbind_emptyCart _ hfill hid hk hbags] at hbody
      exact (exec_chuteWritten (g := 0) hi hroom hbody rfl hrole rfl rfl rfl :)
    · rw [unbind_withBags _ hfill hid hk hbags] at hbody
      obtain ⟨t, f1, f2, ht, hchutes, hcarts, hgroups, hmanifest, htrays, hsu, -, hsent⟩ :=
        exec_forcedChange hi hroom hbody hrole
      exact ⟨t, f1, f2, ht, hchutes, hcarts, hgroups, hmanifest, htrays, hsu, hsent⟩

end Sys2Proof.Machine.PlansAndBindings
end

section
/-! SUPPORT and the statement on WINDOW_CLOSE: a tilt passes into doubt, and its cart may close. -/

namespace Sys2Proof.Machine.PlansAndBindings

variable {s : State} {y : Layout} {h : Chute} {c k m id : Nat} {l : Load} {cart : Cart}

/-! The row and its alignment (R70) -/

/-- Every loop state but STOPPED raises a window close. -/
theorem raises_windowClose {st : LoopState} (hst : st ≠ .stopped) : st.raises .windowClose = true := by
  cases st with
  | stopped => exact absurd rfl hst
  | _ => rfl

/-- WINDOW_CLOSE of a configured chute acts where the chute's point aligns the tray. -/
theorem exec_windowClose (hy : s.lt.layout = some y) (hc : Tbl.get s.chutes c = some h)
    (hst : s.lt.state ≠ .stopped) :
    exec (.windowClose c k) s
      = if y.aligns s.lt.pos { kind := .windowClose, coord := (h.coord + h.window) % y.length, owner := c }
          = some k
        then .next (s.windowCloses c k) else .next s := by
  have hexec : exec (.windowClose c k) s = execWindowClose c k s := rfl
  simp only [hexec, execWindowClose, hy, hc, Chute.closeCoord, State.takeAlignment, raises_windowClose hst,
    if_true]

/-! A tilt at its window close (R98) -/

theorem windowCloses_of_not_ordered (ht : ∀ l cart, s.tray k ≠ .tiltOrdered l c cart) :
    s.windowCloses c k = s := by
  unfold State.windowCloses
  split
  · next l c' cart hk =>
    refine if_neg ?_
    rintro rfl
    exact ht l cart hk
  · rfl

theorem windowCloses_role (ht : s.tray k = .tiltOrdered l c none) :
    s.windowCloses c k = s.putTray k (.dropDoubt l c none) := by
  simp only [State.windowCloses, State.passIntoDoubt, State.enterDoubt, ht, if_true]

theorem windowCloses_cart (ht : s.tray k = .tiltOrdered l c (some id)) :
    s.windowCloses c k = (s.enterDoubt k).closingTest id .cartClosed := by
  simp only [State.windowCloses, State.passIntoDoubt, ht, if_true]

/-- What a tilt into a cart writes as it passes into doubt. -/
theorem enterDoubt_cart (ht : s.tray k = .tiltOrdered l c (some id)) (hm : l.index = some m)
    (hk : Tbl.get s.carts id = some cart) :
    s.enterDoubt k
      = if l.isManifest then
          (((s.putTray k (.dropDoubt l c (some id))).putCart id
            { cart with bags := remark m .ordered .doubt cart.bags }).modifyGroup cart.group
              (fun g => { g with bagsInCarts := g.bagsInCarts + 1 })).setEntryState m (.inCart id)
        else
          ((s.putTray k (.dropDoubt l c (some id))).putCart id
            { cart with bags := remark m .ordered .doubt cart.bags }).modifyGroup cart.group
              (fun g => { g with bagsInCarts := g.bagsInCarts + 1 }) := by
  simp only [State.enterDoubt, ht, hm, State.editBags, State.putTray_carts, hk]

/-- The tables a doubt leaves for its cart's closing test. -/
theorem enterDoubt_cart_tables (ht : s.tray k = .tiltOrdered l c (some id)) (hm : l.index = some m)
    (hk : Tbl.get s.carts id = some cart) :
    (s.enterDoubt k).carts = Tbl.set s.carts id { cart with bags := remark m .ordered .doubt cart.bags }
      ∧ (s.enterDoubt k).groups = Tbl.modify s.groups cart.group
          (fun g => { g with bagsInCarts := g.bagsInCarts + 1 }) := by
  rw [enterDoubt_cart ht hm hk]
  split <;> exact ⟨by simp, by simp⟩

/-! The closing test (R122) -/

theorem doneClosing_iff : cart.doneClosing = true
    ↔ cart.state = .closing ∧ cart.bags.filter (fun b => decide (b.mark = .ordered)) = [] := by
  simp [Cart.doneClosing, Cart.marked]

theorem closingTest_of_open (cause : ChuteCause) (hk : Tbl.get s.carts id = some cart)
    (hopen : ¬cart.doneClosing = true) : s.closingTest id cause = s := by
  simp only [State.closingTest, hk, if_neg hopen]

/-- A cart done closing is CLOSED, queued and off its chute, which starts its swap. -/
theorem closingTest_closes (cause : ChuteCause) (hk : Tbl.get s.carts id = some cart)
    (hdone : cart.doneClosing = true) :
    (s.closingTest id cause).carts = Tbl.set s.carts id
        { cart with state := .closed, closedTime := some s.lu.clock, chute := none }
      ∧ (s.closingTest id cause).groups = Tbl.modify s.groups cart.group (Group.enqueue id)
      ∧ ∀ ch, cart.chute = some ch →
          (s.closingTest id cause).chutes = Tbl.modify s.chutes ch (Chute.startSwap s.lu.clock) := by
  cases hch : cart.chute with
  | none =>
    simp only [State.closingTest, State.closeCart, hk, hdone, hch, if_true]
    exact ⟨rfl, rfl, nofun⟩
  | some ch =>
    simp only [State.closingTest, State.closeCart, hk, hdone, hch, if_true, State.reportChute_carts,
      State.reportCartClosed_carts, State.reportChute_groups, State.reportCartClosed_groups,
      State.reportChute_chutes, State.reportCartClosed_chutes]
    refine ⟨rfl, rfl, ?_⟩
    rintro _ ⟨⟩
    rfl

theorem modify_modify {α : Type} (t : Tbl α) (j : Nat) (f g : α → α) :
    Tbl.modify (Tbl.modify t j f) j g = Tbl.modify t j (fun x => g (f x)) := by
  simp only [Tbl.modify, List.map_map]
  refine List.map_congr_left fun r _ => ?_
  by_cases hr : r.1 = j <;> simp [hr]

/-! The statement -/

/-- Settles O27: the alignment, then R98 by the tray's state, then the closing test of R122 on the cart as
the doubt leaves it. -/
theorem windowCloseEntersDoubt : Obligations.WindowCloseEntersDoubt := by
  intro s y h c k hy hc hst
  have hexec := exec_windowClose (k := k) hy hc hst
  refine ⟨fun hno => hexec.trans (if_neg hno), fun halign => ?_⟩
  rw [if_pos halign] at hexec
  refine ⟨fun l ht => ?_, fun l id m cart ht hm hk => ?_, fun ht => ?_⟩
  · rw [hexec, windowCloses_role ht]
  · intro bags left doubted u
    have hu : s.enterDoubt k = u := enterDoubt_cart ht hm hk
    obtain ⟨hcarts, hgroups⟩ := enterDoubt_cart_tables ht hm hk
    have hcart : Tbl.get (s.enterDoubt k).carts id = some { cart with bags := bags } := by
      rw [hcarts, Tbl.get_set_same]
    rw [windowCloses_cart ht] at hexec
    refine ⟨fun hopen => ?_, fun hclosing hleft => ?_⟩
    · rw [hexec, closingTest_of_open _ hcart, hu]
      rw [doneClosing_iff]
      rintro ⟨hclosing, hleft⟩
      exact hopen.elim (absurd hclosing) (absurd hleft)
    · obtain ⟨hcarts', hgroups', hchutes'⟩ :=
        closingTest_closes .cartClosed hcart (doneClosing_iff.2 ⟨hclosing, hleft⟩)
      rw [hcarts, Tbl.set_set, State.enterDoubt_lu] at hcarts'
      refine ⟨_, hexec, by rw [State.closingTest_trays, hu], by rw [State.closingTest_manifest, hu],
        by rw [State.closingTest_su, State.enterDoubt_su],
        by rw [State.closingTest_stations, State.enterDoubt_stations],
        by rw [hcarts', Tbl.get_set_same], fun id' hid => by rw [hcarts', Tbl.get_set_other _ _ _ _ hid],
        ?_, fun ch hch => ?_⟩
      · rw [hgroups', hgroups, modify_modify]
        rfl
      · rw [hchutes' ch hch, State.enterDoubt_chutes, State.enterDoubt_lu]
        rfl
  · rw [hexec, windowCloses_of_not_ordered ht]

end Sys2Proof.Machine.PlansAndBindings
end

section
/-! SUPPORT and the statements on what every step keeps of the loop: its values in range, STOPPED with
LOOP_RUN, the eye's alignment taken, and the one source of SYNCED, of the layout and of the node address. -/

namespace Sys2Proof.Machine.TrayLoop

variable {c : Instr} {s t : State}

/-- A command is a power-on reset, or it keeps what its leave does not except. -/
theorem exec_powerOn_or_keeps (h : exec c s = .next t) :
    (∃ addr run, c = .powerOnReset addr run ∧ t = State.powerOn addr run s.lu.occ s.freeIdx s.pending)
      ∨ Keeps (leaveOf c) s t := by
  by_cases hp : ∃ addr run, c = .powerOnReset addr run
  · obtain ⟨addr, run, rfl⟩ := hp
    cases h
    exact .inl ⟨addr, run, rfl, rfl⟩
  · exact .inr (exec_keeps c s t (fun addr run hc => hp ⟨addr, run, hc⟩) h)

/-! What a power-on reset leaves (R67, R165, R174) -/

section PowerOn

variable {addr : BitVec 2} {run occ : Bool} {free : Nat} {q : List Instr}

theorem powerOn_loopOk : (State.powerOn addr run occ free q).lt.Ok :=
  ⟨fun _ => ⟨rfl, rfl, rfl, rfl, rfl, rfl⟩, nofun, Nat.zero_le 1⟩

theorem powerOn_runOk : (State.powerOn addr run occ free q).runOk := by
  cases run <;> simp [State.runOk, State.powerOn]

theorem powerOn_not_synced : (State.powerOn addr run occ free q).lt.state ≠ .synced := by
  cases run <;> simp [State.powerOn]

theorem powerOn_node : (State.powerOn addr run occ free q).lu.node.toNat = 1 + addr.toNat := by
  have haddr := addr.isLt
  simp only [State.powerOn, BitVec.toNat_ofNat]
  omega

end PowerOn

/-! What a command has leave to do -/

theorem leaveOf_home (h : ∀ occ, c ≠ .homeRise occ) : (leaveOf c).home = false := by
  cases c with
  | homeRise occ => exact absurd rfl (h occ)
  | _ => rfl

theorem leaveOf_layout (h : ∀ src p, c ≠ .layoutSet src p) : (leaveOf c).layout = false := by
  cases c with
  | layoutSet src p => exact absurd rfl (h src p)
  | _ => rfl

theorem leaveOf_eye (c : Instr) : (leaveOf c).eye = false := by
  cases c <;> rfl

/-! What every command keeps of the loop -/

theorem exec_loopOk (h : exec c s = .next t) (ok : s.lt.Ok) : t.lt.Ok := by
  rcases exec_powerOn_or_keeps h with ⟨addr, run, -, rfl⟩ | hk
  · exact powerOn_loopOk
  · exact hk.loop ok

theorem exec_runOk (h : exec c s = .next t) (ok : s.runOk) : t.runOk := by
  rcases exec_powerOn_or_keeps h with ⟨addr, run, -, rfl⟩ | hk
  · exact powerOn_runOk
  · exact hk.run ok

theorem exec_eyeTaken (h : exec c s = .next t) (taken : s.lt.eyeTaken = true) : t.lt.eyeTaken = true := by
  rcases exec_powerOn_or_keeps h with ⟨addr, run, -, rfl⟩ | hk
  · rfl
  · exact hk.eye (leaveOf_eye c) taken

/-- What every command keeps, for any queue of waiting commands, every step keeps. -/
theorem step_keeps_of_exec (P : State → Prop) (hq : ∀ (u : State) (q : List Instr), P u → P (u.withPending q))
    (hexec : ∀ {c : Instr} {u v : State}, exec c u = .next v → P u → P v) (hs : P s) (h : step s = .next t) :
    P t := by
  cases hp : s.pending with
  | nil =>
    simp only [step, hp] at h
    cases h
    exact hs
  | cons c rest =>
    simp only [step, hp] at h
    exact hexec h (hq s rest hs)

/-! The statements -/

/-- Settles O6: each of the three properties holds after a power-on reset, and every other command keeps it. -/
theorem loopValuesStayInRange : Obligations.LoopValuesStayInRange :=
  ⟨fun _ _ hs h => step_keeps_of_exec (fun u => u.lt.Ok ∧ u.runOk) (fun _ _ ok => ok)
      (fun hx ok => ⟨exec_loopOk hx ok.1, exec_runOk hx ok.2⟩) hs h,
    fun _ _ hs h => step_keeps_of_exec (fun u => u.lt.eyeTaken = true) (fun _ _ taken => taken)
      (fun hx taken => exec_eyeTaken hx taken) hs h⟩

/-- Settles O8: no command but a rise of HOME has leave to synchronise, none but LAYOUT SET to load a
layout, and every command but a power-on reset keeps the node address. -/
theorem syncLayoutAndAddressHaveOneSource : Obligations.SyncLayoutAndAddressHaveOneSource := by
  refine ⟨fun c s t hhome h hsync => ?_, fun c s t hset hpower h => ?_, fun c s t hpower h => ?_,
    fun addr run s => ⟨_, rfl, powerOn_node⟩⟩
  · rcases exec_powerOn_or_keeps h with ⟨addr, run, -, rfl⟩ | hk
    · exact absurd hsync powerOn_not_synced
    · exact hk.sync (leaveOf_home hhome) hsync
  · exact (exec_keeps c s t hpower h).lay (leaveOf_layout hset)
  · exact (exec_keeps c s t hpower h).node

end Sys2Proof.Machine.TrayLoop
end

section
/-! SUPPORT and the statements on the alignments of a count and on the loop point list. -/

namespace Sys2Proof.Machine.TrayLoop

variable {y : Layout} {pos k e : Nat} {pt q : LoopPoint}

/-! Alignments (R70) -/

theorem aligns_iff_offset :
    y.aligns pos pt = some k ↔ y.offset pos pt.coord % y.pitch = 0 ∧ y.offset pos pt.coord / y.pitch = k := by
  unfold Layout.aligns
  split <;> simp [*]

/-- A position lies `d` counts past another exactly when it is reached from it by `d` counts. -/
theorem offset_eq_iff {z d : Nat} (hpos : pos < y.length) (hz : z < y.length) (hd : d < y.length) :
    y.offset pos z = d ↔ pos = (z + d) % y.length := by
  unfold Layout.offset
  rcases Nat.lt_or_ge pos z with hlt | hge
  · rw [Nat.mod_eq_of_lt (by omega)]
    rcases Nat.lt_or_ge (z + d) y.length with hin | hout
    · rw [Nat.mod_eq_of_lt hin]
      omega
    · rw [Nat.mod_eq_sub_mod hout, Nat.mod_eq_of_lt (by omega)]
      omega
  · rw [Nat.mod_eq_sub_mod (by omega), Nat.mod_eq_of_lt (by omega)]
    rcases Nat.lt_or_ge (z + d) y.length with hin | hout
    · rw [Nat.mod_eq_of_lt hin]
      omega
    · rw [Nat.mod_eq_sub_mod hout, Nat.mod_eq_of_lt (by omega)]
      omega

theorem offset_lt {z : Nat} (hlen : 0 < y.length) : y.offset pos z < y.length :=
  Nat.mod_lt _ hlen

/-- A point aligns tray `k` exactly where the tray, `k` pitches behind count 0, stands at the point. -/
theorem aligns_iff (hp : 0 < y.pitch) (hpos : pos < y.length) (hX : pt.coord < y.length) :
    y.aligns pos pt = some k ↔ k < y.trays ∧ pos = (pt.coord + k * y.pitch) % y.length := by
  have hoff : y.offset pos pt.coord % y.pitch = 0 ∧ y.offset pos pt.coord / y.pitch = k
      ↔ y.offset pos pt.coord = k * y.pitch := by
    constructor
    · rintro ⟨hmod, rfl⟩
      exact (Nat.div_mul_cancel (Nat.dvd_of_mod_eq_zero hmod)).symm
    · intro h
      exact ⟨by rw [h, Nat.mul_mod_left], by rw [h, Nat.mul_div_cancel _ hp]⟩
  rw [aligns_iff_offset, hoff]
  constructor
  · intro h
    have hlt : k * y.pitch < y.length := h ▸ offset_lt (by omega)
    exact ⟨Nat.lt_of_mul_lt_mul_right hlt, (offset_eq_iff hpos hX hlt).1 h⟩
  · rintro ⟨hk, h⟩
    exact (offset_eq_iff hpos hX (Nat.mul_lt_mul_of_pos_right hk hp)).2 h

/-- Both a point and the position moved back by the same count. -/
theorem mod_shift_back {x d n : Nat} (he : e ≤ n) : ((x + n - e) % n + d) % n = ((x + d) % n + n - e) % n := by
  rw [Nat.mod_add_mod, Nat.add_sub_assoc he, Nat.add_sub_assoc he, Nat.mod_add_mod]
  congr 1
  omega

/-- A point `e` counts before another aligns the same tray `e` counts earlier. -/
theorem aligns_shift_back (hp : 0 < y.pitch) (hpos : pos < y.length) (hX : pt.coord < y.length)
    (he : e ≤ y.length) (hq : q.coord = (pt.coord + y.length - e) % y.length)
    (h : y.aligns pos pt = some k) : y.aligns ((pos + y.length - e) % y.length) q = some k := by
  have hlen : 0 < y.length := by omega
  obtain ⟨hk, hat⟩ := (aligns_iff hp hpos hX).1 h
  refine (aligns_iff hp (Nat.mod_lt _ hlen) (hq ▸ Nat.mod_lt _ hlen)).2 ⟨hk, ?_⟩
  rw [hq, mod_shift_back he, ← hat]

/-- Settles O15, by the offset of the position from the point. -/
theorem alignmentIsTrayAtPoint : Obligations.AlignmentIsTrayAtPoint :=
  fun _ _ _ _ hp hpos hX =>
    ⟨aligns_iff hp hpos hX, fun _ _ he hq h => aligns_shift_back hp hpos hX he hq h⟩

/-! What a loop state raises, and the order of a count (R70, R71) -/

section Count

variable {s : State} {occ : Bool}

theorem takeAlignment_of_not_raised (h : s.lt.state.raises pt.kind = false) : s.takeAlignment pt k occ = s := by
  simp only [State.takeAlignment, h, Bool.false_eq_true, if_false]

theorem raises_stopped (kind : PointKind) : LoopState.stopped.raises kind = false := by
  cases kind <;> rfl

/-- While the position is not known, the kinds that need it are not raised. -/
theorem raises_lost {st : LoopState} {kind : PointKind} (hst : st = .unsynced ∨ st = .slipped)
    (hk : kind = .home ∨ kind = .arrival ∨ kind = .decision ∨ kind = .launch) : st.raises kind = false := by
  rcases hst with rfl | rfl <;> rcases hk with rfl | rfl | rfl | rfl <;> rfl

/-- The alignment of one point of a list, if it aligns a tray at the position. -/
def alignAt (y : Layout) (pos : Nat) (occ : Bool) (t : State) (pt : LoopPoint) : State :=
  match y.aligns pos pt with
  | some k => t.takeAlignment pt k occ
  | none => t

theorem takeCount_eq_foldl (s : State) (y : Layout) (occ : Bool) :
    s.takeCount y occ = (s.countOrder y).foldl (alignAt y s.lt.pos occ) s := rfl

/-- A count takes no points but those of the list. -/
theorem mem_points_of_mem_countOrder (h : pt ∈ s.countOrder y) : pt ∈ s.lt.points := by
  obtain ⟨p, hp, hmem⟩ := List.mem_flatMap.1 h
  split at hmem
  · cases hmem
  · split at hmem
    · rcases List.mem_cons.1 hmem with rfl | hmem
      · exact hp
      · exact (List.mem_filter.1 hmem).1
    · rw [List.mem_singleton.1 hmem]
      exact hp

/-- A run of points that each leave the state as it is. -/
theorem foldl_alignAt_eq_self {l : List LoopPoint} (h : ∀ p ∈ l, alignAt y pos occ s p = s) :
    l.foldl (alignAt y pos occ) s = s := by
  induction l with
  | nil => rfl
  | cons p l ih =>
    rw [List.foldl_cons, h p List.mem_cons_self]
    exact ih fun q hq => h q (List.mem_cons_of_mem _ hq)

theorem takeCount_of_none_aligned (h : ∀ pt ∈ s.lt.points, y.aligns s.lt.pos pt = none) :
    s.takeCount y occ = s :=
  foldl_alignAt_eq_self fun p hp => by
    simp only [alignAt, h p (mem_points_of_mem_countOrder hp)]

/-- No launch point waits where no launch close aligns a tray. -/
theorem launchWaits_eq_false (h : ∀ p ∈ s.lt.points, p.kind = .launchClose → y.aligns s.lt.pos p = none)
    (pt : LoopPoint) : s.launchWaits y pt = false := by
  have hany : s.lt.points.any (fun q => decide (q.kind = .launchClose) && q.owner == pt.owner && pt.before q
      && (y.aligns s.lt.pos q).isSome) = false := by
    rw [List.any_eq_false]
    intro p hp hbad
    simp only [Bool.and_eq_true, decide_eq_true_iff] at hbad
    obtain ⟨⟨⟨hkind, -⟩, -⟩, hal⟩ := hbad
    simp [h p hp hkind] at hal
  simp only [State.launchWaits, hany, Bool.and_false]

/-- Then the count's order is the list's. -/
theorem countOrder_eq_points (h : ∀ p ∈ s.lt.points, p.kind = .launchClose → y.aligns s.lt.pos p = none) :
    s.countOrder y = s.lt.points := by
  simp [State.countOrder, launchWaits_eq_false h]

/-- Settles O16: what is not raised changes nothing, and no launch point waits without a launch close. -/
theorem alignmentKindsFollowLoopState : Obligations.AlignmentKindsFollowLoopState := by
  refine ⟨fun s pt k occ hst => ?_, fun s pt k occ hst hk => ?_, fun s y occ h => ?_, fun s y occ h => ?_⟩
  · exact takeAlignment_of_not_raised (hst ▸ raises_stopped pt.kind)
  · exact takeAlignment_of_not_raised (raises_lost hst hk)
  · exact takeCount_of_none_aligned h
  · rw [takeCount_eq_foldl, countOrder_eq_points h]
    rfl

end Count

/-! The loop point list (R71) -/

section Points

variable {a b : LoopPoint} {l : List LoopPoint} {s : State}

/-- The order of R71, two points of one place in either order. -/
def PointLe (a b : LoopPoint) : Prop :=
  a.coord < b.coord ∨ a.coord = b.coord
    ∧ (a.kind.ctorIdx < b.kind.ctorIdx ∨ a.kind = b.kind ∧ a.owner ≤ b.owner)

theorem pointKind_eq_of_ctorIdx {x z : PointKind} (h : x.ctorIdx = z.ctorIdx) : x = z := by
  rw [← PointKind.ofNat_ctorIdx x, h, PointKind.ofNat_ctorIdx]

theorem before_iff : a.before b = true ↔ a.coord < b.coord ∨ a.coord = b.coord
    ∧ (a.kind.ctorIdx < b.kind.ctorIdx ∨ a.kind = b.kind ∧ a.owner < b.owner) := by
  simp [LoopPoint.before]

theorem pointLe_of_before (h : a.before b = true) : PointLe a b := by
  rcases before_iff.1 h with hc | ⟨hc, hk | ⟨hk, ho⟩⟩
  · exact .inl hc
  · exact .inr ⟨hc, .inl hk⟩
  · exact .inr ⟨hc, .inr ⟨hk, ho.le⟩⟩

theorem pointLe_of_not_before (h : ¬a.before b = true) : PointLe b a := by
  rw [before_iff] at h
  rcases Nat.lt_trichotomy b.coord a.coord with hc | hc | hc
  · exact .inl hc
  · refine .inr ⟨hc, ?_⟩
    rcases Nat.lt_trichotomy b.kind.ctorIdx a.kind.ctorIdx with hk | hk | hk
    · exact .inl hk
    · have hkind := pointKind_eq_of_ctorIdx hk
      refine .inr ⟨hkind, Nat.le_of_not_lt fun ho => ?_⟩
      exact h (.inr ⟨hc.symm, .inr ⟨hkind.symm, ho⟩⟩)
    · exact absurd (.inr ⟨hc.symm, .inl hk⟩) h
  · exact absurd (.inl hc) h

theorem PointLe.trans {d : LoopPoint} (h : PointLe a b) (h' : PointLe b d) : PointLe a d := by
  rcases h with hc | ⟨hc, hk | ⟨hk, ho⟩⟩ <;> rcases h' with hc' | ⟨hc', hk' | ⟨hk', ho'⟩⟩
  · exact .inl (hc.trans hc')
  · exact .inl (hc' ▸ hc)
  · exact .inl (hc' ▸ hc)
  · exact .inl (hc ▸ hc')
  · exact .inr ⟨hc.trans hc', .inl (hk.trans hk')⟩
  · exact .inr ⟨hc.trans hc', .inl (hk' ▸ hk)⟩
  · exact .inl (hc ▸ hc')
  · exact .inr ⟨hc.trans hc', .inl (hk ▸ hk')⟩
  · exact .inr ⟨hc.trans hc', .inr ⟨hk.trans hk', ho.trans ho'⟩⟩

theorem insertPoint_perm (a : LoopPoint) (l : List LoopPoint) : (insertPoint a l).Perm (a :: l) := by
  induction l with
  | nil => exact .refl _
  | cons b l ih =>
    unfold insertPoint
    split
    · exact .refl _
    · exact (ih.cons b).trans (.swap a b l)

theorem insertPoint_sorted (h : l.Pairwise PointLe) : (insertPoint a l).Pairwise PointLe := by
  induction l with
  | nil => exact List.pairwise_singleton _ _
  | cons b l ih =>
    obtain ⟨hb, hl⟩ := List.pairwise_cons.1 h
    unfold insertPoint
    split
    · next hab =>
      have hab := pointLe_of_before hab
      refine List.pairwise_cons.2 ⟨fun d hd => ?_, h⟩
      rcases List.mem_cons.1 hd with rfl | hd
      · exact hab
      · exact hab.trans (hb d hd)
    · next hab =>
      refine List.pairwise_cons.2 ⟨fun d hd => ?_, ih hl⟩
      rcases List.mem_cons.1 ((insertPoint_perm a l).mem_iff.1 hd) with rfl | hd
      · exact pointLe_of_not_before hab
      · exact hb d hd

theorem foldr_insertPoint_perm (l : List LoopPoint) : (l.foldr insertPoint []).Perm l := by
  induction l with
  | nil => exact .refl _
  | cons a l ih => exact (insertPoint_perm a _).trans (ih.cons a)

theorem foldr_insertPoint_sorted (l : List LoopPoint) : (l.foldr insertPoint []).Pairwise PointLe := by
  induction l with
  | nil => exact .nil
  | cons a l ih => exact insertPoint_sorted ih

theorem rebuildPoints_points (hy : s.lt.layout = some y) :
    s.rebuildPoints.lt.points = (s.allPoints y).foldr insertPoint [] := by
  simp only [State.rebuildPoints, hy]

theorem allPoints_length : (s.allPoints y).length = 2 + 2 * s.stations.length + 3 * s.chutes.length := by
  simp [State.allPoints, List.length_flatMap]
  omega

/-- Settles O17: inserting each point at its place keeps the order and permutes the points. -/
theorem loopPointsAreAllPointsInOrder : Obligations.LoopPointsAreAllPointsInOrder := by
  intro s y hy
  have hperm : s.rebuildPoints.lt.points.Perm (s.allPoints y) := by
    rw [rebuildPoints_points hy]
    exact foldr_insertPoint_perm _
  refine ⟨rfl, hperm.trans ?_, ?_, hperm.length_eq.trans allPoints_length⟩
  · refine .cons _ (.cons _ (.append (.flatMap_left _ fun r _ => ?_) (.flatMap_left _ fun r _ => ?_)))
    · exact .swap _ _ _
    · exact ((List.Perm.swap _ _ _).trans ((List.Perm.swap _ _ _).cons _)).trans (.swap _ _ _)
  · rw [rebuildPoints_points hy]
    exact foldr_insertPoint_sorted _

end Points

end Sys2Proof.Machine.TrayLoop
end

section
/-! SUPPORT and the statements on the loop lines: LOOP_RUN, the pulses and the homes. -/

namespace Sys2Proof.Machine.TrayLoop

variable {s : State} {y : Layout} {pt : LoopPoint} {k : Nat} {occ : Bool}

/-! The two writes of a loop line: the level of OCC and the loop tracker -/

/-- The state with the level of OCC read with a pulse or a home. -/
def occRead (s : State) (occ : Bool) : State := { s with lu := { s.lu with occ := occ } }

/-- The state with its loop tracker written. -/
def setLoop (s : State) (lt : LoopTracker) : State := { s with lt := lt }

@[simp] theorem occRead_lt : (occRead s occ).lt = s.lt := rfl
@[simp] theorem setLoop_lt (lt : LoopTracker) : (setLoop s lt).lt = lt := rfl

/-! Reports of the loop state (R73) -/

theorem b2_zero : b2 0 = [0, 0] := rfl

theorem reportLoop_room {old : LoopState} {cause : LoopCause} {d : Option Int}
    (h : s.lu.supTx.queue.length < 60) :
    s.reportLoop old cause d = s.tell 0x3B ([BitVec.ofNat 8 s.lt.state.ctorIdx, BitVec.ofNat 8 old.ctorIdx,
      BitVec.ofNat 8 cause.ctorIdx] ++ b2 s.lt.pos ++ bOpt 2 bInt d) :=
  s.report_room _ _ h

theorem reportLoop_full {old : LoopState} {cause : LoopCause} {d : Option Int}
    (h : 60 ≤ s.lu.supTx.queue.length) : s.reportLoop old cause d = s.setOverrun :=
  s.report_full _ _ h

/-! LOOP_RUN (R72) -/

theorem exec_loopRunRise : exec .loopRunRise s = .next s.runRises := rfl

theorem exec_loopRunFall : exec .loopRunFall s = .next s.runFalls := rfl

theorem runRises_of_low (h : s.lu.loopRun = false) :
    s.runRises = State.reportLoop { s with
      lu := { s.lu with loopRun := true }, lt := { s.lt with state := .unsynced } } s.lt.state .runHigh none := by
  simp only [State.runRises, h, Bool.false_eq_true, if_false]

/-- A fall of LOOP_RUN, the values that a SYNCED loop loses written out. -/
theorem runFalls_of_high (h : s.lu.loopRun = true) :
    s.runFalls = State.reportLoop { s with
      lu := { s.lu with loopRun := false },
      lt :=
        if s.lt.state = LoopState.synced then
          { s.lt with state := .stopped, lossPoint := s.lt.pos, advances := 0, absorb := 0 }
        else { s.lt with state := .stopped } } s.lt.state .runLow none := by
  simp only [State.runFalls, h, if_true]
  split <;> rfl

/-- Settles O19: the change of each edge with its report; what the fall leaves of the state and of P does not
depend on whether the loop was SYNCED. -/
theorem loopRunLineMovesLoopState : Obligations.LoopRunLineMovesLoopState := by
  refine ⟨fun s hlow => ⟨fun hq => ?_, fun hq => ?_⟩, fun s hhigh => ⟨fun hq => ?_, fun hq => ?_⟩,
    fun s hhigh => ?_, fun s hlow => ?_⟩
  · rw [exec_loopRunRise, runRises_of_low hlow, reportLoop_room (by exact hq)]
    rfl
  · rw [exec_loopRunRise, runRises_of_low hlow, reportLoop_full (by exact hq)]
    rfl
  · rw [exec_loopRunFall, runFalls_of_high hhigh, reportLoop_room (by exact hq)]
    split <;> rfl
  · rw [exec_loopRunFall, runFalls_of_high hhigh, reportLoop_full (by exact hq)]
    rfl
  · rw [exec_loopRunRise, State.runRises, if_pos hhigh]
  · rw [exec_loopRunFall, State.runFalls, if_neg (by simp [hlow])]

/-! The loop tracker under an alignment: only a missed home changes it (R70, R78) -/

@[simp] theorem strayBag_lt (m slot cls : Nat) (loc : StrayLoc) (cause : OpenCause) :
    (s.strayBag m slot cls loc cause).lt = s.lt := by
  simp [State.strayBag]

@[simp] theorem applyResolution_lt (m slot : Nat) (res : Resolution) (loc : StrayLoc) (cause : OpenCause) :
    (s.applyResolution m slot res loc cause).lt = s.lt := by
  cases res <;> simp [State.applyResolution]

@[simp] theorem resolveTray_lt (l : Load) : (s.resolveTray k l).lt = s.lt := by
  unfold State.resolveTray
  split <;> simp

@[simp] theorem lapLimitTest_lt : (s.lapLimitTest k).lt = s.lt := by
  unfold State.lapLimitTest
  split
  · split
    · split <;> simp
    · rfl
  · rfl

@[simp] theorem reportRiding_lt (l : Load) : (s.reportRiding k l).lt = s.lt := by
  simp [State.reportRiding]

@[simp] theorem bagSeen_lt (l : Load) : (s.bagSeen k l).lt = s.lt := by
  unfold State.bagSeen State.rideLap
  dsimp only
  split
  · split
    · simp
    · split <;> simp
  · split <;> simp

@[simp] theorem untrackedBag_lt : (s.untrackedBag k).lt = s.lt := by
  simp [State.untrackedBag]

@[simp] theorem lostBag_lt (l : Load) : (s.lostBag k l).lt = s.lt := by
  unfold State.lostBag
  dsimp only
  split <;> simp

@[simp] theorem passIntoDoubt_lt : (s.passIntoDoubt k).lt = s.lt := by
  unfold State.passIntoDoubt
  split <;> simp

@[simp] theorem bagInCart_lt (x : Tilt) : (s.bagInCart x).lt = s.lt := by
  unfold State.bagInCart
  dsimp only
  split <;> simp

@[simp] theorem settleSorted_lt (x : Tilt) (basis : Basis) : (s.settleSorted x basis).lt = s.lt := by
  unfold State.settleSorted State.reportSorted
  dsimp only
  split
  · simp
  · split <;> simp

@[simp] theorem roleDrop_lt (c : Nat) (l : Load) : (s.roleDrop k c l).lt = s.lt := by
  unfold State.roleDrop
  dsimp only
  split <;> simp

@[simp] theorem settleDropped_lt (basis : Basis) : (s.settleDropped k basis).lt = s.lt := by
  unfold State.settleDropped
  split
  · split <;> simp
  · simp
  · rfl

@[simp] theorem undoSorted_lt (x : Tilt) : (s.undoSorted x).lt = s.lt := by
  unfold State.undoSorted State.correctAboard
  dsimp only
  split
  · split <;> simp
  · simp

@[simp] theorem settleOnTray_lt : (s.settleOnTray k).lt = s.lt := by
  unfold State.settleOnTray
  dsimp only
  split
  · split <;> simp
  · rfl

@[simp] theorem settleByEye_lt : (s.settleByEye k occ).lt = s.lt := by
  unfold State.settleByEye
  split <;> simp

@[simp] theorem eyePass_lt : (s.eyePass k occ).lt = s.lt := by
  unfold State.eyePass
  split
  · split <;> simp
  · rfl
  · split <;> simp
  · simp
  · simp

@[simp] theorem windowCloses_lt (c : Nat) : (s.windowCloses c k).lt = s.lt := by
  unfold State.windowCloses
  split
  · split <;> simp
  · rfl

@[simp] theorem launchCloses_lt (n : Nat) : (s.launchCloses n k).lt = s.lt := by
  unfold State.launchCloses
  split
  · rfl
  · split <;> simp

@[simp] theorem arrivalPoint_lt (c : Nat) : (s.arrivalPoint c k).lt = s.lt := by
  unfold State.arrivalPoint
  split
  · split <;> simp
  · rfl

@[simp] theorem enterClosing_lt (id : Nat) (cause : CloseCause) : (s.enterClosing id cause).lt = s.lt := by
  unfold State.enterClosing
  dsimp only
  split
  · rfl
  · split <;> simp

@[simp] theorem fullTest_lt (id c : Nat) : (s.fullTest id c).lt = s.lt := by
  unfold State.fullTest
  split
  · rfl
  · split
    · rfl
    · split <;> simp

@[simp] theorem reserve_lt (id c : Nat) (l : Load) : (s.reserve id c l).lt = s.lt := by
  unfold State.reserve
  split <;> simp

@[simp] theorem takeTilt_lt (c : Nat) (l : Load) (h : Chute) : (s.takeTilt c k l h).lt = s.lt := by
  unfold State.takeTilt
  dsimp only
  split <;> simp

@[simp] theorem decisionPoint_lt (c : Nat) : (s.decisionPoint c k).lt = s.lt := by
  unfold State.decisionPoint
  split
  · split <;> simp
  · rfl

@[simp] theorem offerLaunch_lt (n : Nat) : (s.offerLaunch n k).lt = s.lt := by
  unfold State.offerLaunch
  split
  · rfl
  · split
    · split <;> simp
    · rfl

/-- A home is raised in no state but SYNCED. -/
theorem raises_home_iff {st : LoopState} : st.raises .home = true ↔ st = .synced := by
  cases st <;> simp [LoopState.raises]

/-- An alignment leaves the loop tracker as it is, or counts a missed home. -/
theorem takeAlignment_lt_or_home (s : State) (pt : LoopPoint) (k : Nat) (occ : Bool) :
    (s.takeAlignment pt k occ).lt = s.lt
      ∨ pt.kind = .home ∧ s.lt.state = .synced ∧ s.takeAlignment pt k occ = s.homeAligned := by
  unfold State.takeAlignment
  split
  · next hr =>
    cases hk : pt.kind with
    | home =>
      rw [hk, raises_home_iff] at hr
      dsimp only
      split
      · exact .inr ⟨rfl, hr, rfl⟩
      · exact .inl rfl
    | occupancy => exact .inl eyePass_lt
    | windowClose => exact .inl (windowCloses_lt _)
    | launchClose => exact .inl (launchCloses_lt _)
    | arrival => exact .inl (arrivalPoint_lt _)
    | decision => exact .inl (decisionPoint_lt _)
    | launch => exact .inl (offerLaunch_lt _)
  · exact .inl rfl

theorem takeAlignment_lt (h : pt.kind ≠ .home ∨ s.lt.state ≠ .synced) :
    (s.takeAlignment pt k occ).lt = s.lt := by
  rcases takeAlignment_lt_or_home s pt k occ with hlt | ⟨hk, hst, -⟩
  · exact hlt
  · exact (h.elim (absurd hk) (absurd hst))

theorem alignAt_lt {pos : Nat} (h : pt.kind ≠ .home ∨ s.lt.state ≠ .synced) :
    (alignAt y pos occ s pt).lt = s.lt := by
  unfold alignAt
  split
  · exact takeAlignment_lt h
  · rfl

theorem foldl_alignAt_lt {pos : Nat} {l : List LoopPoint}
    (h : ∀ p ∈ l, p.kind ≠ .home ∨ s.lt.state ≠ .synced) : (l.foldl (alignAt y pos occ) s).lt = s.lt := by
  induction l generalizing s with
  | nil => rfl
  | cons p l ih =>
    have hp := alignAt_lt (y := y) (pos := pos) (occ := occ) (h p List.mem_cons_self)
    rw [List.foldl_cons, ih, hp]
    intro q hq
    rw [hp]
    exact h q (List.mem_cons_of_mem _ hq)

/-! A missed home and a slip (R76, R78) -/

/-- The loop tracker that a slip leaves (R72). -/
def slippedLoop (t : LoopTracker) : LoopTracker :=
  { t with state := .slipped, lossPoint := t.pos, advances := 0, absorb := 0, missed := 0 }

theorem slip_lt (cause : LoopCause) (d : Option Int) : (s.slip cause d).lt = slippedLoop s.lt := by
  simp only [State.slip, State.reportLoop, State.report_lt]
  rfl

theorem slip_room {cause : LoopCause} {d : Option Int} (h : s.lu.supTx.queue.length < 60) :
    s.slip cause d = (setLoop s (slippedLoop s.lt)).tell 0x3B ([3, BitVec.ofNat 8 s.lt.state.ctorIdx,
      BitVec.ofNat 8 cause.ctorIdx] ++ b2 s.lt.pos ++ bOpt 2 bInt d) :=
  reportLoop_room (s := setLoop s (slippedLoop s.lt)) h

theorem homeAligned_first (h : s.lt.missed = 0) :
    s.homeAligned = setLoop s { s.lt with missed := 1 } := by
  simp [State.homeAligned, h, setLoop]

theorem homeAligned_second (h : s.lt.missed = 1) : s.homeAligned = s.slip .homeMissed none := by
  simp only [State.homeAligned, h]
  rfl

/-- A missed home is counted, or slips the loop. -/
theorem homeAligned_lt (s : State) :
    s.homeAligned.lt = { s.lt with missed := s.lt.missed + 1 } ∨ s.homeAligned.lt = slippedLoop s.lt := by
  unfold State.homeAligned
  dsimp only
  split
  · exact .inr (slip_lt _ _)
  · exact .inl rfl

/-! What the alignments of a count hold (R69, R70) -/

/-- The layout, P and the accumulator stand, and an absorb count of 0 stays 0. -/
structure Held (a b : LoopTracker) : Prop where
  layout : b.layout = a.layout
  pos : b.pos = a.pos
  acc : b.acc = a.acc
  absorb : a.absorb = 0 → b.absorb = 0

theorem Held.refl (a : LoopTracker) : Held a a := ⟨rfl, rfl, rfl, id⟩

theorem Held.trans {a b c : LoopTracker} (h : Held a b) (h' : Held b c) : Held a c :=
  ⟨h'.layout.trans h.layout, h'.pos.trans h.pos, h'.acc.trans h.acc, h'.absorb ∘ h.absorb⟩

theorem takeAlignment_held (s : State) (pt : LoopPoint) (k : Nat) (occ : Bool) :
    Held s.lt (s.takeAlignment pt k occ).lt := by
  rcases takeAlignment_lt_or_home s pt k occ with hlt | ⟨-, -, hhome⟩
  · rw [hlt]
    exact .refl _
  · rw [hhome]
    rcases homeAligned_lt s with hlt | hlt <;> rw [hlt]
    · exact ⟨rfl, rfl, rfl, id⟩
    · exact ⟨rfl, rfl, rfl, fun _ => rfl⟩

theorem takeCount_held (s : State) (y : Layout) (occ : Bool) : Held s.lt (s.takeCount y occ).lt := by
  rw [takeCount_eq_foldl]
  generalize s.countOrder y = l
  suffices h : ∀ u : State, Held s.lt u.lt → Held s.lt (l.foldl (alignAt y s.lt.pos occ) u).lt from h s (.refl _)
  induction l with
  | nil => exact fun u hu => hu
  | cons p l ih =>
    intro u hu
    refine ih _ (hu.trans ?_)
    unfold alignAt
    split
    · exact takeAlignment_held u p _ occ
    · exact .refl _

/-! Pulses (R69) -/

theorem exec_encoderPulse : exec (.encoderPulse occ) s = .next (s.pulse occ) := rfl

theorem exec_loopAdvance : exec (.loopAdvance occ) s = if s.advanceDue then .next (s.pulse occ) else .next s := rfl

theorem pulse_bare (hy : s.lt.layout = none) : s.pulse occ = occRead s occ := by
  simp only [State.pulse, hy]
  rfl

theorem pulse_eq (hy : s.lt.layout = some y) :
    s.pulse occ
      = if s.lu.loopRun then
          if s.lt.acc + 1 < y.effectiveDivisor then setLoop (occRead s occ) { s.lt with acc := s.lt.acc + 1 }
          else (setLoop (occRead s occ) { s.lt with acc := 0 }).advance y occ
        else occRead s occ := by
  unfold State.pulse
  dsimp only
  split
  · next hnone => cases hnone.symm.trans hy
  · next hsome =>
    cases hsome.symm.trans hy
    rfl

theorem pulse_idle (h : s.lt.layout = none ∨ s.lu.loopRun = false) : s.pulse occ = occRead s occ := by
  cases hy : s.lt.layout with
  | none => exact pulse_bare hy
  | some y =>
    rw [pulse_eq hy, if_neg]
    simpa [hy] using h

theorem pulse_below (hy : s.lt.layout = some y) (hrun : s.lu.loopRun = true)
    (h : s.lt.acc + 1 < y.effectiveDivisor) :
    s.pulse occ = setLoop (occRead s occ) { s.lt with acc := s.lt.acc + 1 } := by
  rw [pulse_eq hy, if_pos hrun, if_pos h]

theorem pulse_at (hy : s.lt.layout = some y) (hrun : s.lu.loopRun = true)
    (h : y.effectiveDivisor ≤ s.lt.acc + 1) :
    s.pulse occ = (setLoop (occRead s occ) { s.lt with acc := 0 }).advance y occ := by
  rw [pulse_eq hy, if_pos hrun, if_neg (Nat.not_lt.2 h)]

theorem advanceDue_iff (hy : s.lt.layout = some y) (hrun : s.lu.loopRun = true) :
    s.advanceDue = true ↔ y.effectiveDivisor ≤ s.lt.acc + 1 := by
  simp [State.advanceDue, hy, hrun]

theorem advanceDue_idle (h : s.lt.layout = none ∨ s.lu.loopRun = false) : s.advanceDue = false := by
  rcases h with h | h <;> simp [State.advanceDue, h]

theorem advance_absorbed (h : 0 < s.lt.absorb) :
    s.advance y occ = setLoop s { s.lt with absorb := s.lt.absorb - 1 } := if_pos h

/-- The loop tracker with P a count further, none of whose alignments is taken. -/
def stepped (y : Layout) (t : LoopTracker) : LoopTracker := { t with pos := y.nextPos t.pos, eyeTaken := false }

/-- The same with the advance counted, unless the loop is SYNCED (R69). -/
def raised (y : Layout) (t : LoopTracker) : LoopTracker :=
  { stepped y t with
    advances := if t.state = LoopState.synced then t.advances else min (t.advances + 1) y.length }

theorem advance_counts (h : s.lt.absorb = 0) :
    s.advance y occ = ((setLoop s (raised y s.lt)).takeCount y occ).eyeDone :=
  if_neg (by omega)

/-- Settles O20: below the divisor, at it with an absorb count, and at it without; the alignments of the new
count hold P, the accumulator and the layout. -/
theorem pulsesMoveTheLoop : Obligations.PulsesMoveTheLoop := by
  refine ⟨fun s occ h => ⟨?_, ?_⟩, fun s y occ hy hrun => ⟨fun hlt => ⟨?_, ?_⟩, fun hge => ⟨?_, fun hab => ?_,
    fun hab => ?_⟩⟩⟩
  · rw [exec_encoderPulse, pulse_idle h]
    rfl
  · rw [exec_loopAdvance, advanceDue_idle h, if_neg Bool.false_ne_true]
  · rw [exec_encoderPulse, pulse_below hy hrun hlt]
    rfl
  · rw [exec_loopAdvance, if_neg]
    rw [advanceDue_iff hy hrun]
    exact Nat.not_le.2 hlt
  · rw [exec_loopAdvance, if_pos ((advanceDue_iff hy hrun).2 hge), exec_encoderPulse]
  · rw [exec_encoderPulse, pulse_at hy hrun hge, advance_absorbed (by exact hab)]
    rfl
  · rw [exec_encoderPulse, pulse_at hy hrun hge, advance_counts (by exact hab)]
    refine ⟨_, rfl, rfl, ?_⟩
    obtain ⟨hlay, hpos, hacc, -⟩ :=
      takeCount_held (setLoop (occRead s occ) (raised y { s.lt with acc := 0 })) y occ
    exact ⟨hpos, hacc, rfl, hlay.trans hy⟩

/-! Homes (R75, R76, R77) -/

theorem exec_homeRise : exec (.homeRise occ) s = .next (s.homeRises occ) := rfl

theorem exec_homeMissed : exec .homeMissed s
    = if s.lt.state = LoopState.synced ∧ 2 ≤ s.lt.missed then .next (s.slip .homeMissed none) else .next s := rfl

theorem homeRises_idle (h : s.lt.layout = none ∨ s.lt.state = .stopped) :
    s.homeRises occ = occRead s occ := by
  unfold State.homeRises
  dsimp only
  split
  · rfl
  · next y hy =>
    rcases h with h | h
    · rw [h] at hy
      cases hy
    · simp only [h]
      rfl

theorem homeRises_synced (hy : s.lt.layout = some y) (hst : s.lt.state = .synced) :
    s.homeRises occ
      = if (y.deviation s.lt.pos).natAbs ≤ y.tolerance then
          (occRead s occ).correctHome y (y.deviation s.lt.pos) occ
        else (occRead s occ).slip .homeDeviation (some (y.deviation s.lt.pos)) := by
  simp only [State.homeRises, hy, hst]
  rfl

theorem homeRises_lost (hy : s.lt.layout = some y) (hst : s.lt.state = .unsynced ∨ s.lt.state = .slipped) :
    s.homeRises occ = (occRead s occ).resync y (y.deviation s.lt.pos) := by
  rcases hst with hst | hst <;> simp only [State.homeRises, hy, hst] <;> rfl

theorem deviation_low {pos : Nat} (h : 2 * pos ≤ y.length) : y.deviation pos = (pos : Int) := if_pos h

theorem deviation_high {pos : Nat} (h : y.length < 2 * pos) : y.deviation pos = (pos : Int) - y.length :=
  if_neg (Nat.not_le.2 h)

theorem correctHome_forward {pos : Nat} :
    s.correctHome y (pos : Int) occ
      = setLoop s { s.lt with absorb := pos, lastCorrection := (pos : Int), missed := 0 } := by
  simp only [State.correctHome, if_neg (Int.not_lt.2 (Int.natCast_nonneg pos)), Int.natAbs_natCast]
  rfl

/-- The counts that a home before count 0 steps forward (R75). -/
def homeSteps (s : State) (y : Layout) (occ : Bool) : State :=
  (setLoop s { s.lt with absorb := 0 }).stepCounts y occ (y.length - s.lt.pos)

theorem correctHome_back (h : s.lt.pos < y.length) :
    s.correctHome y ((s.lt.pos : Int) - y.length) occ
      = setLoop (homeSteps s y occ) { (homeSteps s y occ).lt with
          lastCorrection := (s.lt.pos : Int) - y.length, missed := 0 } := by
  have habs : ((s.lt.pos : Int) - y.length).natAbs = y.length - s.lt.pos := by omega
  simp only [State.correctHome, if_pos (show (s.lt.pos : Int) - y.length < 0 by omega), habs]
  rfl

theorem stepCounts_succ (n : Nat) :
    s.stepCounts y occ (n + 1)
      = ((setLoop s (stepped y s.lt)).takeCount y occ).eyeDone.stepCounts y occ n := rfl

/-- Stepping the counts that are left to the end of the loop brings P to 0, and raises no absorb count. -/
theorem stepCounts_to_zero {n : Nat} (hn : s.lt.pos + (n + 1) = y.length) (hab : s.lt.absorb = 0) :
    (s.stepCounts y occ (n + 1)).lt.pos = 0 ∧ (s.stepCounts y occ (n + 1)).lt.absorb = 0 := by
  induction n generalizing s with
  | zero =>
    obtain ⟨-, hp, -, ha⟩ := takeCount_held (setLoop s (stepped y s.lt)) y occ
    exact ⟨hp.trans (if_neg (by omega)), ha hab⟩
  | succ n ih =>
    obtain ⟨-, hp, -, ha⟩ := takeCount_held (setLoop s (stepped y s.lt)) y occ
    have hnext : y.nextPos s.lt.pos = s.lt.pos + 1 := if_pos (by omega)
    rw [stepCounts_succ]
    refine ih ?_ (ha hab)
    rw [State.eyeDone_lt_pos, hp.trans hnext]
    omega

theorem homeSteps_to_zero (h : s.lt.pos < y.length) :
    (homeSteps s y occ).lt.pos = 0 ∧ (homeSteps s y occ).lt.absorb = 0 := by
  obtain ⟨n, hn⟩ : ∃ n, y.length - s.lt.pos = n + 1 := ⟨y.length - s.lt.pos - 1, by omega⟩
  unfold homeSteps
  rw [hn]
  exact stepCounts_to_zero (s := setLoop s { s.lt with absorb := 0 })
    (show s.lt.pos + (n + 1) = y.length by omega) rfl

/-- HOME, first of the points, is the first alignment of a count. -/
theorem countOrder_home_first {home : LoopPoint} {rest : List LoopPoint} (hk : home.kind = .home)
    (hp : s.lt.points = home :: rest) :
    ∃ l, s.countOrder y = home :: l ∧ ∀ p ∈ l, p ∈ rest ∨ p.kind = .launch := by
  have hwaits : ∀ p, s.launchWaits y p = true → p.kind = .launch := fun p h => by
    simp only [State.launchWaits, Bool.and_eq_true, decide_eq_true_iff] at h
    exact h.1
  have hhome : s.launchWaits y home = false := by simp [State.launchWaits, hk]
  unfold State.countOrder
  conv => enter [1, l, 1, 1, 2]; rw [hp]
  rw [List.flatMap_cons]
  simp only [hhome, hk, Bool.false_eq_true, if_false, reduceCtorEq]
  refine ⟨_, rfl, fun p hmem => ?_⟩
  obtain ⟨q, hq, hmem⟩ := List.mem_flatMap.1 hmem
  split at hmem
  · cases hmem
  · split at hmem
    · rcases List.mem_cons.1 hmem with rfl | hmem
      · exact .inl hq
      · have := (List.mem_filter.1 hmem).2
        rw [Bool.and_eq_true] at this
        exact .inr (hwaits p this.1)
    · rw [List.mem_singleton.1 hmem]
      exact .inl hq

/-- HOME at coordinate 0 aligns tray 0 at count 0. -/
theorem aligns_home (y : Layout) : y.aligns 0 { kind := .home, coord := 0, owner := 0 } = some 0 := by
  simp [Layout.aligns, Layout.offset]

theorem alignAt_home (hst : s.lt.state = .synced) :
    alignAt y 0 occ s { kind := .home, coord := 0, owner := 0 } = s.homeAligned := by
  simp [alignAt, aligns_home, State.takeAlignment, hst, LoopState.raises]

/-- At count 0 of a SYNCED loop with HOME first in the list, the count's alignments leave the loop tracker
that the missed home leaves, if that slips the loop or no other point is a home. -/
theorem takeCount_zero_lt {rest : List LoopPoint} (hst : s.lt.state = .synced) (hpos : s.lt.pos = 0)
    (hp : s.lt.points = { kind := .home, coord := 0, owner := 0 } :: rest)
    (h : s.homeAligned.lt.state ≠ .synced ∨ ∀ q ∈ rest, q.kind ≠ .home) :
    (s.takeCount y occ).lt = s.homeAligned.lt := by
  obtain ⟨l, hl, hmem⟩ := countOrder_home_first (y := y) rfl hp
  rw [takeCount_eq_foldl, hl, hpos, List.foldl_cons, alignAt_home hst, foldl_alignAt_lt]
  intro p hpl
  rcases h with h | h
  · exact .inr h
  · refine .inl ?_
    rcases hmem p hpl with hrest | hlaunch
    · exact h p hrest
    · simp [hlaunch]

/-- The advance to count 0 of a SYNCED loop. -/
theorem pulse_to_zero (hy : s.lt.layout = some y) (hrun : s.lu.loopRun = true)
    (hst : s.lt.state = .synced) (hdue : y.effectiveDivisor ≤ s.lt.acc + 1) (hab : s.lt.absorb = 0)
    (hpos : s.lt.pos + 1 = y.length) :
    s.pulse occ = ((setLoop (occRead s occ)
      { s.lt with acc := 0, pos := 0, eyeTaken := false }).takeCount y occ).eyeDone := by
  have hnext : y.nextPos s.lt.pos = 0 := if_neg (by omega)
  rw [pulse_at hy hrun hdue, advance_counts (by exact hab)]
  simp only [raised, stepped, setLoop_lt, hst, hnext, if_true]
  rfl

/-- Settles O21: a home within the tolerance by the side on which P stands, one outside it, and the missed
homes, given as a row or counted at the HOME point. -/
theorem homeCorrectsOrSlipsSyncedLoop : Obligations.HomeCorrectsOrSlipsSyncedLoop := by
  refine ⟨fun s y occ hy hst => ⟨fun hlow htol => ?_, fun hhigh hpos htol => ?_, fun htol hq => ?_⟩,
    fun s hst hm hq => ?_, fun s h => ?_, fun s occ h => ?_, fun s pt occ hk hst => ⟨fun k hne => ?_,
    fun hm => ?_, fun hm hq => ?_⟩, fun s y occ rest hy hrun hst hdue hab hpos hp => ⟨fun hm => ?_,
    fun hm hrest => ?_⟩⟩
  · rw [exec_homeRise, homeRises_synced hy hst, deviation_low hlow, Int.natAbs_natCast, if_pos htol,
      correctHome_forward]
    rfl
  · refine ⟨homeSteps (occRead s occ) y occ, rfl, ?_, homeSteps_to_zero hpos⟩
    rw [exec_homeRise, homeRises_synced hy hst, deviation_high hhigh, if_pos (by omega)]
    exact congrArg _ (correctHome_back (s := occRead s occ) hpos)
  · rw [exec_homeRise, homeRises_synced hy hst, if_neg (Nat.not_le.2 htol), slip_room (by exact hq), occRead_lt,
      hst]
    rfl
  · rw [exec_homeMissed, if_pos ⟨hst, hm⟩, slip_room hq, hst]
    rfl
  · rw [exec_homeMissed, if_neg]
    rintro ⟨hst, hm⟩
    exact h.elim (absurd hst) (fun h => absurd hm (Nat.not_le.2 h))
  · rw [exec_homeRise, homeRises_idle h]
    rfl
  · simp [State.takeAlignment, hk, hne]
  · simp only [State.takeAlignment, hk, hst, LoopState.raises, if_true, homeAligned_first hm]
    rfl
  · simp only [State.takeAlignment, hk, hst, LoopState.raises, if_true, homeAligned_second hm, slip_room (by exact hq)]
    rfl
  · rw [exec_encoderPulse, pulse_to_zero hy hrun hst hdue hab hpos]
    have hlt := takeCount_zero_lt (occ := occ) (y := y) (s := setLoop (occRead s occ)
      { s.lt with acc := 0, pos := 0, eyeTaken := false }) hst rfl hp
    rw [homeAligned_second (by exact hm), slip_lt] at hlt
    refine ⟨_, rfl, ?_⟩
    simp only [State.eyeDone, hlt (.inl nofun)]
    exact ⟨rfl, rfl, rfl, rfl, rfl, rfl⟩
  · rw [exec_encoderPulse, pulse_to_zero hy hrun hst hdue hab hpos]
    have hlt := takeCount_zero_lt (occ := occ) (y := y) (s := setLoop (occRead s occ)
      { s.lt with acc := 0, pos := 0, eyeTaken := false }) hst rfl hp
      (.inr hrest)
    rw [homeAligned_first (by exact hm)] at hlt
    refine ⟨_, rfl, ?_⟩
    simp only [State.eyeDone, hlt]
    exact ⟨hst, rfl, rfl⟩

/-! Resynchronisation (R77) -/

/-- The loop tracker that a resynchronisation leaves. -/
def syncedLoop (t : LoopTracker) : LoopTracker :=
  { t with
    pos := 0, absorb := 0, advances := 0, missed := 0, lossPoint := 0, state := .synced, eyeTaken := true }

theorem resync_eq (s : State) (y : Layout) (d : Int) :
    s.resync y d = (setLoop (s.judgeSpan y) (syncedLoop s.lt)).reportLoop s.lt.state .homeSync (some d) := by
  simp only [State.resync, judgeSpan_lt]
  rfl

theorem windowInSpan_eq_false (h : ∀ r ∈ s.trays, r.2.isTiltOrdered = false) (k : Nat) :
    s.windowInSpan y k = false := by
  unfold State.windowInSpan
  split
  · next l c cart hk =>
    unfold State.tray at hk
    cases hget : Tbl.get s.trays k with
    | none => simp [hget] at hk
    | some x =>
      have := h _ (Tbl.mem_of_get _ _ _ hget)
      simp only [hget, Option.getD_some] at hk
      simp [hk, Tray.isTiltOrdered] at this
  · rfl

theorem launchInSpan_eq_false (h : ∀ r ∈ s.stations, r.2.ordered = none) (n : Nat) :
    s.launchInSpan y n = false := by
  unfold State.launchInSpan
  cases hget : Tbl.get s.stations n with
  | none => rfl
  | some st =>
    have hno : st.ordered = none := h _ (Tbl.mem_of_get _ _ _ hget)
    simp [hno]

theorem closingTest_of_none_closing (h : ∀ r ∈ s.carts, r.2.state ≠ .closing) (id : Nat) (cause : ChuteCause) :
    s.closingTest id cause = s := by
  cases hget : Tbl.get s.carts id with
  | none => simp only [State.closingTest, hget]
  | some cart =>
    refine PlansAndBindings.closingTest_of_open cause hget ?_
    rw [PlansAndBindings.doneClosing_iff]
    exact fun hdone => h _ (Tbl.mem_of_get _ _ _ hget) hdone.1

/-- With nothing in flight and no cart due to close there is nothing to judge. -/
theorem judgeSpan_of_idle (htrays : ∀ r ∈ s.trays, r.2.isTiltOrdered = false)
    (hstations : ∀ r ∈ s.stations, r.2.ordered = none) (hcarts : ∀ r ∈ s.carts, r.2.state ≠ .closing) :
    s.judgeSpan y = s := by
  have hclose : ∀ l : List Nat, l.foldl (fun t id => t.closingTest id .cartClosed) s = s :=
    List.foldl_fixed' (closingTest_of_none_closing hcarts · .cartClosed)
  simp only [State.judgeSpan, windowInSpan_eq_false htrays, launchInSpan_eq_false hstations,
    Bool.false_eq_true, if_false, List.foldl_fixed, hclose]

/-- Settles O22: judging a span leaves the loop tracker, and with nothing in flight all else. -/
theorem homeSynchronisesLostLoop : Obligations.HomeSynchronisesLostLoop := by
  intro s y occ hy hst
  rw [exec_homeRise, homeRises_lost hy hst, resync_eq]
  refine ⟨⟨_, rfl, State.report_lt _ _ _⟩, fun htrays hstations hcarts hq => ?_⟩
  rw [judgeSpan_of_idle (s := occRead s occ) htrays hstations hcarts, reportLoop_room (by exact hq)]
  simp only [setLoop_lt, occRead_lt, bOpt, syncedLoop, b2_zero, List.cons_append, List.nil_append]
  rfl

end Sys2Proof.Machine.TrayLoop
end

section
/-! SUPPORT and the statements on the eye: untracked and lost bags, tilts in doubt, laps and riding strays. -/

namespace Sys2Proof.Machine.TrayLoop

variable {s t : State} {pt : LoopPoint} {k m c id slot cls : Nat} {occ : Bool} {l : Load} {x : Tilt}

/-! Readings that depend on one table -/

theorem tray_congr (h : t.trays = s.trays) (k : Nat) : t.tray k = s.tray k := by
  rw [State.tray, State.tray, h]

theorem entry_congr (h : t.manifest = s.manifest) (m : Nat) : t.entry m = s.entry m := by
  rw [State.entry, State.entry, h]

theorem slotOf_congr (h : t.sailings = s.sailings) (m : Nat) : t.slotOf m = s.slotOf m := by
  rw [State.slotOf, State.slotOf, State.ownerOf, State.ownerOf, h]

theorem modify_eq_self {α : Type} (t : Tbl α) (j : Nat) {f : α → α} (h : ∀ v, f v = v) :
    Tbl.modify t j f = t := by
  simp [Tbl.modify, h]

theorem tray_mapLoads (f : Load → Load) (k : Nat) : (s.mapLoads f).tray k = (s.tray k).mapLoad f := by
  simp only [State.tray, State.mapLoads, Tbl.get_mapRows]
  cases Tbl.get s.trays k <;> rfl

/-! Opening a record (R149, R150) -/

theorem openStray_ref (r : Stray) (cause : OpenCause) :
    (s.openStray r cause).2 = if s.su.strays.length < 192 then some s.freshRef else none := by
  split
  · next h => exact (s.openStray_room r cause h).1
  · next h => rw [s.openStray_full r cause (Nat.le_of_not_lt h)]

theorem openStray_get_fresh (r : Stray) (cause : OpenCause) (h : s.su.strays.length < 192) :
    Tbl.get (s.openStray r cause).1.su.strays s.freshRef = some { r with opened := s.lu.clock } := by
  rw [(s.openStray_room r cause h).2.1, Tbl.get_set_same]

/-! A bag that becomes a stray where it waits or rides (R83, R84) -/

theorem strayBag_tray {loc : StrayLoc} {cause : OpenCause} (ht : s.tray k = .loaded l) (hm : l.index = some m) :
    (s.strayBag m slot cls loc cause).tray k = .loaded { l with
      ref := if s.su.strays.length < 192 then some s.freshRef else none,
      target := s.classTarget cls, laps := 0, rideSent := false } := by
  have hk : ((s.openStray (s.linkedStray m slot cls loc) cause).1).tray k = .loaded l := by
    rw [tray_congr (State.openStray_trays _ _ _), ht]
  rw [State.strayBag, tray_mapLoads, tray_congr (State.setEntryState_trays _ _ _), hk,
    ← openStray_ref (s.linkedStray m slot cls loc) cause]
  simp only [Tray.mapLoad, hm, if_true]

theorem strayBag_entry_same {loc : StrayLoc} {cause : OpenCause} :
    (s.strayBag m slot cls loc cause).entry m = { s.entry m with
      state := .stray ((if s.su.strays.length < 192 then some s.freshRef else none).getD 0) } := by
  rw [State.strayBag, entry_congr (State.mapLoads_manifest _ _), State.entry_setEntryState_same,
    entry_congr (State.openStray_manifest _ _ _), openStray_ref]

theorem strayBag_entry_other {loc : StrayLoc} {cause : OpenCause} {j : Nat} (hj : j ≠ m) :
    (s.strayBag m slot cls loc cause).entry j = s.entry j := by
  rw [State.strayBag, entry_congr (State.mapLoads_manifest _ _), State.entry_setEntryState_other _ _ _ _ hj,
    entry_congr (State.openStray_manifest _ _ _)]

theorem strayBag_record {loc : StrayLoc} {cause : OpenCause} (h : s.su.strays.length < 192) :
    Tbl.get (s.strayBag m slot cls loc cause).su.strays s.freshRef
      = some { s.linkedStray m slot cls loc with opened := s.lu.clock } :=
  openStray_get_fresh _ cause h

/-! LAP_LIMIT (R84) -/

theorem exec_lapLimit : exec (.lapLimit k) s = .next (s.lapLimitTest k) := rfl

theorem lapLimitTest_eq {v : Sailing} (ht : s.tray k = .loaded l) (hl : l.isManifest = true)
    (hm : l.index = some m) (hv : s.ownerOf m = some (slot, v)) :
    s.lapLimitTest k
      = if v.lapLimit < l.laps then s.strayBag m slot Cls.lapLimit (.onTray k) .lapLimit else s := by
  simp only [State.lapLimitTest, ht, hm, Option.bind_some, hv, Option.map_some, hl, true_and]

/-- No manifest load on the tray that its sailing owns is past its lap limit. -/
theorem lapLimitTest_eq_self (h : ∀ m slot l v, s.tray k = .loaded l → l.isManifest = true → l.index = some m →
    s.ownerOf m = some (slot, v) → l.laps ≤ v.lapLimit) : s.lapLimitTest k = s := by
  unfold State.lapLimitTest
  split
  · next l ht =>
    split
    · next m slot v hfind =>
      obtain ⟨j, hj, hown⟩ := Option.bind_eq_some_iff.1 hfind
      obtain ⟨o, ho, heq⟩ := Option.map_eq_some_iff.1 hown
      cases heq
      refine if_neg ?_
      rintro ⟨hl, hlaps⟩
      exact absurd hlaps (Nat.not_lt.2 (h m slot l v ht hl hj ho))
    · rfl
  · rfl

/-! STRAY_RIDING (R85) -/

theorem exec_strayRiding :
    exec (.strayRiding k) s = if s.ridingDue k then .next (s.eyePass k true).eyeDone else .next s := rfl

theorem raises_occupancy {st : LoopState} : st.raises .occupancy = true ↔ st ≠ .stopped := by
  cases st <;> simp [LoopState.raises]

theorem lap_laps (l : Load) : l.lap.laps = min (l.laps + 1) 15 := rfl

theorem lapMeetsLimit_iff : s.lapMeetsLimit l = true
    ↔ l.rideSent = false ∧ l.laps < 15 ∧ l.laps + 1 = s.cu.settings.strayLapLimit := by
  rw [State.lapMeetsLimit, Bool.and_eq_true, Bool.and_eq_true, Bool.not_eq_true', beq_iff_eq,
    decide_eq_true_iff, lap_laps, and_assoc]
  refine and_congr_right fun _ => ?_
  omega

theorem eyeSees_iff : s.eyeSees k = true ↔ s.lt.eyeTaken = false ∧ s.lu.occ = true ∧ s.lt.state ≠ .stopped
    ∧ ∃ y, s.lt.layout = some y
      ∧ y.aligns s.lt.pos { kind := .occupancy, coord := y.eye, owner := 0 } = some k := by
  simp [State.eyeSees, raises_occupancy, Option.any_eq_true, and_assoc]

/-- What STRAY_RIDING waits for: the eye's untaken alignment of a LOADED tray whose verified stray load, not
reported before, comes to the stray lap limit. -/
theorem ridingDue_iff : s.ridingDue k = true ↔ s.eyeSees k = true ∧ ∃ l, s.tray k = .loaded l
    ∧ l.verified = true ∧ l.isManifest = false ∧ s.lapMeetsLimit l = true := by
  unfold State.ridingDue
  cases s.tray k <;> simp [and_assoc]

theorem bagSeen_riding (hv : l.verified = true) (hl : l.isManifest = false) (h : s.lapMeetsLimit l = true) :
    s.bagSeen k l = (s.putTray k (.loaded l.lap.reported)).reportRiding k l.lap := by
  simp only [State.bagSeen, State.rideLap, hv, hl, h, Bool.false_eq_true, if_true, if_false]

theorem lap_of_lt (h : l.laps < 15) : l.lap = { l with laps := l.laps + 1 } := by
  have hmin : min (l.laps + 1) Config.lapStop = l.laps + 1 := Nat.min_eq_left h
  rw [Load.lap, hmin]

theorem eyePass_loaded (ht : s.tray k = .loaded l) :
    s.eyePass k occ = if occ then s.bagSeen k l else s.lostBag k l := by
  simp only [State.eyePass, ht]

/-- Settles O26: LAP_LIMIT by its test of the load, STRAY_RIDING by the condition that it waits for. -/
theorem lapAndRidingRowsComplete : Obligations.LapAndRidingRowsComplete := by
  refine ⟨fun s k m slot l v ht hl hm hv => ⟨fun hlaps hroom => ?_, fun hlaps => ?_⟩,
    fun s k y l hy hocc hst hal ht htaken hver hl hsent hlt hlim hq => ?_, fun s k h => ?_, fun s k h => ?_⟩
  · have hfresh : (if s.su.strays.length < 192 then some s.freshRef else none) = some s.freshRef := if_pos hroom
    refine ⟨_, exec_lapLimit, ?_⟩
    rw [lapLimitTest_eq ht hl hm hv, if_pos hlaps]
    refine ⟨?_, ?_, strayBag_record hroom, fun _ => strayBag_entry_other⟩
    · rw [strayBag_tray ht hm, hfresh]
      rfl
    · rw [strayBag_entry_same, hfresh]
      rfl
  · rw [exec_lapLimit, lapLimitTest_eq ht hl hm hv, if_neg (Nat.not_lt.2 hlaps)]
  · have hmeets := lapMeetsLimit_iff.2 ⟨hsent, hlt, hlim⟩
    have hdue : s.ridingDue k = true :=
      ridingDue_iff.2 ⟨eyeSees_iff.2 ⟨htaken, hocc, hst, y, hy, hal⟩, l, ht, hver, hl, hmeets⟩
    rw [exec_strayRiding, if_pos hdue, eyePass_loaded ht, if_pos rfl, bagSeen_riding hver hl hmeets,
      lap_of_lt hlt, State.reportRiding, State.report_room _ _ _ (by exact hq)]
    rfl
  · rw [exec_lapLimit, lapLimitTest_eq_self h]
  · rw [exec_strayRiding, if_neg]
    rw [ridingDue_iff, eyeSees_iff]
    rintro ⟨⟨htaken, hocc, hst, y, hy, hal⟩, l, ht, hver, hl, hmeets⟩
    obtain ⟨hsent, hlt, hlim⟩ := lapMeetsLimit_iff.1 hmeets
    exact h y l hy hocc hst hal ht htaken hver hl hsent hlt hlim

end Sys2Proof.Machine.TrayLoop
end

section
/-! SUPPORT and the statement on the eye at trays with no bag expected, with none seen, and in doubt. -/

namespace Sys2Proof.Machine.TrayLoop

variable {s t : State} {pt : LoopPoint} {k m c id ref : Nat} {occ : Bool} {l : Load} {x : Tilt} {basis : Basis}

/-! The alignment of the eye by the tray's state (4.8.1) -/

/-- While the loop moves, an alignment of the eye is its pass. -/
theorem takeAlignment_eye (hk : pt.kind = .occupancy) (hst : s.lt.state ≠ .stopped) :
    s.takeAlignment pt k occ = s.eyePass k occ := by
  simp only [State.takeAlignment, hk, raises_occupancy.2 hst, if_true]

theorem takeAlignment_windowClose (hk : pt.kind = .windowClose) (hst : s.lt.state ≠ .stopped) :
    s.takeAlignment pt k occ = s.windowCloses pt.owner k := by
  simp only [State.takeAlignment, hk, PlansAndBindings.raises_windowClose hst, if_true]

theorem eyePass_empty (ht : s.tray k = .empty) : s.eyePass k occ = if occ then s.untrackedBag k else s := by
  simp only [State.eyePass, ht]

theorem eyePass_reserved (ht : s.tray k = .reserved) : s.eyePass k occ = s := by
  simp only [State.eyePass, ht]

theorem eyePass_ordered {cart : Option Nat} (ht : s.tray k = .tiltOrdered l c cart) :
    s.eyePass k occ = (s.passIntoDoubt k).settleByEye k occ := by
  simp only [State.eyePass, ht]

theorem eyePass_doubt {cart : Option Nat} (ht : s.tray k = .dropDoubt l c cart) :
    s.eyePass k occ = s.settleByEye k occ := by
  simp only [State.eyePass, ht]

theorem putTray_trays_congr (h : t.trays = s.trays) (z : Tray) :
    (t.putTray k z).trays = (s.putTray k z).trays := by
  simp only [State.putTray, h]

/-! Untracked bags (R81) -/

/-- The record of an untracked bag. -/
def untrackedRecord (k : Nat) : Stray :=
  { cls := Cls.untracked, index := none, linked := false, slot := none, tags := [], mass := none,
    loc := .onTray k, opened := 0 }

theorem untrackedBag_su : (s.untrackedBag k).su = (s.openStray (untrackedRecord k) .untracked).1.su := rfl

theorem untrackedBag_tray :
    (s.untrackedBag k).tray k = .loaded
      { index := none, ref := if s.su.strays.length < 192 then some s.freshRef else none,
        target := s.classTarget Cls.untracked, charge := s.cu.settings.defaultCharge, estimated := true,
        laps := 0, verified := true, station := none, rideSent := false } :=
  (State.tray_putTray_same _ k _).trans (by rw [openStray_ref])

/-! Lost bags (R86) -/

theorem lostBag_ref (hr : l.ref = some ref) :
    s.lostBag k l
      = (s.putTray k .empty).moveStray ref (fun r => { r with cls := Cls.lost, loc := .unknown }) .lost := by
  simp only [State.lostBag, hr]

/-- The opening of a lost bag's linked record. -/
def lostOpened (s : State) (k m : Nat) : State × Option Nat :=
  (s.putTray k .empty).openStray (s.linkedStray m (s.slotOf m) Cls.lost .unknown) .lost

theorem lostBag_index (hr : l.ref = none) (hm : l.index = some m) :
    s.lostBag k l = (lostOpened s k m).1.setEntryState m (.stray ((lostOpened s k m).2.getD 0)) := by
  simp only [State.lostBag, hr, hm]
  rfl

theorem lostBag_trays : (s.lostBag k l).trays = (s.putTray k .empty).trays := by
  unfold State.lostBag
  dsimp only
  split <;> simp

theorem lostBag_entry (hr : l.ref = none) (hm : l.index = some m) :
    ((s.lostBag k l).entry m).state
      = .stray ((if s.su.strays.length < 192 then some s.freshRef else none).getD 0) := by
  rw [lostBag_index hr hm, State.entry_setEntryState_same, lostOpened, openStray_ref]
  rfl

/-! A tilt at its window close (R98) -/

theorem windowCloses_own {cart : Option Nat} (ht : s.tray k = .tiltOrdered l c cart) :
    s.windowCloses c k = s.passIntoDoubt k := by
  simp only [State.windowCloses, ht, if_true]

theorem enterDoubt_trays {cart : Option Nat} (ht : s.tray k = .tiltOrdered l c cart) :
    (s.enterDoubt k).trays = (s.putTray k (.dropDoubt l c cart)).trays := by
  simp only [State.enterDoubt, ht]
  split
  · split <;> simp
  · rfl

theorem passIntoDoubt_tray {cart : Option Nat} (ht : s.tray k = .tiltOrdered l c cart) :
    (s.passIntoDoubt k).tray k = .dropDoubt l c cart := by
  have htrays : (s.passIntoDoubt k).trays = (s.putTray k (.dropDoubt l c cart)).trays := by
    rw [← enterDoubt_trays ht]
    unfold State.passIntoDoubt
    split
    · exact State.closingTest_trays _ _ _
    · rfl
  rw [tray_congr htrays, State.tray_putTray_same]

/-! A doubt at a chute of a handling role (R88, R104) -/

theorem settleOnTray_role (ht : s.tray k = .dropDoubt l c none) (hq : s.lu.supTx.queue.length < 60) :
    s.settleOnTray k = (s.putTray k (.loaded { l with verified := true })).tell 0x3A
      (b1 c ++ [8] ++ b2 k ++ b2 s.lt.pos ++ [0, 0, 0, 0, 0]) := by
  simp only [State.settleOnTray, ht]
  exact State.report_room (s.putTray k (.loaded l.verify)) _ _ hq

theorem settleDropped_role (ht : s.tray k = .dropDoubt l c none) :
    s.settleDropped k basis = s.roleDrop k c l := by
  simp only [State.settleDropped, ht]

theorem roleDrop_noRecord (hr : l.ref = none) : s.roleDrop k c l = s.putTray k .empty := by
  simp only [State.roleDrop, hr]

theorem roleDrop_record {h : Chute} (hr : l.ref = some ref) (hc : Tbl.get s.chutes c = some h) :
    s.roleDrop k c l
      = (s.putTray k .empty).moveStray ref (fun r => { r with loc := h.role.dropLoc }) .drop := by
  simp only [State.roleDrop, hr, hc]

theorem mem_joinEncode_self (it : EncodeItem) (q : List EncodeItem) : it ∈ joinEncode it q := by
  induction q with
  | nil => exact List.mem_cons_self
  | cons z q ih =>
    unfold joinEncode
    split
    · exact List.mem_cons_self
    · exact List.mem_cons_of_mem _ ih

/-- A record that comes to the encode station joins the encode queue (R154). -/
theorem mem_encodeAfter {q : List EncodeItem} {priority : Nat} {old : StrayLoc} (h : old ≠ .atEncode) :
    { ref := ref, priority := priority } ∈ encodeAfter q ref priority old .atEncode := by
  rw [encodeAfter, if_neg h, if_pos rfl]
  exact mem_joinEncode_self _ _

/-! The bag list of a cart -/

theorem editBags_some {f : List BagItem → List BagItem} {n : Nat → Nat} {cart : Cart}
    (hk : Tbl.get s.carts id = some cart) :
    s.editBags id f n = (s.putCart id { cart with bags := f cart.bags }).modifyGroup cart.group
      (fun g => { g with bagsInCarts := n g.bagsInCarts }) := by
  simp only [State.editBags, hk]

theorem editBags_get_same {f : List BagItem → List BagItem} {n : Nat → Nat} {cart : Cart}
    (hk : Tbl.get s.carts id = some cart) :
    Tbl.get (s.editBags id f n).carts id = some { cart with bags := f cart.bags } := by
  rw [editBags_some hk]
  exact Tbl.get_set_same _ _ _

theorem editBags_get_other {f : List BagItem → List BagItem} {n : Nat → Nat} {j : Nat} (hj : j ≠ id) :
    Tbl.get (s.editBags id f n).carts j = Tbl.get s.carts j := by
  unfold State.editBags
  split
  · rfl
  · exact Tbl.get_set_other _ _ _ _ hj

/-- A change of marks alone leaves the groups' counts. -/
theorem editBags_groups_of_marks {f : List BagItem → List BagItem} :
    (s.editBags id f (fun n => n)).groups = s.groups := by
  unfold State.editBags
  split
  · rfl
  · exact modify_eq_self _ _ fun _ => rfl

/-! A doubt into a cart settled as dropped (R105) -/

/-- What the settlement writes of carts and entries: the doubt becomes a drop, where the cart holds it. -/
def afterDrop (s : State) (x : Tilt) : State :=
  if s.cartHolds x.cart x.index .doubt then
    (s.editBags x.cart (remark x.index .doubt .dropped) (fun n => n)).setEntryState x.index (.inCart x.cart)
  else s

/-- The record of a settled stray closes. -/
def closeRecordOf (s : State) (x : Tilt) : State :=
  match x.load.ref with
  | some ref => s.closeStray ref .sorted (some x.cart)
  | none => s

theorem settleSorted_eq (s : State) (x : Tilt) (basis : Basis) :
    s.settleSorted x basis
      = ((closeRecordOf (afterDrop s x) x).putTray x.tray .empty).reportSorted x basis
          (!s.cartHolds x.cart x.index .doubt) := by
  unfold State.settleSorted afterDrop
  cases s.cartHolds x.cart x.index .doubt <;> rfl

theorem settleDropped_cart (ht : s.tray k = .dropDoubt l c (some id)) (hm : l.index = some m) :
    s.settleDropped k basis
      = s.settleSorted { tray := k, load := l, chute := c, cart := id, index := m } basis := by
  simp only [State.settleDropped, ht, hm]

theorem closeRecordOf_frame (s : State) (x : Tilt) :
    (closeRecordOf s x).trays = s.trays ∧ (closeRecordOf s x).manifest = s.manifest
      ∧ (closeRecordOf s x).carts = s.carts ∧ (closeRecordOf s x).groups = s.groups
      ∧ (closeRecordOf s x).sailings = s.sailings ∧ (closeRecordOf s x).stations = s.stations
      ∧ (closeRecordOf s x).lu.node = s.lu.node := by
  unfold closeRecordOf
  split <;> simp

theorem closeRecordOf_queue (x : Tilt) (hq : s.lu.supTx.queue.length < 60) :
    ∃ before, (closeRecordOf s x).lu.supTx.queue = s.lu.supTx.queue ++ before
      ∧ (x.load.ref = none → before = []) ∧ (∀ f ∈ before, f.kind = 0x33) ∧ before.length ≤ 1 := by
  unfold closeRecordOf
  cases hr : x.load.ref with
  | none => exact ⟨[], by simp⟩
  | some ref =>
    cases hrec : Tbl.get s.su.strays ref with
    | none => exact ⟨[], by simp [State.closeStray_none _ _ _ _ hrec]⟩
    | some r =>
      simp only [State.closeStray, hrec]
      rw [State.report_room _ _ _ (by exact hq)]
      exact ⟨[_], rfl, nofun, by simp, Nat.le_refl 1⟩

theorem afterDrop_frame (s : State) (x : Tilt) :
    (afterDrop s x).trays = s.trays ∧ (afterDrop s x).groups = s.groups
      ∧ (afterDrop s x).sailings = s.sailings ∧ (afterDrop s x).stations = s.stations
      ∧ (afterDrop s x).lu = s.lu := by
  unfold afterDrop
  split
  · simp [editBags_groups_of_marks]
  · simp

theorem afterDrop_aboard (h : s.cartHolds x.cart x.index .doubt = false) : afterDrop s x = s := by
  rw [afterDrop, h, if_neg Bool.false_ne_true]

theorem afterDrop_doubted (h : s.cartHolds x.cart x.index .doubt = true) :
    afterDrop s x = (s.editBags x.cart (remark x.index .doubt .dropped) (fun n => n)).setEntryState x.index
      (.inCart x.cart) := by
  rw [afterDrop, if_pos h]

/-- The tray comes EMPTY; carts and entries are as the drop leaves them; all other tables stand. -/
theorem settleSorted_tables (s : State) (x : Tilt) (basis : Basis) :
    (s.settleSorted x basis).trays = (s.putTray x.tray .empty).trays
      ∧ (s.settleSorted x basis).manifest = (afterDrop s x).manifest
      ∧ (s.settleSorted x basis).carts = (afterDrop s x).carts
      ∧ (s.settleSorted x basis).groups = s.groups ∧ (s.settleSorted x basis).sailings = s.sailings
      ∧ (s.settleSorted x basis).stations = s.stations := by
  obtain ⟨htrays, hmanifest, hcarts, hgroups, hsailings, hstations, -⟩ := closeRecordOf_frame (afterDrop s x) x
  obtain ⟨htrays', hgroups', hsailings', hstations', -⟩ := afterDrop_frame s x
  rw [settleSorted_eq, State.reportSorted]
  simp only [State.report_trays, State.report_manifest, State.report_carts, State.report_groups,
    State.report_sailings, State.report_stations, State.putTray_manifest, State.putTray_carts,
    State.putTray_groups, State.putTray_sailings, State.putTray_stations]
  exact ⟨putTray_trays_congr (htrays.trans htrays') _, hmanifest, hcarts, hgroups.trans hgroups',
    hsailings.trans hsailings', hstations.trans hstations'⟩

theorem settleSorted_record (hr : x.load.ref = some ref) :
    Tbl.get (s.settleSorted x basis).su.strays ref = none := by
  rw [settleSorted_eq, State.reportSorted, State.report_su, State.putTray_su, closeRecordOf, hr]
  exact State.closeStray_get _ _ _ _

/-- BAG SORTED, behind the STRAY CLOSED of a stray (R107). -/
theorem settleSorted_queue (x : Tilt) (basis : Basis) (hq : s.lu.supTx.queue.length < 58) :
    ∃ before, (s.settleSorted x basis).lu.supTx.queue = s.lu.supTx.queue ++ before ++ [{
        dst := 126, src := s.lu.node, kind := 0x30,
        payload := b2 x.index ++ b1 (s.slotOf x.index) ++ b1 x.load.group ++ b1 x.cart ++ b1 x.chute
          ++ b2 x.tray ++ b2 x.load.charge ++ bFlag x.load.estimated ++ b2 (x.load.ref.getD 0)
          ++ b1 basis.ctorIdx ++ bFlag (!s.cartHolds x.cart x.index .doubt) }]
      ∧ (x.load.ref = none → before = []) ∧ ∀ f ∈ before, f.kind = 0x33 := by
  obtain ⟨-, -, hsailings', -, hlu⟩ := afterDrop_frame s x
  obtain ⟨-, -, -, -, hsailings, -, hnode⟩ := closeRecordOf_frame (afterDrop s x) x
  obtain ⟨before, hqueue, hnone, hkind, hlen⟩ := closeRecordOf_queue (s := afterDrop s x) x (by rw [hlu]; omega)
  refine ⟨before, ?_, hnone, hkind⟩
  rw [hlu] at hqueue hnode
  rw [settleSorted_eq, State.reportSorted, State.report_room]
  · simp only [State.tell, State.supSend, State.putTray_lu, hqueue, hnode,
      slotOf_congr (t := (closeRecordOf (afterDrop s x) x).putTray x.tray .empty) (hsailings.trans hsailings')]
    rfl
  · rw [State.putTray_lu, hqueue, List.length_append, Config.supReportPlaces]
    omega

/-- A doubt that the cart holds becomes a drop there, and the entry is in the cart. -/
theorem settleSorted_doubted (h : s.cartHolds x.cart x.index .doubt = true) :
    (s.settleSorted x basis).entry x.index = { s.entry x.index with state := .inCart x.cart }
      ∧ (∀ j, j ≠ x.index → (s.settleSorted x basis).entry j = s.entry j)
      ∧ (∀ cart, Tbl.get s.carts x.cart = some cart → Tbl.get (s.settleSorted x basis).carts x.cart
          = some { cart with bags := remark x.index .doubt .dropped cart.bags })
      ∧ ∀ j, j ≠ x.cart → Tbl.get (s.settleSorted x basis).carts j = Tbl.get s.carts j := by
  obtain ⟨-, hmanifest, hcarts, -⟩ := settleSorted_tables s x basis
  rw [afterDrop_doubted h] at hmanifest hcarts
  have hkeep := entry_congr (State.editBags_manifest s x.cart (remark x.index .doubt .dropped) (fun n => n))
  refine ⟨?_, fun j hj => ?_, fun cart hcart => ?_, fun j hj => ?_⟩
  · rw [entry_congr hmanifest, State.entry_setEntryState_same, hkeep]
  · rw [entry_congr hmanifest, State.entry_setEntryState_other _ _ _ _ hj, hkeep]
  · rw [hcarts]
    exact editBags_get_same hcart
  · rw [hcarts]
    exact editBags_get_other hj

/-- A doubt whose cart holds it no more went aboard in it: carts and entries stand. -/
theorem settleSorted_aboard (h : s.cartHolds x.cart x.index .doubt = false) :
    (s.settleSorted x basis).manifest = s.manifest ∧ (s.settleSorted x basis).carts = s.carts := by
  obtain ⟨-, hmanifest, hcarts, -⟩ := settleSorted_tables s x basis
  rw [afterDrop_aboard h] at hmanifest hcarts
  exact ⟨hmanifest, hcarts⟩

/-! A doubt into a cart settled as still on tray (R106) -/

/-- The bag of a tilt is found still on its tray. -/
def onTrayAgain (s : State) (x : Tilt) : State :=
  ((s.undoSorted x).putTray x.tray (.loaded x.load.verify)).reportFault x.chute .missedDrop x.tray none
    (some x.cart)

theorem settleOnTray_cart (ht : s.tray k = .dropDoubt l c (some id)) (hm : l.index = some m) :
    s.settleOnTray k = onTrayAgain s { tray := k, load := l, chute := c, cart := id, index := m } := by
  simp only [State.settleOnTray, ht, hm]
  rfl

theorem isManifest_of_group {g : Nat} (hm : l.index = some m) (hg : l.target = .group g) :
    l.isManifest = l.ref.isNone := by
  simp [Load.isManifest, hm, hg]

/-- A doubt that the cart holds is taken off it, and a manifest bag rides again. -/
theorem undoSorted_doubted (h : s.cartHolds x.cart x.index .doubt = true) :
    s.undoSorted x
      = if x.load.isManifest then
          (s.editBags x.cart (unlist x.index .doubt) (· - 1)).setEntryState x.index (.inFlight x.tray)
        else s.editBags x.cart (unlist x.index .doubt) (· - 1) := by
  simp only [State.undoSorted, h, if_true]

theorem undoSorted_aboard (h : s.cartHolds x.cart x.index .doubt = false) :
    s.undoSorted x = s.correctAboard x := by
  simp only [State.undoSorted, h, Bool.false_eq_true, if_false]

theorem undoSorted_frame (s : State) (x : Tilt) :
    (s.undoSorted x).trays = s.trays ∧ (s.undoSorted x).su = s.su ∧ (s.undoSorted x).stations = s.stations
      ∧ (s.undoSorted x).lu.node = s.lu.node := by
  unfold State.undoSorted State.correctAboard
  dsimp only
  split
  · split <;> simp
  · simp

theorem undoSorted_entry_other {j : Nat} (hj : j ≠ x.index) : (s.undoSorted x).entry j = s.entry j := by
  cases h : s.cartHolds x.cart x.index .doubt with
  | true =>
    rw [undoSorted_doubted h]
    split
    · rw [State.entry_setEntryState_other _ _ _ _ hj, entry_congr (State.editBags_manifest _ _ _ _)]
    · exact entry_congr (State.editBags_manifest _ _ _ _) j
  | false =>
    rw [undoSorted_aboard h, State.correctAboard, entry_congr (State.report_manifest _ _ _)]
    exact State.entry_setEntryState_other _ _ _ _ hj

/-- A doubt that the cart holds changes its list, its group's bags in carts, and a manifest bag's entry. -/
theorem undoSorted_doubted_tables (h : s.cartHolds x.cart x.index .doubt = true) :
    (s.undoSorted x).sailings = s.sailings
      ∧ (s.undoSorted x).entry x.index
          = (if x.load.isManifest then { s.entry x.index with state := .inFlight x.tray } else s.entry x.index)
      ∧ (s.undoSorted x).carts = (s.editBags x.cart (unlist x.index .doubt) (· - 1)).carts
      ∧ (s.undoSorted x).groups = (s.editBags x.cart (unlist x.index .doubt) (· - 1)).groups := by
  have hentry := entry_congr (State.editBags_manifest s x.cart (unlist x.index .doubt) (· - 1)) x.index
  rw [undoSorted_doubted h]
  split
  · exact ⟨by simp, by rw [State.entry_setEntryState_same, hentry], rfl, rfl⟩
  · exact ⟨by simp, hentry, rfl, rfl⟩

/-- The aboard correction: entry, tally and bags aboard. -/
theorem undoSorted_aboard_tables (h : s.cartHolds x.cart x.index .doubt = false) :
    (s.undoSorted x).carts = s.carts
      ∧ (s.undoSorted x).entry x.index = { s.entry x.index with
          state := match x.load.ref with | some ref => .stray ref | none => .inFlight x.tray }
      ∧ (s.undoSorted x).sailings = Tbl.modify s.sailings (s.slotOf x.index)
          (fun v => { v with tally := v.tally - 1 })
      ∧ (s.undoSorted x).groups = Tbl.modify s.groups x.load.group (fun v =>
          if v.slot = s.slotOf x.index then { v with bagsAboard := v.bagsAboard - 1 } else v) := by
  rw [undoSorted_aboard h, State.correctAboard]
  refine ⟨by simp, ?_, by simp, by simp⟩
  rw [entry_congr (State.report_manifest _ _ _)]
  exact State.entry_setEntryState_same _ _ _

theorem undoSorted_queue (x : Tilt) (hq : s.lu.supTx.queue.length < 60) :
    (s.undoSorted x).lu.supTx.queue = s.lu.supTx.queue
      ++ if s.cartHolds x.cart x.index .doubt = true then [] else [{
          dst := 126, src := s.lu.node, kind := 0x38,
          payload := b2 x.index ++ b1 (s.slotOf x.index) ++ b1 x.cart }] := by
  cases h : s.cartHolds x.cart x.index .doubt with
  | true =>
    rw [undoSorted_doubted h, if_pos rfl, List.append_nil]
    split <;> simp
  | false =>
    rw [undoSorted_aboard h, State.correctAboard, State.report_room _ _ _ (by exact hq),
      if_neg Bool.false_ne_true]
    rfl

theorem onTrayAgain_frame (s : State) (x : Tilt) :
    (onTrayAgain s x).trays = (s.putTray x.tray (.loaded { x.load with verified := true })).trays
      ∧ (onTrayAgain s x).su = s.su ∧ (onTrayAgain s x).stations = s.stations
      ∧ (onTrayAgain s x).manifest = (s.undoSorted x).manifest ∧ (onTrayAgain s x).carts = (s.undoSorted x).carts
      ∧ (onTrayAgain s x).groups = (s.undoSorted x).groups
      ∧ (onTrayAgain s x).sailings = (s.undoSorted x).sailings := by
  obtain ⟨htrays, hsu, hstations, -⟩ := undoSorted_frame s x
  refine ⟨?_, by simp [onTrayAgain, hsu], by simp [onTrayAgain, hstations], by simp [onTrayAgain],
    by simp [onTrayAgain], by simp [onTrayAgain], by simp [onTrayAgain]⟩
  rw [onTrayAgain, State.reportFault_trays, putTray_trays_congr htrays, Load.verify]

/-- The fault, behind the aboard correction. -/
theorem onTrayAgain_queue (x : Tilt) (hq : s.lu.supTx.queue.length < 58) :
    (onTrayAgain s x).lu.supTx.queue
      = s.lu.supTx.queue
        ++ (if s.cartHolds x.cart x.index .doubt = true then [] else [{
            dst := 126, src := s.lu.node, kind := 0x38,
            payload := b2 x.index ++ b1 (s.slotOf x.index) ++ b1 x.cart }])
        ++ [{
            dst := 126, src := s.lu.node, kind := 0x3A,
            payload := b1 x.chute ++ [8] ++ b2 x.tray ++ b2 s.lt.pos ++ [0, 0, 0, 1] ++ b1 x.cart }] := by
  obtain ⟨-, -, -, hnode⟩ := undoSorted_frame s x
  have hqueue := undoSorted_queue (s := s) x (by omega)
  have hroom : ((s.undoSorted x).putTray x.tray (.loaded x.load.verify)).lu.supTx.queue.length
      < Config.supReportPlaces := by
    rw [State.putTray_lu, hqueue, List.length_append, Config.supReportPlaces]
    split <;> simp only [List.length_nil, List.length_singleton] <;> omega
  rw [onTrayAgain, State.reportFault, State.report_room _ _ _ hroom]
  simp only [State.tell, State.supSend, State.putTray_lu, State.putTray_lt, undoSorted_lt, hqueue, hnode]
  rfl

/-- A doubt that the cart holds is off its list, and the entry of a manifest load rides again. -/
theorem onTrayAgain_doubted (h : s.cartHolds x.cart x.index .doubt = true) :
    (onTrayAgain s x).sailings = s.sailings
      ∧ (onTrayAgain s x).entry x.index
          = (if x.load.isManifest then { s.entry x.index with state := .inFlight x.tray } else s.entry x.index)
      ∧ (∀ cart, Tbl.get s.carts x.cart = some cart →
          Tbl.get (onTrayAgain s x).carts x.cart = some { cart with bags := unlist x.index .doubt cart.bags }
          ∧ (onTrayAgain s x).groups = Tbl.modify s.groups cart.group (fun v =>
              { v with bagsInCarts := v.bagsInCarts - 1 }))
      ∧ ∀ j, j ≠ x.cart → Tbl.get (onTrayAgain s x).carts j = Tbl.get s.carts j := by
  obtain ⟨-, -, -, hmanifest, hcarts, hgroups, hsailings⟩ := onTrayAgain_frame s x
  obtain ⟨hsailings', hentry, hcarts', hgroups'⟩ := undoSorted_doubted_tables h
  refine ⟨hsailings.trans hsailings', (entry_congr hmanifest _).trans hentry, fun cart hcart => ⟨?_, ?_⟩,
    fun j hj => ?_⟩
  · rw [hcarts, hcarts', editBags_get_same hcart]
  · rw [hgroups, hgroups', editBags_some hcart]
    rfl
  · rw [hcarts, hcarts', editBags_get_other hj]

theorem onTrayAgain_aboard (h : s.cartHolds x.cart x.index .doubt = false) :
    (onTrayAgain s x).carts = s.carts
      ∧ (onTrayAgain s x).entry x.index = { s.entry x.index with
          state := match x.load.ref with | some ref => .stray ref | none => .inFlight x.tray }
      ∧ (onTrayAgain s x).sailings = Tbl.modify s.sailings (s.slotOf x.index)
          (fun v => { v with tally := v.tally - 1 })
      ∧ (onTrayAgain s x).groups = Tbl.modify s.groups x.load.group (fun v =>
          if v.slot = s.slotOf x.index then { v with bagsAboard := v.bagsAboard - 1 } else v) := by
  obtain ⟨-, -, -, hmanifest, hcarts, hgroups, hsailings⟩ := onTrayAgain_frame s x
  obtain ⟨hcarts', hentry, hsailings', hgroups'⟩ := undoSorted_aboard_tables h
  exact ⟨hcarts.trans hcarts', (entry_congr hmanifest _).trans hentry, hsailings.trans hsailings',
    hgroups.trans hgroups'⟩

/-! The statement -/

/-- Settles O24, by the tray's state and by OCC: each settlement is read off the operation it is. -/
theorem eyeReadsEmptyAndLostTrays : Obligations.EyeReadsEmptyAndLostTrays := by
  intro s pt k hk hst
  have heye : ∀ occ, s.takeAlignment pt k occ = s.eyePass k occ := fun _ => takeAlignment_eye hk hst
  refine ⟨fun ht => ?_, fun occ ht => ?_, fun ht => ?_, fun l ht => ?_, fun l c cart occ close ht hw ho => ?_,
    fun l c ht => ?_, fun l c id m g ht hm hg hq => ?_⟩
  · rw [heye, eyePass_empty ht, if_neg Bool.false_ne_true]
  · rw [heye, eyePass_reserved ht]
  · rw [heye, eyePass_empty ht, if_pos rfl]
    refine ⟨untrackedBag_tray, fun hroom => openStray_get_fresh _ _ hroom, fun hfull => ?_⟩
    rw [untrackedBag_su, State.openStray_full _ _ _ hfull]
    rfl
  · rw [heye, eyePass_loaded ht, if_neg Bool.false_ne_true]
    refine ⟨?_, fun ref r hr hrec => ?_, fun m hr hm hroom => ⟨?_, ?_⟩, fun m hr hm hfull => ?_⟩
    · rw [tray_congr lostBag_trays, State.tray_putTray_same]
    · rw [lostBag_ref hr]
      have hmove := (State.moveStray_some (s.putTray k .empty) ref r
        (fun r => { r with cls := Cls.lost, loc := .unknown }) .lost false hrec).1
      exact ⟨by rw [hmove]; exact Tbl.get_set_same _ _ _, State.moveStray_manifest _ _ _ _ _⟩
    · rw [lostBag_entry hr hm, if_pos hroom]
      rfl
    · rw [lostBag_index hr hm]
      exact openStray_get_fresh (s := s.putTray k .empty) _ .lost hroom
    · rw [lostBag_entry hr hm, if_neg (Nat.not_lt.2 hfull)]
      rfl
  · have hst' : (s.passIntoDoubt k).lt.state ≠ .stopped := by rwa [passIntoDoubt_lt]
    rw [heye, takeAlignment_windowClose hw hst, ho, windowCloses_own ht, takeAlignment_eye hk hst',
      eyePass_ordered ht, eyePass_doubt (passIntoDoubt_tray ht)]
  · rw [heye, heye, eyePass_doubt ht, eyePass_doubt ht]
    refine ⟨fun hq => settleOnTray_role ht hq, fun hr => ?_, fun ref r h hr hrec hc hrole => ?_⟩
    · exact (settleDropped_role ht).trans (roleDrop_noRecord hr)
    · intro t
      have ht' : t = (s.putTray k .empty).moveStray ref (fun r => { r with loc := h.role.dropLoc }) .drop :=
        (settleDropped_role ht).trans (roleDrop_record hr hc)
      clear_value t
      subst ht'
      obtain ⟨hstrays, hencode⟩ := State.moveStray_some (s.putTray k .empty) ref r
        (fun r => { r with loc := h.role.dropLoc }) .drop false hrec
      refine ⟨State.moveStray_trays _ _ _ _ _, State.moveStray_manifest _ _ _ _ _,
        State.moveStray_carts _ _ _ _ _, State.moveStray_groups _ _ _ _ _, ?_, fun hmanual hloc => ?_⟩
      · rw [hstrays, Tbl.get_set_same]
        cases hr' : h.role with
        | sort => exact absurd hr' hrole
        | _ => rfl
      · rw [hencode, hmanual]
        exact mem_encodeAfter hloc
  · intro gone back doubted
    let x : Tilt := { tray := k, load := l, chute := c, cart := id, index := m }
    have hgone : gone = s.settleSorted x .eye :=
      (heye false).trans ((eyePass_doubt ht).trans (settleDropped_cart ht hm))
    have hback : back = onTrayAgain s x := (heye true).trans ((eyePass_doubt ht).trans (settleOnTray_cart ht hm))
    have hgroup : l.group = g := by rw [Load.group, hg]
    have hride : x.load.isManifest = true ↔ l.ref = none := by
      rw [isManifest_of_group hm hg, Option.isNone_iff_eq_none]
    clear_value gone back
    subst hgone hback
    obtain ⟨htrays, -, -, hgroups, hsailings, hstations⟩ := settleSorted_tables s x .eye
    obtain ⟨htrays', hsu', hstations', hmanifest', -⟩ := onTrayAgain_frame s x
    refine ⟨?_, fun k' hk' => ?_, fun ref hr => settleSorted_record hr, hgroups, hsailings, hstations, ?_,
      fun hd => settleSorted_doubted (x := x) hd, fun hd => settleSorted_aboard (x := x) hd, ?_,
      fun k' hk' => ?_, hsu', hstations', onTrayAgain_queue x hq, fun m' hm' => ?_, fun hd => ?_, fun hd => ?_⟩
    · rw [tray_congr htrays, State.tray_putTray_same]
    · rw [tray_congr htrays, State.tray_putTray_other _ _ _ _ hk']
    · rw [← hgroup]
      exact settleSorted_queue x .eye hq
    · rw [tray_congr htrays', State.tray_putTray_same]
    · rw [tray_congr htrays', State.tray_putTray_other _ _ _ _ hk']
    · rw [entry_congr hmanifest', undoSorted_entry_other hm']
    · simpa only [hride] using onTrayAgain_doubted (x := x) hd
    · rw [← hgroup]
      exact onTrayAgain_aboard (x := x) hd

end Sys2Proof.Machine.TrayLoop
end

section
/-! SUPPORT and the statements on the settings of the part and on LAYOUT SET. -/

namespace Sys2Proof.Machine.TrayLoop

variable {s : State} {src : Byte}

/-! Bytes of a number and back -/

theorem b2_u16 (hi lo : Byte) : b2 (u16 hi lo) = [hi, lo] := by
  have hlo : lo.toNat < 256 := lo.isLt
  have hdiv : u16 hi lo / 256 = hi.toNat := by rw [u16]; omega
  have hhigh : BitVec.ofNat 8 (u16 hi lo / 256) = hi := by rw [hdiv, BitVec.ofNat_toNat, BitVec.setWidth_eq]
  have hlow : BitVec.ofNat 8 (u16 hi lo) = lo := by
    apply BitVec.eq_of_toNat_eq
    rw [BitVec.toNat_ofNat, u16]
    omega
  rw [b2, hhigh, hlow]

theorem clamp_eq {lo hi n : Nat} (h : lo ≤ hi) : clamp lo hi n = max lo (min n hi) := by
  rw [clamp]
  omega

/-! SET CLOCK (R178) -/

theorem Sequencer.restartPeriod_sailing (clock : Time) (v : Sailing) :
    { v with seq := v.seq.restartPeriod clock }
      = if v.seq.mode = .free then
          { v with seq := { v.seq with due := clock + BitVec.ofNat 32 v.seq.period } }
        else v := by
  rw [Sequencer.restartPeriod]
  split <;> rfl

theorem setClock_eq (c3 c2 c1 c0 : Byte) (s : State) :
    setClock [c3, c2, c1, c0] s
      = (let u := ({ s with lu := { s.lu with clock := u32 c3 c2 c1 c0 } } : State).swapTests
        .ok ({ u with
          sailings := Tbl.mapRows u.sailings (fun v =>
            if v.seq.mode = .free then
              { v with seq := { v.seq with due := u32 c3 c2 c1 c0 + BitVec.ofNat 32 v.seq.period } }
            else v) }, b4 s.lu.clock)) := by
  simp only [← Sequencer.restartPeriod_sailing]
  rfl

/-- A test of the swaps sends reports only, and so leaves a place for the reply. -/
theorem swapTests_place (h : s.lu.supTx.queue.length < Config.supPlaces) :
    s.swapTests.lu.supTx.queue.length < Config.supPlaces :=
  (Keeps.refl (leave := Leave.nothing) s).swapTests.place rfl h

/-! MASS LIMITS (R179) -/

theorem massesBad_eq_false_iff {lower upper charge : Nat} :
    massesBad lower upper charge = false
      ↔ 1 ≤ lower ∧ lower < upper ∧ upper ≤ 1000 ∧ 1 ≤ charge ∧ charge ≤ 1023 := by
  simp only [massesBad, Bool.or_eq_false_iff, decide_eq_false_iff_not]
  omega

theorem massLimits_good {l1 l0 u1 u0 d1 d0 : Byte} (h : massesBad (u16 l1 l0) (u16 u1 u0) (u16 d1 d0) = false) :
    massLimits [l1, l0, u1, u0, d1, d0] s
      = .ok ({ s with cu := { s.cu with settings := { s.cu.settings with
          lowerMass := u16 l1 l0, upperMass := u16 u1 u0, defaultCharge := u16 d1 d0 } } },
        [l1, l0, u1, u0, d1, d0]) := by
  simp only [massLimits, h, Bool.false_eq_true, if_false, b2_u16, List.cons_append, List.nil_append]

theorem massLimits_bad {l1 l0 u1 u0 d1 d0 : Byte} (h : massesBad (u16 l1 l0) (u16 u1 u0) (u16 d1 d0) = true) :
    massLimits [l1, l0, u1, u0, d1, d0] s = .error .range := by
  simp only [massLimits, h, if_true]

/-! PART SETTINGS (R152, R180) -/

theorem partSettings_eq (lap w1 w0 : Byte) (s : State) :
    partSettings [lap, w1, w0] s
      = (let u : State := { s with cu := { s.cu with settings := { s.cu.settings with
          strayLapLimit := max 1 (min lap.toNat 15), swapLimit := max 30 (min (u16 w1 w0) 900) } } }
        .ok (if max 30 (min (u16 w1 w0) 900) = s.cu.settings.swapLimit then u else u.swapTests,
          b1 (max 1 (min lap.toNat 15)) ++ b2 (max 30 (min (u16 w1 w0) 900)))) := by
  simp only [partSettings, clamp_eq (show 1 ≤ 15 by decide), clamp_eq (show 30 ≤ 900 by decide)]

/-! SORT MODE (R74) -/

theorem SortMode.ofByte_beyond {m : Byte} (h : 3 ≤ m.toNat) : SortMode.ofByte m = none :=
  List.getElem?_eq_none h

theorem sortMode_off (s : State) : sortMode [0] s = .ok ({ s with lt := { s.lt with mode := .off } }, []) := rfl

theorem sortMode_on {m : SortMode} {b : Byte} {y : Layout} (hb : SortMode.ofByte b = some m)
    (hy : s.lt.layout = some y) : sortMode [b] s = .ok ({ s with lt := { s.lt with mode := m } }, []) := by
  simp only [sortMode, hb, hy, Option.isNone_some, Bool.false_eq_true, and_false, if_false]

theorem sortMode_bare {m : SortMode} {b : Byte} (hb : SortMode.ofByte b = some m) (hm : m ≠ .off)
    (hy : s.lt.layout = none) : sortMode [b] s = .error .state := by
  simp only [sortMode, hb, hy, Option.isNone_none, hm, ne_eq, not_false_eq_true, and_self, if_true]

theorem sortMode_beyond {b : Byte} (h : 3 ≤ b.toNat) : sortMode [b] s = .error .range := by
  simp only [sortMode, SortMode.ofByte_beyond h]

/-! The answers -/

section Answers

open PlansAndBindings

variable {t : State} {p fields : List Byte}

theorem exec_setClock_ok (h : s.supReady) (hb : setClock p s = .ok (t, fields))
    (hq : t.lu.supTx.queue.length < Config.supPlaces) :
    exec (.setClock src p) s = .next (t.answer src 0xC1 0 fields) :=
  exec_accepted (kind := 0x41) rfl h hb hq

theorem exec_massLimits_ok (h : s.supReady) (hb : massLimits p s = .ok (t, fields))
    (hq : t.lu.supTx.queue.length < Config.supPlaces) :
    exec (.massLimits src p) s = .next (t.answer src 0xC4 0 fields) :=
  exec_accepted (kind := 0x44) rfl h hb hq

theorem exec_massLimits_refused {code : Code} (h : s.supReady) (hb : massLimits p s = .error code) :
    exec (.massLimits src p) s = .next (s.answer src 0xC4 (BitVec.ofNat 8 code.ctorIdx) []) :=
  exec_refused (kind := 0x44) rfl h hb

theorem exec_partSettings_ok (h : s.supReady) (hb : partSettings p s = .ok (t, fields))
    (hq : t.lu.supTx.queue.length < Config.supPlaces) :
    exec (.partSettings src p) s = .next (t.answer src 0xC5 0 fields) :=
  exec_accepted (kind := 0x45) rfl h hb hq

theorem exec_sortMode_ok (h : s.supReady) (hb : sortMode p s = .ok (t, fields))
    (hq : t.lu.supTx.queue.length < Config.supPlaces) :
    exec (.sortMode src p) s = .next (t.answer src 0xC3 0 fields) :=
  exec_accepted (kind := 0x43) rfl h hb hq

theorem exec_sortMode_refused {code : Code} (h : s.supReady) (hb : sortMode p s = .error code) :
    exec (.sortMode src p) s = .next (s.answer src 0xC3 (BitVec.ofNat 8 code.ctorIdx) []) :=
  exec_refused (kind := 0x43) rfl h hb

end Answers

/-- Settles O30: each command's body, by its checks, and the place that its reports leave for the reply. -/
theorem partCommandsTakeTheirValues : Obligations.PartCommandsTakeTheirValues := by
  intro s src hs
  have hq : s.lu.supTx.queue.length < Config.supPlaces := hs.2
  refine ⟨fun c3 c2 c1 c0 => ?_, fun l1 l0 u1 u0 d1 d0 => ?_, fun lap w1 w0 => ?_,
    exec_sortMode_ok hs (sortMode_off s) hq, fun y hy => ⟨?_, ?_⟩, fun hy => ⟨?_, ?_⟩, fun m hm => ?_⟩
  · exact exec_setClock_ok hs (setClock_eq c3 c2 c1 c0 s) (swapTests_place hq)
  · split
    · next hgood => exact exec_massLimits_ok hs (massLimits_good (massesBad_eq_false_iff.2 hgood)) hq
    · next hbad =>
      exact exec_massLimits_refused hs
        (massLimits_bad (Bool.eq_true_of_not_eq_false (mt massesBad_eq_false_iff.1 hbad)))
  · refine exec_partSettings_ok hs (partSettings_eq lap w1 w0 s) ?_
    split
    · exact hq
    · exact swapTests_place hq
  · exact exec_sortMode_ok hs (sortMode_on (m := .run) rfl hy) hq
  · exact exec_sortMode_ok hs (sortMode_on (m := .drain) rfl hy) hq
  · exact exec_sortMode_refused hs (sortMode_bare (m := .run) rfl (by decide) hy)
  · exact exec_sortMode_refused hs (sortMode_bare (m := .drain) rfl (by decide) hy)
  · exact exec_sortMode_refused hs (sortMode_beyond hm)

/-! LAYOUT SET (R68) -/

variable {y : Layout}

theorem anyBeyond_eq_false {len : Nat} (hst : ∀ r ∈ s.stations, r.2.coord < len)
    (hch : ∀ r ∈ s.chutes, r.2.coord < len) : s.anyBeyond len = false := by
  simp only [State.anyBeyond, Bool.or_eq_false_iff, List.any_eq_false, decide_eq_true_eq, Nat.not_le]
  exact ⟨hst, hch⟩

/-- A layout that passes each check of R68 is loaded and answered. -/
theorem setLayout_good (htrays : 16 ≤ y.trays) (htrays' : y.trays ≤ 1024) (hpitch : 8 ≤ y.pitch)
    (hpitch' : y.pitch ≤ 255) (hlen : y.length ≤ 65535)
    (hidle : s.lt.layout = none ∨ s.lt.mode = .off ∧ s.trays = []) (heye : y.eye < y.length)
    (hbeyond : s.anyBeyond y.length = false) :
    setLayout y s = .ok (s.loadLayout y, b2 y.length ++ b1 y.tolerance) := by
  have hform : ¬ (y.trays < 16 ∨ 1024 < y.trays ∨ y.pitch < 8 ∨ 255 < y.pitch) := by omega
  have hstate : ¬ (s.lt.layout.isSome = true ∧ (s.lt.mode ≠ .off ∨ s.trays ≠ [])) := by
    rintro ⟨hsome, hbusy⟩
    rcases hidle with hnone | ⟨hoff, hempty⟩
    · rw [hnone] at hsome
      exact absurd hsome (by decide)
    · exact hbusy.elim (fun h => h hoff) (fun h => h hempty)
  rw [setLayout, if_neg hform, if_neg (Nat.not_lt.2 hlen), if_neg hstate, if_neg (Nat.not_le.2 heye),
    if_neg (by rw [hbeyond]; exact Bool.false_ne_true)]

/-- The loop tracker with a layout loaded, its list of points not yet rebuilt. -/
def freshLoop (s : State) (y : Layout) : LoopTracker :=
  { s.lt with
    layout := some y, pos := 0, acc := 0, absorb := 0, lastCorrection := 0, missed := 0, lossPoint := 0,
    advances := 0, state := if s.lu.loopRun then .unsynced else .stopped, eyeTaken := true }

/-- The state with the trays empty and a layout in the loop tracker. -/
def emptied (s : State) (y : Layout) : State := { s with trays := [], lt := freshLoop s y }

/-- The state with its stations and chutes clamped to a layout and the points of the loop rebuilt. -/
def clampedTo (s : State) (y : Layout) : State :=
  State.rebuildPoints { s with
    stations := Tbl.mapRows s.stations (Station.clampTo y), chutes := Tbl.mapRows s.chutes (Chute.clampTo y) }

/-- The report of a loaded layout: the loop state, the old one, the cause, P 0, no deviation. -/
def layoutReport (s : State) : List Byte :=
  [if s.lu.loopRun then 1 else 0, BitVec.ofNat 8 s.lt.state.ctorIdx, 5, 0, 0, 0, 0, 0]

theorem reportLoop_emptied (h : s.lu.supTx.queue.length < 60) :
    (emptied s y).reportLoop s.lt.state .layout none = (emptied s y).tell 0x3B (layoutReport s) := by
  have hcode : BitVec.ofNat 8 (emptied s y).lt.state.ctorIdx = (if s.lu.loopRun then 1 else 0 : Byte) := by
    rw [emptied, freshLoop]
    cases s.lu.loopRun <;> rfl
  have hpos : (emptied s y).lt.pos = 0 := rfl
  rw [reportLoop_room (by exact h), hcode, hpos, layoutReport]
  simp only [b2_zero, List.cons_append, List.nil_append]
  rfl

theorem loadLayout_eq (h : s.lu.supTx.queue.length < 60) :
    s.loadLayout y = clampedTo ((emptied s y).tell 0x3B (layoutReport s)) y := by
  have hload : s.loadLayout y = State.rebuildPoints { (emptied s y).reportLoop s.lt.state .layout none with
      stations := Tbl.mapRows s.stations (Station.clampTo y),
      chutes := Tbl.mapRows s.chutes (Chute.clampTo y) } := rfl
  rw [hload, reportLoop_emptied h]
  rfl

/-- One report leaves a place for the reply. -/
theorem loadLayout_place (h : s.lu.supTx.queue.length < 60) :
    (s.loadLayout y).lu.supTx.queue.length < Config.supPlaces := by
  have hlength : (s.loadLayout y).lu.supTx.queue.length = s.lu.supTx.queue.length + 1 := by
    rw [loadLayout_eq h]
    exact PlansAndBindings.tell_queue_length (emptied s y) _ _
  rw [hlength, Config.supPlaces]
  omega

theorem givenLayout_eq (n pitch divisor w eye : Nat) (isDefault : Byte) :
    givenLayout n pitch divisor w eye (flagOf isDefault)
      = { trays := n, pitch := pitch, divisor := divisor,
          tolerance := if isDefault ≠ 0 then pitch / 4 else min w (pitch / 2), eye := eye } := by
  by_cases hd : isDefault = 0 <;> simp [givenLayout, flagOf, clampTolerance, hd]

theorem exec_layoutSet_ok {t : State} {p fields : List Byte} (h : s.supReady)
    (hb : layoutSet p s = .ok (t, fields)) (hq : t.lu.supTx.queue.length < Config.supPlaces) :
    exec (.layoutSet src p) s = .next (t.answer src 0xC8 0 fields) :=
  PlansAndBindings.exec_accepted (kind := 0x48) rfl h hb hq

/-- Settles O33: the given layout passes each check, and the answer's state is the one it is loaded in. -/
theorem layoutSetReplacesTheLayout : Obligations.LayoutSetReplacesTheLayout := by
  intro s src n1 n0 p d isDefault w z1 z0 hroom htrays htrays' hpitch hlen hidle heye hst hch tolerance len
  let y : Layout :=
    { trays := u16 n1 n0, pitch := p.toNat, divisor := d.toNat, tolerance := tolerance, eye := u16 z1 z0 }
  have hq : s.lu.supTx.queue.length < 60 := hroom.2
  have hset : layoutSet [n1, n0, p, d, isDefault, w, z1, z0] s
      = .ok (s.loadLayout y, b2 len ++ b1 tolerance) := by
    rw [layoutSet, givenLayout_eq]
    exact setLayout_good (y := y) htrays htrays' hpitch (Nat.le_of_lt_succ p.isLt) hlen hidle heye
      (anyBeyond_eq_false hst hch)
  refine ⟨_, exec_layoutSet_ok (PlansAndBindings.supReady_of_supRoom hroom) hset (loadLayout_place hq), ?_⟩
  rw [loadLayout_eq hq]
  exact ⟨rfl, rfl, rfl, rfl, rfl, rfl, rfl, rfl, rfl, rfl, rfl,
    rfl, rfl, rfl, rfl, rfl, rfl, rfl, rfl, rfl, rfl, rfl⟩

end Sys2Proof.Machine.TrayLoop
end

section
/-! SUPPORT. Reports from a chute's panel about a tilt: whose they are, how they are judged, and the tilt that
each ends or leaves. -/

namespace Sys2Proof.Machine.TiltReports

variable {s : State} {src k1 k0 : Byte} {c c' k : Nat} {h : Chute} {y : Layout} {l : Load} {cart : Option Nat}

/-! The frame's owner (R116, R167) -/

theorem panelFrame_owner {kind : Byte} {p : List Byte} {len : Nat} {owner : Nat → Chute → State → State}
    (hs : s.fldReady src) (hc : s.chuteOfPanel src = some (c, h)) (hp : p.length = len) :
    s.panelFrame src kind p len (fun _ => true) owner = owner c h s := by
  have hgood : (p.length == len) = true := beq_iff_eq.2 hp
  have hconfigured : (s.chuteOfPanel src).any (fun _ => true) = true := by rw [hc]; rfl
  rw [State.panelFrame, hgood, hconfigured, State.takeField_owner _ _ _ _ _ hs, hc]

theorem exec_dropSeen (hs : s.fldReady src) (hc : s.chuteOfPanel src = some (c, h)) :
    exec (.dropSeen src [k1, k0]) s = .next (s.dropSeen c h (u16 k1 k0)) :=
  congrArg Host.Outcome.next (panelFrame_owner hs hc rfl)

theorem exec_tiltFault (hs : s.fldReady src) (hc : s.chuteOfPanel src = some (c, h)) :
    exec (.tiltFault src [k1, k0]) s = .next (s.tiltFault c (u16 k1 k0)) :=
  congrArg Host.Outcome.next (panelFrame_owner hs hc rfl)

/-! CHUTE FAULT (R108) -/

theorem reportFault_room {cause : FaultCause} {offset : Option Nat} (hq : s.lu.supTx.queue.length < 60) :
    s.reportFault c cause k offset none
      = s.tell 0x3A (b1 c ++ [BitVec.ofNat 8 cause.ctorIdx] ++ b2 k ++ b2 s.lt.pos ++ bOpt 2 b2 offset ++ [0, 0]) :=
  s.report_room _ _ hq

/-! The finding of a report (R97) -/

theorem hasTray_iff (hy : s.lt.layout = some y) : s.hasTray k = true ↔ k < y.trays := by
  simp [State.hasTray, hy]

theorem dropOffset_eq (hy : s.lt.layout = some y) :
    s.dropOffset h k = (s.lt.pos + y.length - (h.coord + k * y.pitch) % y.length) % y.length := by
  rw [State.dropOffset, hy]
  rfl

theorem loopLength_eq (hy : s.lt.layout = some y) : s.loopLength = y.length := by
  rw [State.loopLength, hy]
  rfl

theorem judgeDrop_early (hst : s.lt.state = .synced) (hw : h.window < s.dropOffset h k)
    (hl : s.loopLength < 2 * s.dropOffset h k) : s.judgeDrop h k = .early := by
  rw [State.judgeDrop, if_pos hst, if_neg (Nat.not_le.2 hw), if_neg (Nat.not_le.2 hl)]

theorem judgeDrop_late (hst : s.lt.state = .synced) (hw : h.window < s.dropOffset h k)
    (hl : 2 * s.dropOffset h k ≤ s.loopLength) : s.judgeDrop h k = .late := by
  rw [State.judgeDrop, if_pos hst, if_neg (Nat.not_le.2 hw), if_pos hl]

/-- A report that no offset can judge counts as on time while the tilt is not in doubt. -/
theorem judgeDrop_onTime (hd : (s.tray k).isDropDoubt = false)
    (he : s.lt.state ≠ .synced ∨ s.dropOffset h k ≤ h.window) : s.judgeDrop h k = .onTime := by
  by_cases hst : s.lt.state = .synced
  · rw [State.judgeDrop, if_pos hst, if_pos (he.resolve_left (not_not_intro hst))]
  · rw [State.judgeDrop, if_neg hst, hd, if_neg Bool.false_ne_true]

theorem judgeDrop_ne_early
    (he : s.lt.state ≠ .synced ∨ s.dropOffset h k ≤ h.window ∨ 2 * s.dropOffset h k ≤ s.loopLength) :
    s.judgeDrop h k ≠ .early := by
  unfold State.judgeDrop
  split_ifs with hst hw hl
  · nofun
  · nofun
  · exact absurd he (by tauto)
  · nofun
  · nofun

/-! The report by the tray's state (R99, R100, R101, R102) -/

/-- No tilt is in flight on the tray. -/
def NoTilt (x : Tray) : Prop := x = .empty ∨ x = .reserved ∨ ∃ l, x = .loaded l

/-- A tilt at a chute is in flight on the tray. -/
def TiltAt (x : Tray) (l : Load) (c : Nat) (cart : Option Nat) : Prop :=
  x = .tiltOrdered l c cart ∨ x = .dropDoubt l c cart

theorem dropSeen_unknown (hk : ¬s.hasTray k = true) :
    s.dropSeen c h k = s.reportFault c .unknownTray k none none := by
  rw [State.dropSeen, if_pos (Bool.eq_false_iff.2 hk)]

theorem tiltFault_unknown (hk : ¬s.hasTray k = true) :
    s.tiltFault c k = s.reportFault c .unknownTray k none none := by
  rw [State.tiltFault, if_pos (Bool.eq_false_iff.2 hk)]

theorem dropSeen_noTilt (hk : s.hasTray k = true) (ht : NoTilt (s.tray k)) :
    s.dropSeen c h k = s.reportFault c .unorderedDrop k none none := by
  rcases ht with ht | ht | ⟨l, ht⟩ <;> simp [State.dropSeen, hk, ht]

theorem tiltFault_noTilt (hk : s.hasTray k = true) (ht : NoTilt (s.tray k)) :
    s.tiltFault c k = s.reportFault c .unorderedFault k none none := by
  rcases ht with ht | ht | ⟨l, ht⟩ <;> simp [State.tiltFault, hk, ht]

theorem dropSeen_elsewhere (hk : s.hasTray k = true) (hne : c' ≠ c) (ht : TiltAt (s.tray k) l c' cart) :
    s.dropSeen c h k = s.reportFault c .wrongChute k none none := by
  rcases ht with ht | ht <;> simp [State.dropSeen, hk, ht, hne]

theorem tiltFault_elsewhere (hk : s.hasTray k = true) (hne : c' ≠ c) (ht : TiltAt (s.tray k) l c' cart) :
    s.tiltFault c k = s.reportFault c .wrongChute k none none := by
  rcases ht with ht | ht <;> simp [State.tiltFault, hk, ht, hne]

theorem dropSeen_ordered (hk : s.hasTray k = true) (ht : s.tray k = .tiltOrdered l c cart) :
    s.dropSeen c h k = s.dropOrdered c k h := by
  simp [State.dropSeen, hk, ht]

theorem dropSeen_doubted (hk : s.hasTray k = true) (ht : s.tray k = .dropDoubt l c cart) :
    s.dropSeen c h k = s.dropDoubted c k h := by
  simp [State.dropSeen, hk, ht]

theorem tiltFault_ordered (hk : s.hasTray k = true) (ht : s.tray k = .tiltOrdered l c cart) :
    s.tiltFault c k = s.failTilt c k l cart := by
  simp [State.tiltFault, hk, ht]

theorem tiltFault_doubted (hk : s.hasTray k = true) (ht : s.tray k = .dropDoubt l c cart) :
    s.tiltFault c k = s.reportFault c .lateFault k none none := by
  simp [State.tiltFault, hk, ht]

theorem dropSeen_early (hk : s.hasTray k = true) (ht : TiltAt (s.tray k) l c cart)
    (hj : s.judgeDrop h k = .early) :
    s.dropSeen c h k = s.reportFault c .earlyDrop k (some (s.dropOffset h k)) none := by
  rcases ht with ht | ht
  · simp only [dropSeen_ordered hk ht, State.dropOrdered, hj]
  · simp only [dropSeen_doubted hk ht, State.dropDoubted, hj]

theorem dropDoubted_settles (hj : s.judgeDrop h k ≠ .early) :
    ∃ basis, s.dropDoubted c k h = s.settleDropped k basis := by
  unfold State.dropDoubted
  split
  · exact ⟨.onTime, rfl⟩
  · exact ⟨.late, rfl⟩
  · next he => exact absurd he hj

/-! ARRIVAL (R96) -/

section Arrival

variable {pt : LoopPoint} {occ : Bool}

theorem raises_arrival_eq_false {st : LoopState} (h : st ≠ .synced) : st.raises .arrival = false := by
  cases st with
  | synced => exact absurd rfl h
  | _ => rfl

theorem takeAlignment_arrival (hk : pt.kind = .arrival) (hst : s.lt.state = .synced) :
    s.takeAlignment pt k occ = s.arrivalPoint pt.owner k := by
  simp only [State.takeAlignment, hk, hst, LoopState.raises, if_true]

theorem arrivalPoint_of_not_ordered (ht : ∀ l cart, s.tray k ≠ .tiltOrdered l c cart) :
    s.arrivalPoint c k = s := by
  unfold State.arrivalPoint
  split
  · next l c' cart x hk _ =>
    refine if_neg ?_
    rintro ⟨rfl, -⟩
    exact ht l cart hk
  · rfl

theorem arrivalPoint_ordered (ht : s.tray k = .tiltOrdered l c cart) (hc : Tbl.get s.chutes c = some h) :
    s.arrivalPoint c k
      = if h.avail ≠ .inService then s.reportFault c .arrivedUnavailable k none none else s := by
  simp only [State.arrivalPoint, ht, hc, true_and]

end Arrival

end Sys2Proof.Machine.TiltReports
end

section
/-! SUPPORT. The tables that a drop, a settled doubt and a failed tilt leave. -/

namespace Sys2Proof.Machine.TiltReports

open TrayLoop PlansAndBindings

variable {s : State} {c k m id ref : Nat} {h : Chute} {l : Load} {x : Tilt} {cart : Cart} {basis : Basis}

/-- Every tray but the one written stands. -/
theorem tray_of_trays_eq_putTray {t : State} {z : Tray} (ht : t.trays = (s.putTray k z).trays) :
    t.tray k = z ∧ ∀ k', k' ≠ k → t.tray k' = s.tray k' :=
  ⟨by rw [tray_congr ht, State.tray_putTray_same],
    fun k' hk' => by rw [tray_congr ht, State.tray_putTray_other _ _ _ _ hk']⟩

/-! The closing test, whether or not it closes the cart (R122) -/

/-- A cart's state once the closing test has been made of it. -/
theorem closingTest_cart {cause : ChuteCause} (hk : Tbl.get s.carts id = some cart) :
    ∃ cart', Tbl.get (s.closingTest id cause).carts id = some cart' ∧ cart'.bags = cart.bags
      ∧ cart'.state = if cart.state = .closing ∧ cart'.marked .ordered = 0 then .closed else cart.state := by
  by_cases hdone : cart.doneClosing = true
  · refine ⟨{ cart with state := .closed, closedTime := some s.lu.clock, chute := none }, ?_, rfl, ?_⟩
    · rw [(closingTest_closes cause hk hdone).1, Tbl.get_set_same]
    · rw [if_pos]
      simpa [Cart.doneClosing, Cart.marked] using hdone
  · refine ⟨cart, by rw [closingTest_of_open cause hk hdone, hk], rfl, ?_⟩
    rw [if_neg]
    simpa [Cart.doneClosing] using hdone

theorem closingTest_carts_other {cause : ChuteCause} {j : Nat} (hk : Tbl.get s.carts id = some cart)
    (hj : j ≠ id) : Tbl.get (s.closingTest id cause).carts j = Tbl.get s.carts j := by
  by_cases hdone : cart.doneClosing = true
  · rw [(closingTest_closes cause hk hdone).1, Tbl.get_set_other _ _ _ _ hj]
  · rw [closingTest_of_open cause hk hdone]

/-- A closed cart joins a ready queue; no group's bags in carts change. -/
theorem closingTest_bagsInCarts {cause : ChuteCause} {n : Nat} {g : Group} (hk : Tbl.get s.carts id = some cart)
    (hg : Tbl.get s.groups n = some g) :
    ∃ g', Tbl.get (s.closingTest id cause).groups n = some g' ∧ g'.bagsInCarts = g.bagsInCarts := by
  by_cases hdone : cart.doneClosing = true
  · rw [(closingTest_closes cause hk hdone).2.1, Tbl.get_modify, hg]
    split
    · exact ⟨g.enqueue id, rfl, rfl⟩
    · exact ⟨g, rfl, rfl⟩
  · exact ⟨g, by rw [closingTest_of_open cause hk hdone, hg], rfl⟩

theorem editBags_get_group {f : List BagItem → List BagItem} {n : Nat → Nat} {g : Group}
    (hk : Tbl.get s.carts id = some cart) (hg : Tbl.get s.groups cart.group = some g) :
    Tbl.get (s.editBags id f n).groups cart.group = some { g with bagsInCarts := n g.bagsInCarts } := by
  rw [editBags_some hk]
  simp [Tbl.get_modify, hg]

theorem holdsMark_remark {old new : Mark} {bags : List BagItem} (hb : holdsMark bags m old = true) :
    holdsMark (remark m old new bags) m new = true := by
  induction bags with
  | nil => exact hb
  | cons b bags ih =>
    unfold remark
    split
    · next hbm => simp [holdsMark, hbm.1]
    · next hbm =>
      have htail : holdsMark bags m old = true := by simpa [holdsMark, hbm] using hb
      simpa [holdsMark] using Or.inr (by simpa [holdsMark] using ih htail)

/-! A drop confirmed into a cart (R103) -/

/-- A confirmed drop, but for the closing test of its cart. -/
def dropMarked (s : State) (x : Tilt) (basis : Basis) : State :=
  ((closeRecordOf ((s.editBags x.cart (remark x.index .ordered .dropped) (· + 1)).setEntryState x.index
    (.inCart x.cart)) x).putTray x.tray .empty).reportSorted x basis false

theorem confirmDrop_eq (s : State) (x : Tilt) (basis : Basis) :
    s.confirmDrop x basis = (dropMarked s x basis).closingTest x.cart .cartClosed := rfl

theorem dropMarked_tables (s : State) (x : Tilt) (basis : Basis) :
    (dropMarked s x basis).trays = (s.putTray x.tray .empty).trays
      ∧ (dropMarked s x basis).manifest
        = ((s.editBags x.cart (remark x.index .ordered .dropped) (· + 1)).setEntryState x.index
            (.inCart x.cart)).manifest
      ∧ (dropMarked s x basis).carts = (s.editBags x.cart (remark x.index .ordered .dropped) (· + 1)).carts
      ∧ (dropMarked s x basis).groups
        = (s.editBags x.cart (remark x.index .ordered .dropped) (· + 1)).groups := by
  obtain ⟨htrays, hmanifest, hcarts, hgroups, -⟩ := closeRecordOf_frame
    ((s.editBags x.cart (remark x.index .ordered .dropped) (· + 1)).setEntryState x.index (.inCart x.cart)) x
  rw [dropMarked, State.reportSorted]
  simp only [State.report_trays, State.report_manifest, State.report_carts, State.report_groups,
    State.putTray_manifest, State.putTray_carts, State.putTray_groups]
  exact ⟨putTray_trays_congr (htrays.trans (State.editBags_trays _ _ _ _)) _, hmanifest, hcarts, hgroups⟩

theorem confirmDrop_trays : (s.confirmDrop x basis).trays = (s.putTray x.tray .empty).trays := by
  rw [confirmDrop_eq, State.closingTest_trays, (dropMarked_tables s x basis).1]

theorem confirmDrop_entry_same :
    (s.confirmDrop x basis).entry x.index = { s.entry x.index with state := .inCart x.cart } := by
  rw [confirmDrop_eq, entry_congr (State.closingTest_manifest _ _ _),
    entry_congr (dropMarked_tables s x basis).2.1, State.entry_setEntryState_same,
    entry_congr (State.editBags_manifest _ _ _ _)]

theorem confirmDrop_entry_other {j : Nat} (hj : j ≠ x.index) :
    (s.confirmDrop x basis).entry j = s.entry j := by
  rw [confirmDrop_eq, entry_congr (State.closingTest_manifest _ _ _),
    entry_congr (dropMarked_tables s x basis).2.1, State.entry_setEntryState_other _ _ _ _ hj,
    entry_congr (State.editBags_manifest _ _ _ _)]

theorem confirmDrop_record (hr : x.load.ref = some ref) :
    Tbl.get (s.confirmDrop x basis).su.strays ref = none := by
  rw [confirmDrop_eq, State.closingTest_su, dropMarked, State.reportSorted, State.report_su, State.putTray_su,
    closeRecordOf, hr]
  exact State.closeStray_get _ _ _ _

theorem dropMarked_cart (hk : Tbl.get s.carts x.cart = some cart) :
    Tbl.get (dropMarked s x basis).carts x.cart
      = some { cart with bags := remark x.index .ordered .dropped cart.bags } := by
  rw [(dropMarked_tables s x basis).2.2.1]
  exact editBags_get_same hk

theorem confirmDrop_cart (hk : Tbl.get s.carts x.cart = some cart) :
    ∃ cart', Tbl.get (s.confirmDrop x basis).carts x.cart = some cart'
      ∧ cart'.bags = remark x.index .ordered .dropped cart.bags
      ∧ cart'.state = if cart.state = .closing ∧ cart'.marked .ordered = 0 then .closed else cart.state :=
  closingTest_cart (dropMarked_cart hk)

theorem confirmDrop_carts_other {j : Nat} (hk : Tbl.get s.carts x.cart = some cart) (hj : j ≠ x.cart) :
    Tbl.get (s.confirmDrop x basis).carts j = Tbl.get s.carts j := by
  rw [confirmDrop_eq, closingTest_carts_other (dropMarked_cart hk) hj, (dropMarked_tables s x basis).2.2.1]
  exact editBags_get_other hj

theorem confirmDrop_bagsInCarts {g : Group} (hk : Tbl.get s.carts x.cart = some cart)
    (hg : Tbl.get s.groups cart.group = some g) :
    ∃ g', Tbl.get (s.confirmDrop x basis).groups cart.group = some g'
      ∧ g'.bagsInCarts = g.bagsInCarts + 1 := by
  have hg' : Tbl.get (dropMarked s x basis).groups cart.group
      = some { g with bagsInCarts := g.bagsInCarts + 1 } := by
    rw [(dropMarked_tables s x basis).2.2.2]
    exact editBags_get_group hk hg
  exact closingTest_bagsInCarts (dropMarked_cart hk) hg'

/-! A drop at a role chute (R104) -/

theorem erase_set_same {α : Type} (t : Tbl α) (k : Nat) (v : α) : Tbl.erase (Tbl.set t k v) k = Tbl.erase t k := by
  induction t with
  | nil => simp [Tbl.set, Tbl.erase]
  | cons r t ih =>
    obtain ⟨j, w⟩ := r
    unfold Tbl.set
    split_ifs with hlt heq
    · simp [Tbl.erase]
    · simp [Tbl.erase, heq]
    · simpa [Tbl.erase, List.filter_cons, heq] using ih

/-- A tray that comes EMPTY keeps nothing of what it held on the way. -/
theorem putTray_putTray_empty (s : State) (k : Nat) (z : Tray) :
    (s.putTray k z).putTray k .empty = s.putTray k .empty := by
  by_cases hz : z = .empty
  · simp [State.putTray, hz, Tbl.erase]
  · simp [State.putTray, hz, erase_set_same]

theorem roleDrop_putTray (z : Tray) : (s.putTray k z).roleDrop k c l = s.roleDrop k c l := by
  simp only [State.roleDrop, State.putTray_chutes, putTray_putTray_empty]

theorem passIntoDoubt_role (ht : s.tray k = .tiltOrdered l c none) :
    s.passIntoDoubt k = s.putTray k (.dropDoubt l c none) := by
  simp only [State.passIntoDoubt, State.enterDoubt, ht]

/-- A tilt at a role chute ends in one drop, on time, late or out of doubt. -/
theorem dropSeen_role (hk : s.hasTray k = true) (ht : TiltAt (s.tray k) l c none)
    (hj : s.judgeDrop h k ≠ .early) : s.dropSeen c h k = s.roleDrop k c l := by
  rcases ht with ht | ht
  · rw [dropSeen_ordered hk ht]
    unfold State.dropOrdered
    split
    · simp only [State.confirmTilt, ht]
    · rw [settleDropped_role (passIntoDoubt_tray ht), passIntoDoubt_role ht, roleDrop_putTray]
    · next he => exact absurd he hj
  · obtain ⟨basis, hsettle⟩ := dropDoubted_settles (c := c) hj
    rw [dropSeen_doubted hk ht, hsettle, settleDropped_role ht]

theorem roleDrop_tables (hr : l.ref = some ref) (hc : Tbl.get s.chutes c = some h) :
    (s.roleDrop k c l).trays = (s.putTray k .empty).trays ∧ (s.roleDrop k c l).manifest = s.manifest
      ∧ (s.roleDrop k c l).carts = s.carts := by
  rw [roleDrop_record hr hc]
  exact ⟨State.moveStray_trays _ _ _ _ _, State.moveStray_manifest _ _ _ _ _, State.moveStray_carts _ _ _ _ _⟩

theorem roleDrop_su {r : Stray} (hr : l.ref = some ref) (hc : Tbl.get s.chutes c = some h)
    (hrec : Tbl.get s.su.strays ref = some r) :
    Tbl.get (s.roleDrop k c l).su.strays ref = some { r with loc := h.role.dropLoc }
      ∧ (s.roleDrop k c l).su.encode
        = encodeAfter s.su.encode ref (s.classEntry r.cls).priority r.loc h.role.dropLoc := by
  rw [roleDrop_record hr hc]
  obtain ⟨hstrays, hencode⟩ := State.moveStray_some (s.putTray k .empty) ref r
    (fun r => { r with loc := h.role.dropLoc }) .drop false hrec
  exact ⟨by rw [hstrays, Tbl.get_set_same], hencode⟩

/-! A late drop passes through doubt (R98, R99, R105) -/

theorem passIntoDoubt_cart (ht : s.tray k = .tiltOrdered l c (some id)) :
    s.passIntoDoubt k = (s.enterDoubt k).closingTest id .cartClosed := by
  simp only [State.passIntoDoubt, ht]

theorem passIntoDoubt_cartHolds (ht : s.tray k = .tiltOrdered l c (some id)) (hm : l.index = some m)
    (hk : Tbl.get s.carts id = some cart) (hb : holdsMark cart.bags m .ordered = true) :
    (s.passIntoDoubt k).cartHolds id m .doubt = true := by
  have hcart : Tbl.get (s.enterDoubt k).carts id
      = some { cart with bags := remark m .ordered .doubt cart.bags } := by
    rw [(enterDoubt_cart_tables ht hm hk).1, Tbl.get_set_same]
  obtain ⟨cart', hcart', hbags, -⟩ := closingTest_cart (cause := .cartClosed) hcart
  rw [passIntoDoubt_cart ht, State.cartHolds, hcart', Option.any_some, hbags]
  exact holdsMark_remark hb

/-- The entry of a tilt in doubt differs from the entry before at most in its state. -/
theorem passIntoDoubt_entry (ht : s.tray k = .tiltOrdered l c (some id)) (hm : l.index = some m)
    (hk : Tbl.get s.carts id = some cart) (st : EntryState) :
    { (s.passIntoDoubt k).entry m with state := st } = { s.entry m with state := st } := by
  rw [passIntoDoubt_cart ht, entry_congr (State.closingTest_manifest _ _ _), enterDoubt_cart ht hm hk]
  split
  · rw [State.entry_setEntryState_same]
    rfl
  · rfl

/-! A tilt fault (R102) -/

theorem failTilt_role : s.failTilt c k l none = (s.putTray k (.loaded l)).reportFault c .tiltFailed k none none :=
  rfl

theorem failTilt_cart (hm : l.index = some m) :
    s.failTilt c k l (some id)
      = (((s.editBags id (unlist m .ordered) (fun n => n)).putTray k (.loaded l)).reportFault c .tiltFailed k
          none none).closingTest id .cartClosed := by
  simp only [State.failTilt, hm]

theorem failTilt_tables (hm : l.index = some m) :
    (s.failTilt c k l (some id)).trays = (s.putTray k (.loaded l)).trays
      ∧ (s.failTilt c k l (some id)).manifest = s.manifest ∧ (s.failTilt c k l (some id)).su = s.su := by
  rw [failTilt_cart hm]
  refine ⟨?_, by simp, by simp⟩
  rw [State.closingTest_trays, State.reportFault_trays, putTray_trays_congr (State.editBags_trays _ _ _ _)]

theorem failTilt_bags (hm : l.index = some m) (hk : Tbl.get s.carts id = some cart) :
    ∃ cart', Tbl.get (s.failTilt c k l (some id)).carts id = some cart'
      ∧ cart'.bags = unlist m .ordered cart.bags
      ∧ cart'.state = if cart.state = .closing ∧ cart'.marked .ordered = 0 then .closed else cart.state := by
  rw [failTilt_cart hm]
  refine closingTest_cart (cart := { cart with bags := unlist m .ordered cart.bags }) ?_
  rw [State.reportFault_carts, State.putTray_carts]
  exact editBags_get_same hk

end Sys2Proof.Machine.TiltReports
end

section
/-! The statement on DROP SEEN, TILT FAULT and an ARRIVAL out of use. -/

namespace Sys2Proof.Machine.TiltReports

open TrayLoop

variable {s : State} {c k m id : Nat} {h : Chute} {l : Load} {cart : Cart}

/-- A drop on time of a tilt into a cart is confirmed. -/
theorem dropSeen_onTime_cart (hk : s.hasTray k = true) (ht : s.tray k = .tiltOrdered l c (some id))
    (hm : l.index = some m) (hj : s.judgeDrop h k = .onTime) :
    ∃ basis, s.dropSeen c h k
      = s.confirmDrop { tray := k, load := l, chute := c, cart := id, index := m } basis := by
  simp only [dropSeen_ordered hk ht, State.dropOrdered, hj, State.confirmTilt, ht, hm]
  exact ⟨_, rfl⟩

/-- A late drop of a tilt into a cart is settled as the doubt it would have become. -/
theorem dropSeen_late_cart (hk : s.hasTray k = true) (ht : s.tray k = .tiltOrdered l c (some id))
    (hm : l.index = some m) (hj : s.judgeDrop h k = .late) :
    s.dropSeen c h k = (s.passIntoDoubt k).settleSorted
      { tray := k, load := l, chute := c, cart := id, index := m } .late := by
  simp only [dropSeen_ordered hk ht, State.dropOrdered, hj]
  exact settleDropped_cart (passIntoDoubt_tray ht) hm

/-- A drop of a tilt in doubt into a cart settles the doubt. -/
theorem dropSeen_doubt_cart (hk : s.hasTray k = true) (ht : s.tray k = .dropDoubt l c (some id))
    (hm : l.index = some m) (hj : s.judgeDrop h k ≠ .early) :
    ∃ basis, s.dropSeen c h k
      = s.settleSorted { tray := k, load := l, chute := c, cart := id, index := m } basis := by
  obtain ⟨basis, hsettle⟩ := dropDoubted_settles (c := c) hj
  exact ⟨basis, by rw [dropSeen_doubted hk ht, hsettle, settleDropped_cart ht hm]⟩

theorem settleSorted_tray_empty {x : Tilt} {basis : Basis} : (s.settleSorted x basis).tray x.tray = .empty :=
  (tray_of_trays_eq_putTray (settleSorted_tables s x basis).1).1

/-- Settles O54: the frame's owner, the tray's state and the finding of R97 name the operation, whose tables
answer each clause. -/
theorem dropSeenAndTiltFaultEndATilt : Obligations.DropSeenAndTiltFaultEndATilt := by
  refine ⟨fun s src k1 k0 c h y hs htab hc hy hq => ?_, fun s pt k occ hpt => ⟨?_, ?_⟩⟩
  · intro k seen failed e told
    have hchute : Tbl.get s.chutes c = some h := chuteOfPanel_get htab.chutes hc
    have hseen : exec seen s = .next (s.dropSeen c h k) := exec_dropSeen hs hc
    have hfailed : exec failed s = .next (s.tiltFault c k) := exec_tiltFault hs hc
    have he : s.dropOffset h k = e := dropOffset_eq hy
    have hlen : s.loopLength = y.length := loopLength_eq hy
    have htold : ∀ cause, s.reportFault c cause k none none = told (BitVec.ofNat 8 cause.ctorIdx) [0, 0, 0] :=
      fun _ => reportFault_room hq
    have htray : s.hasTray k = true ↔ k < y.trays := hasTray_iff hy
    rw [hseen, hfailed]
    clear_value k e seen failed
    refine ⟨fun hk => ?_, fun hk => ?_⟩
    · have hno : ¬s.hasTray k = true := fun hyes => Nat.not_lt.2 hk (htray.1 hyes)
      rw [dropSeen_unknown hno, tiltFault_unknown hno, htold]
      exact ⟨rfl, rfl⟩
    have hyes := htray.2 hk
    rw [← he, ← hlen]
    refine ⟨fun ht => ?_, fun l c' cart hne ht => ?_, fun l cart ht => ?_, fun l cart ht hst hw hl => ?_,
      fun l ht => ?_, fun l id m cart ht hm hcart => ?_, fun l id m cart ht hm hcart hj => ?_,
      fun l ref r ht hr hrec hj hrole => ?_, fun l id m cart ht hm hcart hb hst hw hl => ?_,
      fun l id m ht hm hj => ?_⟩
    · rw [dropSeen_noTilt hyes ht, tiltFault_noTilt hyes ht, htold, htold]
      exact ⟨rfl, rfl⟩
    · rw [dropSeen_elsewhere hyes hne ht, tiltFault_elsewhere hyes hne ht, htold]
      exact ⟨rfl, rfl⟩
    · rw [tiltFault_doubted hyes ht, htold]
      rfl
    · rw [dropSeen_early hyes ht (judgeDrop_early hst hw hl), reportFault_room hq]
      rfl
    · rw [tiltFault_ordered hyes ht, failTilt_role, reportFault_room (by exact hq)]
      rfl
    · obtain ⟨htrays, hmanifest, hsu⟩ := failTilt_tables (s := s) (c := c) (k := k) (id := id) hm
      obtain ⟨hloaded, hothers⟩ := tray_of_trays_eq_putTray htrays
      obtain ⟨cart', hcart', hbags, hstate⟩ := failTilt_bags (c := c) (k := k) hm hcart
      rw [tiltFault_ordered hyes ht]
      exact ⟨_, cart', rfl, hloaded, hothers, hmanifest, hsu, hcart', hbags, hstate⟩
    · have honTime : s.judgeDrop h k = .onTime := judgeDrop_onTime (by rw [ht]; rfl) hj
      obtain ⟨basis, hdrop⟩ := dropSeen_onTime_cart hyes ht hm honTime
      let x : Tilt := { tray := k, load := l, chute := c, cart := id, index := m }
      obtain ⟨hempty, hothers⟩ := tray_of_trays_eq_putTray (confirmDrop_trays (s := s) (x := x) (basis := basis))
      obtain ⟨cart', hcart', hbags, hstate⟩ := confirmDrop_cart (x := x) (basis := basis) hcart
      rw [hdrop]
      exact ⟨_, cart', rfl, hempty, hothers, confirmDrop_entry_same, fun m' hm' => confirmDrop_entry_other hm',
        fun ref hr => confirmDrop_record hr, hcart', hbags, hstate,
        fun id' hid => confirmDrop_carts_other hcart hid, fun g hg => confirmDrop_bagsInCarts hcart hg⟩
    · obtain ⟨htrays, hmanifest, hcarts⟩ := roleDrop_tables (k := k) hr hchute
      obtain ⟨hempty, hothers⟩ := tray_of_trays_eq_putTray htrays
      obtain ⟨hrecord, hencode⟩ := roleDrop_su (k := k) hr hchute hrec
      rw [dropSeen_role hyes ht (judgeDrop_ne_early hj)]
      refine ⟨_, rfl, hempty, hothers, hmanifest, hcarts, ?_, fun hmanual hloc => ?_⟩
      · rw [hrecord]
        cases hr' : h.role with
        | sort => exact absurd hr' hrole
        | _ => rfl
      · rw [hencode, hmanual]
        exact mem_encodeAfter hloc
    · have hheld := passIntoDoubt_cartHolds ht hm hcart hb
      rw [dropSeen_late_cart hyes ht hm (judgeDrop_late hst hw hl)]
      refine ⟨_, rfl, settleSorted_tray_empty, ?_⟩
      exact (settleSorted_doubted hheld).1.trans (passIntoDoubt_entry ht hm hcart _)
    · obtain ⟨basis, hsettle⟩ := dropSeen_doubt_cart hyes ht hm (judgeDrop_ne_early hj)
      rw [hsettle]
      exact ⟨_, rfl, settleSorted_tray_empty, fun ref hr => settleSorted_record hr,
        fun hheld => (settleSorted_doubted hheld).1, fun hgone => settleSorted_aboard hgone⟩
  · rintro (hst | ht)
    · exact takeAlignment_of_not_raised (by rw [hpt, raises_arrival_eq_false hst])
    · by_cases hst : s.lt.state = .synced
      · rw [takeAlignment_arrival hpt hst, arrivalPoint_of_not_ordered ht]
      · exact takeAlignment_of_not_raised (by rw [hpt, raises_arrival_eq_false hst])
  · intro l cart h hst ht hc
    rw [takeAlignment_arrival hpt hst, arrivalPoint_ordered ht hc]
    refine ⟨fun hin => if_neg (not_not_intro hin), fun hout hq => ?_⟩
    rw [if_pos hout, reportFault_room hq]
    rfl

end Sys2Proof.Machine.TiltReports
end

section
/-! SUPPORT and the statement on CHUTE SET and CHUTE SERVICE: the checks of R111, the chute as written, and
its CHUTE STATE report. -/

namespace Sys2Proof.Machine.ChutesAndCarts

open PlansAndBindings

variable {s : State} {src : Byte} {c place : Nat} {h : Chute} {f : ChuteFields} {y : Layout}

/-! CHUTE STATE (R113) -/

/-- The payload of CHUTE STATE. -/
def chuteStateBytes (c : Nat) (h : Chute) (cause : ChuteCause) : List Byte :=
  b1 c ++ b1 h.role.ctorIdx ++ b1 h.avail.ctorIdx ++ b1 ((h.cycle.map CartCycle.ctorIdx).getD 0)
    ++ b1 h.bound ++ bOpt 1 b1 h.cart ++ b1 cause.ctorIdx

theorem reportChute_room {cause : ChuteCause} (hc : Tbl.get s.chutes c = some h)
    (hq : s.lu.supTx.queue.length < Config.supReportPlaces) :
    s.reportChute c cause = s.tell 0x39 (chuteStateBytes c h cause) := by
  simp only [State.reportChute, hc]
  exact State.report_room _ _ _ hq

/-- A chute just written is reported as written. -/
theorem reportChute_written {cause : ChuteCause} (hq : s.lu.supTx.queue.length < Config.supReportPlaces) :
    (s.putChute c h).reportChute c cause = (s.putChute c h).tell 0x39 (chuteStateBytes c h cause) :=
  reportChute_room (Tbl.get_set_same _ _ _) hq

/-! Availability (R113, R114, R115) -/

theorem setAvail_present {a : Avail} {cause : ChuteCause} (ha : h.avail = a) : s.setAvail c h a cause = s :=
  if_pos ha

theorem setAvail_moved {a : Avail} {cause : ChuteCause} (ha : h.avail ≠ a)
    (hq : s.lu.supTx.queue.length < Config.supReportPlaces) :
    s.setAvail c h a cause
      = (s.putChute c { h with avail := a }).tell 0x39 (chuteStateBytes c { h with avail := a } cause) := by
  rw [State.setAvail, if_neg ha, reportChute_written hq]

/-! The payload of CHUTE SET read back (9.1.3) -/

theorem u16_b2 {n : Nat} (hn : n < 65536) : u16 (BitVec.ofNat 8 (n / 256)) (BitVec.ofNat 8 n) = n := by
  simp only [u16, BitVec.toNat_ofNat]
  omega

theorem byte_toNat {n : Nat} (hn : n < 256) : (BitVec.ofNat 8 n).toNat = n := by
  rw [BitVec.toNat_ofNat]
  omega

theorem role_ofByte_ctorIdx (r : Role) : Role.ofByte (BitVec.ofNat 8 r.ctorIdx) = some r := by
  cases r <;> rfl

theorem side_ofByte_ctorIdx (d : Side) : Side.ofByte (BitVec.ofNat 8 d.ctorIdx) = some d := by
  cases d <;> rfl

theorem flagOf_ite (b : Bool) : flagOf (if b then 1 else 0) = b := by
  cases b <;> rfl

theorem chuteSet_payload (hplace : place ≤ 48) (hcoord : f.coord < 65536) (hlead : f.lead < 65536)
    (hwindow : f.window < 65536) :
    chuteSet ([BitVec.ofNat 8 place, f.node, BitVec.ofNat 8 f.role.ctorIdx] ++ b2 f.coord
        ++ b2 f.lead ++ b2 f.window ++ [BitVec.ofNat 8 f.side.ctorIdx, if f.inverted then 1 else 0]) s
      = setChute place f s := by
  simp only [b2, List.cons_append, List.nil_append, chuteSet, role_ofByte_ctorIdx, side_ofByte_ctorIdx,
    u16_b2 hcoord, u16_b2 hlead, u16_b2 hwindow, flagOf_ite, byte_toNat (show place < 256 by omega)]

/-! The checks of R111 -/

theorem nodeTaken_eq_false {node : Byte} (hst : ∀ r ∈ s.stations, r.2.node ≠ node)
    (hch : ∀ r ∈ s.chutes, r.1 ≠ place → r.2.node ≠ node) : s.nodeTaken node 0 place = false := by
  simp only [State.nodeTaken, Bool.or_eq_false_iff, List.any_eq_false, Bool.and_eq_true, bne_iff_ne, ne_eq,
    beq_iff_eq, not_and]
  exact ⟨fun r hr _ => hst r hr, hch⟩

theorem tiltAt_iff : s.tiltAt c = true ↔ ∃ r ∈ s.trays, r.2.chute? = some c := by
  simp [State.tiltAt]

/-- The state a CHUTE SET leaves, but for its report. -/
def chuteWritten (s : State) (place : Nat) (f : ChuteFields) (y : Layout) : State :=
  (s.putChute place (f.chute y (Tbl.get s.chutes place))).rebuildPoints

/-- Fields that pass each check of R111 are written; a changed cart cycle is reported. -/
theorem setChute_good (h1 : 1 ≤ place) (h48 : place ≤ 48) (hnode : f.node.toNat ≤ 125)
    (hown : f.node ≠ s.lu.node) (hy : s.lt.layout = some y) (hcoord : f.coord < y.length)
    (htaken : s.nodeTaken f.node 0 place = false)
    (hold : ∀ h, Tbl.get s.chutes place = some h → (h.bound ≠ 0 → f.role = .sort)
      ∧ (h.role ≠ f.role → ∀ r ∈ s.trays, r.2.chute? ≠ some place)) :
    setChute place f s
      = .ok (if (Tbl.get s.chutes place).any (fun h => decide (h.cycle ≠ f.cycle (Tbl.get s.chutes place))) then
          (chuteWritten s place f y).reportChute place .config else chuteWritten s place f y,
        b2 (clampLead y f.lead) ++ b2 (clampWindow y f.window)) := by
  have hrange : ¬(place < 1 ∨ 48 < place ∨ 125 < f.node.toNat ∨ f.node = s.lu.node) := by
    rintro (hlow | hhigh | hbig | hself)
    · omega
    · omega
    · omega
    · exact hown hself
  have hbound : ¬((Tbl.get s.chutes place).any (fun h => h.bound != 0) = true ∧ f.role ≠ .sort) := by
    rintro ⟨hany, hrole⟩
    obtain ⟨h, hc, hb⟩ := Option.any_eq_true _ _ |>.1 hany
    exact hrole ((hold h hc).1 (bne_iff_ne.1 hb))
  have htilt : ¬((Tbl.get s.chutes place).any (fun h => decide (h.role ≠ f.role)) = true
      ∧ s.tiltAt place = true) := by
    rintro ⟨hany, htilt⟩
    obtain ⟨h, hc, hrole⟩ := Option.any_eq_true _ _ |>.1 hany
    obtain ⟨r, hr, htray⟩ := tiltAt_iff.1 htilt
    exact (hold h hc).2 (of_decide_eq_true hrole) r hr htray
  simp only [setChute, if_neg hrange, hy, if_neg (Nat.not_le.2 hcoord), htaken, Bool.false_eq_true, if_false,
    if_neg hbound, if_neg htilt]
  rfl

/-! CHUTE SERVICE (R115) -/

variable {b t : Byte} {a : Avail}

theorem chute_inRange (h1 : 1 ≤ b.toNat) (h48 : b.toNat ≤ 48) : ¬(b = 0 ∨ 48 < b.toNat) := by
  rintro (hzero | hhigh)
  · exact byte_ne_zero_of_pos h1 hzero
  · omega

theorem chuteService_blocked : chuteService [b, 1] s = .error .range := rfl

theorem chuteService_absent (ht : Avail.ofByte t = some a) (ha : a ≠ .blocked) (h1 : 1 ≤ b.toNat)
    (h48 : b.toNat ≤ 48) (hc : Tbl.get s.chutes b.toNat = none) :
    chuteService [b, t] s = .error .absent := by
  cases a with
  | blocked => exact absurd rfl ha
  | inService | outOfService => simp only [chuteService, ht, if_neg (chute_inRange h1 h48), hc]

theorem chuteService_configured (ht : Avail.ofByte t = some a) (ha : a ≠ .blocked) (h1 : 1 ≤ b.toNat)
    (h48 : b.toNat ≤ 48) (hc : Tbl.get s.chutes b.toNat = some h) :
    chuteService [b, t] s = .ok (s.setAvail b.toNat h a .service, b1 a.ctorIdx) := by
  cases a with
  | blocked => exact absurd rfl ha
  | inService | outOfService => simp only [chuteService, ht, if_neg (chute_inRange h1 h48), hc]

theorem exec_chuteSet {p : List Byte} : exec (.chuteSet src p) s = .next (s.takeCommand src 0x4C (chuteSet p)) :=
  rfl

theorem exec_chuteService {p : List Byte} :
    exec (.chuteService src p) s = .next (s.takeCommand src 0x4D (chuteService p)) := rfl

/-- One report leaves a place for the reply. -/
theorem tell_place {kind : Byte} {bytes : List Byte} (hq : s.lu.supTx.queue.length < Config.supReportPlaces) :
    (s.tell kind bytes).lu.supTx.queue.length < Config.supPlaces := by
  rw [tell_queue_length]
  simp only [Config.supReportPlaces] at hq
  simp only [Config.supPlaces]
  omega

theorem exec_chuteService_absent (hs : s.supReady) (ht : Avail.ofByte t = some a) (ha : a ≠ .blocked)
    (h1 : 1 ≤ b.toNat) (h48 : b.toNat ≤ 48) (hc : Tbl.get s.chutes b.toNat = none) :
    exec (.chuteService src [b, t]) s = .next (s.answer src 0xCD 6 []) :=
  exec_refused exec_chuteService hs (chuteService_absent ht ha h1 h48 hc)

/-- The present availability is answered and changes nothing. -/
theorem exec_chuteService_present (hs : s.supReady) (ht : Avail.ofByte t = some a) (ha : a ≠ .blocked)
    (h1 : 1 ≤ b.toNat) (h48 : b.toNat ≤ 48) (hc : Tbl.get s.chutes b.toNat = some h) (hpresent : h.avail = a) :
    exec (.chuteService src [b, t]) s = .next (s.answer src 0xCD 0 (b1 a.ctorIdx)) := by
  have hbody := chuteService_configured ht ha h1 h48 hc
  rw [setAvail_present hpresent] at hbody
  exact exec_accepted exec_chuteService hs hbody hs.2

/-- Another availability is written, reported and answered. -/
theorem exec_chuteService_moved (hs : s.supReady) (ht : Avail.ofByte t = some a) (ha : a ≠ .blocked)
    (h1 : 1 ≤ b.toNat) (h48 : b.toNat ≤ 48) (hc : Tbl.get s.chutes b.toNat = some h)
    (hq : s.lu.supTx.queue.length < Config.supReportPlaces) (hmoved : h.avail ≠ a) :
    exec (.chuteService src [b, t]) s
      = .next (((s.putChute b.toNat { h with avail := a }).tell 0x39
          (chuteStateBytes b.toNat { h with avail := a } .service)).answer src 0xCD 0 (b1 a.ctorIdx)) := by
  have hbody := chuteService_configured ht ha h1 h48 hc
  rw [setAvail_moved hmoved hq] at hbody
  exact exec_accepted exec_chuteService hs hbody (tell_place hq)

/-! The statement -/

/-- Settles O35: CHUTE SET past each check of R111, with or without a changed cart cycle; CHUTE SERVICE by the
chute's present availability. -/
theorem chuteSetAndServiceTakeTheirFields : Obligations.ChuteSetAndServiceTakeTheirFields := by
  refine ⟨fun s src place f y hroom h1 h48 hnode hown hy hcoord hcoord' hlead hwindow hst hch hold => ?_,
    fun s src b hs h1 h48 => ⟨fun hc => ⟨?_, ?_⟩, ?_, fun h hc => ⟨fun ha => ?_, fun ha => ?_,
      fun hq ha => ?_, fun hq ha => ?_⟩⟩⟩
  · intro old lead window new p u
    have hready := supReady_of_supRoom hroom
    have hq : u.lu.supTx.queue.length < Config.supReportPlaces := hroom.2
    have hbody : chuteSet p s
        = .ok (if old.any (fun h => decide (h.cycle ≠ new.cycle)) then u.reportChute place .config else u,
          b2 lead ++ b2 window) :=
      (chuteSet_payload h48 hcoord' hlead hwindow).trans
        (setChute_good h1 h48 hnode hown hy hcoord (nodeTaken_eq_false hst hch) hold)
    refine ⟨fun hsame => ?_, fun h hc hchanged => ?_⟩
    · have hkept : ¬old.any (fun h => decide (h.cycle ≠ new.cycle)) = true := by
        rw [Option.any_eq_true]
        rintro ⟨h, hc, hne⟩
        exact of_decide_eq_true hne (hsame h hc)
      rw [if_neg hkept] at hbody
      exact exec_accepted exec_chuteSet hready hbody hready.2
    · have hany : old.any (fun h => decide (h.cycle ≠ new.cycle)) = true := by
        rw [hc]
        exact decide_eq_true hchanged
      have hget : Tbl.get u.chutes place = some new := Tbl.get_set_same _ _ _
      have hfields : chuteStateBytes place new .config
          = b1 place ++ b1 f.role.ctorIdx ++ b1 h.avail.ctorIdx ++ b1 ((new.cycle.map CartCycle.ctorIdx).getD 0)
            ++ b1 h.bound ++ bOpt 1 b1 h.cart ++ [8] := by
        simp only [chuteStateBytes, new, hc]
        rfl
      rw [if_pos hany, reportChute_room hget hq, hfields] at hbody
      exact exec_accepted exec_chuteSet hready hbody (tell_place hq)
  · exact exec_chuteService_absent hs (a := .inService) rfl (by decide) h1 h48 hc
  · exact exec_chuteService_absent hs (a := .outOfService) rfl (by decide) h1 h48 hc
  · exact exec_refused exec_chuteService hs chuteService_blocked
  · exact exec_chuteService_present hs (a := .inService) rfl (by decide) h1 h48 hc ha
  · exact exec_chuteService_present hs (a := .outOfService) rfl (by decide) h1 h48 hc ha
  · rw [exec_chuteService_moved hs (a := .inService) rfl (by decide) h1 h48 hc hq ha, chuteStateBytes, b1_toNat]
    rfl
  · rw [exec_chuteService_moved hs (a := .outOfService) rfl (by decide) h1 h48 hc hq ha, chuteStateBytes,
      b1_toNat]
    rfl

end Sys2Proof.Machine.ChutesAndCarts
end

section
/-! SUPPORT and the statement on the panel frames CHUTE BLOCKED, CHUTE CLEAR and CART PLACED. -/

namespace Sys2Proof.Machine.ChutesAndCarts

open PlansAndBindings TiltReports

variable {s : State} {src kind : Byte} {c len : Nat} {h : Chute} {p : List Byte} {taken : Chute → Bool}
  {owner : Nat → Chute → State → State}

/-! The frame's owner (R116, R167) -/

theorem panelFrame_taken (hs : s.fldReady src) (hc : s.chuteOfPanel src = some (c, h)) (ht : taken h = true)
    (hp : p.length = len) : s.panelFrame src kind p len taken owner = owner c h s := by
  rw [← panelFrame_owner (kind := kind) (owner := owner) hs hc hp]
  simp only [State.panelFrame, hc, Option.any_some, ht]

/-- A panel not configured for a frame's kind. -/
theorem panelFrame_mismatch (hs : s.fldReady src) (hc : s.chuteOfPanel src = some (c, h))
    (ht : taken h = false) :
    s.panelFrame src kind p len taken owner = s.fieldMismatch src kind .notConfigured p.length := by
  rw [State.panelFrame, hc, Option.any_some, ht, State.takeField_stranger _ _ _ _ _ _ hs]

/-- Nothing is taken from the panel of an OUT_OF_SERVICE chute. -/
theorem panelFrame_out (hout : s.panelOut src = true) : s.panelFrame src kind p len taken owner = s := by
  simp only [State.panelFrame, State.takeField, hout, if_true, ite_self]

theorem panelOut_of_mem (hout : ∃ r ∈ s.chutes, r.2.node = src ∧ r.2.avail = .outOfService) :
    s.panelOut src = true := by
  simpa [State.panelOut] using hout

/-! The availability that a panel gives (R114) -/

theorem chuteBlockedFrame_eq (hs : s.fldReady src) (hc : s.chuteOfPanel src = some (c, h)) :
    s.chuteBlockedFrame src [] = if h.avail = .inService then s.setAvail c h .blocked .panel else s :=
  panelFrame_taken hs hc rfl rfl

theorem chuteClearFrame_eq (hs : s.fldReady src) (hc : s.chuteOfPanel src = some (c, h)) :
    s.chuteClearFrame src [] = if h.avail = .blocked then s.setAvail c h .inService .panel else s :=
  panelFrame_taken hs hc rfl rfl

/-! CART PLACED (R125) -/

theorem cartPlacedFrame_sort (hs : s.fldReady src) (hc : s.chuteOfPanel src = some (c, h))
    (hrole : h.role = .sort) : s.cartPlacedFrame src [] = s.placeCart c h :=
  panelFrame_taken hs hc (decide_eq_true hrole) rfl

theorem cartPlacedFrame_role (hs : s.fldReady src) (hc : s.chuteOfPanel src = some (c, h))
    (hrole : h.role ≠ .sort) :
    s.cartPlacedFrame src [] = s.fieldMismatch src 0x1C .notConfigured 0 :=
  panelFrame_mismatch hs hc (decide_eq_false hrole)

/-- The ids of the pool, ascending. -/
theorem mem_pool {id : Nat} : id ∈ (List.range Config.cartRecords).map (· + 1) ↔ 1 ≤ id ∧ id ≤ 255 := by
  simp only [Config.cartRecords, List.mem_map, List.mem_range]
  constructor
  · rintro ⟨i, hi, rfl⟩
    omega
  · rintro ⟨h1, h255⟩
    exact ⟨id - 1, by omega, by omega⟩

theorem lowestFree_eq_none (hfull : ∀ id, 1 ≤ id → id ≤ 255 → (Tbl.get s.carts id).isSome) :
    s.lowestFree = none := by
  rw [State.lowestFree, List.find?_eq_none]
  intro id hid
  obtain ⟨h1, h255⟩ := mem_pool.1 hid
  exact mt Option.isNone_iff_eq_none.1 (Option.ne_none_iff_isSome.2 (hfull id h1 h255))

theorem lowestFree_eq_some {id : Nat} (h1 : 1 ≤ id) (h255 : id ≤ 255) (hfree : Tbl.get s.carts id = none)
    (hbelow : ∀ id', 1 ≤ id' → id' < id → (Tbl.get s.carts id').isSome) : s.lowestFree = some id := by
  have hid : id ≤ Config.cartRecords := h255
  rw [State.lowestFree, List.find?_eq_some_iff_getElem]
  refine ⟨by rw [hfree]; rfl, id - 1, by simp; omega, by simp; omega, fun j hj => ?_⟩
  simpa using hbelow (j + 1) (by omega) (by omega)

theorem placeCart_idle (hcy : h.cycle ≠ some .swapping) : s.placeCart c h = s :=
  if_neg hcy

theorem placeCart_full (hcy : h.cycle = some .swapping) (hfull : s.lowestFree = none)
    (hq : s.lu.supTx.queue.length < Config.supReportPlaces) :
    s.placeCart c h = s.tell 0x3E (b1 c ++ b1 h.bound) := by
  simp only [State.placeCart, hcy, if_true, hfull]
  exact State.report_room _ _ _ hq

/-- The cart record that a placed cart takes. -/
def placedCart (c : Nat) (h : Chute) : Cart :=
  { group := h.bound, state := .filling, chute := some c, bags := [], closedTime := none, cause := none }

theorem placeCart_free {id : Nat} (hcy : h.cycle = some .swapping) (hfree : s.lowestFree = some id)
    (hq : s.lu.supTx.queue.length < Config.supReportPlaces) :
    s.placeCart c h
      = ((s.putCart id (placedCart c h)).putChute c { h with cycle := some .filling, cart := some id }).tell 0x39
          (chuteStateBytes c { h with cycle := some .filling, cart := some id } .cartPlaced) := by
  simp only [State.placeCart, hcy, if_true, hfree]
  exact reportChute_written hq

/-! The statement -/

/-- Settles O55: the frame's owner, then the chute's availability or cart cycle; the lowest FREE record of the
pool is the first that the search finds. -/
theorem panelFramesMoveTheChute : Obligations.PanelFramesMoveTheChute := by
  refine ⟨fun s src c h hs hc hq => ?_, fun s src p hout x hx => ?_⟩
  · intro told
    have hblocked : exec (.chuteBlocked src []) s = .next (s.chuteBlockedFrame src []) := rfl
    have hclear : exec (.chuteClear src []) s = .next (s.chuteClearFrame src []) := rfl
    have hplaced : exec (.cartPlaced src []) s = .next (s.cartPlacedFrame src []) := rfl
    rw [hblocked, hclear, hplaced, chuteBlockedFrame_eq hs hc, chuteClearFrame_eq hs hc]
    refine ⟨?_, ?_, fun hrole => ?_, fun hrole hcy => ?_, fun hrole hcy => ⟨fun hfull => ?_,
      fun id h1 h255 hfree hbelow => ?_⟩⟩
    · split
      · next ha =>
        rw [setAvail_moved (by rw [ha]; decide) hq]
        rfl
      · rfl
    · split
      · next ha =>
        rw [setAvail_moved (by rw [ha]; decide) hq]
        rfl
      · rfl
    · rw [cartPlacedFrame_role hs hc hrole, State.fieldMismatch, State.report_room _ _ _ hq]
      rfl
    · rw [cartPlacedFrame_sort hs hc hrole, placeCart_idle hcy]
    · rw [cartPlacedFrame_sort hs hc hrole, placeCart_full hcy (lowestFree_eq_none hfull) hq]
    · rw [cartPlacedFrame_sort hs hc hrole, placeCart_free hcy (lowestFree_eq_some h1 h255 hfree hbelow) hq]
      rfl
  · have hpanel := panelOut_of_mem hout
    simp only [List.mem_cons, List.not_mem_nil, or_false] at hx
    rcases hx with rfl | rfl | rfl | rfl | rfl <;> exact congrArg Host.Outcome.next (panelFrame_out hpanel)

end Sys2Proof.Machine.ChutesAndCarts
end

section
/-! SUPPORT and the statement on CART CLOSE: a FILLING cart with entries closed by force, at once or once no
entry is ORDERED. -/

namespace Sys2Proof.Machine.ChutesAndCarts

open PlansAndBindings

variable {s : State} {src b : Byte} {id ch : Nat} {cart : Cart} {h : Chute} {cause : CloseCause}

theorem modifyChute_get {f : Chute → Chute} (hc : Tbl.get s.chutes ch = some h) :
    Tbl.get (s.modifyChute ch f).chutes ch = some (f h) := by
  rw [State.modifyChute_chutes, Tbl.get_modify, if_pos rfl, hc]
  rfl

/-! A forced close (R123) -/

/-- The cart as it enters CLOSING. -/
def closingCart (cart : Cart) (cause : CloseCause) : Cart :=
  { cart with state := .closing, cause := some cause }

/-- A cart and its chute in CLOSING together. -/
def closingEntered (s : State) (id : Nat) (cart : Cart) (cause : CloseCause) (ch : Nat) : State :=
  (s.putCart id (closingCart cart cause)).modifyChute ch (fun h => { h with cycle := some .closing })

theorem enterClosing_chute (hk : Tbl.get s.carts id = some cart) (hch : cart.chute = some ch) :
    s.enterClosing id cause = closingEntered s id cart cause ch := by
  simp only [State.enterClosing, hk, hch, closingCart, closingEntered]

theorem closingEntered_get : Tbl.get (closingEntered s id cart cause ch).carts id = some (closingCart cart cause) :=
  Tbl.get_set_same _ _ _

theorem closingEntered_get_chute (hc : Tbl.get s.chutes ch = some h) :
    Tbl.get (closingEntered s id cart cause ch).chutes ch = some { h with cycle := some .closing } :=
  modifyChute_get hc

/-- A cart not FILLING, or with no entry, is left as it is. -/
theorem forceClose_idle (hk : Tbl.get s.carts id = some cart) (hidle : cart.state = .filling → cart.bags = []) :
    s.forceClose id cause = s := by
  simp only [State.forceClose, hk]
  exact if_neg fun hforced => hforced.2 (hidle hforced.1)

/-- With an entry ORDERED, cart and chute wait in CLOSING. -/
theorem forceClose_waits (hk : Tbl.get s.carts id = some cart) (hst : cart.state = .filling)
    (hbags : cart.bags ≠ []) (hch : cart.chute = some ch) (hord : cart.marked .ordered ≠ 0) :
    s.forceClose id cause = (closingEntered s id cart cause ch).reportChute ch .cartForced := by
  simp only [State.forceClose, hk, if_pos (And.intro hst hbags), if_neg hord, hch, enterClosing_chute hk hch]

/-- With none ORDERED, the closing test comes at once. -/
theorem forceClose_completes (hk : Tbl.get s.carts id = some cart) (hst : cart.state = .filling)
    (hbags : cart.bags ≠ []) (hch : cart.chute = some ch) (hord : cart.marked .ordered = 0) :
    s.forceClose id cause = (closingEntered s id cart cause ch).closingTest id .cartForced := by
  simp only [State.forceClose, hk, if_pos (And.intro hst hbags), if_pos hord, enterClosing_chute hk hch]

/-! The closing test and its reports (R122) -/

theorem closingCart_done (hord : cart.marked .ordered = 0) : (closingCart cart cause).doneClosing = true := by
  simpa [Cart.doneClosing, closingCart, Cart.marked] using hord

theorem closeCart_get (hk : Tbl.get s.carts id = some cart) (hch : cart.chute = some ch) :
    Tbl.get (s.closeCart id).carts id
      = some { cart with state := .closed, closedTime := some s.lu.clock, chute := none } := by
  simp only [State.closeCart, hk, hch]
  exact Tbl.get_set_same _ _ _

theorem closeCart_get_chute (hk : Tbl.get s.carts id = some cart) (hch : cart.chute = some ch)
    (hc : Tbl.get s.chutes ch = some h) :
    Tbl.get (s.closeCart id).chutes ch = some (h.startSwap s.lu.clock) := by
  simp only [State.closeCart, hk, hch]
  exact modifyChute_get (by rw [State.closeRecord_chutes, hc])

/-- A cart done closing is reported twice: CART CLOSED and then CHUTE STATE. -/
theorem closingTest_tells {told : ChuteCause} (hk : Tbl.get s.carts id = some cart)
    (hdone : cart.doneClosing = true) (hch : cart.chute = some ch) (hc : Tbl.get s.chutes ch = some h)
    (hroom : s.lu.supTx.queue.length + 2 ≤ Config.supReportPlaces) :
    ∃ p1 p2, s.closingTest id told = ((s.closeCart id).tell 0x34 p1).tell 0x39 p2 := by
  have hfirst : (s.closeCart id).lu.supTx.queue.length < Config.supReportPlaces := by
    rw [State.closeCart_lu]
    omega
  obtain ⟨p1, hclosed⟩ := reportCartClosed_tells (closeCart_get hk hch) hfirst ch
  have hsecond : ((s.closeCart id).tell 0x34 p1).lu.supTx.queue.length < Config.supReportPlaces := by
    rw [tell_queue_length, State.closeCart_lu]
    omega
  have hwritten : Tbl.get ((s.closeCart id).tell 0x34 p1).chutes ch = some (h.startSwap s.lu.clock) :=
    closeCart_get_chute hk hch hc
  refine ⟨p1, chuteStateBytes ch (h.startSwap s.lu.clock) told, ?_⟩
  rw [← reportChute_room hwritten hsecond, ← hclosed]
  simp only [State.closingTest, hk, hdone, hch, if_true]

/-- The cart as a close by force leaves it. -/
def closedCart (clock : Time) (cart : Cart) : Cart :=
  { cart with state := .closed, cause := some .forced, closedTime := some clock, chute := none }

/-- All that a close by force writes and sends when it completes at once. -/
theorem forceClose_completed (hk : Tbl.get s.carts id = some cart) (hst : cart.state = .filling)
    (hbags : cart.bags ≠ []) (hch : cart.chute = some ch) (hc : Tbl.get s.chutes ch = some h)
    (hord : cart.marked .ordered = 0) (hroom : s.lu.supTx.queue.length + 2 ≤ Config.supReportPlaces) :
    ∃ p1 p2, (s.forceClose id .forced).carts = Tbl.set s.carts id (closedCart s.lu.clock cart)
      ∧ (s.forceClose id .forced).groups = Tbl.modify s.groups cart.group (Group.enqueue id)
      ∧ (s.forceClose id .forced).chutes = Tbl.modify s.chutes ch (Chute.startSwap s.lu.clock)
      ∧ (s.forceClose id .forced).manifest = s.manifest ∧ (s.forceClose id .forced).trays = s.trays
      ∧ (s.forceClose id .forced).su = s.su ∧ (s.forceClose id .forced).sailings = s.sailings
      ∧ (s.forceClose id .forced).lu.node = s.lu.node
      ∧ (s.forceClose id .forced).lu.supTx.queue = s.lu.supTx.queue
          ++ [{ dst := 126, src := s.lu.node, kind := 0x34, payload := p1 },
              { dst := 126, src := s.lu.node, kind := 0x39, payload := p2 }] := by
  rw [forceClose_completes hk hst hbags hch hord]
  have hentered : Tbl.get (closingEntered s id cart .forced ch).carts id = some (closingCart cart .forced) :=
    closingEntered_get
  have hdone : (closingCart cart .forced).doneClosing = true := closingCart_done hord
  obtain ⟨hcarts, hgroups, hchutes⟩ := closingTest_closes .cartForced hentered hdone
  obtain ⟨p1, p2, htells⟩ := closingTest_tells (told := .cartForced) hentered hdone hch
    (closingEntered_get_chute hc) hroom
  have hswap := (hchutes ch hch).trans (modify_modify s.chutes ch (fun h => { h with cycle := some .closing }) _)
  refine ⟨p1, p2, hcarts.trans (Tbl.set_set _ _ _ _), hgroups, hswap, State.closingTest_manifest _ _ _,
    State.closingTest_trays _ _ _, State.closingTest_su _ _ _, State.closingTest_sailings _ _ _,
    State.closingTest_lu_node _ _ _, ?_⟩
  rw [htells]
  simp only [State.tell, State.supSend, State.closeCart_lu, List.append_assoc]
  rfl

/-! The body of CART CLOSE -/

theorem exec_cartClose {p : List Byte} :
    exec (.cartClose src p) s = .next (s.takeCommand src 0x68 (cartClose p)) := rfl

theorem cartClose_zero : cartClose [0] s = .error .range := rfl

theorem cartClose_absent (hb : b ≠ 0) (hk : Tbl.get s.carts b.toNat = none) :
    cartClose [b] s = .error .absent := by
  simp only [cartClose, if_neg hb, hk]

theorem cartClose_parked (hb : b ≠ 0) (hk : Tbl.get s.carts b.toNat = some cart)
    (hst : cart.state = .closed ∨ cart.state = .called) : cartClose [b] s = .error .state := by
  rcases hst with hst | hst <;> simp only [cartClose, if_neg hb, hk, hst]

/-- A cart at its chute is closed by force, as far as it goes, and its state answered. -/
theorem cartClose_placed {t : State} {cart' : Cart} (hb : b ≠ 0) (hk : Tbl.get s.carts b.toNat = some cart)
    (hst : cart.state = .closing ∨ cart.state = .filling) (ht : s.forceClose b.toNat .forced = t)
    (hk' : Tbl.get t.carts b.toNat = some cart') :
    cartClose [b] s = .ok (t, b1 (cartStateCode (some cart'.state))) := by
  rcases hst with hst | hst <;> simp only [cartClose, if_neg hb, hk, hst, ht, hk', Option.map_some]

/-! The statement -/

/-- Settles O48: the cart's state, then whether an entry is ORDERED; the tables of a completed close are those
of the closing test of R122. -/
theorem cartCloseForcesAFillingCart : Obligations.CartCloseForcesAFillingCart := by
  intro s src b hroom x
  have hs := supReady_of_supRoom hroom
  have hlen : s.lu.supTx.queue.length + 2 ≤ Config.supReportPlaces := hroom.2
  have hq : s.lu.supTx.queue.length < Config.supReportPlaces := by omega
  refine ⟨?_, fun hb hk => exec_refused exec_cartClose hs (cartClose_absent hb hk), fun cart hb hk =>
    ⟨fun hst => exec_refused exec_cartClose hs (cartClose_parked hb hk hst), fun hst => ?_, fun hst hbags => ?_,
      fun ch h hst hbags hch hc => ⟨fun hord => ?_, fun hord => ?_⟩⟩⟩
  · rintro rfl
    exact exec_refused exec_cartClose hs cartClose_zero
  · have hidle : s.forceClose b.toNat .forced = s := forceClose_idle hk (by rw [hst]; nofun)
    have hbody := cartClose_placed hb hk (.inl hst) hidle hk
    rw [hst] at hbody
    exact exec_accepted exec_cartClose hs hbody hs.2
  · have hidle : s.forceClose b.toNat .forced = s := forceClose_idle hk fun _ => hbags
    have hbody := cartClose_placed hb hk (.inr hst) hidle hk
    rw [hst] at hbody
    exact exec_accepted exec_cartClose hs hbody hs.2
  · have hclose := forceClose_waits (cause := .forced) hk hst hbags hch hord
    rw [reportChute_room (closingEntered_get_chute hc) hq] at hclose
    have hbody := cartClose_placed hb hk (.inr hst) hclose (closingEntered_get (ch := ch))
    exact exec_accepted exec_cartClose hs hbody (tell_place hq)
  · obtain ⟨p1, p2, hcarts, hgroups, hchutes, hmanifest, htrays, hsu, hsailings, hnode, hqueue⟩ :=
      forceClose_completed hk hst hbags hch hc hord hlen
    have hbody := cartClose_placed hb hk (.inr hst) rfl
      (cart' := closedCart s.lu.clock cart) (by rw [hcarts, Tbl.get_set_same])
    have hplace : (s.forceClose b.toNat .forced).lu.supTx.queue.length < Config.supPlaces := by
      rw [hqueue, List.length_append]
      exact Nat.lt_of_le_of_lt hlen (by decide)
    refine ⟨_, exec_accepted exec_cartClose hs hbody hplace, hcarts, hgroups, hchutes, hmanifest, htrays, hsu,
      hsailings, { dst := 126, src := s.lu.node, kind := 0x34, payload := p1 },
      { dst := 126, src := s.lu.node, kind := 0x39, payload := p2 }, ?_, rfl, rfl⟩
    simp only [State.answer, State.supSend, hqueue, hnode, List.append_assoc]
    rfl

end Sys2Proof.Machine.ChutesAndCarts
end

section
/-! SUPPORT. The swap tests of a clock advance: which chutes come overdue, and what the tests leave. -/

namespace Sys2Proof.Machine.ChutesAndCarts

variable {s t : State} {c : Nat} {h : Chute}

/-! The time of a swap (R126) -/

theorem swapElapsed_of_le (hle : h.swapTime.toNat ≤ s.lu.clock.toNat) :
    swapElapsed s.lu.clock h = s.lu.clock - h.swapTime
      ∧ (s.lu.clock - h.swapTime).toNat = s.lu.clock.toNat - h.swapTime.toNat :=
  ⟨if_pos hle, BitVec.toNat_sub_of_le hle⟩

theorem swapElapsed_of_lt (hlt : s.lu.clock.toNat < h.swapTime.toNat) : swapElapsed s.lu.clock h = 0 :=
  if_neg (Nat.not_le.2 hlt)

/-! One swap test (R126) -/

/-- A chute once its swap has been timed: overdue sent when it was, or when its swap has come to the limit. -/
def timedChute (limit : Nat) (clock : Time) (h : Chute) : Chute :=
  { h with
    overdueSent := h.overdueSent
      || decide (h.cycle = some .swapping ∧ limit ≤ (swapElapsed clock h).toNat) }

theorem timedChute_timedChute (limit : Nat) (clock : Time) (h : Chute) :
    timedChute limit clock (timedChute limit clock h) = timedChute limit clock h := by
  simp [timedChute, swapElapsed]

theorem swapDue_iff : s.swapDue h = true ↔ h.cycle = some .swapping ∧ h.overdueSent = false
    ∧ s.cu.settings.swapLimit ≤ (swapElapsed s.lu.clock h).toNat := by
  simp [State.swapDue, and_assoc]

theorem timedChute_of_due (hdue : s.swapDue h = true) :
    timedChute s.cu.settings.swapLimit s.lu.clock h = { h with overdueSent := true } := by
  obtain ⟨hcy, -, hlimit⟩ := swapDue_iff.1 hdue
  simp [timedChute, hcy, hlimit]

theorem timedChute_of_not_due (hdue : ¬s.swapDue h = true) :
    timedChute s.cu.settings.swapLimit s.lu.clock h = h := by
  have hsent : (h.overdueSent || decide (h.cycle = some .swapping
      ∧ s.cu.settings.swapLimit ≤ (swapElapsed s.lu.clock h).toNat)) = h.overdueSent := by
    rw [swapDue_iff] at hdue
    cases hs : h.overdueSent with
    | true => rfl
    | false => exact decide_eq_false fun hd => hdue ⟨hd.1, hs, hd.2⟩
  rw [timedChute, hsent]

theorem swapTest_idle (hidle : ∀ h, Tbl.get s.chutes c = some h → ¬s.swapDue h = true) : s.swapTest c = s := by
  unfold State.swapTest
  split
  · rfl
  · next h hc => exact if_neg (hidle h hc)

theorem swapTest_due (hc : Tbl.get s.chutes c = some h) (hdue : s.swapDue h = true) :
    s.swapTest c
      = (s.report 0x3D (b1 c ++ b1 h.bound ++ b4 h.swapTime ++ b4 (swapElapsed s.lu.clock h))).putChute c
          { h with overdueSent := true } := by
  simp only [State.swapTest, hc, hdue, if_true]

/-- A swap test changes nothing, or sends its report and writes its chute. -/
theorem swapTest_cases (s : State) (c : Nat) :
    s.swapTest c = s ∨ ∃ h bytes, Tbl.get s.chutes c = some h ∧ s.swapDue h = true
      ∧ s.swapTest c = (s.report 0x3D bytes).putChute c { h with overdueSent := true } := by
  by_cases hdue : ∃ h, Tbl.get s.chutes c = some h ∧ s.swapDue h = true
  · obtain ⟨h, hc, hdue⟩ := hdue
    exact .inr ⟨h, _, hc, hdue, swapTest_due hc hdue⟩
  · exact .inl (swapTest_idle fun h hc hd => hdue ⟨h, hc, hd⟩)

theorem swapTest_get (s : State) (c j : Nat) :
    Tbl.get (s.swapTest c).chutes j
      = if j = c then (Tbl.get s.chutes j).map (timedChute s.cu.settings.swapLimit s.lu.clock)
        else Tbl.get s.chutes j := by
  by_cases hdue : ∃ h, Tbl.get s.chutes c = some h ∧ s.swapDue h = true
  · obtain ⟨h, hc, hdue⟩ := hdue
    rw [swapTest_due hc hdue, State.putChute_chutes, State.report_chutes]
    split
    · next hj => rw [hj, Tbl.get_set_same, hc, Option.map_some, timedChute_of_due hdue]
    · next hj => exact Tbl.get_set_other _ _ _ _ hj
  · rw [swapTest_idle fun h hc hd => hdue ⟨h, hc, hd⟩]
    split
    · next hj =>
      subst hj
      cases hc : Tbl.get s.chutes j with
      | none => rfl
      | some h => rw [Option.map_some, timedChute_of_not_due fun hd => hdue ⟨h, hc, hd⟩]
    · rfl

/-! All of them -/

/-- What the swap tests leave as it was. -/
structure SwapKeeps (s t : State) : Prop where
  clock : t.lu.clock = s.lu.clock
  fldTx : t.lu.fldTx = s.lu.fldTx
  cu : t.cu = s.cu
  sailings : t.sailings = s.sailings
  manifest : t.manifest = s.manifest
  groups : t.groups = s.groups
  stations : t.stations = s.stations
  lt : t.lt = s.lt
  trays : t.trays = s.trays
  carts : t.carts = s.carts
  su : t.su = s.su

theorem SwapKeeps.refl (s : State) : SwapKeeps s s :=
  ⟨rfl, rfl, rfl, rfl, rfl, rfl, rfl, rfl, rfl, rfl, rfl⟩

theorem SwapKeeps.swapTest (hk : SwapKeeps s t) (c : Nat) : SwapKeeps s (t.swapTest c) := by
  rcases swapTest_cases t c with hidle | ⟨h, bytes, -, -, hdue⟩
  · rwa [hidle]
  · rw [hdue]
    constructor <;> simp [hk.clock, hk.fldTx, hk.cu, hk.sailings, hk.manifest, hk.groups, hk.stations, hk.lt,
      hk.trays, hk.carts, hk.su]

theorem SwapKeeps.foldl (hk : SwapKeeps s t) (l : List Nat) : SwapKeeps s (l.foldl State.swapTest t) :=
  List.foldlRecOn l State.swapTest hk fun _ hu c _ => hu.swapTest c

theorem swapTests_keeps (s : State) : SwapKeeps s s.swapTests :=
  (SwapKeeps.refl s).foldl _

/-- A second test of a chute finds nothing that the first left. -/
theorem foldl_swapTest_get (l : List Nat) (s : State) (j : Nat) :
    Tbl.get (l.foldl State.swapTest s).chutes j
      = if j ∈ l then (Tbl.get s.chutes j).map (timedChute s.cu.settings.swapLimit s.lu.clock)
        else Tbl.get s.chutes j := by
  induction l generalizing s with
  | nil => rfl
  | cons c l ih =>
    have hk : SwapKeeps s (s.swapTest c) := (SwapKeeps.refl s).swapTest c
    rw [List.foldl_cons, ih, hk.cu, hk.clock, swapTest_get]
    by_cases hj : j = c
    · have htwice : ∀ o : Option Chute, (o.map (timedChute s.cu.settings.swapLimit s.lu.clock)).map
          (timedChute s.cu.settings.swapLimit s.lu.clock)
            = o.map (timedChute s.cu.settings.swapLimit s.lu.clock) := fun o => by
        simp only [Option.map_map, Function.comp_def, timedChute_timedChute]
      simp only [hj, if_true, List.mem_cons, true_or, htwice, ite_self]
    · simp only [hj, if_false, List.mem_cons, false_or]

theorem swapTests_get (s : State) (j : Nat) :
    Tbl.get s.swapTests.chutes j
      = (Tbl.get s.chutes j).map (timedChute s.cu.settings.swapLimit s.lu.clock) := by
  rw [State.swapTests, foldl_swapTest_get]
  split
  · rfl
  · next hj =>
    cases hc : Tbl.get s.chutes j with
    | none => rfl
    | some h => exact absurd (List.mem_map_of_mem (f := Prod.fst) (Tbl.mem_of_get _ _ _ hc)) hj

end Sys2Proof.Machine.ChutesAndCarts
end

section
/-! SUPPORT. What the batch events of a clock advance leave: nothing of the bags' journey but ready queues and
carts, and no LOCKED sequencer at its divisor that was below it. -/

namespace Sys2Proof.Machine.ChutesAndCarts

variable {s t : State} {slot group : Nat}

/-- A sequencer whose lift event count does not call for a batch event (R137). -/
def BelowDivisor (q : Sequencer) : Prop := q.mode = .locked → q.lifts < q.divisor

/-- What a batch event of a sequencer leaves as it was. -/
structure BatchKeeps (s t : State) : Prop where
  clock : t.lu.clock = s.lu.clock
  cu : t.cu = s.cu
  manifest : t.manifest = s.manifest
  stations : t.stations = s.stations
  lt : t.lt = s.lt
  trays : t.trays = s.trays
  chutes : t.chutes = s.chutes
  su : t.su = s.su
  below : (∀ r ∈ s.sailings, BelowDivisor r.2.seq) → ∀ r ∈ t.sailings, BelowDivisor r.2.seq

theorem BatchKeeps.refl (s : State) : BatchKeeps s s :=
  ⟨rfl, rfl, rfl, rfl, rfl, rfl, rfl, rfl, id⟩

theorem BatchKeeps.modifySeq {f : Sequencer → Sequencer} (h : BatchKeeps s t) (slot : Nat)
    (hf : ∀ q, BelowDivisor q → BelowDivisor (f q)) : BatchKeeps s (t.modifySeq slot f) :=
  { h with
    below := fun hs r hr => by
      obtain ⟨r, hr', rfl⟩ := List.mem_map.1 hr
      have hbelow := h.below hs r hr'
      split
      · exact hf _ hbelow
      · exact hbelow }

theorem BatchKeeps.endStep (h : BatchKeeps s t) (slot len : Nat) : BatchKeeps s (t.endStep slot len) :=
  h.modifySeq slot fun q hq => by
    unfold BelowDivisor
    dsimp only
    split
    · nofun
    · exact hq

theorem BatchKeeps.callCart {v : Sailing} {id : Nat} {c : Cart} {g : Group} {rest : List Nat}
    (h : BatchKeeps s t) (hv : Tbl.get t.sailings slot = some v) :
    BatchKeeps s (t.callCart slot group v id c g rest) := by
  constructor
  case below =>
    intro hs r hr
    have hrow : r ∈ Tbl.set t.sailings slot { v with seq :=
        { v.seq with released := releaseCount v.seq.released t.freeIdx } } := by
      simpa [State.callCart, State.reportCalled] using hr
    rcases Tbl.mem_set _ _ _ _ hrow with rfl | hold
    · exact h.below hs (slot, v) (Tbl.mem_of_get _ _ _ hv)
    · exact h.below hs r hold
  all_goals
    simp [State.callCart, State.reportCalled, h.clock, h.cu, h.manifest, h.stations, h.lt, h.trays, h.chutes, h.su]

theorem BatchKeeps.callCarts (h : BatchKeeps s t) (slot group n : Nat) :
    BatchKeeps s (t.callCarts slot group n).1 := by
  induction n generalizing t with
  | zero => exact h
  | succ n ih =>
    unfold State.callCarts
    split
    · next v g hv _ =>
      split
      · exact h
      · split
        · exact h
        · split
          · exact ih (h.callCart hv)
          · exact h
    · exact h

/-- A stage's calls made, its step may end, and a stage without a call goes on to the next (R139). -/
theorem BatchKeeps.afterCalls {r : State × Nat} {len fuel : Nat} (h : BatchKeeps s r.1)
    (ih : ∀ {u : State}, BatchKeeps s u → BatchKeeps s (u.batchFrom slot fuel)) (ended : Bool) :
    BatchKeeps s
      (let u := if ended then r.1.endStep slot len else r.1
      if r.2 = 0 ∧ ended then u.batchFrom slot fuel else u) := by
  cases ended with
  | false => simpa using h
  | true =>
    have hended := h.endStep slot len
    simp only [if_true, and_true]
    split
    · exact ih hended
    · exact hended

theorem BatchKeeps.batchFrom (h : BatchKeeps s t) (slot fuel : Nat) :
    BatchKeeps s (t.batchFrom slot fuel) := by
  induction fuel generalizing t with
  | zero => exact h
  | succ fuel ih =>
    unfold State.batchFrom
    split
    · exact h
    · next v _ =>
      split
      · exact h.modifySeq slot fun q hq => nofun
      · next x _ =>
        split
        · exact ih (h.modifySeq slot fun q hq => hq)
        · have hcalled := h.callCarts slot x.group (x.allowance v.seq.released)
          exact hcalled.afterCalls ih _

theorem BatchKeeps.freeEvent (h : BatchKeeps s t) (slot : Nat) : BatchKeeps s (t.freeEvent slot) := by
  unfold State.freeEvent
  split
  · exact h
  · split
    · have hdue := h.modifySeq slot (f := fun q => { q with due := t.lu.clock + BitVec.ofNat 32 q.period })
        fun q hq => hq
      unfold State.batchEvent
      split
      · exact hdue
      · exact hdue.batchFrom slot _
    · exact h

theorem BatchKeeps.foldl (h : BatchKeeps s t) (l : List Nat) : BatchKeeps s (l.foldl State.freeEvent t) :=
  List.foldlRecOn l State.freeEvent h fun _ hu slot _ => hu.freeEvent slot

/-- A sequencer that is not FREE and due makes no batch event (R138). -/
theorem freeEvent_idle
    (hidle : ∀ r ∈ s.sailings, r.2.seq.mode = .free → 2 ^ 31 ≤ (s.lu.clock - r.2.seq.due).toNat) (slot : Nat) :
    s.freeEvent slot = s := by
  unfold State.freeEvent
  split
  · rfl
  · next v hv =>
    refine if_neg ?_
    rintro ⟨hfree, hdue⟩
    exact Nat.not_lt.2 (hidle (slot, v) (Tbl.mem_of_get _ _ _ hv) hfree) (of_decide_eq_true hdue)

theorem foldl_freeEvent_idle
    (hidle : ∀ r ∈ s.sailings, r.2.seq.mode = .free → 2 ^ 31 ≤ (s.lu.clock - r.2.seq.due).toNat)
    (l : List Nat) : l.foldl State.freeEvent s = s :=
  List.foldlRecOn (motive := fun t => t = s) l State.freeEvent rfl fun _ ht slot _ =>
    ht.symm ▸ freeEvent_idle hidle slot

/-- A sequencer below its divisor makes a batch event as a row only when it is FREE and due. -/
theorem execBatchEvent_eq_freeEvent (hbelow : ∀ r ∈ s.sailings, BelowDivisor r.2.seq) (slot : Nat) :
    exec (.batchEvent slot) s = .next (s.freeEvent slot) := by
  have hexec : exec (.batchEvent slot) s = execBatchEvent slot s := rfl
  rw [hexec]
  unfold execBatchEvent
  split
  · next hv => simp only [State.freeEvent, hv]
  · next v hv =>
    refine if_neg ?_
    rintro ⟨hlocked, hfull⟩
    exact Nat.not_lt.2 hfull (hbelow (slot, v) (Tbl.mem_of_get _ _ _ hv) hlocked)

end Sys2Proof.Machine.ChutesAndCarts
end

section
/-! SUPPORT and the statement on the clock advance, with SWAP_OVERDUE and ENCODE_NEXT as rows of their own. -/

namespace Sys2Proof.Machine.ChutesAndCarts

variable {s : State} {c : Nat} {h : Chute} {node : Byte}

/-! ENCODE NEXT (R155) -/

theorem sendEncodeNext_idle
    (hidle : s.encodeNode = none ∨ s.su.notice = some s.encodeHead ∨ 32 ≤ s.lu.fldTx.queue.length) :
    s.sendEncodeNext = s := by
  unfold State.sendEncodeNext
  split
  · rfl
  · next node hn =>
    refine if_neg ?_
    rintro ⟨hne, hplace⟩
    rcases hidle with hnone | htold | hfull
    · rw [hn] at hnone
      cases hnone
    · exact hne htold
    · exact Nat.not_lt.2 hfull (of_decide_eq_true hplace)

/-- The frame and the notice of a head that differs from the notice. -/
theorem sendEncodeNext_sends (hn : s.encodeNode = some node) (hne : s.su.notice ≠ some s.encodeHead)
    (hq : s.lu.fldTx.queue.length < 32) :
    s.sendEncodeNext = ({ s with su := { s.su with notice := some s.encodeHead } } : State).tellField node 0x24
      s.encodeNextFields := by
  have hplace : s.orderPlace = true := decide_eq_true hq
  simp only [State.sendEncodeNext, hn, hne, hplace, ne_eq, not_false_eq_true, and_self, if_true,
    State.order_room s node 0x24 _ hq]
  rfl

/-- ENCODE NEXT writes the notice and the line alone, and no clock. -/
theorem sendEncodeNext_keeps (s : State) : s.sendEncodeNext = { s with
    lu := s.sendEncodeNext.lu, su := { s.su with notice := s.sendEncodeNext.su.notice } }
      ∧ s.sendEncodeNext.lu.clock = s.lu.clock := by
  by_cases hidle : s.encodeNode = none ∨ s.su.notice = some s.encodeHead ∨ 32 ≤ s.lu.fldTx.queue.length
  · rw [sendEncodeNext_idle hidle]
    exact ⟨rfl, rfl⟩
  · simp only [not_or, Nat.not_le] at hidle
    obtain ⟨hnode, hne, hq⟩ := hidle
    obtain ⟨node, hn⟩ := Option.ne_none_iff_exists'.1 hnode
    rw [sendEncodeNext_sends hn hne hq]
    exact ⟨rfl, rfl⟩

/-- A head that differs from the notice is told where there is an order place; else nothing is sent. -/
theorem sendEncodeNext_notice (hn : s.encodeNode = some node) :
    if s.su.notice ≠ some s.encodeHead ∧ s.lu.fldTx.queue.length < 32 then
      s.sendEncodeNext.su.notice = some s.encodeHead
        ∧ ∃ f, s.sendEncodeNext.lu.fldTx.queue = s.lu.fldTx.queue ++ [f] ∧ f.dst = node ∧ f.kind = 0x24
    else s.sendEncodeNext.su.notice = s.su.notice ∧ s.sendEncodeNext.lu.fldTx = s.lu.fldTx := by
  split
  · next hdue =>
    obtain ⟨hne, hq⟩ := hdue
    rw [sendEncodeNext_sends hn hne hq]
    exact ⟨rfl, _, rfl, rfl, rfl⟩
  · next hdue =>
    rw [sendEncodeNext_idle (.inr (by rwa [not_and_or, not_not, Nat.not_lt] at hdue))]
    exact ⟨rfl, rfl⟩

theorem encodeHead_nil (he : s.su.encode = []) : s.encodeHead = 0 := by
  rw [State.encodeHead, he]
  rfl

theorem encodeHead_cons {it : EncodeItem} {rest : List EncodeItem} (he : s.su.encode = it :: rest) :
    s.encodeHead = it.ref := by
  rw [State.encodeHead, he]
  rfl

theorem encodeNextFields_absent (hr : Tbl.get s.su.strays s.encodeHead = none) :
    s.encodeNextFields = b2 s.encodeHead := by
  simp only [State.encodeNextFields, hr]

theorem encodeNextFields_open {r : Stray} (hr : Tbl.get s.su.strays s.encodeHead = some r) :
    s.encodeNextFields = b2 s.encodeHead ++ b1 r.cls ++ bOpt 2 b2 r.index ++ bFlag r.linked
      ++ b1 (r.slot.getD 0) ++ bOpt 2 b2 r.mass ++ b1 s.su.encode.length := by
  simp only [State.encodeNextFields, hr]

/-! The advance as a run of rows (R172) -/

/-- A state once a row is taken, which stays as it is where the row has no next state. -/
def afterRow (t : State) (i : Instr) : State :=
  match exec i t with
  | .next t' => t'
  | _ => t

theorem afterRow_batchEvent (hbelow : ∀ r ∈ s.sailings, BelowDivisor r.2.seq) (slot : Nat) :
    afterRow s (.batchEvent slot) = s.freeEvent slot := by
  rw [afterRow, execBatchEvent_eq_freeEvent hbelow]

theorem foldl_afterRow_batchEvent (hbelow : ∀ r ∈ s.sailings, BelowDivisor r.2.seq) (l : Tbl Sailing) :
    l.foldl (fun t r => afterRow t (.batchEvent r.1)) s = (Tbl.keys l).foldl State.freeEvent s := by
  induction l generalizing s with
  | nil => rfl
  | cons r l ih =>
    have hkept := ((BatchKeeps.refl s).freeEvent r.1).below hbelow
    rw [List.foldl_cons, afterRow_batchEvent hbelow, ih hkept]
    rfl

/-- The state with the clock one second on. -/
def secondOn (s : State) : State := { s with lu := { s.lu with clock := s.lu.clock + 1 } }

theorem clockAdvances_eq (s : State) :
    s.clockAdvances
      = ((Tbl.keys s.sailings).foldl State.freeEvent (secondOn s).swapTests).sendEncodeNext := by
  have hsailings : (secondOn s).swapTests.sailings = s.sailings := (swapTests_keeps (secondOn s)).sailings
  rw [← hsailings]
  rfl

theorem clockAdvances_eq_foldl (hbelow : ∀ r ∈ s.sailings, BelowDivisor r.2.seq) :
    s.clockAdvances
      = (s.chutes.map (fun r => Instr.swapOverdue r.1) ++ s.sailings.map (fun r => Instr.batchEvent r.1)
          ++ [Instr.encodeNext]).foldl afterRow (secondOn s) := by
  have hswaps : s.chutes.foldl (fun t r => afterRow t (.swapOverdue r.1)) (secondOn s)
      = (secondOn s).swapTests :=
    (List.foldl_map (f := Prod.fst) (g := State.swapTest) (l := s.chutes) (init := secondOn s)).symm
  have hkept : ∀ r ∈ (secondOn s).swapTests.sailings, BelowDivisor r.2.seq := by
    rw [(swapTests_keeps (secondOn s)).sailings]
    exact hbelow
  rw [List.foldl_append, List.foldl_append, List.foldl_map, List.foldl_map, hswaps,
    foldl_afterRow_batchEvent hkept, clockAdvances_eq]
  rfl

/-- An advance in its parts: swap tests, then batch events that end in some state, then the notice; that state
is the swap tests' own where no FREE sequencer is due. -/
theorem clockAdvances_frame (s : State) :
    ∃ w, s.clockAdvances = w.sendEncodeNext ∧ BatchKeeps (secondOn s).swapTests w
      ∧ s.clockAdvances = { w with
          lu := s.clockAdvances.lu, su := { w.su with notice := s.clockAdvances.su.notice } }
      ∧ s.clockAdvances.lu.clock = w.lu.clock
      ∧ ((∀ r ∈ s.sailings, r.2.seq.mode = .free → 2 ^ 31 ≤ (s.lu.clock + 1 - r.2.seq.due).toNat) →
          (secondOn s).swapTests = w) := by
  have hu := swapTests_keeps (secondOn s)
  rw [clockAdvances_eq]
  obtain ⟨hrest, hclock⟩ :=
    sendEncodeNext_keeps ((Tbl.keys s.sailings).foldl State.freeEvent (secondOn s).swapTests)
  refine ⟨_, rfl, (BatchKeeps.refl _).foldl _, hrest, hclock, fun hidle => ?_⟩
  exact (foldl_freeEvent_idle (by rw [hu.sailings, hu.clock]; exact hidle) _).symm

/-- The swap tests of an advance leave what the notice is made from. -/
theorem advance_notice (hn : s.encodeNode = some node) :
    if s.su.notice ≠ some s.encodeHead ∧ s.lu.fldTx.queue.length < 32 then
      (secondOn s).swapTests.sendEncodeNext.su.notice = some s.encodeHead
        ∧ ∃ f, (secondOn s).swapTests.sendEncodeNext.lu.fldTx.queue = s.lu.fldTx.queue ++ [f] ∧ f.dst = node
          ∧ f.kind = 0x24
    else (secondOn s).swapTests.sendEncodeNext.su.notice = s.su.notice
      ∧ (secondOn s).swapTests.sendEncodeNext.lu.fldTx = s.lu.fldTx := by
  have hu := swapTests_keeps (secondOn s)
  have hnode : (secondOn s).swapTests.encodeNode = s.encodeNode := by
    rw [State.encodeNode, hu.stations]
    rfl
  have hhead : (secondOn s).swapTests.encodeHead = s.encodeHead := by
    rw [State.encodeHead, hu.su]
    rfl
  have htold := sendEncodeNext_notice (hnode.trans hn)
  rw [hhead, hu.su, hu.fldTx] at htold
  exact htold

/-! The statement -/

/-- Settles O53: an advance is the second, the swap tests, the batch events and the notice; each part's frame
and each row's condition. -/
theorem clockAdvanceTimesSwapsAndNotices : Obligations.ClockAdvanceTimesSwapsAndNotices := by
  refine ⟨fun s _ => ?_, fun s hbelow => ?_, fun s c h hc hcy hsent hle => ⟨fun hlimit hq => ?_, fun hlimit => ?_⟩,
    fun s c hidle => ?_, fun s => ⟨fun hidle => ?_, fun node hn hq => ⟨fun he hne hr => ?_,
      fun it rest r he hne hr => ?_⟩⟩⟩
  · have hu := swapTests_keeps (secondOn s)
    obtain ⟨w, ht, hw, hrest, hclock, hidle⟩ := clockAdvances_frame s
    have hsu : w.su = s.su := hw.su.trans hu.su
    refine ⟨s.clockAdvances, rfl, hclock.trans (hw.clock.trans hu.clock),
      (congrArg State.manifest hrest).trans (hw.manifest.trans hu.manifest),
      (congrArg State.trays hrest).trans (hw.trays.trans hu.trays),
      (congrArg State.stations hrest).trans (hw.stations.trans hu.stations),
      (congrArg State.lt hrest).trans (hw.lt.trans hu.lt), (congrArg State.cu hrest).trans (hw.cu.trans hu.cu),
      (congrArg (fun t => t.su.strays) hrest).trans (congrArg StrayUnit.strays hsu),
      (congrArg (fun t => t.su.encode) hrest).trans (congrArg StrayUnit.encode hsu),
      (congrArg (fun t => t.su.classes) hrest).trans (congrArg StrayUnit.classes hsu), fun c => ?_, fun hnone => ?_⟩
    · rw [(congrArg State.chutes hrest).trans hw.chutes]
      exact swapTests_get (secondOn s) c
    · have hsame := hidle hnone
      subst hsame
      exact ⟨(congrArg State.sailings hrest).trans hu.sailings, (congrArg State.groups hrest).trans hu.groups,
        (congrArg State.carts hrest).trans hu.carts, fun node hn => ht ▸ advance_notice hn⟩
  · exact congrArg Host.Outcome.next (clockAdvances_eq_foldl hbelow)
  · obtain ⟨helapsed, hseconds⟩ := swapElapsed_of_le hle
    have hdue : s.swapDue h = true := swapDue_iff.2 ⟨hcy, hsent, by rw [helapsed, hseconds]; exact hlimit⟩
    have htest := swapTest_due hc hdue
    rw [State.report_room _ _ _ hq, helapsed] at htest
    exact congrArg Host.Outcome.next htest
  · obtain ⟨helapsed, hseconds⟩ := swapElapsed_of_le hle
    refine congrArg Host.Outcome.next (swapTest_idle fun h' hc' hdue => ?_)
    cases hc'.symm.trans hc
    obtain ⟨-, -, hreached⟩ := swapDue_iff.1 hdue
    rw [helapsed, hseconds] at hreached
    exact Nat.not_lt.2 hreached hlimit
  · refine congrArg Host.Outcome.next (swapTest_idle fun h hc hdue => ?_)
    obtain ⟨hcy, hsent, hreached⟩ := swapDue_iff.1 hdue
    rcases hidle h hc with hother | htold | ⟨hbelow, hlimit⟩
    · exact hother hcy
    · rw [htold] at hsent
      cases hsent
    · rw [swapElapsed_of_lt hbelow] at hreached
      exact Nat.not_lt.2 hreached hlimit
  · exact congrArg Host.Outcome.next (sendEncodeNext_idle hidle)
  · have hhead := encodeHead_nil he
    have hsends := sendEncodeNext_sends hn (by rw [hhead]; exact hne) hq
    rw [encodeNextFields_absent (by rw [hhead]; exact hr), hhead] at hsends
    exact congrArg Host.Outcome.next hsends
  · have hhead := encodeHead_cons he
    have hsends := sendEncodeNext_sends hn (by rw [hhead]; exact hne) hq
    rw [encodeNextFields_open (by rw [hhead]; exact hr), hhead, he] at hsends
    exact congrArg Host.Outcome.next hsends

end Sys2Proof.Machine.ChutesAndCarts
end

section
/-! SUPPORT and the statement on the step list and the sequencer: STEP PUT, STEP CLEAR, SEQ START and SEQ
STOP. -/

namespace Sys2Proof.Machine.DispatchToShip

open PlansAndBindings

variable {s : State} {src n k g batch quota first div p1 p0 : Byte} {v : Sailing} {grp : Group} {p : List Byte}

theorem exec_stepPut : exec (.stepPut src p) s = .next (s.takeCommand src 0x6C (stepPut p)) := rfl

theorem exec_stepClear : exec (.stepClear src p) s = .next (s.takeCommand src 0x6D (stepClear p)) := rfl

theorem exec_seqStart : exec (.seqStart src p) s = .next (s.takeCommand src 0x6E (seqStart p)) := rfl

theorem exec_seqStop : exec (.seqStop src p) s = .next (s.takeCommand src 0x6F (seqStop p)) := rfl

theorem toNat_eq_zero_iff {b : Byte} : b.toNat = 0 ↔ b = 0 :=
  ⟨fun h => BitVec.eq_of_toNat_eq h, fun h => h ▸ rfl⟩

/-! STEP PUT (R132) -/

/-- A place at most one past the list is replaced, or the tail joined: both are a splice. -/
theorem putStep_eq_splice {steps : List DStep} {i : Nat} (x : DStep) (hi : i ≤ steps.length) :
    putStep steps i x = steps.take i ++ [x] ++ steps.drop (i + 1) := by
  unfold putStep
  split
  · next hlt => rw [List.set_eq_take_append_cons_drop, if_pos hlt, List.append_assoc, List.singleton_append]
  · next hge =>
    obtain rfl : i = steps.length := hi.antisymm (Nat.not_lt.1 hge)
    rw [List.take_length, List.drop_of_length_le (Nat.le_succ _), List.append_nil]

theorem length_putStep {steps : List DStep} {i : Nat} (x : DStep) (hi : i ≤ steps.length) :
    (putStep steps i x).length = max steps.length (i + 1) := by
  unfold putStep
  split
  · rw [List.length_set]
    omega
  · rw [List.length_append, List.length_singleton]
    omega

theorem clamp_batch (b : Byte) : clamp 1 12 b.toNat = if b = 0 then 1 else min b.toNat 12 := by
  split
  · next hb => rw [hb]; rfl
  · next hb =>
    have hpos : b.toNat ≠ 0 := mt toNat_eq_zero_iff.1 hb
    rw [clamp]
    omega

/-- The checks of R132 in turn, for a slot, a step and a group in range. -/
theorem stepPut_inRange (h1 : 1 ≤ n.toNat) (h4 : n.toNat ≤ 4) (hv : Tbl.get s.sailings n.toNat = some v)
    (hk1 : 1 ≤ k.toNat) (hk : k.toNat ≤ 32) (hg1 : 1 ≤ g.toNat) (hg : g.toNat ≤ 127) :
    stepPut [n, k, g, batch, quota] s
      = if v.steps.length + 1 < k.toNat then .error .range
        else if v.state = .closing then .error .state
        else (Tbl.get s.groups g.toNat).elim (.error .absent) fun grp =>
          if grp.slot ≠ n.toNat then .error .conflict
          else
            let steps := putStep v.steps (k.toNat - 1)
              { group := g.toNat, batch := clamp 1 12 batch.toNat, quota := quota.toNat }
            .ok (s.putSailing n.toNat { v with steps := steps },
              b1 g.toNat ++ b1 (clamp 1 12 batch.toNat) ++ b1 quota.toNat ++ b1 steps.length) := by
  have hrange : ¬(k = 0 ∨ Config.stepPlaces < k.toNat ∨ g = 0 ∨ 127 < g.toNat) := by
    simp only [byte_ne_zero_of_pos hk1, byte_ne_zero_of_pos hg1, Config.stepPlaces, false_or]
    omega
  simp only [stepPut, namedSlot_present h1 h4 hv, if_neg hrange]
  cases Tbl.get s.groups g.toNat <;> rfl

/-- The sailing's own group: the step takes its place in the list. -/
theorem stepPut_own (h1 : 1 ≤ n.toNat) (h4 : n.toNat ≤ 4) (hv : Tbl.get s.sailings n.toNat = some v)
    (hk1 : 1 ≤ k.toNat) (hk : k.toNat ≤ 32) (hg1 : 1 ≤ g.toNat) (hg : g.toNat ≤ 127)
    (hlen : k.toNat ≤ v.steps.length + 1) (hst : v.state ≠ .closing)
    (hgrp : Tbl.get s.groups g.toNat = some grp) (hslot : grp.slot = n.toNat) :
    stepPut [n, k, g, batch, quota] s =
      let b := if batch = 0 then 1 else min batch.toNat 12
      .ok (s.putSailing n.toNat { v with
          steps := v.steps.take (k.toNat - 1) ++ [{ group := g.toNat, batch := b, quota := quota.toNat }]
            ++ v.steps.drop k.toNat },
        [g] ++ b1 b ++ [quota] ++ b1 (max v.steps.length k.toNat)) := by
  have hplace : k.toNat - 1 ≤ v.steps.length := Nat.sub_le_of_le_add hlen
  rw [stepPut_inRange h1 h4 hv hk1 hk hg1 hg, if_neg (Nat.not_lt.2 hlen), if_neg hst, hgrp, Option.elim_some,
    if_neg (not_not.2 hslot)]
  simp only [length_putStep _ hplace, Nat.sub_add_cancel hk1]
  simp only [putStep_eq_splice _ hplace, clamp_batch, b1_toNat, Nat.sub_add_cancel hk1]

/-! STEP CLEAR (R133) -/

theorem standsFrom_iff {q : Sequencer} {step : Nat} :
    q.standsFrom step = true ↔ (q.mode = .locked ∨ q.mode = .free) ∧ step ≤ q.current := by
  simp [Sequencer.standsFrom]

/-- The checks of R133 in turn, for a slot and a step in range. -/
theorem stepClear_inRange (h1 : 1 ≤ n.toNat) (h4 : n.toNat ≤ 4) (hv : Tbl.get s.sailings n.toNat = some v)
    (hk1 : 1 ≤ k.toNat) (hk : k.toNat ≤ 32) :
    stepClear [n, k] s
      = if v.state = .closing ∨ ((v.seq.mode = .locked ∨ v.seq.mode = .free) ∧ k.toNat ≤ v.seq.current) then
          .error .state
        else if v.steps.length < k.toNat then .ok (s, [])
        else .ok (s.putSailing n.toNat { v with steps := v.steps.take (k.toNat - 1) }, b1 (k.toNat - 1)) := by
  have hrange : ¬(k = 0 ∨ Config.stepPlaces < k.toNat) := by
    simp only [byte_ne_zero_of_pos hk1, Config.stepPlaces, false_or]
    omega
  simp only [stepClear, namedSlot_present h1 h4 hv, if_neg hrange, standsFrom_iff, ite_or]
  by_cases hbeyond : v.steps.length < k.toNat
  · simp only [if_pos hbeyond]
  · have hcount : (v.steps.take (k.toNat - 1)).length = k.toNat - 1 := List.length_take_of_le (by omega)
    simp only [if_neg hbeyond, hcount]

/-! SEQ START and SEQ STOP (R135, R136) -/

/-- The checks of R135 in turn, for a slot, a first step and a mode in range: past the list is judged by the
step that the sequencer would stand on. -/
theorem startSeq_inRange {mode : SeqMode} {first divisor period : Nat} (h1 : 1 ≤ n.toNat) (h4 : n.toNat ≤ 4)
    (hv : Tbl.get s.sailings n.toNat = some v) (hmode : mode = .locked ∨ mode = .free) (hfirst : first ≤ 32) :
    startSeq n.toNat first mode divisor period s
      = if v.state = .staged ∨ v.state = .closing
            ∨ v.steps.length < (if first = 0 then v.seq.current else first) then .error .state
        else
          let q := v.seq.start mode first divisor period s.lu.clock
          .ok (s.putSailing n.toNat { v with seq := q }, q.startFields) := by
  have hrange : ¬((mode ≠ .locked ∧ mode ≠ .free) ∨ Config.stepPlaces < first) := by
    simp only [Config.stepPlaces, not_or, not_and_or, not_not, Nat.not_lt]
    exact ⟨hmode, hfirst⟩
  simp only [startSeq, namedSlot_present h1 h4 hv, if_neg hrange, ← or_assoc, ite_or]
  by_cases hzero : first = 0 <;> simp [hzero]

theorem seqStart_locked : seqStart [n, first, 1, div, p1, p0] s
    = startSeq n.toNat first.toNat .locked div.toNat (u16 p1 p0) s := rfl

theorem seqStart_free : seqStart [n, first, 2, div, p1, p0] s
    = startSeq n.toNat first.toNat .free div.toNat (u16 p1 p0) s := rfl

theorem clamp_period (t : Nat) : clamp 20 600 t = max 20 (min t 600) := by
  rw [clamp]
  omega

/-- A LOCKED start takes the divisor and leaves the period and the next due. -/
theorem start_locked (q : Sequencer) (clock : Time) (t : Nat) :
    q.start .locked first.toNat div.toNat t clock
      = { q with
          mode := .locked, divisor := if div = 0 then 1 else min div.toNat 12,
          current := if first = 0 then q.current else first.toNat,
          released := if first = 0 then q.released else 0, lifts := 0 } := by
  simp only [Sequencer.start, clamp_batch, toNat_eq_zero_iff]
  rfl

/-- A FREE start takes the period, is due one period on, and leaves the divisor. -/
theorem start_free (q : Sequencer) (clock : Time) (m t : Nat) :
    q.start .free first.toNat m t clock
      = { q with
          mode := .free, period := max 20 (min t 600),
          current := if first = 0 then q.current else first.toNat,
          released := if first = 0 then q.released else 0, lifts := 0,
          due := clock + BitVec.ofNat 32 (max 20 (min t 600)) } := by
  simp only [Sequencer.start, clamp_period, toNat_eq_zero_iff]
  rfl

theorem seqStop_present (h1 : 1 ≤ n.toNat) (h4 : n.toNat ≤ 4) (hv : Tbl.get s.sailings n.toNat = some v) :
    seqStop [n] s = .ok (s.putSailing n.toNat { v with seq := { v.seq with mode := .off, lifts := 0 } },
      b1 v.seq.current ++ b1 v.seq.released) := by
  simp only [seqStop, namedSlot_present h1 h4 hv]

/-! The statement -/

/-- Settles O49: the checks of each rule in turn; a step list is spliced or cut, a sequencer started in its
mode. -/
theorem stepAndSequencerCommands : Obligations.StepAndSequencerCommands := by
  intro s src n k g batch quota first div p1 p0 v h h1 h4 hv
  refine ⟨fun hk1 hk hg1 hg => ?_, fun hk1 hk => ?_, fun hfirst => ?_,
    exec_accepted exec_seqStop h (seqStop_present h1 h4 hv) h.2⟩
  · have hbody := stepPut_inRange (batch := batch) (quota := quota) h1 h4 hv hk1 hk hg1 hg
    refine ⟨fun hbeyond => ?_, fun hlen => ?_⟩
    · rw [if_pos hbeyond] at hbody
      exact exec_refused exec_stepPut h hbody
    rw [if_neg (Nat.not_lt.2 hlen)] at hbody
    refine ⟨fun hst => ?_, fun hst hgrp => ?_, fun grp hst hgrp => ⟨fun hslot => ?_, fun hslot => ?_⟩⟩
    · rw [if_pos hst] at hbody
      exact exec_refused exec_stepPut h hbody
    · rw [if_neg hst, hgrp, Option.elim_none] at hbody
      exact exec_refused exec_stepPut h hbody
    · rw [if_neg hst, hgrp, Option.elim_some, if_pos hslot] at hbody
      exact exec_refused exec_stepPut h hbody
    · exact exec_accepted exec_stepPut h (stepPut_own h1 h4 hv hk1 hk hg1 hg hlen hst hgrp hslot) h.2
  · have hbody := stepClear_inRange h1 h4 hv hk1 hk
    refine ⟨fun hheld => ?_, fun hheld hbeyond => ?_, fun hheld hin => ?_⟩
    · rw [if_pos hheld] at hbody
      exact exec_refused exec_stepClear h hbody
    · rw [if_neg hheld, if_pos hbeyond] at hbody
      exact exec_accepted exec_stepClear h hbody h.2
    · rw [if_neg hheld, if_neg (Nat.not_lt.2 hin)] at hbody
      exact exec_accepted exec_stepClear h hbody h.2
  · have hlocked := startSeq_inRange (divisor := div.toNat) (period := u16 p1 p0) h1 h4 hv (.inl rfl) hfirst
    have hfree := startSeq_inRange (divisor := div.toNat) (period := u16 p1 p0) h1 h4 hv (.inr rfl) hfirst
    rw [← seqStart_locked] at hlocked
    rw [← seqStart_free] at hfree
    simp only [toNat_eq_zero_iff] at hlocked hfree
    refine ⟨fun href => ?_, fun hok => ?_⟩
    · rw [if_pos href] at hlocked hfree
      exact ⟨exec_refused exec_seqStart h hlocked, exec_refused exec_seqStart h hfree⟩
    · rw [if_neg hok, start_locked] at hlocked
      rw [if_neg hok, start_free] at hfree
      exact ⟨exec_accepted exec_seqStart h hlocked h.2, exec_accepted exec_seqStart h hfree h.2⟩

end Sys2Proof.Machine.DispatchToShip
end

section
/-! SUPPORT. A batch event stage by stage (R139): what the row takes of the sequencer, the walk from step to
step, and that a walk of the step list has stages enough. -/

namespace Sys2Proof.Machine.DispatchToShip

variable {s : State} {slot fuel n : Nat} {v w : Sailing} {x : DStep} {g : Group}

/-! Rewriting a sailing's sequencer -/

theorem modify_of_not_mem {α : Type} {t : Tbl α} {k : Nat} (f : α → α) (h : k ∉ Tbl.keys t) :
    Tbl.modify t k f = t :=
  (List.map_congr_left fun r hr => if_neg fun he : r.1 = k => h (he ▸ List.mem_map_of_mem hr)).trans
    (List.map_id t)

/-- In a table in canonical form, changing the row of a place is putting it there changed. -/
theorem modify_eq_set {α : Type} {t : Tbl α} {k : Nat} {a : α} (f : α → α) (hs : Tbl.Sorted t)
    (h : Tbl.get t k = some a) : Tbl.modify t k f = Tbl.set t k (f a) := by
  induction t with
  | nil => cases h
  | cons r t ih =>
    obtain ⟨j, b⟩ := r
    obtain ⟨hfirst, hs'⟩ := List.pairwise_cons.1 hs
    have hcons : Tbl.modify ((j, b) :: t) k f = (if j = k then (j, f b) else (j, b)) :: Tbl.modify t k f := rfl
    by_cases hj : j = k
    · subst hj
      obtain rfl : b = a := by simpa [Tbl.get] using h
      have hrest : Tbl.modify t j f = t := modify_of_not_mem f fun hmem => lt_irrefl j (hfirst j hmem)
      simp [hcons, Tbl.set, hrest]
    · have h' : Tbl.get t k = some a := by simpa [Tbl.get, hj] using h
      have hlt : j < k := hfirst k (List.mem_map_of_mem (f := Prod.fst) (Tbl.mem_of_get _ _ _ h'))
      simp [hcons, Tbl.set, hj, hlt.not_gt, ih hs' h']

theorem putSailing_putSailing : (s.putSailing slot v).putSailing slot w = s.putSailing slot w := by
  simp only [State.putSailing, Tbl.set_set]

theorem putSailing_get : Tbl.get (s.putSailing slot v).sailings slot = some v := Tbl.get_set_same _ _ _

theorem modifySeq_eq {f : Sequencer → Sequencer} (hs : Tbl.Sorted s.sailings)
    (hv : Tbl.get s.sailings slot = some v) :
    s.modifySeq slot f = s.putSailing slot { v with seq := f v.seq } := by
  rw [State.modifySeq, modify_eq_set _ hs hv, State.putSailing]

theorem modifySeq_putSailing {f : Sequencer → Sequencer} (hs : Tbl.Sorted s.sailings) :
    (s.putSailing slot v).modifySeq slot f = s.putSailing slot { v with seq := f v.seq } := by
  rw [modifySeq_eq (Tbl.sorted_set _ _ _ hs) putSailing_get, putSailing_putSailing]

/-! The row's condition (R137, R138) -/

/-- A LOCKED sequencer at its divisor, or a FREE one whose next due has come. -/
def EventDue (clock : Time) (q : Sequencer) : Prop :=
  (q.mode = .locked ∧ q.divisor ≤ q.lifts) ∨ (q.mode = .free ∧ (clock - q.due).toNat < 2 ^ 31)

/-- The sailing as a batch event of it begins: the lift count back at 0, or the next due a period on. -/
def eventTaken (clock : Time) (v : Sailing) : Sailing :=
  { v with seq :=
    if v.seq.mode = .locked then { v.seq with lifts := 0 }
    else { v.seq with due := clock + BitVec.ofNat 32 v.seq.period } }

theorem exec_batchEvent : exec (.batchEvent slot) s = execBatchEvent slot s := rfl

theorem batchEvent_eq (hv : Tbl.get s.sailings slot = some v) :
    s.batchEvent slot = s.batchFrom slot (v.steps.length + 1) := by
  simp only [State.batchEvent, hv]

theorem exec_batchEvent_idle (hv : Tbl.get s.sailings slot = some v) (hd : ¬EventDue s.lu.clock v.seq) :
    exec (.batchEvent slot) s = .next s := by
  obtain ⟨hlock, hfree⟩ := not_or.1 hd
  simp only [exec_batchEvent, execBatchEvent, State.freeEvent, hv, if_neg hlock, dueBy, decide_eq_true_eq,
    if_neg hfree]

/-- The row of a sequencer that is due walks the step list from the sailing with its event taken. -/
theorem exec_batchEvent_due (hs : Tbl.Sorted s.sailings) (hv : Tbl.get s.sailings slot = some v)
    (hd : EventDue s.lu.clock v.seq) :
    exec (.batchEvent slot) s
      = .next ((s.putSailing slot (eventTaken s.lu.clock v)).batchFrom slot (v.steps.length + 1)) := by
  rw [exec_batchEvent, execBatchEvent, hv]
  rcases hd with ⟨hmode, hfull⟩ | ⟨hmode, hdue⟩
  · simp only [if_pos (And.intro hmode hfull), modifySeq_eq hs hv, eventTaken, if_pos hmode]
    rw [batchEvent_eq putSailing_get]
  · simp only [State.freeEvent, hv, hmode, dueBy, decide_eq_true hdue, and_self, if_true, modifySeq_eq hs hv,
      eventTaken, reduceCtorEq, false_and, if_false]
    rw [batchEvent_eq putSailing_get]

/-! The stages (R139) -/

/-- Past the step list the sequencer is DONE. -/
theorem batchFrom_beyond (hv : Tbl.get s.sailings slot = some v) (hx : v.steps[v.seq.current - 1]? = none) :
    s.batchFrom slot (fuel + 1) = s.modifySeq slot (fun q => { q with mode := .done }) := by
  simp only [State.batchFrom, hv, hx]

/-- The sailing on its next step, none of which is released. -/
def onNextStep (v : Sailing) : Sailing :=
  { v with seq := { v.seq with current := v.seq.current + 1, released := 0 } }

/-- A step whose quota is met is passed. -/
theorem batchFrom_met (hs : Tbl.Sorted s.sailings) (hv : Tbl.get s.sailings slot = some v)
    (hx : v.steps[v.seq.current - 1]? = some x) (hq : x.quota ≠ 0) (hmet : x.quota ≤ v.seq.released) :
    s.batchFrom slot (fuel + 1) = (s.putSailing slot (onNextStep v)).batchFrom slot fuel := by
  simp only [State.batchFrom, hv, hx, if_pos (And.intro hq hmet), modifySeq_eq hs hv]
  rfl

/-- A step has ended once so many carts were called of it: its quota is met, or, without one, it has run dry. -/
def stepEnded (s : State) (v : Sailing) (x : DStep) (called : Nat) : Bool :=
  if x.quota = 0 then (Tbl.get s.groups x.group).any (fun g => g.ready.isEmpty) && s.runDry v x.group
  else decide (x.quota ≤ v.seq.released + called)

/-- The sailing as its step ends: on the next one, or DONE past the list. -/
def stepLeft (v : Sailing) : Sailing :=
  { v with seq :=
    { v.seq with
      current := v.seq.current + 1, released := 0,
      mode := if v.steps.length < v.seq.current + 1 then .done else v.seq.mode } }

theorem endStep_eq (hs : Tbl.Sorted s.sailings) (hv : Tbl.get s.sailings slot = some v) :
    s.endStep slot v.steps.length = s.putSailing slot (stepLeft v) :=
  modifySeq_eq hs hv

/-- A step whose quota is not met calls carts, and may end thereby. -/
theorem batchFrom_calls (hv : Tbl.get s.sailings slot = some v) (hx : v.steps[v.seq.current - 1]? = some x)
    (hq : x.quota = 0 ∨ v.seq.released < x.quota) :
    s.batchFrom slot (fuel + 1) =
      let r := s.callCarts slot x.group (x.allowance v.seq.released)
      let t := if stepEnded s v x r.2 then r.1.endStep slot v.steps.length else r.1
      if r.2 = 0 ∧ stepEnded s v x r.2 then t.batchFrom slot fuel else t := by
  have hopen : ¬(x.quota ≠ 0 ∧ x.quota ≤ v.seq.released) := by omega
  simp only [State.batchFrom, hv, hx, if_neg hopen]
  rfl

/-- A stage that calls carts is the last. -/
theorem batchFrom_called (hv : Tbl.get s.sailings slot = some v) (hx : v.steps[v.seq.current - 1]? = some x)
    (hq : x.quota = 0 ∨ v.seq.released < x.quota)
    (hn : (s.callCarts slot x.group (x.allowance v.seq.released)).2 = n) (hpos : n ≠ 0) :
    s.batchFrom slot (fuel + 1) =
      let t := (s.callCarts slot x.group (x.allowance v.seq.released)).1
      if stepEnded s v x n then t.endStep slot v.steps.length else t := by
  simp only [batchFrom_calls hv hx hq, hn, hpos, false_and, if_false]

/-- A stage that calls no cart stays, or goes on where its step has ended. -/
theorem batchFrom_idle (hs : Tbl.Sorted s.sailings) (hv : Tbl.get s.sailings slot = some v)
    (hx : v.steps[v.seq.current - 1]? = some x) (hq : x.quota = 0 ∨ v.seq.released < x.quota)
    (hr : s.callCarts slot x.group (x.allowance v.seq.released) = (s, 0)) :
    s.batchFrom slot (fuel + 1)
      = if stepEnded s v x 0 then (s.putSailing slot (stepLeft v)).batchFrom slot fuel else s := by
  simp only [batchFrom_calls hv hx hq, hr, true_and, endStep_eq hs hv]
  split <;> rfl

theorem callCarts_of_none_called {group : Nat} (h : (s.callCarts slot group n).2 = 0) :
    s.callCarts slot group n = (s, 0) := by
  cases n with
  | zero => rfl
  | succ n =>
    revert h
    unfold State.callCarts
    split
    · split
      · intro; rfl
      · split
        · intro; rfl
        · split
          · nofun
          · intro; rfl
    · intro; rfl

/-- More stages than there are steps left, and one, make no difference. -/
theorem batchFrom_succ (hs : Tbl.Sorted s.sailings) (hv : Tbl.get s.sailings slot = some v)
    (hfuel : v.steps.length + 1 - v.seq.current < fuel) :
    s.batchFrom slot (fuel + 1) = s.batchFrom slot fuel := by
  induction fuel generalizing s v with
  | zero => exact absurd hfuel (Nat.not_lt_zero _)
  | succ fuel ih =>
    cases hx : v.steps[v.seq.current - 1]? with
    | none => rw [batchFrom_beyond hv hx, batchFrom_beyond hv hx]
    | some x =>
      obtain ⟨hlt, -⟩ := List.getElem?_eq_some_iff.1 hx
      have hless : v.steps.length + 1 - (v.seq.current + 1) < fuel := by omega
      by_cases hmet : x.quota ≠ 0 ∧ x.quota ≤ v.seq.released
      · obtain ⟨hquota, hmet⟩ := hmet
        rw [batchFrom_met hs hv hx hquota hmet, batchFrom_met hs hv hx hquota hmet]
        exact ih (Tbl.sorted_set _ _ _ hs) putSailing_get hless
      · have hq : x.quota = 0 ∨ v.seq.released < x.quota := by omega
        by_cases hnone : (s.callCarts slot x.group (x.allowance v.seq.released)).2 = 0
        · have hr := callCarts_of_none_called hnone
          rw [batchFrom_idle hs hv hx hq hr, batchFrom_idle hs hv hx hq hr,
            ih (Tbl.sorted_set _ _ _ hs) putSailing_get hless]
        · rw [batchFrom_called hv hx hq rfl hnone, batchFrom_called hv hx hq rfl hnone]

theorem eventTaken_onNextStep (clock : Time) (v : Sailing) :
    eventTaken clock (onNextStep v) = onNextStep (eventTaken clock v) := by
  by_cases hmode : v.seq.mode = .locked <;> simp [eventTaken, onNextStep, hmode]

theorem eventTaken_keeps (clock : Time) (v : Sailing) :
    (eventTaken clock v).seq.mode = v.seq.mode ∧ (eventTaken clock v).seq.current = v.seq.current
      ∧ (eventTaken clock v).seq.released = v.seq.released := by
  unfold eventTaken
  split <;> exact ⟨rfl, rfl, rfl⟩

/-- The row of the sailing on its next step is the walk from there, in the stages that are left. -/
theorem exec_batchEvent_onNextStep (hs : Tbl.Sorted s.sailings) (hd : EventDue s.lu.clock v.seq)
    (h1 : 1 ≤ v.seq.current) (hlen : v.seq.current ≤ v.steps.length) :
    exec (.batchEvent slot) (s.putSailing slot (onNextStep v))
      = .next ((s.putSailing slot (onNextStep (eventTaken s.lu.clock v))).batchFrom slot v.steps.length) := by
  obtain ⟨-, hcur, -⟩ := eventTaken_keeps s.lu.clock v
  have hd' : EventDue (s.putSailing slot (onNextStep v)).lu.clock (onNextStep v).seq := hd
  have hless : v.steps.length + 1 - ((eventTaken s.lu.clock v).seq.current + 1) < v.steps.length := by omega
  rw [exec_batchEvent_due (Tbl.sorted_set _ _ _ hs) putSailing_get hd', putSailing_putSailing, State.putSailing_lu,
    eventTaken_onNextStep]
  exact congrArg Host.Outcome.next (batchFrom_succ (Tbl.sorted_set _ _ _ hs) putSailing_get hless)

end Sys2Proof.Machine.DispatchToShip
end

section
/-! SUPPORT. The carts that a stage calls (R140): the head of the ready queue at each call, and what the calls of a
stage come to. -/

namespace Sys2Proof.Machine.DispatchToShip

variable {s t : State} {slot group n : Nat} {v : Sailing} {g : Group} {id : Nat} {rest : List Nat} {c : Cart}

/-- The payload of a CART CALL order. -/
def callBytes (group : Nat) (g : Group) (id : Nat) : List Byte := b1 id ++ b1 group ++ b1 g.deck ++ b1 g.zone

/-- The payload of a CART CALLED report, with the current step and the released count after the call. -/
def calledBytes (group : Nat) (g : Group) (current released : Nat) (clock : Time) (id : Nat) (c : Cart) :
    List Byte :=
  b1 id ++ b1 group ++ b1 g.slot ++ b1 g.deck ++ b1 g.zone ++ b1 c.bags.length ++ b2 c.charge
    ++ b1 (c.marked .doubt) ++ b1 current ++ b1 released ++ b4 clock

/-- The sailing with `n` more carts released. -/
def releasing (v : Sailing) (n : Nat) : Sailing :=
  { v with seq := { v.seq with released := v.seq.released + n } }

/-- The tables and the order of one call, before its report. -/
def cartOrdered (s : State) (slot group : Nat) (v : Sailing) (id : Nat) (c : Cart) (g : Group)
    (rest : List Nat) : State :=
  (((s.putCart id { c with state := .called }).putGroup group { g with ready := rest }).putSailing slot
    (releasing v 1)).tellField v.door 0x23 (callBytes group g id)

theorem callCart_eq (hplace : s.lu.fldTx.queue.length < 32) (hrel : v.seq.released < 255) :
    s.callCart slot group v id c g rest
      = (cartOrdered s slot group v id c g rest).report 0x35
          (calledBytes group g v.seq.current (v.seq.released + 1) s.lu.clock id c) := by
  simp only [State.callCart, State.reportCalled, releaseCount, if_pos hrel]
  rw [State.order_room _ _ _ _ (by exact hplace)]
  rfl

/-- What the calls of `n` carts from a group's ready queue leave, one order and one report each, in the queue's
order (R139, R140). -/
structure CartsCalled (s t : State) (slot group : Nat) (v : Sailing) (g : Group) (n : Nat) : Prop where
  groups : t.groups = Tbl.set s.groups group { g with ready := g.ready.drop n }
  sailings : t.sailings = Tbl.set s.sailings slot (releasing v n)
  carts : ∀ id c, Tbl.get s.carts id = some c → Tbl.get t.carts id
    = some (if id ∈ g.ready.take n then { c with state := .called } else c)
  orders : t.lu.fldTx.queue = s.lu.fldTx.queue ++ (g.ready.take n).map fun id =>
    { dst := v.door, src := s.lu.node, kind := 0x23, payload := callBytes group g id }
  reports : s.lu.supTx.queue.length + n ≤ 60 → ∃ told, t.lu.supTx.queue = s.lu.supTx.queue ++ told
    ∧ told.length = n
    ∧ ∀ i id c, i < n → g.ready[i]? = some id → Tbl.get s.carts id = some c → told[i]? = some
        { dst := 126, src := s.lu.node, kind := 0x35,
          payload := calledBytes group g v.seq.current (v.seq.released + i + 1) s.lu.clock id c }
  manifest : t.manifest = s.manifest
  trays : t.trays = s.trays
  chutes : t.chutes = s.chutes
  su : t.su = s.su

theorem CartsCalled.none (hs : Tbl.Sorted s.sailings) (hgs : Tbl.Sorted s.groups)
    (hv : Tbl.get s.sailings slot = some v) (hg : Tbl.get s.groups group = some g) :
    CartsCalled s s slot group v g 0 where
  groups := (Tbl.set_get _ _ _ hgs hg).symm
  sailings := (Tbl.set_get _ _ _ hs hv).symm
  carts := fun id c hc => by rw [List.take_zero, if_neg List.not_mem_nil, hc]
  orders := by rw [List.take_zero, List.map_nil, List.append_nil]
  reports := fun _ => ⟨[], (List.append_nil _).symm, rfl, fun i _ _ hi => absurd hi (Nat.not_lt_zero i)⟩
  manifest := rfl
  trays := rfl
  chutes := rfl
  su := rfl

/-- A call of the head, then calls of the carts behind it. -/
theorem CartsCalled.cons (hplace : s.lu.fldTx.queue.length < 32) (hrel : v.seq.released < 255)
    (hready : g.ready = id :: rest) (hnodup : g.ready.Nodup) (hc : Tbl.get s.carts id = some c)
    (h : CartsCalled (s.callCart slot group v id c g rest) t slot group (releasing v 1) { g with ready := rest } n) :
    CartsCalled s t slot group v g (n + 1) := by
  rw [hready] at hnodup
  obtain ⟨hhead, -⟩ := List.nodup_cons.1 hnodup
  rw [callCart_eq hplace hrel] at h
  obtain ⟨hgroups, hsailings, hcarts, horders, hreports, hmanifest, htrays, hchutes, hsu⟩ := h
  simp only [State.report_groups, State.report_sailings, State.report_carts, State.report_lu_fldTx,
    State.report_lu_node, State.report_lu_clock, State.report_manifest, State.report_trays, State.report_chutes,
    State.report_su] at *
  have hget : ∀ j d, Tbl.get s.carts j = some d → j ≠ id →
      Tbl.get (cartOrdered s slot group v id c g rest).carts j = some d :=
    fun j d hd hne => (Tbl.get_set_other _ _ _ _ hne).trans hd
  refine ⟨?_, ?_, ?_, ?_, ?_, hmanifest, htrays, hchutes, hsu⟩
  · rw [hgroups, hready]
    exact Tbl.set_set _ _ _ _
  · rw [hsailings, releasing, releasing, releasing, Nat.add_assoc, Nat.add_comm 1 n]
    exact Tbl.set_set _ _ _ _
  · intro j d hd
    rw [hready, List.take_succ_cons]
    by_cases hj : j = id
    · subst hj
      obtain rfl : d = c := Option.some.inj (hd.symm.trans hc)
      rw [hcarts j _ (Tbl.get_set_same _ _ _), if_pos List.mem_cons_self, ite_self]
    · rw [hcarts j d (hget j d hd hj)]
      simp only [List.mem_cons, hj, false_or]
  · rw [horders, hready, List.take_succ_cons, List.map_cons, List.append_cons]
    rfl
  · intro hroom
    have hq : (cartOrdered s slot group v id c g rest).lu.supTx.queue.length < Config.supReportPlaces := by
      show s.lu.supTx.queue.length < 60
      omega
    rw [State.report_room _ _ _ hq] at hreports
    obtain ⟨told, hqueue, hlength, htold⟩ := hreports (by
      rw [PlansAndBindings.tell_queue_length]
      show s.lu.supTx.queue.length + 1 + n ≤ 60
      omega)
    refine ⟨_ :: told, hqueue.trans (List.append_assoc _ [_] told), by rw [List.length_cons, hlength], ?_⟩
    intro i j d hi hj hd
    rw [hready] at hj
    cases i with
    | zero =>
      obtain rfl : id = j := Option.some.inj hj
      obtain rfl : d = c := Option.some.inj (hd.symm.trans hc)
      rfl
    | succ i =>
      have hne : j ≠ id := fun he => hhead (he ▸ List.mem_of_getElem? hj)
      rw [List.getElem?_cons_succ, htold i j d (Nat.lt_of_succ_lt_succ hi) hj (hget j d hd hne)]
      simp only [releasing, calledBytes, Nat.add_assoc, Nat.add_comm 1]
      rfl

/-! How many are called (R139, stage 3) -/

theorem callCarts_empty (hv : Tbl.get s.sailings slot = some v) (hg : Tbl.get s.groups group = some g)
    (hready : g.ready = []) : s.callCarts slot group n = (s, 0) := by
  cases n with
  | zero => rfl
  | succ n => simp only [State.callCarts, hv, hg, hready]

theorem callCarts_full (hfull : 32 ≤ s.lu.fldTx.queue.length) : s.callCarts slot group n = (s, 0) := by
  apply callCarts_of_none_called
  cases n with
  | zero => rfl
  | succ n =>
    have hplace : s.orderPlace = false := decide_eq_false (Nat.not_lt.2 hfull)
    unfold State.callCarts
    rw [hplace]
    split
    · split
      · rfl
      · split <;> rfl
    · rfl

theorem callCarts_head (hv : Tbl.get s.sailings slot = some v) (hg : Tbl.get s.groups group = some g)
    (hready : g.ready = id :: rest) (hc : Tbl.get s.carts id = some c)
    (hplace : s.lu.fldTx.queue.length < 32) :
    s.callCarts slot group (n + 1)
      = (((s.callCart slot group v id c g rest).callCarts slot group n).1,
        ((s.callCart slot group v id c g rest).callCarts slot group n).2 + 1) := by
  have hplace' : s.orderPlace = true := decide_eq_true hplace
  simp only [State.callCarts, hv, hg, hready, hc, hplace', if_true]

/-- The tables and the field queue as one call leaves them. -/
theorem callCart_tables (hplace : s.lu.fldTx.queue.length < 32) (hrel : v.seq.released < 255) :
    (s.callCart slot group v id c g rest).sailings = Tbl.set s.sailings slot (releasing v 1)
      ∧ (s.callCart slot group v id c g rest).groups = Tbl.set s.groups group { g with ready := rest }
      ∧ (s.callCart slot group v id c g rest).carts = Tbl.set s.carts id { c with state := .called }
      ∧ (s.callCart slot group v id c g rest).lu.fldTx.queue.length = s.lu.fldTx.queue.length + 1 := by
  rw [callCart_eq hplace hrel, State.report_sailings, State.report_groups, State.report_carts,
    State.report_lu_fldTx]
  exact ⟨rfl, rfl, rfl, List.length_append⟩

/-- The calls of a stage are as many as the allowance, the ready queue and the order places let. -/
theorem callCarts_calls (most : Nat) (hs : Tbl.Sorted s.sailings) (hgs : Tbl.Sorted s.groups)
    (hv : Tbl.get s.sailings slot = some v) (hg : Tbl.get s.groups group = some g) (hnodup : g.ready.Nodup)
    (hcarts : ∀ id ∈ g.ready, (Tbl.get s.carts id).isSome)
    (hn : min (min most g.ready.length) (32 - s.lu.fldTx.queue.length) = n) (hrel : v.seq.released + n ≤ 255) :
    (s.callCarts slot group most).2 = n ∧ CartsCalled s (s.callCarts slot group most).1 slot group v g n := by
  induction most generalizing s v g n with
  | zero =>
    obtain rfl : n = 0 := by omega
    exact ⟨rfl, .none hs hgs hv hg⟩
  | succ most ih =>
    cases hready : g.ready with
    | nil =>
      obtain rfl : n = 0 := by simpa [hready] using hn.symm
      rw [callCarts_empty hv hg hready]
      exact ⟨rfl, .none hs hgs hv hg⟩
    | cons id rest =>
      by_cases hplace : s.lu.fldTx.queue.length < 32
      · rw [hready, List.forall_mem_cons] at hcarts
        obtain ⟨hhead, htail⟩ := hcarts
        obtain ⟨c, hc⟩ := Option.isSome_iff_exists.1 hhead
        rw [hready, List.length_cons] at hn
        obtain ⟨m, rfl⟩ : ∃ m, n = m + 1 := ⟨n - 1, by omega⟩
        have hrel' : v.seq.released < 255 := by omega
        have hnodup' : (id :: rest).Nodup := hready ▸ hnodup
        obtain ⟨hnotin, hnodup'⟩ := List.nodup_cons.1 hnodup'
        obtain ⟨hsailings, hgroups, htable, hqueue⟩ :=
          callCart_tables (slot := slot) (group := group) (id := id) (c := c) (g := g) (rest := rest) hplace hrel'
        obtain ⟨hcount, hcalled⟩ := ih (s := s.callCart slot group v id c g rest) (v := releasing v 1)
          (g := { g with ready := rest }) (n := m)
          (hsailings ▸ Tbl.sorted_set _ _ _ hs) (hgroups ▸ Tbl.sorted_set _ _ _ hgs)
          (hsailings ▸ Tbl.get_set_same _ _ _) (hgroups ▸ Tbl.get_set_same _ _ _) hnodup'
          (fun j hj => by
            rw [htable, Tbl.get_set_other _ _ _ _ (ne_of_mem_of_not_mem (a := j) hj hnotin)]
            exact htail j hj)
          (by rw [hqueue]; dsimp only; omega)
          (by dsimp only [releasing]; omega)
        rw [callCarts_head hv hg hready hc hplace]
        exact ⟨congrArg (· + 1) hcount, hcalled.cons hplace hrel' hready hnodup hc⟩
      · obtain rfl : n = 0 := by omega
        rw [callCarts_full (Nat.not_lt.1 hplace)]
        exact ⟨rfl, .none hs hgs hv hg⟩

end Sys2Proof.Machine.DispatchToShip
end

section
/-! SUPPORT and the statement on batch events: BATCH EVENT as a row of its own, and LIFT READY at a door of one
sailing. -/

namespace Sys2Proof.Machine.DispatchToShip

variable {s : State} {slot n : Nat} {v : Sailing} {x : DStep} {g : Group} {src : Byte}

/-! When a step ends (R139, stage 4) -/

theorem runDry_iff {group : Nat} : s.runDry v group = true ↔ v.state = .finalCall
    ∧ ¬∃ r ∈ s.carts, r.2.group = group ∧ (r.2.state = .filling ∨ r.2.state = .closing) ∧ r.2.bags ≠ [] := by
  simp [State.runDry, State.anyCart]

/-- A step with a quota ends as it is met. -/
theorem stepEnded_quota (hq : x.quota ≠ 0) : stepEnded s v x n = decide (x.quota ≤ v.seq.released + n) :=
  if_neg hq

/-- A step without a quota ends as its group has run dry with no cart ready. -/
theorem stepEnded_dry (hq : x.quota = 0) (hg : Tbl.get s.groups x.group = some g) :
    stepEnded s v x n = true ↔ g.ready = [] ∧ s.runDry v x.group = true := by
  rw [stepEnded, if_pos hq, hg, Option.any_some, Bool.and_eq_true, List.isEmpty_iff]

theorem stepEnded_eq_false (hq : x.quota = 0 ∨ v.seq.released < x.quota)
    (hg : Tbl.get s.groups x.group = some g) (hstay : x.quota = 0 → g.ready = [] → ¬s.runDry v x.group = true) :
    stepEnded s v x 0 = false := by
  by_cases hzero : x.quota = 0
  · rw [Bool.eq_false_iff, ne_eq, stepEnded_dry hzero hg]
    rintro ⟨hready, hdry⟩
    exact hstay hzero hready hdry
  · rw [stepEnded_quota hzero, decide_eq_false_iff_not]
    omega

theorem stepEnded_ready (hg : Tbl.get s.groups x.group = some g) (hready : g.ready ≠ []) :
    stepEnded s v x n = true ↔ x.quota ≠ 0 ∧ x.quota ≤ v.seq.released + n := by
  by_cases hzero : x.quota = 0
  · simp [stepEnded_dry hzero hg, hready, hzero]
  · simp [stepEnded_quota hzero, hzero]

/-- A step's end does not turn on the lift count or the next due. -/
theorem stepEnded_eventTaken (clock : Time) :
    stepEnded (s.putSailing slot (eventTaken clock v)) (eventTaken clock v) x n = stepEnded s v x n := by
  obtain ⟨-, -, hrel⟩ := eventTaken_keeps clock v
  rw [stepEnded, stepEnded, hrel]
  rfl

/-- A step left within the list is the next one. -/
theorem stepLeft_within (h : v.seq.current < v.steps.length) : stepLeft v = onNextStep v := by
  rw [stepLeft, if_neg (by omega)]
  rfl

theorem stepLeft_past (h : v.steps.length ≤ v.seq.current) :
    stepLeft v
      = { v with seq := { v.seq with current := v.seq.current + 1, released := 0, mode := .done } } := by
  rw [stepLeft, if_pos (by omega)]

/-- A sequencer DONE past its list walks no further. -/
theorem batchFrom_past {fuel : Nat} (hs : Tbl.Sorted s.sailings) (h : v.steps.length ≤ v.seq.current) :
    (s.putSailing slot (stepLeft v)).batchFrom slot fuel = s.putSailing slot (stepLeft v) := by
  rw [stepLeft_past h]
  cases fuel with
  | zero => rfl
  | succ fuel => rw [batchFrom_beyond putSailing_get (List.getElem?_eq_none h), modifySeq_putSailing hs]

/-- The sailing once `n` carts of its step are called: on the step still, or past it with its quota met. -/
def callsMade (x : DStep) (v : Sailing) (n : Nat) : Sailing :=
  if x.quota ≠ 0 ∧ x.quota ≤ v.seq.released + n then stepLeft (releasing v n) else releasing v n

theorem callsMade_eq (x : DStep) (v : Sailing) (n : Nat) :
    callsMade x v n =
      let ended := x.quota ≠ 0 ∧ x.quota ≤ v.seq.released + n
      { v with seq :=
        { v.seq with
          released := if ended then 0 else v.seq.released + n,
          current := if ended then v.seq.current + 1 else v.seq.current,
          mode := if ended ∧ v.steps.length < v.seq.current + 1 then .done else v.seq.mode } } := by
  by_cases hended : x.quota ≠ 0 ∧ x.quota ≤ v.seq.released + n
  · obtain ⟨hquota, hmet⟩ := hended
    simp [callsMade, stepLeft, releasing, hquota, hmet]
  · simp only [callsMade, releasing, hended, false_and, if_false]

/-- The end of the stage that made the calls. -/
theorem CartsCalled.endStage {t : State} {group : Nat} (h : CartsCalled s t slot group v g n)
    (hs : Tbl.Sorted s.sailings) :
    (if x.quota ≠ 0 ∧ x.quota ≤ v.seq.released + n then t.endStep slot v.steps.length else t)
      = t.putSailing slot (callsMade x v n) := by
  have hrow : Tbl.get t.sailings slot = some (releasing v n) := h.sailings ▸ Tbl.get_set_same _ _ _
  have hsorted : Tbl.Sorted t.sailings := h.sailings ▸ Tbl.sorted_set _ _ _ hs
  unfold callsMade
  split
  · exact endStep_eq (v := releasing v n) hsorted hrow
  · rw [State.putSailing, Tbl.set_get _ _ _ hsorted hrow]

/-! A batch event of a sailing whose sequencer is due -/

section Due

variable (ok : s.TablesOk) (hv : Tbl.get s.sailings slot = some v) (hd : EventDue s.lu.clock v.seq)
include ok hv hd

theorem batchEvent_beyond (hlen : v.steps.length < v.seq.current) :
    exec (.batchEvent slot) s = .next (s.putSailing slot
      { v with seq := { (eventTaken s.lu.clock v).seq with mode := .done } }) := by
  obtain ⟨-, hcur, -⟩ := eventTaken_keeps s.lu.clock v
  have hx : (eventTaken s.lu.clock v).steps[(eventTaken s.lu.clock v).seq.current - 1]? = none := by
    rw [hcur]
    exact List.getElem?_eq_none (Nat.le_sub_one_of_lt hlen)
  rw [exec_batchEvent_due ok.sailings hv hd, batchFrom_beyond putSailing_get hx, modifySeq_putSailing ok.sailings]
  rfl

theorem batchEvent_met (h1 : 1 ≤ v.seq.current) (hx : v.steps[v.seq.current - 1]? = some x) (hq : x.quota ≠ 0)
    (hmet : x.quota ≤ v.seq.released) :
    exec (.batchEvent slot) s = exec (.batchEvent slot) (s.putSailing slot (onNextStep v)) := by
  obtain ⟨-, hcur, hrel⟩ := eventTaken_keeps s.lu.clock v
  obtain ⟨hlt, -⟩ := List.getElem?_eq_some_iff.1 hx
  rw [exec_batchEvent_due ok.sailings hv hd, exec_batchEvent_onNextStep ok.sailings hd h1 (by omega),
    batchFrom_met (Tbl.sorted_set _ _ _ ok.sailings) putSailing_get (hcur ▸ hx) hq (hrel ▸ hmet),
    putSailing_putSailing]

variable (hx : v.steps[v.seq.current - 1]? = some x) (hg : Tbl.get s.groups x.group = some g)
  (hq : x.quota = 0 ∨ v.seq.released < x.quota)
include hx hg hq

/-- With no cart ready, or no order place, no cart moves: the event stays at its step, or goes on. -/
theorem batchEvent_idle (hnone : g.ready = [] ∨ 32 ≤ s.lu.fldTx.queue.length) :
    exec (.batchEvent slot) s = .next
      (if stepEnded s v x 0 then
        (s.putSailing slot (stepLeft (eventTaken s.lu.clock v))).batchFrom slot v.steps.length
      else s.putSailing slot (eventTaken s.lu.clock v)) := by
  obtain ⟨-, hcur, hrel⟩ := eventTaken_keeps s.lu.clock v
  have hcalls : ∀ most, (s.putSailing slot (eventTaken s.lu.clock v)).callCarts slot x.group most
      = (s.putSailing slot (eventTaken s.lu.clock v), 0) := fun most =>
    hnone.elim (fun hready => callCarts_empty putSailing_get hg hready) (fun hfull => callCarts_full hfull)
  rw [exec_batchEvent_due ok.sailings hv hd,
    batchFrom_idle (Tbl.sorted_set _ _ _ ok.sailings) putSailing_get (hcur ▸ hx) (hrel ▸ hq) (hcalls _),
    stepEnded_eventTaken, putSailing_putSailing]

theorem batchEvent_stays (hnone : g.ready = [] ∨ 32 ≤ s.lu.fldTx.queue.length)
    (hstay : x.quota = 0 → g.ready = [] → ¬s.runDry v x.group = true) :
    exec (.batchEvent slot) s = .next (s.putSailing slot (eventTaken s.lu.clock v)) := by
  rw [batchEvent_idle ok hv hd hx hg hq hnone, stepEnded_eq_false hq hg hstay, if_neg Bool.false_ne_true]

/-- A step that has run dry is left: for the next one, or for DONE. -/
theorem batchEvent_dry (h1 : 1 ≤ v.seq.current) (hready : g.ready = []) (hzero : x.quota = 0)
    (hdry : s.runDry v x.group = true) :
    (v.seq.current < v.steps.length →
        exec (.batchEvent slot) s = exec (.batchEvent slot) (s.putSailing slot (onNextStep v)))
      ∧ (v.steps.length ≤ v.seq.current →
        exec (.batchEvent slot) s = .next (s.putSailing slot (stepLeft (eventTaken s.lu.clock v)))) := by
  obtain ⟨-, hcur, -⟩ := eventTaken_keeps s.lu.clock v
  rw [batchEvent_idle ok hv hd hx hg hq (.inl hready), if_pos ((stepEnded_dry hzero hg).2 ⟨hready, hdry⟩)]
  refine ⟨fun hlt => ?_, fun hle => ?_⟩
  · rw [exec_batchEvent_onNextStep ok.sailings hd h1 hlt.le, stepLeft_within (hcur.symm ▸ hlt)]
  · rw [batchFrom_past ok.sailings (hcur.symm ▸ hle)]

/-- With a cart ready and an order place the carts are called, and the step may end by them. -/
theorem batchEvent_calls
    (hn : min (min (x.allowance v.seq.released) g.ready.length) (32 - s.lu.fldTx.queue.length) = n)
    (hpos : 1 ≤ n) (hnodup : g.ready.Nodup) (hrel : v.seq.released + n ≤ 255)
    (hcarts : ∀ id ∈ g.ready, (Tbl.get s.carts id).isSome) :
    ∃ t, CartsCalled (s.putSailing slot (eventTaken s.lu.clock v)) t slot x.group (eventTaken s.lu.clock v) g n
      ∧ exec (.batchEvent slot) s = .next (t.putSailing slot (callsMade x (eventTaken s.lu.clock v) n)) := by
  obtain ⟨-, hcur, hrel'⟩ := eventTaken_keeps s.lu.clock v
  have hs := Tbl.sorted_set _ slot (eventTaken s.lu.clock v) ok.sailings
  obtain ⟨hcount, hcalled⟩ := callCarts_calls (s := s.putSailing slot (eventTaken s.lu.clock v))
    (x.allowance v.seq.released) hs ok.groups putSailing_get hg hnodup hcarts hn (hrel'.symm ▸ hrel)
  have hready : g.ready ≠ [] := by
    rintro hnil
    simp only [hnil, List.length_nil] at hn
    omega
  refine ⟨_, hcalled, ?_⟩
  rw [exec_batchEvent_due ok.sailings hv hd,
    batchFrom_called putSailing_get (hcur ▸ hx) (hrel' ▸ hq) (hrel' ▸ hcount) (Nat.one_le_iff_ne_zero.1 hpos),
    hrel', ← hcalled.endStage hs, hrel']
  simp only [stepEnded_eventTaken, stepEnded_ready hg hready]

end Due

/-! LIFT READY (R137) -/

theorem exec_liftReady {p : List Byte} : exec (.liftReady src p) s = .next (s.liftReadyFrame src p) := rfl

theorem mem_slotsOfDoor {n : Nat} :
    n ∈ s.slotsOfDoor src ↔ ∃ r ∈ s.sailings, r.2.door = src ∧ r.2.state ≠ .staged ∧ r.1 = n := by
  simp only [State.slotsOfDoor, Sailing.doorInUse, List.mem_map, List.mem_filter, Bool.and_eq_true,
    decide_eq_true_eq, beq_iff_eq, and_assoc, and_left_comm]

theorem slotsOfDoor_nodup (hs : Tbl.Sorted s.sailings) : (s.slotsOfDoor src).Nodup :=
  (Tbl.sorted_filter _ _ hs).imp Nat.ne_of_lt

/-- The slots of a door that one sailing alone has in use. -/
theorem slotsOfDoor_eq (hs : Tbl.Sorted s.sailings) (hv : Tbl.get s.sailings slot = some v)
    (hst : v.state ≠ .staged) (hdoor : v.door = src)
    (hone : ∀ r ∈ s.sailings, r.2.door = src → r.2.state ≠ .staged → r.1 = slot) :
    s.slotsOfDoor src = [slot] := by
  refine List.perm_singleton.1 ((List.perm_ext_iff_of_nodup (slotsOfDoor_nodup hs) (List.nodup_singleton _)).2
    fun n => ?_)
  rw [mem_slotsOfDoor, List.mem_singleton]
  constructor
  · rintro ⟨r, hr, hdoor', hst', rfl⟩
    exact hone r hr hdoor' hst'
  · rintro rfl
    exact ⟨(n, v), Tbl.mem_of_get _ _ _ hv, hdoor, hst, rfl⟩

/-- LIFT READY at a door of one sailing is that sailing's sequencer's. -/
theorem exec_liftReady_one (hs : Tbl.Sorted s.sailings) (hready : s.fldReady src)
    (hv : Tbl.get s.sailings slot = some v) (hst : v.state ≠ .staged) (hdoor : v.door = src)
    (hone : ∀ r ∈ s.sailings, r.2.door = src → r.2.state ≠ .staged → r.1 = slot) :
    exec (.liftReady src []) s = .next (s.liftReady slot) := by
  have hconfigured : s.isDoor src = true :=
    List.any_eq_true.2 ⟨(slot, v), Tbl.mem_of_get _ _ _ hv, by simp [Sailing.doorInUse, hst, hdoor]⟩
  have hlen : (([] : List Byte).length == 0) = true := rfl
  rw [exec_liftReady, State.liftReadyFrame, State.doorFrame, hconfigured, hlen, State.takeField_owner _ _ _ _ _ hready,
    slotsOfDoor_eq hs hv hst hdoor hone]
  rfl

/-- The sailing with one more lift counted. -/
def liftCounted (v : Sailing) : Sailing := { v with seq := { v.seq with lifts := v.seq.lifts + 1 } }

theorem liftReady_ignored (hv : Tbl.get s.sailings slot = some v) (hmode : v.seq.mode ≠ .locked) :
    s.liftReady slot = s := by
  simp only [State.liftReady, hv, if_neg hmode]

theorem liftReady_counts (hs : Tbl.Sorted s.sailings) (hv : Tbl.get s.sailings slot = some v)
    (hmode : v.seq.mode = .locked) (hbelow : v.seq.lifts + 1 < v.seq.divisor) :
    s.liftReady slot = s.putSailing slot (liftCounted v) := by
  simp only [State.liftReady, hv, if_pos hmode, if_pos hbelow, modifySeq_eq hs hv]
  rfl

/-- The lift that brings the count to the divisor makes the batch event of the row. -/
theorem liftReady_event (hs : Tbl.Sorted s.sailings) (hv : Tbl.get s.sailings slot = some v)
    (hmode : v.seq.mode = .locked) (hfull : v.seq.divisor ≤ v.seq.lifts + 1) :
    exec (.batchEvent slot) (s.putSailing slot (liftCounted v)) = .next (s.liftReady slot) := by
  have hd : EventDue (s.putSailing slot (liftCounted v)).lu.clock (liftCounted v).seq := .inl ⟨hmode, hfull⟩
  have htaken : ∀ clock, eventTaken clock (liftCounted v) = { v with seq := { v.seq with lifts := 0 } } := by
    intro clock
    simp [eventTaken, liftCounted, hmode]
  rw [exec_batchEvent_due (Tbl.sorted_set _ _ _ hs) putSailing_get hd, putSailing_putSailing, htaken]
  simp only [State.liftReady, hv, if_pos hmode, if_neg (Nat.not_lt.2 hfull), modifySeq_eq hs hv]
  rw [batchEvent_eq putSailing_get]
  rfl

/-! The statement -/

/-- Settles O57: the event is taken of the sequencer, then stage by stage; a stage that moves no cart goes on to
the next step as the row does from there, and the last one calls its carts one by one. -/
theorem batchEventCallsFromTheCurrentStep : Obligations.BatchEventCallsFromTheCurrentStep := by
  refine ⟨fun s slot v ok hv => ⟨fun hlock hfree => ?_, fun hd _ hlen => ?_, fun x hd h1 hx hzero hmet => ?_,
    fun x g hd h1 hx hg hq => ⟨fun hready hstay => ?_, fun hready hfull => ?_,
      fun hready hzero hfinal => ⟨fun hfilling => ?_, fun hfilling hlt => ?_, fun hfilling hle => ?_⟩,
      fun hpos hnodup hrel hcarts => ?_⟩⟩,
    fun s src slot v ok hready hv hst hdoor hone =>
      ⟨fun hmode => ?_, fun hmode => ⟨fun hbelow => ?_, fun hfull => ?_⟩⟩⟩
  · exact exec_batchEvent_idle hv (not_or.2 ⟨hlock, hfree⟩)
  · exact batchEvent_beyond ok hv hd hlen
  · exact batchEvent_met ok hv hd h1 hx hzero hmet
  · exact batchEvent_stays ok hv hd hx hg hq (.inl hready) fun hzero _ hdry =>
      hstay.elim (absurd hzero) (absurd (runDry_iff.1 hdry).1)
  · exact batchEvent_stays ok hv hd hx hg hq (.inr hfull) fun _ hnil => absurd hnil hready
  · exact batchEvent_stays ok hv hd hx hg hq (.inl hready) fun _ _ hdry => (runDry_iff.1 hdry).2 hfilling
  · exact (batchEvent_dry ok hv hd hx hg hq h1 hready hzero (runDry_iff.2 ⟨hfinal, hfilling⟩)).1 hlt
  · obtain ⟨-, hcur, -⟩ := eventTaken_keeps s.lu.clock v
    have hdone := (batchEvent_dry ok hv hd hx hg hq h1 hready hzero (runDry_iff.2 ⟨hfinal, hfilling⟩)).2 hle
    rw [stepLeft_past (hcur.symm ▸ hle), hcur] at hdone
    exact hdone
  · obtain ⟨t, hcalled, hexec⟩ := batchEvent_calls ok hv hd hx hg hq rfl hpos hnodup hrel hcarts
    obtain ⟨hmode, hcur, hrel'⟩ := eventTaken_keeps s.lu.clock v
    have hreports := hcalled.reports
    have hrow := callsMade_eq x (eventTaken s.lu.clock v)
      (min (min (x.allowance v.seq.released) g.ready.length) (32 - s.lu.fldTx.queue.length))
    rw [hcur, hrel'] at hreports
    rw [hmode, hcur, hrel'] at hrow
    refine ⟨_, hexec, hcalled.groups, hcalled.carts, hcalled.orders, ?_, hreports, hcalled.manifest, hcalled.trays,
      hcalled.chutes, hcalled.su⟩
    rw [State.putSailing_sailings, hcalled.sailings, Tbl.set_set, State.putSailing_sailings, Tbl.set_set, hrow]
    rfl
  · rw [exec_liftReady_one ok.sailings hready hv hst hdoor hone, liftReady_ignored hv hmode]
  · rw [exec_liftReady_one ok.sailings hready hv hst hdoor hone, liftReady_counts ok.sailings hv hmode hbelow]
    rfl
  · rw [exec_liftReady_one ok.sailings hready hv hst hdoor hone]
    exact (liftReady_event ok.sailings hv hmode hfull).symm

end Sys2Proof.Machine.DispatchToShip
end

section
/-! SUPPORT. The fresh ref (R148): the refs counted on from the next ref, and that a table with room leaves one
of them free. -/

namespace Sys2Proof.Machine.StraysAndEncode

variable {s : State} {t : Tbl Stray} {ref i j n : Nat}

/-- The ref reached from a ref in `i` counts: 1 comes after 65,535 (R148). -/
def countFrom (ref i : Nat) : Nat := (ref - 1 + i) % 65535 + 1

theorem countFrom_zero (h1 : 1 ≤ ref) (h : ref ≤ 65535) : countFrom ref 0 = ref := by
  unfold countFrom
  omega

/-- The model's count of one ref, and `j` more. -/
theorem countFrom_next (h1 : 1 ≤ ref) :
    countFrom (if ref = 65535 then 1 else ref + 1) j = countFrom ref (j + 1) := by
  unfold countFrom
  split <;> omega

theorem next_countFrom :
    (if countFrom ref i = 65535 then 1 else countFrom ref i + 1) = countFrom ref (i + 1) := by
  unfold countFrom
  split <;> omega

theorem countFrom_injective (hi : i < 65535) (hj : j < 65535) (h : countFrom ref i = countFrom ref j) :
    i = j := by
  unfold countFrom at h
  omega

/-- `freshFrom` passes only refs of open records, and stops at a free one or with its fuel spent. -/
theorem freshFrom_counts (n : Nat) (h1 : 1 ≤ ref) (h : ref ≤ 65535) :
    ∃ i, freshFrom t n ref = countFrom ref i ∧ (∀ j, j < i → (Tbl.get t (countFrom ref j)).isSome)
      ∧ (i = n ∨ Tbl.get t (countFrom ref i) = none) := by
  induction n generalizing ref with
  | zero => exact ⟨0, (countFrom_zero h1 h).symm, fun j hj => absurd hj (Nat.not_lt_zero j), .inl rfl⟩
  | succ n ih =>
    have hzero := countFrom_zero h1 h
    rw [freshFrom]
    split
    · next hopen =>
      obtain ⟨i, hfresh, hpassed, hstop⟩ :=
        ih (ref := if ref = 65535 then 1 else ref + 1) (by split <;> omega) (by split <;> omega)
      simp only [countFrom_next h1] at hfresh hpassed hstop
      refine ⟨i + 1, hfresh, fun j hj => ?_, hstop.imp (congrArg (· + 1)) id⟩
      cases j with
      | zero => rwa [hzero]
      | succ j => exact hpassed j (Nat.lt_of_succ_lt_succ hj)
    · next hfree =>
      rw [Option.not_isSome_iff_eq_none] at hfree
      exact ⟨0, hzero.symm, fun j hj => absurd hj (Nat.not_lt_zero j), .inr (hzero.symm ▸ hfree)⟩

/-- A run of counted refs that are all open is no longer than the table: they are distinct keys of it. -/
theorem openRun_le_length (hn : n ≤ 65535) (h : ∀ j, j < n → (Tbl.get t (countFrom ref j)).isSome) :
    n ≤ t.length := by
  have hkeys : ∀ j ∈ Finset.range n, countFrom ref j ∈ (Tbl.keys t).toFinset := by
    intro j hj
    obtain ⟨r, hr⟩ := Option.isSome_iff_exists.1 (h j (Finset.mem_range.1 hj))
    exact List.mem_toFinset.2 (List.mem_map_of_mem (f := Prod.fst) (Tbl.mem_of_get t _ r hr))
  have hinj : Set.InjOn (countFrom ref) (Finset.range n) := by
    intro i hi j hj
    rw [Finset.mem_coe, Finset.mem_range] at hi hj
    exact countFrom_injective (by omega) (by omega)
  calc n = (Finset.range n).card := (Finset.card_range n).symm
    _ ≤ (Tbl.keys t).toFinset.card := Finset.card_le_card_of_injOn _ hkeys hinj
    _ ≤ (Tbl.keys t).length := List.toFinset_card_le _
    _ = t.length := List.length_map _

/-- With room in the table the fresh ref is the first one counted from the next ref that no open record has. -/
theorem freshRef_first (hroom : s.su.strays.length < 192) (h1 : 1 ≤ s.su.nextRef) (h : s.su.nextRef ≤ 65535) :
    ∃ i, s.freshRef = countFrom s.su.nextRef i
      ∧ (∀ j, j < i → (Tbl.get s.su.strays (countFrom s.su.nextRef j)).isSome)
      ∧ Tbl.get s.su.strays (countFrom s.su.nextRef i) = none := by
  obtain ⟨i, hfresh, hpassed, hstop⟩ := freshFrom_counts (t := s.su.strays) (s.su.strays.length + 1) h1 h
  refine ⟨i, hfresh, hpassed, hstop.resolve_left fun hspent => ?_⟩
  have := openRun_le_length (by omega) hpassed
  omega

/-- A record opened with room leaves the ref after its own as the next one. -/
theorem openStray_nextRef (r : Stray) (cause : OpenCause) (hroom : s.su.strays.length < Config.strayPlaces) :
    (s.openStray r cause).1.su.nextRef = if s.freshRef = 65535 then 1 else s.freshRef + 1 := by
  simp only [State.openStray, Nat.not_le.2 hroom, if_false]
  split <;> simp [State.reportTableFull, State.reportOpened]

end Sys2Proof.Machine.StraysAndEncode
end

section
/-! SUPPORT and the statement on CLASS SET, STRAY CLOSE and the fresh ref. -/

namespace Sys2Proof.Machine.StraysAndEncode

open PlansAndBindings

variable {s : State} {cls d p r1 r0 why : Byte} {x : Disposition} {reason : CloseReason} {r : Stray} {ref m : Nat}

/-! CLASS SET (R145, R146) -/

/-- The classes, priorities and dispositions that CLASS SET takes: class 14 is fixed, and RECORD_ONLY is for
classes 9 and 13 (R145, R146). -/
def ClassFits (cls p : Byte) (x : Disposition) : Prop :=
  cls.toNat ≤ 31 ∧ p.toNat ≤ 7 ∧ cls ≠ 14 ∧ (x = .recordOnly → cls = 9 ∨ cls = 13)

theorem classSet_unknown (hd : Disposition.ofByte d = none) : classSet [cls, d, p] s = .error .range := by
  simp only [classSet, hd]

theorem recordOnly_misused_iff :
    (x = .recordOnly ∧ cls.toNat ≠ Cls.lapLimit ∧ cls.toNat ≠ Cls.untracked)
      ↔ ¬(x = .recordOnly → cls = 9 ∨ cls = 13) := by
  have h9 : cls.toNat = Cls.lapLimit ↔ cls = 9 := BitVec.toNat_inj (y := 9)
  have h13 : cls.toNat = Cls.untracked ↔ cls = 13 := BitVec.toNat_inj (y := 13)
  rw [Classical.not_imp, not_or, ne_eq, ne_eq, h9, h13]

/-- The checks of CLASS SET refuse what does not fit, each with the same code. -/
theorem classSet_refused (hd : Disposition.ofByte d = some x) (h : ¬ClassFits cls p x) :
    classSet [cls, d, p] s = .error .range := by
  simp only [classSet, hd, recordOnly_misused_iff]
  split
  · rfl
  · next hbounds =>
    split
    · rfl
    · next hlost =>
      exact if_pos fun hrecord => h ⟨by omega, by omega, fun h14 => hlost (h14 ▸ rfl), hrecord⟩

theorem classSet_taken (hd : Disposition.ofByte d = some x) (h : ClassFits cls p x) :
    classSet [cls, d, p] s = .ok ({ s with su := { s.su with
      classes := Tbl.set s.su.classes cls.toNat
        { disposition := some x, priority := p.toNat, loaded := true } } }, []) := by
  obtain ⟨hcls, hp, hlost, hrecord⟩ := h
  have hlost' : cls.toNat ≠ Cls.lost := fun h => hlost (BitVec.eq_of_toNat_eq h)
  simp only [classSet, hd]
  rw [if_neg (by omega), if_neg hlost', if_neg (fun h => recordOnly_misused_iff.1 h hrecord)]

/-! STRAY CLOSE (R158, R159) -/

theorem strayClose_zero (hwhy : CloseReason.ofByte why = some reason) (h : u16 r1 r0 = 0) :
    strayClose [r1, r0, why] s = .error .range := by
  simp only [strayClose, hwhy, if_pos h]

theorem strayClose_absent (hwhy : CloseReason.ofByte why = some reason) (h : u16 r1 r0 ≠ 0)
    (hr : Tbl.get s.su.strays (u16 r1 r0) = none) : strayClose [r1, r0, why] s = .error .absent := by
  simp only [strayClose, hwhy, if_neg h, hr]

/-- Check 4 of R159: a sailing in CLOSING bars WITHDRAWN of its linked records. -/
def ClosingBars (s : State) (r : Stray) (reason : CloseReason) : Prop :=
  reason = .withdrawn ∧ r.linked = true
    ∧ ∃ n v, r.slot = some n ∧ Tbl.get s.sailings n = some v ∧ v.state = .closing

theorem closingBars_iff : (reason = .withdrawn ∧ r.linked = true ∧ s.strayClosing r = true)
    ↔ ClosingBars s r reason := by
  simp [ClosingBars, State.strayClosing, Option.any_eq_true]

theorem strayClose_refused (hwhy : CloseReason.ofByte why = some reason) (h : u16 r1 r0 ≠ 0)
    (hr : Tbl.get s.su.strays (u16 r1 r0) = some r)
    (hbad : s.refHeld (u16 r1 r0) = true ∨ ClosingBars s r reason) :
    strayClose [r1, r0, why] s = .error .state := by
  simp only [strayClose, hwhy, if_neg h, hr]
  split
  · rfl
  · next hheld => exact if_pos (closingBars_iff.2 (hbad.resolve_left hheld))

theorem strayClose_closed (hwhy : CloseReason.ofByte why = some reason) (h : u16 r1 r0 ≠ 0)
    (hr : Tbl.get s.su.strays (u16 r1 r0) = some r) (hheld : s.refHeld (u16 r1 r0) = false)
    (hopen : ¬ClosingBars s r reason) :
    strayClose [r1, r0, why] s = .ok (s.finishStray (u16 r1 r0) r reason, []) := by
  simp only [strayClose, hwhy, if_neg h, hr]
  rw [if_neg (Bool.eq_false_iff.1 hheld), if_neg (mt closingBars_iff.1 hopen)]

theorem outcome_ctorIdx (reason : CloseReason) : reason.outcome.ctorIdx = 1 + reason.ctorIdx := by
  cases reason <;> rfl

/-- The state after a record has left the stray table and the encode queue. -/
theorem removeStray_eq : s.removeStray ref = { s with su := { s.su with
    strays := Tbl.erase s.su.strays ref,
    encode := s.su.encode.filter (fun it => decide (it.ref ≠ ref)) } } := by
  have htest : (fun it : EncodeItem => it.ref != ref) = fun it => decide (it.ref ≠ ref) :=
    funext fun it => Bool.eq_iff_iff.2 (by simp)
  rw [State.removeStray, htest]

/-- STRAY CLOSED as a close by the supervisor sends it: no cart is named. -/
def closedBytes (s : State) (ref : Nat) (r : Stray) (reason : CloseReason) : List Byte :=
  b2 ref ++ b1 r.cls ++ bOpt 2 b2 r.index ++ bFlag r.linked ++ bOpt 1 b1 r.slot ++ strayLocBytes r.loc
    ++ b1 (1 + reason.ctorIdx) ++ [0, 0] ++ b4 r.opened ++ b4 s.lu.clock

theorem closeStray_tells (hroom : s.supRoom 1) (hr : Tbl.get s.su.strays ref = some r) :
    s.closeStray ref reason.outcome none = (s.removeStray ref).tell 0x33 (closedBytes s ref r reason) := by
  obtain ⟨-, hlen⟩ := hroom
  simp only [State.closeStray, hr, outcome_ctorIdx]
  exact State.report_room _ _ _ (Nat.lt_of_succ_le hlen)

theorem finishStray_unlinked (h : r.linked = false ∨ r.index = none) :
    s.finishStray ref r reason = s.closeStray ref reason.outcome none := by
  unfold State.finishStray
  split
  · next m hl hm =>
    rcases h with h | h
    · exact absurd (hl.symm.trans h) (by decide)
    · exact absurd (hm.symm.trans h) (Option.some_ne_none m)
  · rfl

theorem entryState_eq (reason : CloseReason) :
    reason.entryState = if reason = .withdrawn then .withdrawn else .notSeen := by
  cases reason <;> rfl

theorem finishStray_linked (hl : r.linked = true) (hm : r.index = some m) :
    s.finishStray ref r reason = (s.closeStray ref reason.outcome none).putEntry m { s.entry m with
      state := if reason = .withdrawn then .withdrawn else .notSeen } := by
  have hentry : (s.closeStray ref reason.outcome none).entry m = s.entry m := by
    rw [State.entry, State.closeStray_manifest, State.entry]
  simp only [State.finishStray, hl, hm, State.setEntryState, hentry, entryState_eq]

/-! The statement -/

/-- Settles O46: CLASS SET by whether its values fit; STRAY CLOSE by its checks, then by whether the record has
a linked entry; the refs counted over are keys of a table that is shorter than the count. -/
theorem strayCommandsSetClassesAndCloseRecords : Obligations.StrayCommandsSetClassesAndCloseRecords := by
  refine ⟨fun s src cls d p hready => ?_, fun s src r1 r0 why reason hroom hwhy => ?_,
    fun s r cause hroom h1 h => ?_⟩
  · have hi : exec (.classSet src [cls, d, p]) s = .next (s.takeCommand src 0x64 (classSet [cls, d, p])) := rfl
    cases hd : Disposition.ofByte d with
    | none => exact exec_refused hi hready (classSet_unknown hd)
    | some x =>
      dsimp only
      split
      · next hfits => exact exec_accepted hi hready (classSet_taken hd hfits) hready.2
      · next hmisfit => exact exec_refused hi hready (classSet_refused hd hmisfit)
  · have hi : exec (.strayClose src [r1, r0, why]) s
        = .next (s.takeCommand src 0x66 (strayClose [r1, r0, why])) := rfl
    have hready := supReady_of_supRoom hroom
    refine ⟨fun h0 => exec_refused hi hready (strayClose_zero hwhy h0),
      fun h0 hr => exec_refused hi hready (strayClose_absent hwhy h0 hr), fun r h0 hr => ?_⟩
    refine ⟨fun hbad => exec_refused hi hready (strayClose_refused hwhy h0 hr hbad), fun hheld hopen => ?_⟩
    have hbody := strayClose_closed hwhy h0 hr hheld hopen
    have htold := closeStray_tells (reason := reason) hroom hr
    have hplace : ((s.removeStray (u16 r1 r0)).tell 0x33
        (closedBytes s (u16 r1 r0) r reason)).lu.supTx.queue.length < Config.supPlaces := by
      have hlen : s.lu.supTx.queue.length + 1 ≤ 60 := hroom.2
      rw [tell_queue_length, State.removeStray_lu, Config.supPlaces]
      omega
    rw [← removeStray_eq]
    refine ⟨fun hfree => ?_, fun m hl hm => ?_⟩
    · rw [finishStray_unlinked hfree, htold] at hbody
      exact exec_accepted hi hready hbody hplace
    · rw [finishStray_linked hl hm, htold] at hbody
      exact exec_accepted hi hready hbody hplace
  · obtain ⟨i, hfresh, hpassed, hfree⟩ := freshRef_first hroom h1 h
    refine ⟨i, ?_, hpassed, hfree, ?_, ?_⟩
    · rw [(s.openStray_room r cause hroom).1, hfresh]
      rfl
    · rw [openStray_nextRef r cause hroom, hfresh]
      exact next_countFrom
    · rw [← TrayLoop.openStray_get_fresh r cause hroom, hfresh]
      rfl

end Sys2Proof.Machine.StraysAndEncode
end

section
/-! SUPPORT and the statements on the transmit queues, the line's flags and the FAULT output: the queues in
their bounds, flags cleared by STATUS and power-on alone, FAULT high under its two conditions. -/

namespace Sys2Proof.Machine.HallLine

variable {c : Instr} {s t : State}

/-! The transmit queues (R168, R169) -/

theorem exec_linesOk (h : exec c s = .next t) (ok : s.linesOk) : t.linesOk := by
  rcases TrayLoop.exec_powerOn_or_keeps h with ⟨addr, run, -, rfl⟩ | hk
  · exact ⟨Nat.zero_le _, Nat.zero_le _⟩
  · exact ⟨hk.sup ok.1, hk.fld ok.2⟩

/-- Settles O4: a power-on reset empties both queues, and every other command keeps each within its bound. -/
theorem transmitQueuesStayInBounds : Obligations.TransmitQueuesStayInBounds :=
  fun _ _ hs h => TrayLoop.step_keeps_of_exec State.linesOk (fun _ _ ok => ok) exec_linesOk hs h

/-! The flags (R164, R170, R177) -/

theorem leaveOf_flags (h : ∀ src p, c ≠ .status src p) : (leaveOf c).flags = false := by
  cases c with
  | status src p => exact absurd rfl (h src p)
  | _ => rfl

theorem faultOutput_iff (s : State) : s.faultOutput = true
    ↔ s.lt.state = .slipped ∨ s.lu.supRx.errorFlag = true ∨ s.lu.fldRx.errorFlag = true := by
  simp only [State.faultOutput, Bool.or_eq_true, decide_eq_true_eq, or_assoc]

theorem status_page {page : Byte} (h : page.toNat ≤ 4) (s : State) :
    status [page] s = .ok (s.clearFlags, s.statusPage page.toNat) := by
  simp only [status, if_neg (Nat.not_lt.2 h)]

/-- A STATUS that names a page answers it from the state with the flags cleared. -/
theorem exec_status_page {page : Byte} (src : Byte) (hs : s.supReady) (h : page.toNat ≤ 4) :
    exec (.status src [page]) s = .next (s.clearFlags.answer src 0xC0 0 (s.statusPage page.toNat)) :=
  PlansAndBindings.exec_accepted (kind := 0x40) rfl hs (status_page h s) hs.2

/-- Settles O9: no command but STATUS has leave to clear a flag, and a STATUS of a page clears all three. -/
theorem onlyStatusClearsLineFlags : Obligations.OnlyStatusClearsLineFlags := by
  refine ⟨fun c s t hstatus hpower h => ?_, fun src page s hs hpage =>
    ⟨_, exec_status_page src hs hpage, rfl, rfl, rfl⟩⟩
  have hk := exec_keeps c s t hpower h
  have hleave := leaveOf_flags hstatus
  refine ⟨fun hsup => ?_, fun hfld => ?_, hk.overrun hleave⟩
  · have hset := hk.supFlag hleave hsup
    exact ⟨hset, (faultOutput_iff t).2 (.inr (.inl hset))⟩
  · have hset := hk.fldFlag hleave hfld
    exact ⟨hset, (faultOutput_iff t).2 (.inr (.inr hset))⟩

/-! What leaves both receivers -/

/-- The receivers of the two ports. -/
def receivers (s : State) : Receiver × Receiver := (s.lu.supRx, s.lu.fldRx)

/-- Out of SLIPPED, with the receivers of a state before, FAULT follows that state's error flags. -/
theorem faultOutput_of_receivers (hst : t.lt.state ≠ .slipped) (hrx : receivers t = receivers s) :
    t.faultOutput = (s.lu.supRx.errorFlag || s.lu.fldRx.errorFlag) := by
  obtain ⟨hsup, hfld⟩ := Prod.mk.inj hrx
  simp only [State.faultOutput, hst, decide_false, Bool.false_or, hsup, hfld]

theorem receivers_report (s : State) (kind : Nat) (p : List Byte) :
    receivers (s.report kind p) = receivers s := by
  simp only [receivers, State.report_lu_supRx, State.report_lu_fldRx]

theorem receivers_judgeSpan (s : State) (y : Layout) : receivers (s.judgeSpan y) = receivers s := by
  unfold State.judgeSpan
  dsimp only
  rw [foldl_keep _ receivers, foldl_keep _ receivers, foldl_keep _ receivers]
  · intro u k
    split <;> simp only [receivers, State.enterDoubt_lu]
  · intro u id
    simp only [receivers, State.closingTest_lu_supRx, State.closingTest_lu_fldRx]
  · intro u n
    split <;> simp only [receivers, State.takeLaunch_lu_supRx, State.takeLaunch_lu_fldRx]

theorem receivers_resync (s : State) (y : Layout) (d : Int) : receivers (s.resync y d) = receivers s := by
  rw [TrayLoop.resync_eq, State.reportLoop, receivers_report]
  exact receivers_judgeSpan s y

theorem restartDoubt_lu (s : State) (k : Nat) : (s.restartDoubt k).lu = s.lu := by
  unfold State.restartDoubt
  repeat' split
  all_goals simp only [State.setEntryState_lu, State.removeStray_lu]

theorem restartCarts_lu (s : State) : s.restartCarts.lu = s.lu :=
  foldl_keep State.closeCart State.lu (fun u id => u.closeCart_lu id) _ _

theorem restartLong_lu (s : State) : s.restartLong.lu = s.lu := by
  unfold State.restartLong
  split <;> rfl

theorem restartLong_lt (s : State) : s.restartLong.lt = s.lt := by
  unfold State.restartLong
  split <;> rfl

/-- RESTART empties the transmit queues of a state that has the Line Unit of before and whose loop state follows
LOOP_RUN. -/
theorem restarted_eq_restartLine (s : State) : ∃ t : State, s.restarted = t.restartLine ∧ t.lu = s.lu
    ∧ t.lt.state = (if s.lu.loopRun then .unsynced else .stopped) := by
  refine ⟨_, rfl, ?_, ?_⟩
  · rw [restartLong_lu]
    exact (restartCarts_lu _).trans (foldl_keep State.restartDoubt State.lu restartDoubt_lu _ s)
  · rw [restartLong_lt]
    rfl

theorem exec_restart_good (src : Byte) (h : s.lu.supRx.awaitIdle = false) :
    exec (.restart src []) s = .next (s.restarted.answer src 0xC2 0 s.restartFields) := by
  obtain ⟨t, ht, -⟩ := restarted_eq_restartLine s
  have hq : s.restarted.lu.supTx.queue.length < Config.supPlaces := by
    rw [ht]
    exact Nat.succ_pos _
  have hexec : exec (.restart src []) s = .next (s.restarted.reply src 0x42 .ok s.restartFields) := by
    simp only [exec, execRestart, State.restartFrame, h, if_true, Bool.false_eq_true, if_false]
  rw [hexec, State.reply_room _ _ _ _ _ hq]
  rfl

/-! FAULT (R173) -/

theorem frameCheck_bad {port : Port} {rx : RxRun} (hidle : (s.rx port).awaitIdle = false) (hrun : rx.bytes ≠ [])
    (hbad : goodRun rx = false) : s.frameCheck port rx = s.setRx port (s.rx port).countError := by
  simp only [State.frameCheck, State.checkFails, hidle, hbad, List.isEmpty_eq_false_iff.2 hrun, Bool.not_false,
    Bool.and_self, if_true]

theorem runFalls_state (h : s.lu.loopRun = true) : s.runFalls.lt.state = .stopped := by
  rw [TrayLoop.runFalls_of_high h, State.reportLoop, State.report_lt]
  dsimp only
  split <;> rfl

theorem receivers_runFalls (h : s.lu.loopRun = true) : receivers s.runFalls = receivers s := by
  rw [TrayLoop.runFalls_of_high h, State.reportLoop, receivers_report]
  rfl

/-- Settles O10: each rise sets one of the two conditions; each fall leaves the loop out of SLIPPED with the
receivers as they were, or clears the flags with the loop as it was. -/
theorem faultFollowsItsConditions : Obligations.FaultFollowsItsConditions := by
  refine ⟨faultOutput_iff, fun s y occ hy hst htol => ?_, fun s port rx hidle hrun hbad => ?_,
    fun s y occ hy hst => ?_, fun s hrun => ?_, fun s src page hs hpage => ?_, fun s addr run => ?_,
    fun s src hidle => ?_⟩
  · have hslip : (s.homeRises occ).lt.state = .slipped := by
      rw [TrayLoop.homeRises_synced hy hst, if_neg (Nat.not_le.2 htol), TrayLoop.slip_lt]
      rfl
    exact ⟨_, rfl, hslip, (faultOutput_iff _).2 (.inl hslip)⟩
  · refine ⟨_, rfl, (faultOutput_iff _).2 (.inr ?_)⟩
    rw [frameCheck_bad hidle hrun hbad]
    cases port
    · exact .inl rfl
    · exact .inr rfl
  · refine ⟨_, rfl, faultOutput_of_receivers ?_ ?_⟩
    · rw [TrayLoop.homeRises_lost hy hst.symm, TrayLoop.resync_eq, State.reportLoop, State.report_lt]
      exact nofun
    · rw [TrayLoop.homeRises_lost hy hst.symm]
      exact receivers_resync _ _ _
  · refine ⟨_, rfl, faultOutput_of_receivers ?_ (receivers_runFalls hrun)⟩
    rw [runFalls_state hrun]
    exact nofun
  · refine ⟨_, exec_status_page src hs hpage, ?_⟩
    exact (Bool.or_false _).trans (Bool.or_false _)
  · refine ⟨_, rfl, ?_⟩
    cases run <;> rfl
  · obtain ⟨t, ht, hlu, hst⟩ := restarted_eq_restartLine s
    refine ⟨_, exec_restart_good src hidle, faultOutput_of_receivers ?_ ?_⟩
    · show s.restarted.lt.state ≠ .slipped
      rw [ht]
      show t.lt.state ≠ .slipped
      rw [hst]
      split <;> exact nofun
    · show receivers s.restarted = receivers s
      rw [ht]
      show receivers t = receivers s
      simp only [receivers, hlu]

end Sys2Proof.Machine.HallLine
end

section
/-! SUPPORT and the statement on the frame check: a run passes it exactly as the line form of a frame. -/

namespace Sys2Proof.Machine.HallLine

/-! The line form of a frame (9.1.1) -/

theorem b2_length (n : Nat) : (b2 n).length = 2 := rfl

/-- The body of a frame is read back from its bytes: its payload is as long as the first byte says. -/
theorem frameBody_of_run {len : Byte} {rest : List Byte} (h : rest.length = len.toNat + 5) :
    ∃ f : Frame, f.payload.length = len.toNat ∧ frameBody f = len :: rest.take (len.toNat + 3) := by
  match rest, h with
  | dst :: src :: kind :: tail, h =>
    have hlen : (tail.take len.toNat).length = len.toNat := by
      simp only [List.length_cons] at h
      rw [List.length_take]
      omega
    refine ⟨{ dst := dst, src := src, kind := kind, payload := tail.take len.toNat }, hlen, ?_⟩
    simp only [frameBody, hlen, BitVec.ofNat_toNat, BitVec.setWidth_eq, List.take_succ_cons]

/-- The bytes after the length byte: 3 of the header, the payload, 2 of the CRC. -/
theorem frameBytes_eq (f : Frame) : frameBytes f
    = 0xA5 :: BitVec.ofNat 8 f.payload.length :: ([f.dst, f.src, f.kind] ++ f.payload
      ++ b2 (crc16 (frameBody f)).toNat) := rfl

/-- A run that passes the check is the line form of a frame (R164). -/
theorem frame_of_goodRun {rx : RxRun} (h : goodRun rx = true) :
    rx.stopBits = true ∧ ∃ f : Frame, f.payload.length ≤ 56 ∧ rx.bytes = frameBytes f := by
  unfold goodRun at h
  split at h
  · next start len rest hbytes =>
    simp only [Bool.and_eq_true, beq_iff_eq] at h
    obtain ⟨⟨⟨⟨hstart, hmax⟩, hlength⟩, hstop⟩, hcrc⟩ := h
    obtain ⟨f, hpayload, hbody⟩ := frameBody_of_run hlength
    refine ⟨hstop, f, hpayload.trans_le (of_decide_eq_true hmax), ?_⟩
    rw [frameBytes, hbody, hcrc, List.cons_append, List.take_append_drop, hbytes, hstart]
  · exact absurd h Bool.false_ne_true

/-- The line form of a frame, with every stop bit, passes the check (R164). -/
theorem goodRun_frameBytes {f : Frame} (h : f.payload.length ≤ 56) :
    goodRun { bytes := frameBytes f, stopBits := true } = true := by
  have hlen : (BitVec.ofNat 8 f.payload.length).toNat = f.payload.length := by
    rw [BitVec.toNat_ofNat]
    omega
  have hheader : ([f.dst, f.src, f.kind] ++ f.payload).length = f.payload.length + 3 := by
    simp only [List.length_append, List.length_cons, List.length_nil]
    omega
  simp only [goodRun, frameBytes_eq, hlen, Bool.and_eq_true, beq_iff_eq, decide_eq_true_eq, Config.maxPayload]
  refine ⟨⟨⟨⟨trivial, h⟩, ?_⟩, trivial⟩, ?_⟩
  · rw [List.length_append, hheader, b2_length]
  · rw [List.take_left' hheader, List.drop_left' hheader]
    rfl

/-- The line form fixes the frame: its CRC is its last two bytes, and what stands before it is its body. -/
theorem frameBytes_injective {f g : Frame} (h : frameBytes f = frameBytes g) : f = g := by
  obtain ⟨dst, src, kind, payload⟩ := f
  obtain ⟨dst', src', kind', payload'⟩ := g
  have hbody := (List.append_inj' (List.cons.inj h).2 ((b2_length _).trans (b2_length _).symm)).1
  obtain ⟨-, hdst, hsrc, hkind, hpayload⟩ := by simpa only [frameBody, List.cons.injEq] using hbody
  subst hdst hsrc hkind hpayload
  rfl

/-- Settles O7: a good run is cut into the fields of a frame, and a frame's line form meets the five checks. -/
theorem goodRunIsExactlyAFrame : Obligations.GoodRunIsExactlyAFrame := by
  refine ⟨fun rx => ⟨frame_of_goodRun, ?_⟩, fun f g => frameBytes_injective⟩
  rintro ⟨hstop, f, hpayload, hbytes⟩
  have hrx : rx = { bytes := frameBytes f, stopBits := true } := by
    cases rx
    exact congr (congrArg RxRun.mk hbytes) hstop
  rw [hrx]
  exact goodRun_frameBytes hpayload

end Sys2Proof.Machine.HallLine
end

section
/-! SUPPORT and the statements on commands as frames of the Supervisor port: each is taken by `State.takeCommand`
with the body of its kind, at a full queue not taken, and answered BAD_FORM at another length. -/

namespace Sys2Proof.Machine.HallLine

variable {c : Instr} {f : CommandFrame} {s : State}

/-! The body of each command -/

/-- The body with which a command frame is taken. A RESTART stands here in bad form only: in good form it is
taken whatever the queue holds (R175). -/
def bodyOf : Instr → State → CmdResult
  | .status _ p => status p
  | .setClock _ p => setClock p
  | .sortMode _ p => sortMode p
  | .massLimits _ p => massLimits p
  | .partSettings _ p => partSettings p
  | .layoutSet _ p => layoutSet p
  | .trayRead _ p => trayRead p
  | .stationSet _ p => stationSet p
  | .chuteSet _ p => chuteSet p
  | .chuteService _ p => chuteService p
  | .chuteBind _ p | .chuteUnbind _ p => chuteBind p
  | .chuteRead _ p => chuteRead p
  | .groupSet _ p => groupSet p
  | .groupDelete _ p => groupDelete p
  | .groupRead _ p => groupRead p
  | .sailingDefine _ p => sailingDefine p
  | .sailingStateOpen _ p | .sailingStateFinal _ p => sailingState p
  | .regionInit _ p => regionInit p
  | .sailingClose _ p => sailingClose p
  | .blockPut _ p => blockPut p
  | .blockDelete _ p => blockDelete p
  | .planClear _ p => planClear p
  | .planCommit _ p => planCommit p
  | .entryPut _ p => entryPut p
  | .cabinChange _ p => cabinChange p
  | .holdSet _ p => holdSet p
  | .holdClear _ p => holdClear p
  | .withdraw _ p => withdraw p
  | .entryRead _ p => entryRead p
  | .classSet _ p => classSet p
  | .strayRead _ p => strayRead p
  | .strayClose _ p => strayClose p
  | .queueRead _ p => queueRead p
  | .cartClose _ p => cartClose p
  | .cartRead _ p => cartRead p
  | .stepPut _ p => stepPut p
  | .stepClear _ p => stepClear p
  | .seqStart _ p => seqStart p
  | .seqStop _ p => seqStop p
  | .badKind .. => fun _ => .error .badKind
  | _ => fun _ => .error .badForm

/-- A frame given as one of no command kind has such a kind, as `Instr.wellFormed` asks (R166). -/
def badKindOk (c : Instr) : Prop := ∀ src kind p, c = .badKind src kind p → isCommandKind kind = false

theorem badKindOk_of_wellFormed (h : c.wellFormed = true) : badKindOk c := by
  rintro src kind p rfl
  simpa using (Bool.and_eq_true_iff.1 h).2

theorem badKindOk_of_ne (h : ∀ src kind p, c ≠ .badKind src kind p) : badKindOk c :=
  fun src kind p hc => absurd hc (h src kind p)

/-- A frame of RESTART's kind is a RESTART. -/
theorem eq_restart (hc : commandOf c = some f) (hkind : badKindOk c) (hf : f.kind = 0x42) :
    c = .restart f.src f.payload := by
  cases c with
  | restart src p =>
    cases hc
    rfl
  | badKind src kind p =>
    cases hc
    cases hf
    exact absurd (hkind _ _ _ rfl) (by decide)
  | _ => cases hc <;> cases hf

/-- Every command frame but a RESTART of good form is taken with its body (R166, R175). -/
theorem exec_command (hc : commandOf c = some f) (hkind : badKindOk c)
    (hform : ¬(f.kind = 0x42 ∧ f.payload = [])) :
    exec c s = .next (s.takeCommand f.src f.kind (bodyOf c)) := by
  cases c with
  | badKind src kind p =>
    cases hc
    simp only [exec, execBadKind, State.badKind, hkind _ _ _ rfl, Bool.false_eq_true, if_false]
    rfl
  | restart src p =>
    cases hc
    have hp : p ≠ [] := fun hp => hform ⟨rfl, hp⟩
    simp only [exec, execRestart, State.restartFrame, if_neg hp]
    rfl
  | _ => cases hc <;> rfl

/-- A kind that is no command kind is answered BAD_KIND (R166). -/
theorem exec_badKind {src kind : Byte} {p : List Byte} (h : isCommandKind kind = false) (hs : s.supReady) :
    exec (.badKind src kind p) s = .next (s.answer src (kind ||| 0x80) 2 []) := by
  have hkind : badKindOk (.badKind src kind p) := by
    rintro _ _ _ ⟨⟩
    exact h
  have hform : ¬(kind = 0x42 ∧ p = []) := by
    rintro ⟨rfl, -⟩
    exact absurd h (by decide)
  rw [exec_command (f := ⟨src, kind, p⟩) rfl hkind hform, State.takeCommand_error s src kind _ .badKind hs rfl]
  rfl

/-! A full queue (R168, R175) -/

/-- Settles O12: a command is taken with its body, which a full queue leaves out; a RESTART of good form empties
the queue before its reply. -/
theorem commandWithoutReplyPlaceIsNotTaken : Obligations.CommandWithoutReplyPlaceIsNotTaken := by
  refine ⟨fun c f s hwf hc hform hidle hq => ?_, fun src s hidle => ?_⟩
  · rw [exec_command hc (badKindOk_of_wellFormed hwf) hform, State.takeCommand_full s _ _ _ hidle hq]
    rfl
  · obtain ⟨t, ht, hlu, -⟩ := restarted_eq_restartLine s
    refine ⟨_, s.restartFields, exec_restart_good src hidle, ?_⟩
    simp only [ht, State.answer, State.supSend]
    show [({ src := t.lu.node, .. } : Frame)] = _
    rw [hlu]

/-! Payload lengths (10.1.2) -/

/-- The entries of an ENTRY PUT are four bytes each. -/
theorem length_of_newEntries {p : List Byte} {es : List NewEntry} (h : newEntries p = some es) :
    p.length = 4 * es.length := by
  induction p using newEntries.induct generalizing es with
  | case1 =>
    cases h
    rfl
  | case2 i c1 c0 hold t ih =>
    obtain ⟨l, hl, rfl⟩ := Option.map_eq_some_iff.1 h
    simp only [List.length_cons, ih hl]
    omega
  | case3 p hnil hcons => simp [newEntries] at h

theorem entryPut_badForm {p : List Byte} (h : p.length ≠ 4 + 4 * ((p[3]?.map BitVec.toNat).getD 0)) :
    entryPut p s = .error .badForm := by
  unfold entryPut
  split
  · next slot f1 f0 count rest =>
    split
    · rfl
    · next es hes =>
      refine if_pos fun hcount => h ?_
      simp only [List.length_cons, length_of_newEntries hes, hcount, List.getElem?_cons_succ,
        List.getElem?_cons_zero, Option.map_some, Option.getD_some]
      omega
  · rfl

/-- Each body matches a payload of its kind's length and answers BAD_FORM to any other. -/
theorem bodyOf_badForm (hc : commandOf c = some f) (hne : ∀ src k p, c ≠ .badKind src k p)
    (hlen : f.payload.length ≠ commandLength f.kind f.payload) : bodyOf c s = .error .badForm := by
  cases c with
  | badKind src kind p => exact absurd rfl (hne src kind p)
  | restart src p => rfl
  | entryPut src p =>
    cases hc
    exact entryPut_badForm hlen
  | _ =>
    cases hc
    all_goals
      dsimp only [bodyOf, status, setClock, sortMode, massLimits, partSettings, layoutSet, trayRead, stationSet,
        chuteSet, chuteService, chuteBind, chuteRead, groupSet, groupDelete, groupRead, sailingDefine,
        sailingState, regionInit, sailingClose, blockPut, blockDelete, planClear, planCommit, cabinChange,
        holdSet, holdClear, withdraw, entryRead, classSet, strayRead, strayClose, queueRead, cartClose,
        cartRead, stepPut, stepClear, seqStart, seqStop]
      split
      · exact absurd rfl hlen
      · rfl

/-- Settles O14: the body of a kind answers BAD_FORM to a payload of another length, and a RESTART with bytes is
answered so too. -/
theorem wrongPayloadLengthIsBadForm : Obligations.WrongPayloadLengthIsBadForm := by
  refine ⟨fun c f s hc _ hne hs hlen => ?_, fun src kind p s h hs => exec_badKind h hs⟩
  have hform : ¬(f.kind = 0x42 ∧ f.payload = []) := by
    rintro ⟨hkind, hnil⟩
    rw [hkind, hnil] at hlen
    exact hlen rfl
  rw [exec_command hc (badKindOk_of_ne hne) hform,
    State.takeCommand_error s _ _ _ .badForm hs (bodyOf_badForm hc hne hlen)]
  rfl

end Sys2Proof.Machine.HallLine
end

section
/-! SUPPORT. What the operations of the commands send to the supervisor: reports alone, each leaving a place for
the reply (`Told`), one lemma per operation that reports. -/

namespace Sys2Proof.Machine.HallLine

/-- A frame is a report: from the processor to node 126, of a report kind (R168, 9.4.2). -/
def IsReport (node : Byte) (r : Frame) : Prop :=
  r.dst = 126 ∧ r.src = node
    ∧ (r.kind = 0x2E ∨ r.kind = 0x2F ∨ (0x30 ≤ r.kind.toNat ∧ r.kind.toNat ≤ 0x3F))

/-- A report kind 0x30 to 0x3F (9.4.2). -/
def isReportKind (kind : Nat) : Bool := decide (0x30 ≤ kind) && decide (kind ≤ 0x3F)

/-- What a run of operations sends to the supervisor: reports alone join the tail of the queue, and a place for
a reply stays free. -/
structure Told (a b : LineUnit) : Prop where
  node : b.node = a.node
  place : a.supTx.queue.length < Config.supPlaces → b.supTx.queue.length < Config.supPlaces
  queue : ∃ added, b.supTx.queue = a.supTx.queue ++ added ∧ ∀ r ∈ added, IsReport a.node r

variable {s t : State} {a b d : LineUnit}

theorem Told.silent (hnode : b.node = a.node) (hqueue : b.supTx.queue = a.supTx.queue) : Told a b :=
  ⟨hnode, fun h => hqueue ▸ h, [], hqueue.trans (List.append_nil _).symm, nofun⟩

theorem Told.refl (a : LineUnit) : Told a a := .silent rfl rfl

theorem Told.trans (h : Told a b) (k : Told b d) : Told a d := by
  obtain ⟨l, hl, hreports⟩ := h.queue
  obtain ⟨m, hm, kreports⟩ := k.queue
  refine ⟨k.node.trans h.node, k.place ∘ h.place, l ++ m, by rw [hm, hl, List.append_assoc], fun r hr => ?_⟩
  rcases List.mem_append.1 hr with hr | hr
  · exact hreports r hr
  · exact h.node ▸ kreports r hr

/-- An operation that leaves the Line Unit sends nothing. -/
theorem Told.same (h : Told a t.lu) {u : State} (hu : u.lu = t.lu) : Told a u.lu := hu ▸ h

/-- A fold of operations that each send reports alone sends reports alone. -/
theorem Told.fold {α : Type} (f : State → α → State) (hf : ∀ u x, Told u.lu (f u x).lu) (l : List α)
    (h : Told a t.lu) : Told a (l.foldl f t).lu := by
  induction l generalizing t with
  | nil => exact h
  | cons x l ih => exact ih (h.trans (hf t x))

/-! The line -/

/-- A report joins the queue, or is dropped whole (R168, R170). -/
theorem Told.report (h : Told a t.lu) (kind : Nat) (p : List Byte)
    (hkind : isReportKind kind = true) : Told a (t.report kind p).lu := by
  refine h.trans ?_
  by_cases hq : t.lu.supTx.queue.length < Config.supReportPlaces
  · rw [State.report_room _ _ _ hq]
    refine ⟨rfl, fun _ => ChutesAndCarts.tell_place hq, [_], rfl, fun r hr => ?_⟩
    rw [List.mem_singleton.1 hr]
    simp only [isReportKind, Bool.and_eq_true, decide_eq_true_eq] at hkind
    have hbyte : (BitVec.ofNat 8 kind).toNat = kind := by
      rw [BitVec.toNat_ofNat]
      omega
    exact ⟨rfl, rfl, .inr (.inr (by rw [hbyte]; exact hkind))⟩
  · rw [State.report_full _ _ _ (Nat.not_lt.1 hq)]
    exact .silent rfl rfl

/-! Stray records -/

theorem Told.reportTableFull (h : Told a t.lu) : Told a t.reportTableFull.lu :=
  h.report 0x3F (b4 t.lu.clock ++ b2 t.su.unrecorded) rfl

theorem Told.openStray (h : Told a t.lu) (r : Stray) (cause : OpenCause) :
    Told a (t.openStray r cause).1.lu := by
  unfold State.openStray
  split
  · exact h
  · have hopened : Told a (State.reportOpened { t with
        su := { t.su with
          strays := Tbl.set t.su.strays t.freshRef { r with opened := t.lu.clock },
          nextRef := if t.freshRef = 65535 then 1 else t.freshRef + 1 } }
        t.freshRef { r with opened := t.lu.clock } cause).lu := Told.report (by exact h) 0x31 _ rfl
    dsimp only
    split
    · exact hopened.reportTableFull
    · exact hopened

theorem Told.moveStray (h : Told a t.lu) (ref : Nat) (f : Stray → Stray) (cause : MoveCause)
    (always : Bool) : Told a (t.moveStray ref f cause always).lu := by
  unfold State.moveStray
  split
  · exact h
  · dsimp only
    split
    · exact h
    · exact Told.report (by exact h) 0x32 _ rfl

theorem Told.closeStray (h : Told a t.lu) (ref : Nat) (o : StrayOutcome) (cart : Option Nat) :
    Told a (t.closeStray ref o cart).lu := by
  unfold State.closeStray
  split
  · exact h
  · exact Told.report (by exact h) 0x33 _ rfl

theorem Told.strayBag (h : Told a t.lu) (m slot cls : Nat) (loc : StrayLoc) (cause : OpenCause) :
    Told a (t.strayBag m slot cls loc cause).lu := h.openStray _ _

theorem Told.applyResolution (h : Told a t.lu) (m slot : Nat) (res : Resolution) (loc : StrayLoc)
    (cause : OpenCause) : Told a (t.applyResolution m slot res loc cause).lu := by
  unfold State.applyResolution
  split
  · exact h
  · exact h.strayBag _ _ _ _ _

theorem Told.reresolve (h : Told a t.lu) (m slot : Nat) (v : Sailing) (reissued : Bool) :
    Told a (t.reresolve m slot v reissued).lu := by
  unfold State.reresolve
  split
  · exact h
  · exact h.applyResolution _ _ _ _ _

theorem Told.withdrawBag (h : Told a t.lu) (m slot : Nat) (loc : StrayLoc) :
    Told a (t.withdrawBag m slot loc).lu := h.openStray _ _

theorem Told.withdrawStray (h : Told a t.lu) (m ref : Nat) : Told a (t.withdrawStray m ref).lu :=
  Told.moveStray (by exact h) ref _ _ _

theorem Told.rehome (h : Told a t.lu) (x : Orphan) : Told a (t.rehome x).lu := by
  unfold State.rehome
  split
  · exact h
  · split
    · exact h.moveStray _ _ _ _
    · exact h.applyResolution _ _ _ _ _

theorem Told.finishStray (h : Told a t.lu) (ref : Nat) (r : Stray) (reason : CloseReason) :
    Told a (t.finishStray ref r reason).lu := by
  unfold State.finishStray
  dsimp only
  split
  · exact h.closeStray _ _ _
  · exact h.closeStray _ _ _

/-! Chutes and carts -/

theorem Told.reportChute (h : Told a t.lu) (n : Nat) (cause : ChuteCause) :
    Told a (t.reportChute n cause).lu := by
  unfold State.reportChute
  split
  · exact h
  · exact h.report 0x39 _ rfl

theorem Told.reportCartClosed (h : Told a t.lu) (id chute : Nat) :
    Told a (t.reportCartClosed id chute).lu := by
  unfold State.reportCartClosed
  split
  · exact h
  · exact h.report 0x34 _ rfl

theorem Told.closingTest (h : Told a t.lu) (id : Nat) (cause : ChuteCause) :
    Told a (t.closingTest id cause).lu := by
  have hclosed : Told a (t.closeCart id).lu := h.same (t.closeCart_lu id)
  unfold State.closingTest
  split
  · exact h
  · split
    · split
      · exact hclosed
      · exact (hclosed.reportCartClosed _ _).reportChute _ _
    · exact h

theorem enterClosing_lu (s : State) (id : Nat) (cause : CloseCause) : (s.enterClosing id cause).lu = s.lu := by
  unfold State.enterClosing
  split
  · rfl
  · dsimp only
    split <;> rfl

theorem Told.forceClose (h : Told a t.lu) (id : Nat) (cause : CloseCause) :
    Told a (t.forceClose id cause).lu := by
  have hentered : Told a (t.enterClosing id cause).lu := h.same (enterClosing_lu t id cause)
  unfold State.forceClose
  split
  · exact h
  · split
    · dsimp only
      split
      · exact hentered.closingTest _ _
      · split
        · exact hentered
        · exact hentered.reportChute _ _
    · exact h

theorem Told.swapTest (h : Told a t.lu) (n : Nat) : Told a (t.swapTest n).lu := by
  unfold State.swapTest
  split
  · exact h
  · split
    · exact h.report 0x3D _ rfl
    · exact h

theorem Told.swapTests (h : Told a t.lu) : Told a t.swapTests.lu :=
  h.fold State.swapTest (fun u n => (Told.refl u.lu).swapTest n) _

theorem Told.setAvail (h : Told a t.lu) (n : Nat) (x : Chute) (v : Avail) (cause : ChuteCause) :
    Told a (t.setAvail n x v cause).lu := by
  unfold State.setAvail
  split
  · exact h
  · exact Told.reportChute (by exact h) _ _

theorem Told.bindTo (h : Told a t.lu) (n : Nat) (x : Chute) (g : Nat) : Told a (t.bindTo n x g).lu := by
  unfold State.bindTo
  dsimp only
  split
  · split
    · exact Told.reportChute (by exact h) _ _
    · exact (Told.reportChute (by exact h) _ _).reportCartClosed _ _
  · exact Told.reportChute (by exact h) _ _
  · exact Told.reportChute (by exact h) _ _

theorem Told.unbind (h : Told a t.lu) (n : Nat) (x : Chute) : Told a (t.unbind n x).lu := by
  unfold State.unbind
  dsimp only
  split
  · split
    · exact Told.reportChute (by exact h) _ _
    · exact (Told.reportChute (by exact h) _ _).reportCartClosed _ _
  · exact Told.reportChute (by exact h) _ _

/-! The layout and the long operations -/

theorem Told.loadLayout (h : Told a t.lu) (y : Layout) : Told a (t.loadLayout y).lu :=
  Told.report (by exact h) 0x3B _ rfl

theorem Told.startLong (h : Told a t.lu) (k : LongKind) (n : Nat) : Told a (t.startLong k n).lu := by
  show Told a t.supersede.lu
  unfold State.supersede
  split
  · exact h
  · exact Told.report (by exact h) 0x3C _ rfl

end Sys2Proof.Machine.HallLine
end

section
/-! SUPPORT and the statement on the reply of a command: every body refuses with a code of R176 or sends reports
alone, and the reply follows them. -/

namespace Sys2Proof.Machine.HallLine

variable {c : Instr} {f : CommandFrame} {s t : State} {code : Code} {fields p : List Byte}

/-- A reply code that refuses: every code but OK (R176). -/
def Code.refuses : Code → Bool
  | .ok => false
  | _ => true

/-- What a command's body may answer: a refusal by another code than OK, or a state before whose reply reports
alone were sent. -/
def BodySound (s : State) : CmdResult → Prop
  | .error code => Code.refuses code = true
  | .ok (t, _) => Told s.lu t.lu

theorem BodySound.refused (h : Code.refuses code = true) : BodySound s (.error code) := h

theorem BodySound.done (h : Told s.lu t.lu) : BodySound s (.ok (t, fields)) := h

/-- A body that leaves the Line Unit as it is. -/
theorem BodySound.quiet (h : t.lu = s.lu) : BodySound s (.ok (t, fields)) := .done ((Told.refl s.lu).same h)

/-- A body behind a check that refuses. -/
theorem BodySound.guard {P : Prop} [Decidable P] {rest : CmdResult} (hcode : Code.refuses code = true)
    (hrest : ¬P → BodySound s rest) : BodySound s (if P then .error code else rest) := by
  by_cases hP : P
  · rw [if_pos hP]
    exact .refused hcode
  · rw [if_neg hP]
    exact hrest hP

/-- A body that a check lets through. -/
theorem BodySound.gate {P : Prop} [Decidable P] {rest : CmdResult} (hcode : Code.refuses code = true)
    (hrest : P → BodySound s rest) : BodySound s (if P then rest else .error code) := by
  by_cases hP : P
  · rw [if_pos hP]
    exact hrest hP
  · rw [if_neg hP]
    exact .refused hcode

/-! The checks that pass a refusal on (R5, R176) -/

theorem namedSlot_refusal {n : Nat} (h : s.namedSlot n = .error code) : Code.refuses code = true := by
  unfold State.namedSlot at h
  split at h
  · cases h
    rfl
  · split at h <;> cases h
    rfl

theorem readEntry_refusal {slot index : Nat} (h : s.readEntry slot index = .error code) :
    Code.refuses code = true := by
  unfold State.readEntry at h
  split at h
  · next hslot =>
    cases h
    exact namedSlot_refusal hslot
  · split at h <;> cases h
    rfl

theorem editEntry_refusal {slot index : Nat} (h : s.editEntry slot index = .error code) :
    Code.refuses code = true := by
  unfold State.editEntry at h
  split at h
  · next hread =>
    cases h
    exact readEntry_refusal hread
  · repeat' split at h
    all_goals cases h
    all_goals rfl

/-! The bodies that report -/

theorem setClock_sound (p : List Byte) (s : State) : BodySound s (setClock p s) := by
  unfold setClock
  split
  · next c3 c2 c1 c0 =>
    exact Told.swapTests (t := { s with lu := { s.lu with clock := u32 c3 c2 c1 c0 } }) (.silent rfl rfl)
  · exact .refused rfl

theorem partSettings_sound (p : List Byte) (s : State) : BodySound s (partSettings p s) := by
  unfold partSettings
  split
  · refine .done ?_
    split
    · exact .refl s.lu
    · exact Told.swapTests (.refl s.lu)
  · exact .refused rfl

theorem layoutSet_sound (p : List Byte) (s : State) : BodySound s (layoutSet p s) := by
  unfold layoutSet
  split
  · exact .guard rfl fun _ => .guard rfl fun _ => .guard rfl fun _ => .guard rfl fun _ => .guard rfl fun _ =>
      .done ((Told.refl s.lu).loadLayout _)
  · exact .refused rfl

theorem stationNotice_lu (s : State) (old : Option Station) (new : Station) :
    (s.stationNotice old new).lu = s.lu := by
  unfold State.stationNotice
  split <;> rfl

theorem setStation_sound (place : Nat) (x : StationFields) (s : State) : BodySound s (setStation place x s) := by
  unfold setStation
  refine .guard rfl fun _ => ?_
  split
  · exact .refused rfl
  · exact .guard rfl fun _ => .guard rfl fun _ => .guard rfl fun _ => .guard rfl fun _ =>
      .quiet (stationNotice_lu _ _ _)

theorem stationSet_sound (p : List Byte) (s : State) : BodySound s (stationSet p s) := by
  unfold stationSet
  split
  · split
    · exact .refused rfl
    · exact setStation_sound _ _ s
  · exact .refused rfl

theorem setChute_sound (place : Nat) (x : ChuteFields) (s : State) : BodySound s (setChute place x s) := by
  unfold setChute
  refine .guard rfl fun _ => ?_
  split
  · exact .refused rfl
  · refine .guard rfl fun _ => .guard rfl fun _ => .guard rfl fun _ => .guard rfl fun _ => .done ?_
    split
    · exact Told.reportChute (by exact .refl s.lu) _ _
    · exact .refl s.lu

theorem chuteSet_sound (p : List Byte) (s : State) : BodySound s (chuteSet p s) := by
  unfold chuteSet
  split
  · split
    · exact setChute_sound _ _ s
    · exact .refused rfl
  · exact .refused rfl

theorem chuteService_sound (p : List Byte) (s : State) : BodySound s (chuteService p s) := by
  unfold chuteService
  split
  · split
    · exact .refused rfl
    · exact .refused rfl
    · refine .guard rfl fun _ => ?_
      split
      · exact .refused rfl
      · exact .done ((Told.refl s.lu).setAvail _ _ _ _)
  · exact .refused rfl

theorem bindGroup_sound (n g : Nat) (h : Chute) (s : State) : BodySound s (bindGroup n g h s) := by
  unfold bindGroup
  split
  · exact .refused rfl
  · exact .guard rfl fun _ => .guard rfl fun _ => .done ((Told.refl s.lu).bindTo _ _ _)

theorem chuteBind_sound (p : List Byte) (s : State) : BodySound s (chuteBind p s) := by
  unfold chuteBind
  split
  · next chute group =>
    refine .guard rfl fun _ => ?_
    split
    · exact .refused rfl
    · next h _ =>
      refine .guard rfl fun _ => .guard rfl fun _ => ?_
      by_cases hsame : h.bound = group.toNat
      · rw [if_pos hsame]
        exact .quiet rfl
      · rw [if_neg hsame]
        refine .guard rfl fun _ => ?_
        by_cases hzero : group = 0
        · rw [if_pos hzero]
          exact .done ((Told.refl s.lu).unbind _ _)
        · rw [if_neg hzero]
          exact bindGroup_sound _ _ h s
  · exact .refused rfl

theorem groupDelete_sound (p : List Byte) (s : State) : BodySound s (groupDelete p s) := by
  unfold groupDelete
  split
  · refine .guard rfl fun _ => ?_
    split
    · exact .refused rfl
    · exact .guard rfl fun _ =>
        .done (Told.fold State.rehome (fun u x => (Told.refl u.lu).rehome x) _ (by exact .refl s.lu))
  · exact .refused rfl

theorem sailingOpen_sound (n : Nat) (v : Sailing) (s : State) : BodySound s (sailingOpen n v s) :=
  .gate rfl fun _ => .quiet rfl

theorem sailingFinal_sound (n : Nat) (v : Sailing) (s : State) : BodySound s (sailingFinal n v s) :=
  .gate rfl fun _ => .done (Told.fold _ (fun u id => (Told.refl u.lu).forceClose id _) _ (by exact .refl s.lu))

theorem sailingState_sound (p : List Byte) (s : State) : BodySound s (sailingState p s) := by
  unfold sailingState
  split
  · split
    · split
      · next hslot => exact .refused (namedSlot_refusal hslot)
      · exact sailingOpen_sound _ _ s
    · split
      · next hslot => exact .refused (namedSlot_refusal hslot)
      · exact sailingFinal_sound _ _ s
    · exact .refused rfl
  · exact .refused rfl

theorem regionInit_sound (p : List Byte) (s : State) : BodySound s (regionInit p s) := by
  unfold regionInit
  split
  · split
    · next hslot => exact .refused (namedSlot_refusal hslot)
    · exact .gate rfl fun _ => .done (((Told.refl s.lu).startLong _ _).same (State.putSailing_lu _ _ _))
  · exact .refused rfl

theorem sailingClose_sound (p : List Byte) (s : State) : BodySound s (sailingClose p s) := by
  unfold sailingClose
  split
  · split
    · next hslot => exact .refused (namedSlot_refusal hslot)
    · exact .gate rfl fun _ => .done (((Told.refl s.lu).startLong _ _).same (State.putSailing_lu _ _ _))
  · exact .refused rfl

theorem planCommit_sound (p : List Byte) (s : State) : BodySound s (planCommit p s) := by
  unfold planCommit
  split
  · split
    · next hslot => exact .refused (namedSlot_refusal hslot)
    · exact .done ((Told.refl s.lu).startLong _ _)
  · exact .refused rfl

theorem issueFrom_lu (es : List NewEntry) (s : State) (m : Nat) : (s.issueFrom m es).lu = s.lu := by
  induction es generalizing s m with
  | nil => rfl
  | cons e es ih => exact ih _ _

theorem putEntries_sound (s : State) (slot first : Nat) (es : List NewEntry) :
    BodySound s (s.putEntries slot first es) := by
  unfold State.putEntries
  split
  · next hslot => exact .refused (namedSlot_refusal hslot)
  · exact .guard rfl fun _ => .guard rfl fun _ => .guard rfl fun _ => .quiet (issueFrom_lu _ _ _)

theorem entryPut_sound (p : List Byte) (s : State) : BodySound s (entryPut p s) := by
  unfold entryPut
  split
  · split
    · exact .refused rfl
    · exact .guard rfl fun _ => .guard rfl fun _ => putEntries_sound s _ _ _
  · exact .refused rfl

theorem changeCabin_sound (s : State) (slot : Nat) (v : Sailing) (m cabin : Nat) (reissue : Bool) :
    BodySound s (s.changeCabin slot v m cabin reissue) := by
  unfold State.changeCabin
  refine .guard rfl fun _ => ?_
  split
  · exact .refused rfl
  · exact .refused rfl
  · exact .refused rfl
  · exact .guard rfl fun _ => .guard rfl fun _ => .done (Told.reresolve (by exact .refl s.lu) _ _ _ _)

theorem cabinChange_sound (p : List Byte) (s : State) : BodySound s (cabinChange p s) := by
  unfold cabinChange
  split
  · split
    · next hedit => exact .refused (editEntry_refusal hedit)
    · exact changeCabin_sound s _ _ _ _ _
  · exact .refused rfl

theorem writeHold_sound (s : State) (slot : Nat) (v : Sailing) (m reason : Nat) :
    BodySound s (s.writeHold slot v m reason) :=
  .guard rfl fun _ => .done (Told.reresolve (by exact .refl s.lu) _ _ _ _)

theorem holdSet_sound (p : List Byte) (s : State) : BodySound s (holdSet p s) := by
  unfold holdSet
  split
  · split
    · next hedit => exact .refused (editEntry_refusal hedit)
    · exact .guard rfl fun _ => writeHold_sound s _ _ _ _
  · exact .refused rfl

theorem holdClear_sound (p : List Byte) (s : State) : BodySound s (holdClear p s) := by
  unfold holdClear
  split
  · split
    · next hedit => exact .refused (editEntry_refusal hedit)
    · exact writeHold_sound s _ _ _ _
  · exact .refused rfl

theorem withdrawEntry_sound (s : State) (slot m : Nat) : BodySound s (s.withdrawEntry slot m) := by
  unfold State.withdrawEntry
  dsimp only
  split
  · exact .refused rfl
  · exact .refused rfl
  · exact .guard rfl fun _ => .done ((Told.refl s.lu).withdrawBag _ _ _)
  · exact .done ((Told.refl s.lu).withdrawBag _ _ _)
  · exact .guard rfl fun _ => .done ((Told.refl s.lu).withdrawStray _ _)
  · exact .quiet rfl
  · exact .quiet rfl

theorem withdraw_sound (p : List Byte) (s : State) : BodySound s (withdraw p s) := by
  unfold withdraw
  split
  · split
    · next hedit => exact .refused (editEntry_refusal hedit)
    · exact withdrawEntry_sound s _ _
  · exact .refused rfl

theorem strayClose_sound (p : List Byte) (s : State) : BodySound s (strayClose p s) := by
  unfold strayClose
  split
  · split
    · exact .refused rfl
    · refine .guard rfl fun _ => ?_
      split
      · exact .refused rfl
      · exact .guard rfl fun _ => .guard rfl fun _ => .done ((Told.refl s.lu).finishStray _ _ _)
  · exact .refused rfl

theorem cartClose_sound (p : List Byte) (s : State) : BodySound s (cartClose p s) := by
  unfold cartClose
  split
  · refine .guard rfl fun _ => ?_
    split
    · exact .refused rfl
    · split
      · exact .refused rfl
      · exact .refused rfl
      · exact .done ((Told.refl s.lu).forceClose _ _)
      · exact .done ((Told.refl s.lu).forceClose _ _)
  · exact .refused rfl

theorem status_sound (p : List Byte) (s : State) : BodySound s (status p s) := by
  unfold status
  split
  · exact .guard rfl fun _ => .done (.silent rfl rfl)
  · exact .refused rfl

/-! The bodies that read, or write tables and settings alone -/

theorem sortMode_sound (p : List Byte) (s : State) : BodySound s (sortMode p s) := by
  unfold sortMode
  split
  · split
    · exact .refused rfl
    · exact .guard rfl fun _ => .quiet rfl
  · exact .refused rfl

theorem massLimits_sound (p : List Byte) (s : State) : BodySound s (massLimits p s) := by
  unfold massLimits
  split
  · exact .guard rfl fun _ => .quiet rfl
  · exact .refused rfl

theorem trayRead_sound (p : List Byte) (s : State) : BodySound s (trayRead p s) := by
  unfold trayRead
  split
  · split
    · exact .refused rfl
    · exact .guard rfl fun _ => .quiet rfl
  · exact .refused rfl

theorem chuteRead_sound (p : List Byte) (s : State) : BodySound s (chuteRead p s) := by
  unfold chuteRead
  split
  · exact .guard rfl fun _ => .quiet rfl
  · exact .refused rfl

theorem setGroup_sound (group slot deck zone count mass : Nat) (s : State) :
    BodySound s (setGroup group slot deck zone count mass s) := by
  unfold setGroup
  split
  · next hslot => exact .refused (namedSlot_refusal hslot)
  · refine .guard rfl fun _ => ?_
    split
    · exact .quiet rfl
    · exact .guard rfl fun _ => .guard rfl fun _ => .quiet rfl

theorem groupSet_sound (p : List Byte) (s : State) : BodySound s (groupSet p s) := by
  unfold groupSet
  split
  · exact .gate rfl fun _ => setGroup_sound _ _ _ _ _ _ s
  · exact .refused rfl

theorem groupRead_sound (p : List Byte) (s : State) : BodySound s (groupRead p s) := by
  unfold groupRead
  split
  · exact .guard rfl fun _ => .quiet rfl
  · exact .refused rfl

theorem sailingDefine_sound (p : List Byte) (s : State) : BodySound s (sailingDefine p s) := by
  unfold sailingDefine
  split
  · exact .guard rfl fun _ => .guard rfl fun _ => .guard rfl fun _ => .guard rfl fun _ => .guard rfl fun _ =>
      .quiet rfl
  · exact .refused rfl

theorem putBlock_sound (slot : Nat) (v : Sailing) (x : Block) (s : State) :
    BodySound s (putBlock slot v x s) := by
  unfold putBlock
  split
  · exact .quiet rfl
  · exact .guard rfl fun _ => .guard rfl fun _ => .quiet rfl

theorem blockPut_sound (p : List Byte) (s : State) : BodySound s (blockPut p s) := by
  unfold blockPut
  split
  · split
    · next hslot => exact .refused (namedSlot_refusal hslot)
    · exact .guard rfl fun _ => .guard rfl fun _ => putBlock_sound _ _ _ s
  · exact .refused rfl

theorem blockDelete_sound (p : List Byte) (s : State) : BodySound s (blockDelete p s) := by
  unfold blockDelete
  split
  · split
    · next hslot => exact .refused (namedSlot_refusal hslot)
    · exact .guard rfl fun _ => .guard rfl fun _ => .gate rfl fun _ => .quiet rfl
  · exact .refused rfl

theorem planClear_sound (p : List Byte) (s : State) : BodySound s (planClear p s) := by
  unfold planClear
  split
  · split
    · next hslot => exact .refused (namedSlot_refusal hslot)
    · exact .guard rfl fun _ => .quiet rfl
  · exact .refused rfl

theorem entryRead_sound (p : List Byte) (s : State) : BodySound s (entryRead p s) := by
  unfold entryRead
  split
  · split
    · next hread => exact .refused (readEntry_refusal hread)
    · exact .quiet rfl
  · exact .refused rfl

theorem classSet_sound (p : List Byte) (s : State) : BodySound s (classSet p s) := by
  unfold classSet
  split
  · split
    · exact .refused rfl
    · exact .guard rfl fun _ => .guard rfl fun _ => .guard rfl fun _ => .quiet rfl
  · exact .refused rfl

theorem strayRead_sound (p : List Byte) (s : State) : BodySound s (strayRead p s) := by
  unfold strayRead
  split
  · split
    · exact .refused rfl
    · exact .quiet rfl
  · exact .refused rfl

theorem queueRead_sound (p : List Byte) (s : State) : BodySound s (queueRead p s) := by
  unfold queueRead
  split
  · exact .quiet rfl
  · exact .refused rfl

theorem cartRead_sound (p : List Byte) (s : State) : BodySound s (cartRead p s) := by
  unfold cartRead
  split
  · exact .guard rfl fun _ => .quiet rfl
  · exact .refused rfl

theorem stepPut_sound (p : List Byte) (s : State) : BodySound s (stepPut p s) := by
  unfold stepPut
  split
  · split
    · next hslot => exact .refused (namedSlot_refusal hslot)
    · refine .guard rfl fun _ => .guard rfl fun _ => .guard rfl fun _ => ?_
      split
      · exact .refused rfl
      · exact .guard rfl fun _ => .quiet rfl
  · exact .refused rfl

theorem stepClear_sound (p : List Byte) (s : State) : BodySound s (stepClear p s) := by
  unfold stepClear
  split
  · split
    · next hslot => exact .refused (namedSlot_refusal hslot)
    · refine .guard rfl fun _ => .guard rfl fun _ => .guard rfl fun _ => ?_
      split
      · exact .quiet rfl
      · exact .quiet rfl
  · exact .refused rfl

theorem startSeq_sound (slot first : Nat) (mode : SeqMode) (divisor period : Nat) (s : State) :
    BodySound s (startSeq slot first mode divisor period s) := by
  unfold startSeq
  split
  · next hslot => exact .refused (namedSlot_refusal hslot)
  · exact .guard rfl fun _ => .guard rfl fun _ => .guard rfl fun _ => .guard rfl fun _ => .quiet rfl

theorem seqStart_sound (p : List Byte) (s : State) : BodySound s (seqStart p s) := by
  unfold seqStart
  split
  · split
    · exact .refused rfl
    · exact startSeq_sound _ _ _ _ _ s
  · exact .refused rfl

theorem seqStop_sound (p : List Byte) (s : State) : BodySound s (seqStop p s) := by
  unfold seqStop
  split
  · split
    · next hslot => exact .refused (namedSlot_refusal hslot)
    · exact .quiet rfl
  · exact .refused rfl

/-! Every body -/

/-- Every command's body refuses with a code other than OK or sends reports alone (R168, R175, R176). -/
theorem bodyOf_sound (c : Instr) (s : State) : BodySound s (bodyOf c s) := by
  cases c with
  | status src p => exact status_sound p s
  | setClock src p => exact setClock_sound p s
  | partSettings src p => exact partSettings_sound p s
  | layoutSet src p => exact layoutSet_sound p s
  | stationSet src p => exact stationSet_sound p s
  | chuteSet src p => exact chuteSet_sound p s
  | chuteService src p => exact chuteService_sound p s
  | chuteBind src p => exact chuteBind_sound p s
  | chuteUnbind src p => exact chuteBind_sound p s
  | groupDelete src p => exact groupDelete_sound p s
  | sailingStateOpen src p => exact sailingState_sound p s
  | sailingStateFinal src p => exact sailingState_sound p s
  | regionInit src p => exact regionInit_sound p s
  | sailingClose src p => exact sailingClose_sound p s
  | planCommit src p => exact planCommit_sound p s
  | entryPut src p => exact entryPut_sound p s
  | cabinChange src p => exact cabinChange_sound p s
  | holdSet src p => exact holdSet_sound p s
  | holdClear src p => exact holdClear_sound p s
  | withdraw src p => exact withdraw_sound p s
  | strayClose src p => exact strayClose_sound p s
  | cartClose src p => exact cartClose_sound p s
  | sortMode src p => exact sortMode_sound p s
  | massLimits src p => exact massLimits_sound p s
  | trayRead src p => exact trayRead_sound p s
  | chuteRead src p => exact chuteRead_sound p s
  | groupSet src p => exact groupSet_sound p s
  | groupRead src p => exact groupRead_sound p s
  | sailingDefine src p => exact sailingDefine_sound p s
  | blockPut src p => exact blockPut_sound p s
  | blockDelete src p => exact blockDelete_sound p s
  | planClear src p => exact planClear_sound p s
  | entryRead src p => exact entryRead_sound p s
  | classSet src p => exact classSet_sound p s
  | strayRead src p => exact strayRead_sound p s
  | queueRead src p => exact queueRead_sound p s
  | cartRead src p => exact cartRead_sound p s
  | stepPut src p => exact stepPut_sound p s
  | stepClear src p => exact stepClear_sound p s
  | seqStart src p => exact seqStart_sound p s
  | seqStop src p => exact seqStop_sound p s
  | _ => exact .refused rfl

/-! The reply (R166, R175, R176) -/

theorem code_range (h : Code.refuses code = true) :
    1 ≤ (BitVec.ofNat 8 code.ctorIdx).toNat ∧ (BitVec.ofNat 8 code.ctorIdx).toNat ≤ 7 := by
  cases code with
  | ok => exact absurd h Bool.false_ne_true
  | _ => decide

/-- What a command frame that has a reply place answers, RESTART of good form apart: a refusal by a code 1 to 7,
or the reports of its body and then its reply. -/
theorem exec_command_answers (hc : commandOf c = some f) (hkind : badKindOk c)
    (hform : ¬(f.kind = 0x42 ∧ f.payload = [])) (hs : s.supReady) :
    (∃ code : Code, Code.refuses code = true
        ∧ exec c s = .next (s.answer f.src (f.kind ||| 0x80) (BitVec.ofNat 8 code.ctorIdx) []))
      ∨ f.kind ≠ 0x42 ∧ ∃ (t : State) (fields : List Byte), Told s.lu t.lu
        ∧ exec c s = .next (t.answer f.src (f.kind ||| 0x80) 0 fields) := by
  have hexec := exec_command (s := s) hc hkind hform
  have hsound := bodyOf_sound c s
  cases hb : bodyOf c s with
  | error code =>
    rw [hb] at hsound
    exact .inl ⟨code, hsound, PlansAndBindings.exec_refused hexec hs hb⟩
  | ok r =>
    obtain ⟨t, fields⟩ := r
    rw [hb] at hsound
    refine .inr ⟨fun hf => ?_, t, fields, hsound,
      PlansAndBindings.exec_accepted hexec hs hb (hsound.place hs.2)⟩
    rw [eq_restart hc hkind hf] at hb
    cases hb

/-- Settles O13: a RESTART of good form answers alone from the emptied queue; any other command is refused with a
code, or its body's reports stand before its reply. -/
theorem everyCommandTakenIsAnsweredOnce : Obligations.EveryCommandTakenIsAnsweredOnce := by
  intro c f s hwf hc hs
  have hkind := badKindOk_of_wellFormed hwf
  by_cases hform : f.kind = 0x42 ∧ f.payload = []
  · obtain ⟨hf, hp⟩ := hform
    obtain ⟨t, fields, hexec, hq⟩ := commandWithoutReplyPlaceIsNotTaken.2 f.src s hs.1
    rw [eq_restart hc hkind hf, hp]
    refine ⟨t, hexec, .inr ⟨[], fields, ?_, fun _ => rfl, nofun⟩⟩
    rw [hq, hf]
    rfl
  · rcases exec_command_answers hc hkind hform hs with ⟨code, hcode, hexec⟩ | ⟨hf, t, fields, htold, hexec⟩
    · exact ⟨_, hexec, .inl ⟨_, (code_range hcode).1, (code_range hcode).2, rfl⟩⟩
    · obtain ⟨added, hq, hreports⟩ := htold.queue
      refine ⟨_, hexec, .inr ⟨added, fields, ?_, fun h => absurd h hf, hreports⟩⟩
      rw [if_neg hf, ← hq, ← htold.node]
      rfl

end Sys2Proof.Machine.HallLine
end

section
/-! SUPPORT and the statements on what the line drops, forwards and sends: nothing before a first idle, bad runs
counted, other nodes' frames forwarded, mismatched field frames reported. -/

namespace Sys2Proof.Machine.HallLine

variable {c : Instr} {s : State} {src kind : Byte} {p : List Byte}

/-! A field frame and its two tests (R167) -/

/-- What is asked of a field frame before its owner has it: is its source configured to send its kind, and is its
payload of the kind's length. -/
structure FieldFrame where
  src : Byte
  kind : Byte
  payload : List Byte
  configured : Bool
  goodLength : Bool

/-- A frame of a station. -/
def stationFieldFrame (s : State) (src kind : Byte) (p : List Byte) (good : Bool) : FieldFrame :=
  ⟨src, kind, p, (s.stationOfNode src).isSome, good⟩

/-- A frame of a chute's panel, of the chutes that a test admits. -/
def panelFieldFrame (s : State) (src kind : Byte) (p : List Byte) (len : Nat) (taken : Chute → Bool) :
    FieldFrame :=
  ⟨src, kind, p, (s.chuteOfPanel src).any (fun r => taken r.2), p.length == len⟩

/-- A frame of a door node. -/
def doorFieldFrame (s : State) (src kind : Byte) (p : List Byte) (len : Nat) : FieldFrame :=
  ⟨src, kind, p, s.isDoor src, p.length == len⟩

/-- The field frame an instruction stands for, of the kinds that the processor takes from the field (9.4.1). -/
def fieldFrameOf (s : State) : Instr → Option FieldFrame
  | .inductionReport src p =>
    some (stationFieldFrame s src 0x10 p (readCountAbove2 p || (InductionFields.parse p).isSome))
  | .launched src p => some (stationFieldFrame s src 0x11 p (p.length == 2))
  | .launchFailed src p => some (stationFieldFrame s src 0x12 p (p.length == 2))
  | .bagRemoved src p => some (stationFieldFrame s src 0x13 p (p.length == 1))
  | .encodeTaken src p => some ⟨src, 0x14, p, s.isEncodeNode src, p.length == 2⟩
  | .dropSeen src p => some (panelFieldFrame s src 0x18 p 2 (fun _ => true))
  | .tiltFault src p => some (panelFieldFrame s src 0x19 p 2 (fun _ => true))
  | .chuteBlocked src p => some (panelFieldFrame s src 0x1A p 0 (fun _ => true))
  | .chuteClear src p => some (panelFieldFrame s src 0x1B p 0 (fun _ => true))
  | .cartPlaced src p => some (panelFieldFrame s src 0x1C p 0 (fun h => decide (h.role = .sort)))
  | .liftReady src p => some (doorFieldFrame s src 0x1D p 0)
  | .cartAboard src p => some (doorFieldFrame s src 0x1E p 1)
  | .cartRefused src p => some (doorFieldFrame s src 0x1F p 1)
  | _ => none

variable {f : FieldFrame}

/-- Every such frame is taken by `State.takeField` with its two tests. -/
theorem exec_fieldFrame (hf : fieldFrameOf s c = some f) : ∃ owner,
    exec c s = .next (s.takeField f.src f.kind f.payload f.configured f.goodLength owner) := by
  cases c <;> cases hf
  all_goals
    dsimp only [exec, execInductionReport, execLaunched, execLaunchFailed, execBagRemoved, execEncodeTaken,
      execDropSeen, execTiltFault, execChuteBlocked, execChuteClear, execCartPlaced, execLiftReady,
      execCartAboard, execCartRefused, State.inductionFrame, State.launchedFrame, State.launchFailedFrame,
      State.bagRemovedFrame, State.encodeTakenFrame, State.dropSeenFrame, State.tiltFaultFrame,
      State.chuteBlockedFrame, State.chuteClearFrame, State.cartPlacedFrame, State.liftReadyFrame,
      State.cartAboardFrame, State.cartRefusedFrame, State.stationFrame, State.panelFrame, State.doorFrame]
    exact ⟨_, rfl⟩

theorem fieldMismatch_room (h : s.lu.supTx.queue.length < 60) (cause : MismatchCause) (len : Nat) :
    s.fieldMismatch src kind cause len
      = s.tell 0x2F ([src, kind, BitVec.ofNat 8 cause.ctorIdx] ++ b1 len ++ b4 s.lu.clock) :=
  s.report_room _ _ h

variable {configured good : Bool}

/-- A frame from a source not configured for its kind is reported NOT_CONFIGURED. -/
theorem exec_notConfigured (hf : fieldFrameOf s c = some ⟨src, kind, p, configured, good⟩) (hs : s.fldReady src)
    (hq : s.lu.supTx.queue.length < 60) (h : configured = false) :
    exec c s = .next (s.tell 0x2F ([src, kind, 1] ++ b1 p.length ++ b4 s.lu.clock)) := by
  obtain ⟨owner, hexec⟩ := exec_fieldFrame hf
  rw [hexec, h, State.takeField_stranger _ _ _ _ _ _ hs, fieldMismatch_room hq]
  rfl

/-- A frame of another length from a configured source is reported BAD_FORM. -/
theorem exec_fieldBadForm (hf : fieldFrameOf s c = some ⟨src, kind, p, configured, good⟩) (hs : s.fldReady src)
    (hq : s.lu.supTx.queue.length < 60) (h : configured = true) (hlen : good = false) :
    exec c s = .next (s.tell 0x2F ([src, kind, 2] ++ b1 p.length ++ b4 s.lu.clock)) := by
  obtain ⟨owner, hexec⟩ := exec_fieldFrame hf
  rw [hexec, h, hlen, State.takeField_badForm _ _ _ _ _ hs, fieldMismatch_room hq]
  rfl

/-! Before the first idle (R174) -/

theorem exec_fieldFrame_waiting (hf : fieldFrameOf s c = some f) (h : s.lu.fldRx.awaitIdle = true) :
    exec c s = .next s := by
  obtain ⟨owner, hexec⟩ := exec_fieldFrame hf
  rw [hexec, State.takeField, if_pos h]

theorem unknownKind_waiting (h : s.lu.fldRx.awaitIdle = true) : s.unknownKind src kind p = s :=
  if_pos (.inr (.inl h))

theorem frameCheck_waiting {port : Port} {rx : RxRun} (h : (s.rx port).awaitIdle = true) :
    s.frameCheck port rx = s := by
  simp only [State.frameCheck, State.checkFails, h, Bool.not_true, Bool.false_and, Bool.false_eq_true, if_false]

theorem forward_waiting {port : Port} {f : Frame} (h : (s.rx port).awaitIdle = true) : s.forward port f = s :=
  if_pos (.inl h)

theorem badKind_waiting (h : s.lu.supRx.awaitIdle = true) : s.badKind src kind = s := by
  unfold State.badKind
  split
  · rfl
  · exact s.takeCommand_waiting src kind _ h

theorem restartFrame_waiting (h : s.lu.supRx.awaitIdle = true) : s.restartFrame src p = s := by
  by_cases hp : p = []
  · rw [State.restartFrame, if_pos hp, if_pos h]
  · rw [State.restartFrame, if_neg hp, s.takeCommand_waiting src 0x42 _ h]

theorem exec_command_waiting {f : CommandFrame} (hc : commandOf c = some f) (h : s.lu.supRx.awaitIdle = true) :
    exec c s = .next s := by
  by_cases hkind : badKindOk c
  · by_cases hform : f.kind = 0x42 ∧ f.payload = []
    · rw [eq_restart hc hkind hform.1]
      exact congrArg Host.Outcome.next (restartFrame_waiting h)
    · rw [exec_command hc hkind hform, s.takeCommand_waiting _ _ _ h]
  · simp only [badKindOk, not_forall] at hkind
    obtain ⟨src, kind, p, rfl, -⟩ := hkind
    exact congrArg Host.Outcome.next (badKind_waiting h)

/-- What arrives on a port: a command on the Supervisor port, a field frame on the Field port, or on either a bad
run, a frame to forward or, on the Field port, a frame of no kind. -/
theorem portOf_cases {port : Port} (hc : portOf c = some port) :
    (port = .supervisor ∧ ∃ f, commandOf c = some f) ∨ (port = .field ∧ ∃ f, fieldFrameOf s c = some f)
      ∨ (∃ rx, c = .frameCheckFailed port rx) ∨ (∃ f, c = .frameForward port f)
      ∨ port = .field ∧ ∃ src kind p, c = .unknownKind src kind p := by
  cases c with
  | frameCheckFailed port' rx =>
    cases hc
    exact .inr (.inr (.inl ⟨rx, rfl⟩))
  | frameForward port' f =>
    cases hc
    exact .inr (.inr (.inr (.inl ⟨f, rfl⟩)))
  | unknownKind src kind p =>
    cases hc
    exact .inr (.inr (.inr (.inr ⟨rfl, src, kind, p, rfl⟩)))
  | _ =>
    cases hc
    all_goals first
      | exact .inl ⟨rfl, _, rfl⟩
      | exact .inr (.inl ⟨rfl, _, rfl⟩)

/-- Settles O11: each frame and each bad run asks first whether its port still waits. -/
theorem nothingIsTakenBeforeFirstIdle : Obligations.NothingIsTakenBeforeFirstIdle := by
  refine ⟨fun c port s hc h => ?_, fun s => rfl, fun s => rfl⟩
  rcases portOf_cases (s := s) hc with
    ⟨rfl, f, hf⟩ | ⟨rfl, f, hf⟩ | ⟨rx, rfl⟩ | ⟨f, rfl⟩ | ⟨rfl, src, kind, p, rfl⟩
  · exact exec_command_waiting hf h
  · exact exec_fieldFrame_waiting hf h
  · exact congrArg Host.Outcome.next (frameCheck_waiting h)
  · exact congrArg Host.Outcome.next (forward_waiting h)
  · exact congrArg Host.Outcome.next (unknownKind_waiting h)

/-! Bad runs, forwarding and sending (R164, R165, R168, R169, R171) -/

theorem frameCheck_counted {port : Port} {rx : RxRun} (hrun : rx.bytes ≠ []) (hbad : goodRun rx = false)
    (hidle : (s.rx port).awaitIdle = false) : exec (.frameCheckFailed port rx) s = .next (s.setRx port
      { awaitIdle := false, errors := min ((s.rx port).errors + 1) 65535, errorFlag := true }) := by
  rw [← hidle]
  exact congrArg Host.Outcome.next (frameCheck_bad hidle hrun hbad)

theorem forward_own {port : Port} {f : Frame} (h : f.dst = s.lu.node) : s.forward port f = s :=
  if_pos (.inr (.inl h))

theorem forward_up {f : Frame} (hlen : f.payload.length ≤ 56) (hdst : f.dst ≠ s.lu.node)
    (hidle : s.lu.fldRx.awaitIdle = false) :
    s.forward .field f = if s.lu.supTx.queue.length < 60 then s.supSend f else s.setOverrun := by
  have hpass : ¬((s.rx .field).awaitIdle = true ∨ f.dst = s.lu.node ∨ Config.maxPayload < f.payload.length) := by
    simp only [State.rx, hidle, hdst, Bool.false_eq_true, false_or]
    exact Nat.not_lt.2 hlen
  exact if_neg hpass

theorem forward_down {f : Frame} (hlen : f.payload.length ≤ 56) (hdst : f.dst ≠ s.lu.node)
    (hidle : s.lu.supRx.awaitIdle = false) :
    s.forward .supervisor f = if s.lu.fldTx.queue.length < 24 then s.fldSend f else s.setOverrun := by
  have hpass : ¬((s.rx .supervisor).awaitIdle = true ∨ f.dst = s.lu.node
      ∨ Config.maxPayload < f.payload.length) := by
    simp only [State.rx, hidle, hdst, Bool.false_eq_true, false_or]
    exact Nat.not_lt.2 hlen
  exact if_neg hpass

theorem Transmitter.sent_eq (x : Transmitter) : x.sent
    = match x.completing with
      | some _ => { x with completing := none }
      | none => { x with queue := x.queue.tail } := by
  cases hx : x.completing <;> simp [Transmitter.sent, hx, List.drop_one]

/-! Which sources are configured (R130, R156, R167) -/

theorem stationOfNode_isSome_iff : (s.stationOfNode src).isSome = true ↔ ∃ r ∈ s.stations, r.2.node = src := by
  simp only [State.stationOfNode, List.find?_isSome, beq_iff_eq]

theorem isEncodeNode_iff :
    s.isEncodeNode src = true ↔ ∃ r ∈ s.stations, r.2.node = src ∧ r.2.kind = .encode := by
  simp only [State.isEncodeNode, List.any_eq_true, Bool.and_eq_true, beq_iff_eq, decide_eq_true_eq]

theorem isDoor_iff : s.isDoor src = true ↔ ∃ r ∈ s.sailings, r.2.door = src ∧ r.2.state ≠ .staged := by
  simp only [State.isDoor, Sailing.doorInUse, List.any_eq_true, Bool.and_eq_true, beq_iff_eq, decide_eq_true_eq,
    and_comm]

theorem chuteOfPanel_isSome_iff : (s.chuteOfPanel src).isSome = true ↔ ∃ r ∈ s.chutes, r.2.node = src := by
  simp only [State.chuteOfPanel, List.find?_isSome, beq_iff_eq]

theorem panelTaken_iff :
    (s.chuteOfPanel src).any (fun _ => true) = true ↔ ∃ r ∈ s.chutes, r.2.node = src := by
  rw [← chuteOfPanel_isSome_iff]
  cases s.chuteOfPanel src <;> simp

/-- The chute of a panel is one of the chutes with its node. -/
theorem chuteOfPanel_mem {r : Nat × Chute} (h : s.chuteOfPanel src = some r) : r ∈ s.chutes ∧ r.2.node = src :=
  ⟨List.mem_of_find?_eq_some h, by simpa using List.find?_some h⟩

theorem sortPanel_eq_false (h : ∀ r ∈ s.chutes, r.2.node = src → r.2.role ≠ .sort) :
    (s.chuteOfPanel src).any (fun r => decide (r.2.role = .sort)) = false := by
  cases hr : s.chuteOfPanel src with
  | none => rfl
  | some r =>
    obtain ⟨hmem, hnode⟩ := chuteOfPanel_mem hr
    simpa using h r hmem hnode

theorem sortPanel_eq_true (hpanel : ∃ r ∈ s.chutes, r.2.node = src)
    (h : ∀ r ∈ s.chutes, r.2.node = src → r.2.role = .sort) :
    (s.chuteOfPanel src).any (fun r => decide (r.2.role = .sort)) = true := by
  obtain ⟨r, hr⟩ := Option.isSome_iff_exists.1 (chuteOfPanel_isSome_iff.2 hpanel)
  obtain ⟨hmem, hnode⟩ := chuteOfPanel_mem hr
  simpa [hr] using h r hmem hnode

/-! The length of an INDUCTION REPORT (9.4.1) -/

/-- A payload that is read has a read count of at most 2 and its length. -/
theorem length_of_parse {x : InductionFields} (h : InductionFields.parse p = some x) :
    ∃ n, p[8]? = some n ∧ p.length = 12 + 4 * n.toNat := by
  unfold InductionFields.parse at h
  split at h
  · exact ⟨0, rfl, rfl⟩
  · exact ⟨1, rfl, rfl⟩
  · exact ⟨2, rfl, rfl⟩
  · cases h

theorem inductionLength_bad
    (h : p[8]? = none ∨ ∃ n, p[8]? = some n ∧ n.toNat ≤ 2 ∧ p.length ≠ 12 + 4 * n.toNat) :
    (readCountAbove2 p || (InductionFields.parse p).isSome) = false := by
  have hcount : readCountAbove2 p = false := by
    rcases h with h | ⟨n, h, hn, -⟩
    · rw [readCountAbove2, h]
      rfl
    · rw [readCountAbove2, h]
      exact decide_eq_false (Nat.not_lt.2 hn)
  have hparse : InductionFields.parse p = none := by
    refine Option.eq_none_iff_forall_ne_some.2 fun x hx => ?_
    obtain ⟨m, hm, hlen⟩ := length_of_parse hx
    rcases h with h | ⟨n, h, -, hne⟩
    · cases hm.symm.trans h
    · cases hm.symm.trans h
      exact hne hlen
  rw [hcount, hparse]
  rfl

theorem unknownKind_reported (hs : s.fldReady src) (hq : s.lu.supTx.queue.length < 60)
    (h : isFieldKind kind = false) : s.unknownKind src kind p
      = s.tell 0x2F ([src, kind, 0] ++ b1 p.length ++ b4 s.lu.clock) := by
  obtain ⟨hidle, hpanel⟩ := hs
  simp only [State.unknownKind, h, hidle, hpanel, Bool.false_eq_true, or_self, if_false]
  exact fieldMismatch_room hq .unknownKind p.length

/-! The statement -/

/-- Settles O58: the receivers' counts, the two forwards by their places, the two transmitters, and each family of
field frames by its two tests. -/
theorem lineDropsForwardsAndSends : Obligations.LineDropsForwardsAndSends := by
  refine ⟨fun s rx hrun hbad => ⟨frameCheck_counted (port := .supervisor) hrun hbad,
      frameCheck_counted (port := .field) hrun hbad⟩,
    fun s f hlen => ⟨fun h port => congrArg Host.Outcome.next (forward_own h),
      fun h hidle => congrArg Host.Outcome.next (forward_up hlen h hidle),
      fun h hidle => congrArg Host.Outcome.next (forward_down hlen h hidle)⟩,
    fun s => ⟨?_, ?_⟩,
    fun s src kind p hs hq => ⟨fun h => congrArg Host.Outcome.next (unknownKind_reported hs hq h), ?_⟩⟩
  · exact congrArg (fun x => Host.Outcome.next { s with lu := { s.lu with supTx := x } }) (Transmitter.sent_eq _)
  · exact congrArg (fun x => Host.Outcome.next { s with lu := { s.lu with fldTx := x } }) (Transmitter.sent_eq _)
  intro mismatch station encode panel door
  have hlen : ∀ {n : Nat}, p.length ≠ n → (p.length == n) = false := beq_eq_false_iff_ne.2
  refine ⟨fun h => ?_, fun h hp => ?_, fun h => ⟨fun hp => ⟨?_, ?_⟩, fun hp => ?_⟩, fun h => ?_, fun h hp => ?_,
    fun h => ?_, fun h => ⟨fun hp => ⟨?_, ?_⟩, fun hp => ⟨?_, ?_⟩⟩, fun h => ?_, fun h hsort hp => ?_,
    fun h => ?_, fun h => ⟨fun hp => ?_, fun hp => ⟨?_, ?_⟩⟩⟩
  · have hcfg : (s.stationOfNode src).isSome = false := Bool.eq_false_iff.2 (mt stationOfNode_isSome_iff.1 h)
    simp only [List.forall_mem_cons]
    exact ⟨exec_notConfigured rfl hs hq hcfg, exec_notConfigured rfl hs hq hcfg,
      exec_notConfigured rfl hs hq hcfg, exec_notConfigured rfl hs hq hcfg, nofun⟩
  · exact exec_fieldBadForm rfl hs hq (stationOfNode_isSome_iff.2 h) (inductionLength_bad hp)
  · exact exec_fieldBadForm rfl hs hq (stationOfNode_isSome_iff.2 h) (hlen hp)
  · exact exec_fieldBadForm rfl hs hq (stationOfNode_isSome_iff.2 h) (hlen hp)
  · exact exec_fieldBadForm rfl hs hq (stationOfNode_isSome_iff.2 h) (hlen hp)
  · exact exec_notConfigured rfl hs hq (Bool.eq_false_iff.2 (mt isEncodeNode_iff.1 h))
  · exact exec_fieldBadForm rfl hs hq (isEncodeNode_iff.2 h) (hlen hp)
  · have hcfg : (s.chuteOfPanel src).any (fun _ => true) = false := Bool.eq_false_iff.2 (mt panelTaken_iff.1 h)
    simp only [List.forall_mem_cons]
    exact ⟨exec_notConfigured rfl hs hq hcfg, exec_notConfigured rfl hs hq hcfg,
      exec_notConfigured rfl hs hq hcfg, exec_notConfigured rfl hs hq hcfg, nofun⟩
  · exact exec_fieldBadForm rfl hs hq (panelTaken_iff.2 h) (hlen hp)
  · exact exec_fieldBadForm rfl hs hq (panelTaken_iff.2 h) (hlen hp)
  · exact exec_fieldBadForm rfl hs hq (panelTaken_iff.2 h) (hlen hp)
  · exact exec_fieldBadForm rfl hs hq (panelTaken_iff.2 h) (hlen hp)
  · exact exec_notConfigured rfl hs hq (sortPanel_eq_false h)
  · exact exec_fieldBadForm rfl hs hq (sortPanel_eq_true h hsort) (hlen hp)
  · have hcfg : s.isDoor src = false := Bool.eq_false_iff.2 (mt isDoor_iff.1 h)
    simp only [List.forall_mem_cons]
    exact ⟨exec_notConfigured rfl hs hq hcfg, exec_notConfigured rfl hs hq hcfg,
      exec_notConfigured rfl hs hq hcfg, nofun⟩
  · exact exec_fieldBadForm rfl hs hq (isDoor_iff.2 h) (hlen hp)
  · exact exec_fieldBadForm rfl hs hq (isDoor_iff.2 h) (hlen hp)
  · exact exec_fieldBadForm rfl hs hq (isDoor_iff.2 h) (hlen hp)

end Sys2Proof.Machine.HallLine
end

section
/-! SUPPORT and the statements on a step of the block and on the answer of STATUS. -/

namespace Sys2Proof.Machine.StepAndStatus

open PlansAndBindings HallLine

variable {s : State} {page : Byte}

/-! A step by the queue of waiting commands (R175, log entry 2) -/

theorem step_of_pending_cons {c : Instr} {rest : List Instr} (h : s.pending = c :: rest) :
    step s = exec c (s.withPending rest) := by
  simp only [step, h]

theorem step_of_pending_nil (h : s.pending = []) : step s = .next s := by
  simp only [step, h]

/-- Settles O1, by the queue: its front command on the rest, or no command. -/
theorem stepRunsFrontCommand : Obligations.StepRunsFrontCommand :=
  ⟨fun _ _ _ => step_of_pending_cons, fun _ => step_of_pending_nil⟩

/-! The pages of STATUS, byte by byte (R177) -/

theorem longFields_eq (s : State) : s.longFields
    = match s.cu.longOp with
      | none => [0, 0, 0, 0]
      | some o => b1 (1 + o.kind.ctorIdx) ++ b1 o.slot ++ b2 o.steps := by
  unfold State.longFields
  cases s.cu.longOp <;> rfl

theorem endFields_eq (s : State) : s.endFields
    = match s.cu.lastEnd with
      | none => [0, 0, 0, 0]
      | some e =>
        b1 (1 + e.kind.ctorIdx) ++ b1 e.slot ++ b1 e.outcome.ctorIdx ++ b1 e.reason.ctorIdx := by
  unfold State.endFields
  cases s.cu.lastEnd <;> rfl

theorem sailingFields_eq (v : Option Sailing) : sailingFields v
    = match v with
      | none => List.replicate 20 0
      | some v => b1 (1 + v.state.ctorIdx) ++ b1 v.key ++ b2 v.base ++ b2 v.length ++ bFlag v.ready
          ++ bFlag v.committed ++ [v.door] ++ b1 v.lapLimit ++ b2 v.tally ++ b1 v.seq.mode.ctorIdx
          ++ b1 v.seq.divisor ++ b2 v.seq.period ++ b1 v.seq.current ++ b1 v.seq.released
          ++ b1 v.seq.lifts ++ b1 v.steps.length := by
  cases v with
  | none => rfl
  | some v => simp only [sailingFields, sailingStateCode, b1_toNat]

/-- The page of the part, its groups of fields joined. -/
theorem partPage_eq (s : State) : s.partPage
    = [s.lu.node] ++ b4 s.lu.clock ++ b2 s.lu.supRx.errors ++ bFlag s.lu.supRx.errorFlag
      ++ b2 s.lu.fldRx.errors ++ bFlag s.lu.fldRx.errorFlag ++ bFlag s.lu.overrun
      ++ b1 s.lt.state.ctorIdx ++ b1 s.lt.mode.ctorIdx ++ b2 s.lt.pos ++ bInt s.lt.lastCorrection
      ++ bOpt 9 Layout.fields s.lt.layout
      ++ b2 s.cu.settings.lowerMass ++ b2 s.cu.settings.upperMass ++ b2 s.cu.settings.defaultCharge
      ++ b1 s.cu.settings.strayLapLimit ++ b2 s.cu.settings.swapLimit ++ s.longFields ++ s.endFields := by
  simp only [State.partPage, State.errorFields, Settings.fields, b1_toNat, List.append_assoc]

theorem statusPage_part (s : State) : s.statusPage (0 : Byte).toNat = s.partPage := rfl

theorem statusPage_slot {n : Nat} (h : 1 ≤ n) (s : State) :
    s.statusPage n = s.flagFields ++ sailingFields (Tbl.get s.sailings n) :=
  if_neg (Nat.one_le_iff_ne_zero.1 h)

/-! A page that is not there -/

theorem status_range (h : 4 < page.toNat) (s : State) : status [page] s = .error .range := by
  simp only [status, if_pos h]

theorem exec_status_range (src : Byte) (hs : s.supReady) (h : 4 < page.toNat) :
    exec (.status src [page]) s = .next (s.answer src 0xC0 3 []) :=
  exec_refused (kind := 0x40) rfl hs (status_range h s)

/-- Settles O29, by the page: the part, a sailing slot, or none. -/
theorem statusAnswersPageAndClearsFlags : Obligations.StatusAnswersPageAndClearsFlags := by
  intro s src page hs cleared
  refine ⟨fun h0 => ?_, fun h1 h4 => ?_, exec_status_range src hs⟩
  · rw [h0, exec_status_page src hs (by decide), statusPage_part, partPage_eq, longFields_eq, endFields_eq]
    rfl
  · rw [exec_status_page src hs h4, statusPage_slot h1, sailingFields_eq]
    rfl

end Sys2Proof.Machine.StepAndStatus
end
